-- ==== Sys2Proof/Word.lean ====
section
/-! DEFINITION. The word types of the block (00_scope.md R10, R11) and the named F constants of the rules. -/

namespace Sys2Proof

/-- A register, an operand field or a result word: 32 bits (10_state.md R20, 30_encoding.md R103). Read as an
unsigned number it is the spec's `U32`; `+` and `-` on it are modulo 2^32 (40_numerics.md R140). -/
abbrev U32 := BitVec 32

/-- A sample: the 32-bit pattern of an IEEE 754 binary32 value, sign in bit 31 (00_scope.md R11, 20_memory.md R77). -/
abbrev F := BitVec 32

/-- The command word of the port (30_encoding.md R100). -/
abbrev CommandWord := BitVec 128

/-- The name of one place where a NaN result may arise: the number of the input being taken, with the path of
the operation inside the command in front of it. Two different float operations of a run never have the
same name, so their NaN results are drawn independently (40_numerics.md R133; log 6). -/
abbrev Draw := List Nat

/-- `+0.0` (10_state.md R23). -/
abbrev F.zero : F := 0x00000000#32
/-- `1.0` (10_state.md R23). -/
abbrev F.one : F := 0x3F800000#32
/-- `-1.0`. -/
abbrev F.negOne : F := 0xBF800000#32
/-- `0.5`. -/
abbrev F.half : F := 0x3F000000#32
/-- `2.0`. -/
abbrev F.two : F := 0x40000000#32
/-- `-2.0`. -/
abbrev F.negTwo : F := 0xC0000000#32
/-- `0.75`, the reset value of an FDN's `RATIO` (10_state.md R38). -/
abbrev F.threeQuarters : F := 0x3F400000#32
/-- `TWO_PI` (00_scope.md R12). -/
abbrev F.twoPi : F := 0x40C90FDB#32
/-- `4294967296.0`, that is 2^32 (42_oscillator.md R191). -/
abbrev F.pow32 : F := 0x4F800000#32
/-- `F(0x30000000)`, that is 2^-31 (42_oscillator.md R195). -/
abbrev F.pow31Inv : F := 0x30000000#32

end Sys2Proof
end

