-- ==== Sys2Proof/Config.lean ====
section
/-! DEFINITION. The configuration record `Cfg` (00_scope.md R6), its suggested values, and the free values and functions
the spec leaves open (opaque constants: nothing evaluates them and no proof can see what they are). -/

namespace Sys2Proof

/-- The response types of the biquad, the first argument of `BQ_DESIGN` (41_biquad.md R162, R164 to R173). -/
inductive BqMode where
  | lp | hp | bp | notch | loshelf | hishelf | peak | ap | diff | onepole
  deriving DecidableEq, Repr

/-- The five coefficients a design function gives (00_scope.md R6, 41_biquad.md R162). -/
structure BqCoeffs where
  a0 : F
  a1 : F
  a2 : F
  b1 : F
  b2 : F
  deriving DecidableEq, Repr, Inhabited

/-- FREE VALUE (log 6): the sign (bit 22) and the payload (bits 21:0) of the NaN that arises at a place.
40_numerics.md R133: "a model takes them as a draw (any quiet NaN), and no claim may depend on them". -/
opaque Config.nanBits : Draw → BitVec 23

/-- The basic operations of two operands, fields of `Num` (40_numerics.md R131, R132). -/
inductive BinaryOp where
  | add | sub | mul | div
  deriving DecidableEq, Repr

/-- The basic operations of one operand, fields of `Num` (40_numerics.md R131, R132). -/
inductive UnaryOp where
  | sqrt | abs | neg | floor
  deriving DecidableEq, Repr

/-- FREE FUNCTION (log 12): a basic operation of two operands in a configuration that does not take binary32
(40_numerics.md R131; the number names the configuration's arithmetic). -/
opaque Config.otherBinary : Nat → BinaryOp → F → F → F

/-- FREE FUNCTION (log 12): a basic operation of one operand in a configuration that does not take binary32
(40_numerics.md R131). -/
opaque Config.otherUnary : Nat → UnaryOp → F → F

/-- FREE FUNCTION (log 7): a configuration's `sin`, on every operand (40_numerics.md R134; the number names the
configuration's functions). -/
opaque Config.sinRaw : Nat → F → F

/-- FREE FUNCTION (log 7): a configuration's `cos`, on every operand (40_numerics.md R134). -/
opaque Config.cosRaw : Nat → F → F

/-- FREE FUNCTION (log 7): a configuration's `exp`, on every operand (40_numerics.md R134). -/
opaque Config.expRaw : Nat → F → F

/-- FREE FUNCTION (log 8): the sine shaping polynomial of a configuration that does not take the spec's parabola
(42_oscillator.md R196; the number names the configuration). -/
opaque Config.otherSine : Nat → F → F

/-- FREE FUNCTION (log 9): entry `i`, `j` of the default matrix of size `n` of a configuration that does not take the
Householder matrix (44_fdn.md R243): configuration number, then `n`, `i`, `j`. -/
opaque Config.otherMatrix : Nat → Nat → Nat → Nat → F

/-- FREE FUNCTION (log 10): the coefficient design of a configuration that does not take the formulas of 41_biquad.md
R164 to R173: configuration number, then mode, `f`, `q`, `g`, `FS`. -/
opaque Config.otherDesign : Nat → BqMode → F → F → F → F → BqCoeffs

/-- `Cfg.OSC_SINE_POLY` (00_scope.md R6, 42_oscillator.md R196): the spec's value, or another function. -/
inductive SineChoice where
  | parabola
  | other (k : Nat)
  deriving DecidableEq, Repr

/-- `Cfg.FDN_MATRIX_DEFAULT` (00_scope.md R6, 44_fdn.md R243): the spec's value, or another function. -/
inductive MatrixChoice where
  | householder
  | other (k : Nat)
  deriving DecidableEq, Repr

/-- `Cfg.BQ_DESIGN` (00_scope.md R6, 41_biquad.md R163): the spec's value, or another function. -/
inductive DesignChoice where
  | rbj
  | other (k : Nat)
  deriving DecidableEq, Repr

/-- The basic operations of `Num` (00_scope.md R6, 40_numerics.md R131, R132): the spec's value, or other functions. -/
inductive ArithChoice where
  | binary32
  | other (k : Nat)
  deriving DecidableEq, Repr

/-- `Num`, the float arithmetic of a configuration (00_scope.md R6, 40_numerics.md R131), its two groups of fields as
plain data: the basic operations of R132, and the number that names its `sin`, `cos` and `exp` of R134 (log 7, 12). -/
structure Num where
  basic : ArithChoice
  transcendental : Nat
  deriving DecidableEq, Repr

/-- The unit counts of `Cfg` (00_scope.md R6). The machine holds them as the lengths of its lists of units (log 5). -/
structure UnitCounts where
  nBq : Nat
  nOsc : Nat
  nDl : Nat
  nFdn : Nat
  nHb : Nat
  deriving DecidableEq, Repr

/-- The rest of `Cfg` (00_scope.md R6): sizes, half-band coefficients, the three configuration functions and the float
arithmetic. -/
structure Cfg where
  dlMaxLog2 : Nat
  fdnLineLog2 : Nat
  fdnNCap : Nat
  hbNsec : Nat
  hbCoefA : List F
  hbCoefB : List F
  matrix : MatrixChoice
  sine : SineChoice
  design : DesignChoice
  num : Num
  deriving DecidableEq, Repr

/-- The constraint column of 00_scope.md R6 for the unit counts. -/
def UnitCounts.ok (n : UnitCounts) : Bool :=
  decide (n.nBq ≤ 256) && decide (n.nOsc ≤ 256) && decide (n.nDl ≤ 256) && decide (n.nFdn ≤ 256) &&
    decide (n.nHb ≤ 256)

/-- The constraint column of 00_scope.md R6 for the sizes; each cascade has `HB_NSEC` coefficients. -/
def Cfg.ok (c : Cfg) : Bool :=
  decide (c.dlMaxLog2 ≤ 31) && decide (c.fdnLineLog2 ≤ 31) && decide (c.fdnNCap ≤ 16) &&
    decide (1 ≤ c.hbNsec) && decide (c.hbNsec ≤ 8) && decide (c.hbCoefA.length = c.hbNsec) &&
    decide (c.hbCoefB.length = c.hbNsec)

/-- The suggested unit counts of 00_scope.md R6 (DESIGN CHOICE, log 4). -/
def UnitCounts.suggested : UnitCounts := { nBq := 8, nOsc := 4, nDl := 4, nFdn := 1, nHb := 2 }

/-- The suggested values of 00_scope.md R6, with the candidate half-band coefficients of 45_halfband.md R262
(DESIGN CHOICE, log 4; PRESUMED, log 11). -/
def Cfg.suggested : Cfg where
  dlMaxLog2 := 16
  fdnLineLog2 := 14
  fdnNCap := 16
  hbNsec := 2
  hbCoefA := [0x3DA39102#32, 0x3F0B9C4C#32]
  hbCoefB := [0x3E915214#32, 0x3F559C05#32]
  matrix := .householder
  sine := .parabola
  design := .rbj
  num := { basic := .binary32, transcendental := 0 }

end Sys2Proof
end

