-- ==== Sys2Proof/Machine/Float.lean ====
section
/-! DEFINITION. The arithmetic of 40_numerics.md: the binary32 value of each basic operation of `Num` (R132; chosen by the
configuration in Machine/Num.lean), conversions, comparisons and `clog2`. A finite value is an exact integer number of units of
2^-149, the least positive binary32 value; every operation is computed exactly in integers and rounded once. -/

namespace Sys2Proof.Machine

/-- Sign bit of a pattern. -/
def signBit (v : F) : Bool := v.getLsbD 31

/-- Biased exponent, bits 30:23. -/
def expField (v : F) : Nat := v.toNat / 2 ^ 23 % 2 ^ 8

/-- Fraction, bits 22:0. -/
def fracField (v : F) : Nat := v.toNat % 2 ^ 23

/-- `isnan` (40_numerics.md R138). -/
def isNan (v : F) : Bool := decide (expField v = 255) && decide (fracField v ≠ 0)

/-- Infinity of either sign. -/
def isInf (v : F) : Bool := decide (expField v = 255) && decide (fracField v = 0)

/-- `isfinite` (40_numerics.md R138). -/
def isFinite (v : F) : Bool := decide (expField v ≠ 255)

/-- Zero of either sign. -/
def isZero (v : F) : Bool := decide (expField v = 0) && decide (fracField v = 0)

/-- Magnitude in units of 2^-149. For an infinity it is 2^277, above every finite magnitude. -/
def magUnits (v : F) : Nat :=
  if expField v = 0 then fracField v else (2 ^ 23 + fracField v) * 2 ^ (expField v - 1)

/-- Signed value in units of 2^-149. -/
def signedUnits (v : F) : Int := if signBit v then -(magUnits v : Int) else (magUnits v : Int)

/-- One, in units of 2^-149. -/
def oneUnits : Nat := 2 ^ 149

/-- The magnitude pattern of infinity. -/
def infMag : Nat := 0x7F800000

/-- A pattern from a sign and a magnitude pattern below 2^31. -/
def pack (neg : Bool) (mag : Nat) : F := BitVec.ofNat 32 ((if neg then 2 ^ 31 else 0) + mag)

/-- A quiet NaN whose sign and payload are free (40_numerics.md R133; log 6). -/
def nanOf (d : Draw) : F :=
  let free := (Config.nanBits d).toNat
  pack (decide (2 ^ 22 ≤ free)) (0x7FC00000 + free % 2 ^ 22)

/-- Nearest integer to `num / den`, ties to even (40_numerics.md R132). -/
def rneDiv (num den : Nat) : Nat :=
  let q := num / den
  let r := num % den
  if 2 * r < den ∨ (2 * r = den ∧ q % 2 = 0) then q else q + 1

/-- The magnitude pattern nearest to `num / den` units, ties to even, infinity on overflow, gradual underflow
(40_numerics.md R132, R133). From 2^24 units on, the step between neighbours is `2^shift` units. -/
def roundMag (num den : Nat) : Nat :=
  let shift := Nat.log2 (num / den) - 23
  min (rneDiv num (den * 2 ^ shift) + shift * 2 ^ 23) infMag

/-- `a + b` (40_numerics.md R132, R133). An exact zero sum is `-0.0` only when both operands are negative zeros. -/
def fadd (d : Draw) (a b : F) : F :=
  if isNan a || isNan b then nanOf d
  else if isInf a then (if isInf b && signBit a != signBit b then nanOf d else a)
  else if isInf b then b
  else
    let k := signedUnits a + signedUnits b
    if k = 0 then pack (signBit a && signBit b) 0
    else pack (decide (k < 0)) (roundMag k.natAbs 1)

/-- `fneg`: the sign bit inverted, exact also for a NaN (40_numerics.md R132). -/
def fneg (a : F) : F := a ^^^ 0x80000000#32

/-- `fabs`: the sign bit cleared, exact also for a NaN (40_numerics.md R132). -/
def fabs (a : F) : F := a &&& 0x7FFFFFFF#32

/-- `a - b`, the sum of `a` and the negation of `b` (40_numerics.md R132). -/
def fsub (d : Draw) (a b : F) : F := fadd d a (fneg b)

/-- `a * b` (40_numerics.md R132, R133). -/
def fmul (d : Draw) (a b : F) : F :=
  let neg := signBit a != signBit b
  if isNan a || isNan b then nanOf d
  else if isInf a || isInf b then (if isZero a || isZero b then nanOf d else pack neg infMag)
  else pack neg (roundMag (magUnits a * magUnits b) oneUnits)

/-- `a / b` (40_numerics.md R132, R133). -/
def fdiv (d : Draw) (a b : F) : F :=
  let neg := signBit a != signBit b
  if isNan a || isNan b then nanOf d
  else if isInf a then (if isInf b then nanOf d else pack neg infMag)
  else if isInf b then pack neg 0
  else if isZero b then (if isZero a then nanOf d else pack neg infMag)
  else pack neg (roundMag (magUnits a * oneUnits) (magUnits b))

/-- Whole part of the square root of `n`, for `n < 4^fuel`. -/
def isqrt : (fuel : Nat) → (n : Nat) → Nat
  | 0, _ => 0
  | fuel + 1, n =>
    let r := 2 * isqrt fuel (n / 4)
    if (r + 1) * (r + 1) ≤ n then r + 1 else r

/-- `fsqrt` (40_numerics.md R132, R133). The root of `m` units is the root of `m * 2^149`, in units; an inexact
root is put half a unit above its whole part, which rounds as the root does (it has more than 73 bits). -/
def fsqrt (d : Draw) (a : F) : F :=
  if isNan a then nanOf d
  else if isZero a then a
  else if signBit a then nanOf d
  else if isInf a then a
  else
    let n := magUnits a * oneUnits
    let r := isqrt 220 n
    pack false (roundMag (2 * r + (if r * r = n then 0 else 1)) 2)

/-- `ffloor`: the largest integral value not above `a` (40_numerics.md R132). -/
def ffloor (d : Draw) (a : F) : F :=
  if isNan a then nanOf d
  else if isInf a then a
  else
    let k := (signedUnits a).fdiv (oneUnits : Int)
    pack (signBit a) (roundMag (k.natAbs * oneUnits) 1)

/-- `i2f` (40_numerics.md R136). -/
def i2f (i : Int) : F := pack (decide (i < 0)) (roundMag (i.natAbs * oneUnits) 1)

/-- `u2f` (40_numerics.md R136). -/
def u2f (n : U32) : F := i2f (n.toNat : Int)

/-- `I32(v)`, the two's-complement reading (00_scope.md R11). -/
def signedReading (v : U32) : Int := if v.toNat < 2 ^ 31 then (v.toNat : Int) else (v.toNat : Int) - 2 ^ 32

/-- `f2u`: truncation toward zero and wrap; 0 for a NaN or an infinity (40_numerics.md R137). -/
def f2u (v : F) : U32 :=
  if isFinite v then BitVec.ofInt 32 ((signedUnits v).tdiv (oneUnits : Int)) else 0

/-- `a < b` (40_numerics.md R138). -/
def flt (a b : F) : Bool := !isNan a && !isNan b && decide (signedUnits a < signedUnits b)

/-- `a = b` (40_numerics.md R138). -/
def feq (a b : F) : Bool := !isNan a && !isNan b && decide (signedUnits a = signedUnits b)

/-- `clog2(p)` for a finite `p >= 0`: the least `e` with `2^e >= p` (40_numerics.md R144). -/
def clog2 (p : F) : Nat :=
  let up := (magUnits p + (oneUnits - 1)) / oneUnits
  if up ≤ 1 then 0 else Nat.log2 (up - 1) + 1

/-- `2^e` for `e <= 31` as an F value, exact (40_numerics.md R144). -/
def pow2 (e : Nat) : F := pack false ((127 + e) * 2 ^ 23)

end Sys2Proof.Machine
end

