-- ==== Sys2Proof/Machine/Num.lean ====
section
/-! DEFINITION. The float arithmetic of a configuration (40_numerics.md R131): every operation the rules write goes through
`Num`. Its basic operations are those of R132 (Machine/Float.lean) or free functions of the operands; `sin`, `cos` and `exp`
are free (R134). -/

namespace Sys2Proof
open Sys2Proof.Machine

/-- `fadd` (40_numerics.md R131, R132). -/
def Num.fadd (nm : Num) (d : Draw) (a b : F) : F :=
  match nm.basic with
  | .binary32 => Machine.fadd d a b
  | .other k => Config.otherBinary k .add a b

/-- `fsub` (40_numerics.md R131, R132). -/
def Num.fsub (nm : Num) (d : Draw) (a b : F) : F :=
  match nm.basic with
  | .binary32 => Machine.fsub d a b
  | .other k => Config.otherBinary k .sub a b

/-- `fmul` (40_numerics.md R131, R132). -/
def Num.fmul (nm : Num) (d : Draw) (a b : F) : F :=
  match nm.basic with
  | .binary32 => Machine.fmul d a b
  | .other k => Config.otherBinary k .mul a b

/-- `fdiv` (40_numerics.md R131, R132). -/
def Num.fdiv (nm : Num) (d : Draw) (a b : F) : F :=
  match nm.basic with
  | .binary32 => Machine.fdiv d a b
  | .other k => Config.otherBinary k .div a b

/-- `fsqrt` (40_numerics.md R131, R132). -/
def Num.fsqrt (nm : Num) (d : Draw) (a : F) : F :=
  match nm.basic with
  | .binary32 => Machine.fsqrt d a
  | .other k => Config.otherUnary k .sqrt a

/-- `fabs` (40_numerics.md R131, R132). -/
def Num.fabs (nm : Num) (a : F) : F :=
  match nm.basic with
  | .binary32 => Machine.fabs a
  | .other k => Config.otherUnary k .abs a

/-- `fneg` (40_numerics.md R131, R132). -/
def Num.fneg (nm : Num) (a : F) : F :=
  match nm.basic with
  | .binary32 => Machine.fneg a
  | .other k => Config.otherUnary k .neg a

/-- `ffloor` (40_numerics.md R131, R132). -/
def Num.ffloor (nm : Num) (d : Draw) (a : F) : F :=
  match nm.basic with
  | .binary32 => Machine.ffloor d a
  | .other k => Config.otherUnary k .floor a

/-- A value made a quiet NaN, keeping sign and payload. -/
def quieted (v : F) : F := v ||| 0x7FC00000#32

/-- A configuration function of one operand: the function given, a NaN to a quiet NaN (40_numerics.md R133, R134; log 7). -/
def nanToNan (raw : F → F) (x : F) : F := if isNan x then quieted (raw x) else raw x

/-- `sin` (40_numerics.md R134). -/
def Num.sin (nm : Num) (x : F) : F := nanToNan (Config.sinRaw nm.transcendental) x

/-- `cos` (40_numerics.md R134). -/
def Num.cos (nm : Num) (x : F) : F := nanToNan (Config.cosRaw nm.transcendental) x

/-- `exp` (40_numerics.md R134). -/
def Num.exp (nm : Num) (x : F) : F := nanToNan (Config.expRaw nm.transcendental) x

end Sys2Proof
end

