-- ==== Sys2Proof/Machine/Design.lean ====
section
/-! DEFINITION. `Cfg.BQ_DESIGN` (41_biquad.md R163): the coefficient formulas of R164 to R173, each float operation with
a place of its own for a NaN it may give (log 6, 10). -/

namespace Sys2Proof.Machine

/-- The intermediate values the formulas share (41_biquad.md R163). -/
structure Angle where
  cs : F
  al : F
  nb1 : F
  deriving DecidableEq, Repr

/-- `w`, the radians per sample of a frequency (41_biquad.md R163, R173). -/
def radians (nm : Num) (d : Draw) (f fs : F) : F := nm.fdiv (1 :: d) (nm.fmul (0 :: d) F.twoPi f) fs

/-- `cs`, `al`, `nb1` from the cosine and the sine of `w` and from `q` (41_biquad.md R163). -/
def angleFrom (nm : Num) (d : Draw) (cs sn q : F) : Angle where
  cs := cs
  al := nm.fdiv (3 :: d) sn (nm.fmul (2 :: d) F.two q)
  nb1 := nm.fmul (4 :: d) F.negTwo cs

/-- The shared intermediates (41_biquad.md R163). -/
def angleOf (nm : Num) (d : Draw) (f q fs : F) : Angle :=
  let w := radians nm d f fs
  angleFrom nm d (nm.cos w) (nm.sin w) q

/-- `n = 1 / (1 + al)` of the formulas without a gain (41_biquad.md R164 to R167, R171). -/
def normOf (nm : Num) (d : Draw) (al : F) : F := nm.fdiv (6 :: d) F.one (nm.fadd (5 :: d) F.one al)

/-- `B2 = (1 - al) * n` of the formulas without a gain (41_biquad.md R164 to R167, R171). -/
def lastOf (nm : Num) (d : Draw) (al n : F) : F := nm.fmul (8 :: d) (nm.fsub (7 :: d) F.one al) n

/-- Lowpass (41_biquad.md R164). -/
def designLp (nm : Num) (d : Draw) (i : Angle) : BqCoeffs :=
  let n := normOf nm d i.al
  let omc := nm.fsub (10 :: d) F.one i.cs
  { a0 := nm.fmul (12 :: d) (nm.fmul (11 :: d) omc F.half) n
    a1 := nm.fmul (13 :: d) omc n
    a2 := nm.fmul (15 :: d) (nm.fmul (14 :: d) omc F.half) n
    b1 := nm.fmul (16 :: d) i.nb1 n
    b2 := lastOf nm d i.al n }

/-- Highpass (41_biquad.md R165). -/
def designHp (nm : Num) (d : Draw) (i : Angle) : BqCoeffs :=
  let n := normOf nm d i.al
  let opc := nm.fadd (10 :: d) F.one i.cs
  { a0 := nm.fmul (12 :: d) (nm.fmul (11 :: d) opc F.half) n
    a1 := nm.fmul (13 :: d) (nm.fneg opc) n
    a2 := nm.fmul (15 :: d) (nm.fmul (14 :: d) opc F.half) n
    b1 := nm.fmul (16 :: d) i.nb1 n
    b2 := lastOf nm d i.al n }

/-- Bandpass with 0 dB peak gain (41_biquad.md R166). -/
def designBp (nm : Num) (d : Draw) (i : Angle) : BqCoeffs :=
  let n := normOf nm d i.al
  { a0 := nm.fmul (10 :: d) i.al n
    a1 := F.zero
    a2 := nm.fmul (11 :: d) (nm.fneg i.al) n
    b1 := nm.fmul (12 :: d) i.nb1 n
    b2 := lastOf nm d i.al n }

/-- Notch (41_biquad.md R167). -/
def designNotch (nm : Num) (d : Draw) (i : Angle) : BqCoeffs :=
  let n := normOf nm d i.al
  { a0 := n
    a1 := nm.fmul (10 :: d) i.nb1 n
    a2 := n
    b1 := nm.fmul (11 :: d) i.nb1 n
    b2 := lastOf nm d i.al n }

/-- The shelf formulas' own intermediates `Ag`, `sq`, `Ap1`, `mc`, `Am1`, `pc` (41_biquad.md R168). -/
structure Shelf where
  ag : F
  sq : F
  ap1 : F
  am1 : F
  mc : F
  pc : F
  deriving DecidableEq, Repr

/-- The shelf intermediates (41_biquad.md R168). -/
def shelfOf (nm : Num) (d : Draw) (i : Angle) (g : F) : Shelf :=
  let ag := nm.fsqrt (10 :: d) g
  let ap1 := nm.fadd (14 :: d) ag F.one
  let am1 := nm.fsub (15 :: d) ag F.one
  { ag := ag
    sq := nm.fmul (13 :: d) (nm.fmul (12 :: d) F.two (nm.fsqrt (11 :: d) ag)) i.al
    ap1 := ap1
    am1 := am1
    mc := nm.fmul (16 :: d) am1 i.cs
    pc := nm.fmul (17 :: d) ap1 i.cs }

/-- Low shelf (41_biquad.md R168). -/
def designLoshelf (nm : Num) (d : Draw) (i : Angle) (g : F) : BqCoeffs :=
  let h := shelfOf nm d i g
  let n := nm.fdiv (22 :: d) F.one (nm.fadd (21 :: d) (nm.fadd (20 :: d) h.ap1 h.mc) h.sq)
  { a0 := nm.fmul (33 :: d) (nm.fmul (32 :: d) h.ag (nm.fadd (31 :: d) (nm.fsub (30 :: d) h.ap1 h.mc) h.sq)) n
    a1 := nm.fmul (43 :: d) (nm.fmul (42 :: d) (nm.fmul (41 :: d) F.two h.ag) (nm.fsub (40 :: d) h.am1 h.pc)) n
    a2 := nm.fmul (53 :: d) (nm.fmul (52 :: d) h.ag (nm.fsub (51 :: d) (nm.fsub (50 :: d) h.ap1 h.mc) h.sq)) n
    b1 := nm.fmul (62 :: d) (nm.fmul (61 :: d) F.negTwo (nm.fadd (60 :: d) h.am1 h.pc)) n
    b2 := nm.fmul (72 :: d) (nm.fsub (71 :: d) (nm.fadd (70 :: d) h.ap1 h.mc) h.sq) n }

/-- High shelf (41_biquad.md R169). -/
def designHishelf (nm : Num) (d : Draw) (i : Angle) (g : F) : BqCoeffs :=
  let h := shelfOf nm d i g
  let n := nm.fdiv (22 :: d) F.one (nm.fadd (21 :: d) (nm.fsub (20 :: d) h.ap1 h.mc) h.sq)
  { a0 := nm.fmul (33 :: d) (nm.fmul (32 :: d) h.ag (nm.fadd (31 :: d) (nm.fadd (30 :: d) h.ap1 h.mc) h.sq)) n
    a1 := nm.fmul (43 :: d) (nm.fmul (42 :: d) (nm.fmul (41 :: d) F.negTwo h.ag) (nm.fadd (40 :: d) h.am1 h.pc)) n
    a2 := nm.fmul (53 :: d) (nm.fmul (52 :: d) h.ag (nm.fsub (51 :: d) (nm.fadd (50 :: d) h.ap1 h.mc) h.sq)) n
    b1 := nm.fmul (62 :: d) (nm.fmul (61 :: d) F.two (nm.fsub (60 :: d) h.am1 h.pc)) n
    b2 := nm.fmul (72 :: d) (nm.fsub (71 :: d) (nm.fsub (70 :: d) h.ap1 h.mc) h.sq) n }

/-- Peaking equaliser (41_biquad.md R170). -/
def designPeak (nm : Num) (d : Draw) (i : Angle) (g : F) : BqCoeffs :=
  let ag := nm.fsqrt (10 :: d) g
  let aA := nm.fmul (11 :: d) i.al ag
  let adA := nm.fdiv (12 :: d) i.al ag
  let n := nm.fdiv (14 :: d) F.one (nm.fadd (13 :: d) F.one adA)
  { a0 := nm.fmul (21 :: d) (nm.fadd (20 :: d) F.one aA) n
    a1 := nm.fmul (22 :: d) i.nb1 n
    a2 := nm.fmul (24 :: d) (nm.fsub (23 :: d) F.one aA) n
    b1 := nm.fmul (25 :: d) i.nb1 n
    b2 := nm.fmul (27 :: d) (nm.fsub (26 :: d) F.one adA) n }

/-- Second-order allpass (41_biquad.md R171). -/
def designAp (nm : Num) (d : Draw) (i : Angle) : BqCoeffs :=
  let n := normOf nm d i.al
  { a0 := nm.fmul (11 :: d) (nm.fsub (10 :: d) F.one i.al) n
    a1 := nm.fmul (12 :: d) i.nb1 n
    a2 := nm.fmul (14 :: d) (nm.fadd (13 :: d) F.one i.al) n
    b1 := nm.fmul (15 :: d) i.nb1 n
    b2 := lastOf nm d i.al n }

/-- Differentiator (41_biquad.md R172). -/
def designDiff : BqCoeffs := { a0 := F.one, a1 := F.negOne, a2 := F.zero, b1 := F.zero, b2 := F.zero }

/-- One-pole lowpass with its pole given (41_biquad.md R173). -/
def onepoleFrom (nm : Num) (d : Draw) (p : F) : BqCoeffs :=
  { a0 := nm.fsub (10 :: d) F.one p, a1 := F.zero, a2 := F.zero, b1 := nm.fneg p, b2 := F.zero }

/-- One-pole lowpass (41_biquad.md R173). -/
def designOnepole (nm : Num) (d : Draw) (f fs : F) : BqCoeffs := onepoleFrom nm d (nm.exp (nm.fneg (radians nm d f fs)))

/-- The formulas by mode (41_biquad.md R163 to R173). -/
def designRbj (nm : Num) (d : Draw) (mode : BqMode) (f q g fs : F) : BqCoeffs :=
  match mode with
  | .lp => designLp nm d (angleOf nm d f q fs)
  | .hp => designHp nm d (angleOf nm d f q fs)
  | .bp => designBp nm d (angleOf nm d f q fs)
  | .notch => designNotch nm d (angleOf nm d f q fs)
  | .loshelf => designLoshelf nm d (angleOf nm d f q fs) g
  | .hishelf => designHishelf nm d (angleOf nm d f q fs) g
  | .peak => designPeak nm d (angleOf nm d f q fs) g
  | .ap => designAp nm d (angleOf nm d f q fs)
  | .diff => designDiff
  | .onepole => designOnepole nm d f fs

/-- `Cfg.BQ_DESIGN(mode, f, q, g, FS)` (00_scope.md R6, 41_biquad.md R162). An operand the setter does not have is
`+0.0` (log 10). -/
def bqDesign (c : DesignChoice) (nm : Num) (d : Draw) (mode : BqMode) (f q g fs : F) : BqCoeffs :=
  match c with
  | .rbj => designRbj nm d mode f q g fs
  | .other k => Config.otherDesign k mode f q g fs

end Sys2Proof.Machine
end

