-- ==== Sys2Proof/Machine/State.lean ====
section
/-! DEFINITION. The whole state of the block as plain data (10_state.md R20), the port it is driven through
(00_scope.md R8, R9), the reasons a step can stop, and the state after reset (70_reset_and_hazards.md R341). -/

namespace Sys2Proof.Machine

/-- A delay memory: (index, sample) entries, index strictly rising, no entry equal to the `+0.0` that an
unlisted index reads as (10_state.md R34, R41; 20_memory.md R76; log 13). -/
abbrev SampleMem := List (Nat × F)

/-- The status codes (30_encoding.md R105); no other is ever produced. -/
inductive Status where
  | ok | errOpcode | errUnit | errReg | errMode | errInblk | errConfig
  deriving DecidableEq, Repr

/-- A response: status and the two result words (30_encoding.md R104). -/
structure Response where
  status : Status
  res0 : U32
  res1 : U32
  deriving DecidableEq, Repr

/-- One thing the host does at the port: it presents a command word, or it pulses `rst`
(00_scope.md R8, 70_reset_and_hazards.md R340). -/
inductive PortInput where
  | command (w : CommandWord)
  | reset
  deriving DecidableEq, Repr

/-- The port as R9 collapses it (log 1): what the host is going to present, oldest first, and the responses the
block has given, newest first. -/
structure Port where
  inputs : List PortInput
  outputs : List Response
  deriving DecidableEq, Repr

/-- The SYS registers that change (10_state.md R24). The others are constants. -/
structure SysRegs where
  mode : U32
  inblk : U32
  fs : F
  lasterr : U32
  errcnt : U32
  deriving DecidableEq, Repr

/-- A BQ unit's registers (10_state.md R27). -/
structure BqUnit where
  a0 : F
  a1 : F
  a2 : F
  b1 : F
  b2 : F
  x1 : F
  x2 : F
  y1 : F
  y2 : F
  deriving DecidableEq, Repr

/-- An OSC unit's registers (10_state.md R30). -/
structure OscUnit where
  phase : U32
  inc : U32
  freq : F
  wave : U32
  deriving DecidableEq, Repr

/-- A DL unit's registers and its delay memory (10_state.md R33, R34). -/
structure DlUnit where
  kind : U32
  log2len : U32
  widx : U32
  fixdly : U32
  moddly : F
  gDry : F
  gFf : F
  gFb : F
  fixout : F
  apX1 : F
  apY1 : F
  buf : SampleMem
  deriving DecidableEq, Repr

/-- A line of an FDN unit (10_state.md R40, R41). The damping filter's nine registers DA0 to DY2 are those of a
biquad, because `damp` is the equation of BQ.PROC on them (44_fdn.md R245). -/
structure FdnLine where
  ldly : F
  lwidx : U32
  lineout : F
  filter : BqUnit
  buf : SampleMem
  deriving DecidableEq, Repr

/-- An FDN unit (10_state.md R38 to R41): `m` holds `M[i][j]` at place `16*i + j`, 256 entries; 16 lines. -/
structure FdnUnit where
  n : U32
  fb : F
  ratio : F
  outEven : F
  outOdd : F
  m : List F
  lines : List FdnLine
  deriving DecidableEq, Repr

/-- The history of one allpass section (10_state.md R44); its coefficient is a constant of the configuration (R43). -/
structure HbSection where
  sx1 : F
  sx2 : F
  sy1 : F
  sy2 : F
  deriving DecidableEq, Repr

/-- An HB unit (10_state.md R42, R44): sections `0` to `2*HB_NSEC - 1`, cascade A first. -/
structure HbUnit where
  bdly : F
  secs : List HbSection
  deriving DecidableEq, Repr

/-- The machine: configuration, SYS registers, the units of the five classes (10_state.md R20; `N_BQ` and the other
counts are the lengths of the lists, log 5), the port, and `draws`, the model's own counter of inputs taken,
which names the free NaN bits (log 6). -/
structure State where
  cfg : Cfg
  sys : SysRegs
  bq : List BqUnit
  osc : List OscUnit
  dl : List DlUnit
  fdn : List FdnUnit
  hb : List HbUnit
  port : Port
  draws : Nat
  deriving DecidableEq, Repr

/-- Why a step stops with a fault. -/
inductive Fault where
  /-- A delay-memory index may lie outside the memory of `2^DL_MAX_LOG2` samples: raised by DL.PROC on a unit
  whose `LOG2LEN` exceeds `DL_MAX_LOG2`, a state no run reaches (10_state.md R34; log 15). Safe: the model stops. -/
  | sampleOutsideMemory
  deriving DecidableEq, Repr

/-- Why a step is refused by the MODEL (a refusal of the BLOCK is a next state, 60_exceptions.md R302). -/
inductive Refusal where
  /-- Raised by `exec` for an instruction that has no meaning yet. Safe: the model stops. -/
  | notModelled (mnemonic : String)
  deriving DecidableEq, Repr

/-- Reset values of the SYS registers (10_state.md R24). -/
def SysRegs.reset : SysRegs := { mode := 0, inblk := 0, fs := F.zero, lasterr := 0, errcnt := 0 }

/-- Reset values of a BQ unit: the identity filter (10_state.md R27). An FDN line's damping filter starts as the
same nine values (R40). -/
def BqUnit.reset : BqUnit where
  a0 := F.one
  a1 := F.zero
  a2 := F.zero
  b1 := F.zero
  b2 := F.zero
  x1 := F.zero
  x2 := F.zero
  y1 := F.zero
  y2 := F.zero

/-- Reset values of an OSC unit (10_state.md R30). -/
def OscUnit.reset : OscUnit := { phase := 0, inc := 0, freq := F.zero, wave := 0 }

/-- Reset values of a DL unit (10_state.md R33, R34): a silent buffer of length 1. -/
def DlUnit.reset : DlUnit where
  kind := 0
  log2len := 0
  widx := 0
  fixdly := 0
  moddly := F.zero
  gDry := F.zero
  gFf := F.one
  gFb := F.zero
  fixout := F.zero
  apX1 := F.zero
  apY1 := F.zero
  buf := []

/-- A line as FDN.RESIZE leaves it (10_state.md R40, R41). -/
def FdnLine.fresh : FdnLine := { ldly := F.zero, lwidx := 0, lineout := F.zero, filter := BqUnit.reset, buf := [] }

/-- Reset values of an FDN unit (10_state.md R38, R41): no lines in use, silent line memories. The matrix and line
registers are not defined while `N = 0`; the values they hold are the model's (log 14). -/
def FdnUnit.reset : FdnUnit where
  n := 0
  fb := F.zero
  ratio := F.threeQuarters
  outEven := F.zero
  outOdd := F.zero
  m := List.replicate 256 F.zero
  lines := List.replicate 16 FdnLine.fresh

/-- Reset values of a section (10_state.md R44). -/
def HbSection.reset : HbSection := { sx1 := F.zero, sx2 := F.zero, sy1 := F.zero, sy2 := F.zero }

/-- Reset values of an HB unit with `nsec` sections in each cascade (10_state.md R44). -/
def HbUnit.reset (nsec : Nat) : HbUnit := { bdly := F.zero, secs := List.replicate (2 * nsec) HbSection.reset }

/-- The block of a configuration right after reset (70_reset_and_hazards.md R341), with nothing presented at its port. -/
def State.resetOf (n : UnitCounts) (c : Cfg) : State where
  cfg := c
  sys := SysRegs.reset
  bq := List.replicate n.nBq BqUnit.reset
  osc := List.replicate n.nOsc OscUnit.reset
  dl := List.replicate n.nDl DlUnit.reset
  fdn := List.replicate n.nFdn FdnUnit.reset
  hb := List.replicate n.nHb (HbUnit.reset c.hbNsec)
  port := { inputs := [], outputs := [] }
  draws := 0

/-- The machine right after reset, in the suggested configuration of 00_scope.md R6 (log 4). -/
def State.reset : State := State.resetOf UnitCounts.suggested Cfg.suggested

/-- The unit counts, the constant SYS registers 0x005 to 0x009 (10_state.md R24; log 5). -/
def State.counts (s : State) : UnitCounts where
  nBq := s.bq.length
  nOsc := s.osc.length
  nDl := s.dl.length
  nFdn := s.fdn.length
  nHb := s.hb.length

end Sys2Proof.Machine
end

