-- ==== Sys2Proof/Syntax.lean ====
section
/-! DEFINITION. The 29 commands of the block, one constructor per row of spec/opcode_table.json
(30_encoding.md R108), in the table's order. -/

namespace Sys2Proof

/-- A command. `unit` is the UNIT field, `cls` the CLS field and `reg` the REG field, each the unsigned number in the
field (00_scope.md R10); the operand fields A, B and C are whole 32-bit words (30_encoding.md R103). -/
inductive Instr where
  | sysSetsr (fs : F)                                    -- 0x01 SYS.SETSR
  | sysRun                                               -- 0x02 SYS.RUN
  | sysSetup                                             -- 0x03 SYS.SETUP
  | blkBegin                                             -- 0x04 BLK.BEGIN
  | blkEnd                                               -- 0x05 BLK.END
  | regRd (cls unit reg : Nat)                           -- 0x06 REG.RD
  | regWr (cls unit reg : Nat) (value : U32)             -- 0x07 REG.WR
  | bqProc (unit : Nat) (x : F)                          -- 0x10 BQ.PROC
  | bqSetlp (unit : Nat) (f q : F)                       -- 0x11 BQ.SETLP
  | bqSethp (unit : Nat) (f q : F)                       -- 0x12 BQ.SETHP
  | bqSetbp (unit : Nat) (f q : F)                       -- 0x13 BQ.SETBP
  | bqSetnotch (unit : Nat) (f q : F)                    -- 0x14 BQ.SETNOTCH
  | bqSetloshelf (unit : Nat) (f q g : F)                -- 0x15 BQ.SETLOSHELF
  | bqSethishelf (unit : Nat) (f q g : F)                -- 0x16 BQ.SETHISHELF
  | bqSetpeak (unit : Nat) (f q g : F)                   -- 0x17 BQ.SETPEAK
  | bqSetap (unit : Nat) (f q : F)                       -- 0x18 BQ.SETAP
  | bqSetdiff (unit : Nat)                               -- 0x19 BQ.SETDIFF
  | bqSetonepole (unit : Nat) (f : F)                    -- 0x1A BQ.SETONEPOLE
  | oscProc (unit : Nat)                                 -- 0x20 OSC.PROC
  | oscSetf (unit : Nat) (f : F)                         -- 0x21 OSC.SETF
  | dlProc (unit : Nat) (x : F)                          -- 0x30 DL.PROC
  | dlResize (unit : Nat) (duration : F)                 -- 0x31 DL.RESIZE
  | dlSetdelay (unit : Nat) (delay : F)                  -- 0x32 DL.SETDELAY
  | dlSetmoddelay (unit : Nat) (delay : F)               -- 0x33 DL.SETMODDELAY
  | fdnProc (unit : Nat) (x : F)                         -- 0x40 FDN.PROC
  | fdnResize (unit : Nat) (n : U32)                     -- 0x41 FDN.RESIZE
  | fdnSetlen (unit : Nat) (longest : F)                 -- 0x42 FDN.SETLEN
  | hbProc (unit : Nat) (x : F)                          -- 0x50 HB.PROC
  | hbUp (unit : Nat) (x : F)                            -- 0x51 HB.UP
  deriving DecidableEq, Repr

/-- The 29 opcodes as names: the constructor of a command without its operands (30_encoding.md R108). -/
inductive Opcode where
  | sysSetsr | sysRun | sysSetup | blkBegin | blkEnd | regRd | regWr
  | bqProc | bqSetlp | bqSethp | bqSetbp | bqSetnotch | bqSetloshelf | bqSethishelf | bqSetpeak | bqSetap
  | bqSetdiff | bqSetonepole
  | oscProc | oscSetf
  | dlProc | dlResize | dlSetdelay | dlSetmoddelay
  | fdnProc | fdnResize | fdnSetlen
  | hbProc | hbUp
  deriving DecidableEq, Repr

/-- The opcode of a command. -/
def Instr.opcode : Instr → Opcode
  | .sysSetsr _ => .sysSetsr
  | .sysRun => .sysRun
  | .sysSetup => .sysSetup
  | .blkBegin => .blkBegin
  | .blkEnd => .blkEnd
  | .regRd _ _ _ => .regRd
  | .regWr _ _ _ _ => .regWr
  | .bqProc _ _ => .bqProc
  | .bqSetlp _ _ _ => .bqSetlp
  | .bqSethp _ _ _ => .bqSethp
  | .bqSetbp _ _ _ => .bqSetbp
  | .bqSetnotch _ _ _ => .bqSetnotch
  | .bqSetloshelf _ _ _ _ => .bqSetloshelf
  | .bqSethishelf _ _ _ _ => .bqSethishelf
  | .bqSetpeak _ _ _ _ => .bqSetpeak
  | .bqSetap _ _ _ => .bqSetap
  | .bqSetdiff _ => .bqSetdiff
  | .bqSetonepole _ _ => .bqSetonepole
  | .oscProc _ => .oscProc
  | .oscSetf _ _ => .oscSetf
  | .dlProc _ _ => .dlProc
  | .dlResize _ _ => .dlResize
  | .dlSetdelay _ _ => .dlSetdelay
  | .dlSetmoddelay _ _ => .dlSetmoddelay
  | .fdnProc _ _ => .fdnProc
  | .fdnResize _ _ => .fdnResize
  | .fdnSetlen _ _ => .fdnSetlen
  | .hbProc _ _ => .hbProc
  | .hbUp _ _ => .hbUp

end Sys2Proof
end

