-- ==== Sys2Proof/Machine/Flags.lean ====
section
/-! DEFINITION. The status codes and the response word (30_encoding.md R104, R105), the two flags and the conditions on
them (10_state.md R25, 60_exceptions.md R303), the error registers' next values (R302) and the gating table (R306). -/

namespace Sys2Proof.Machine

/-- The code of a status (30_encoding.md R105). -/
def statusCode : Status → BitVec 8
  | .ok => 0x00#8
  | .errOpcode => 0x01#8
  | .errUnit => 0x02#8
  | .errReg => 0x03#8
  | .errMode => 0x04#8
  | .errInblk => 0x05#8
  | .errConfig => 0x06#8

/-- The word on `rsp_data`: STATUS 95:88, zero 87:64, RES0 63:32, RES1 31:0 (30_encoding.md R104). -/
def responseWord (r : Response) : BitVec 96 := statusCode r.status ++ 0#24 ++ r.res0 ++ r.res1

/-- What a refusal writes to LASTERR: the code in bits 7:0, bits 31:8 zero (60_exceptions.md R302). -/
def lasterrOf (code : Status) : U32 := (statusCode code).setWidth 32

/-- What a refusal writes to ERRCNT: one more, saturating (60_exceptions.md R302). -/
def errcntNext (n : U32) : U32 := if n = 0xFFFFFFFF#32 then 0xFFFFFFFF#32 else n + 1

/-- `SYS.MODE = 0` (46_system.md R281, R282). -/
def inSetup (s : State) : Bool := decide (s.sys.mode = 0)

/-- `SYS.MODE = 1` (46_system.md R283, R285, R286; 60_exceptions.md R303). -/
def inRun (s : State) : Bool := decide (s.sys.mode = 1)

/-- `SYS.INBLK = 1` (46_system.md R283, R285, R291; 41_biquad.md R162). -/
def inBlock (s : State) : Bool := decide (s.sys.inblk = 1)

/-- `SYS.INBLK = 0`, the condition BLK.END refuses on (46_system.md R286). -/
def noBlock (s : State) : Bool := decide (s.sys.inblk = 0)

/-- The sample rate is configured: not `SYS.FS = +0.0`, the IEEE comparison (10_state.md R24, 40_numerics.md R138). -/
def fsConfigured (s : State) : Bool := !feq s.sys.fs F.zero

/-- A sample rate SYS.SETSR takes: no NaN, no infinity, above zero (46_system.md R281). -/
def sampleRateOk (fs : F) : Bool := !isNan fs && !isInf fs && flt F.zero fs

/-- The three control states (46_system.md R287). -/
inductive ControlState where
  | setup | runOutside | runInside
  deriving DecidableEq, Repr

/-- The control state the two flags stand for. -/
def controlState (s : State) : ControlState :=
  if inRun s then (if inBlock s then .runInside else .runOutside) else .setup

/-- The gating table, cell by cell: `none` where it says ok (60_exceptions.md R306). -/
def gate : Opcode → ControlState → Option Status
  | .sysSetsr, .setup => none
  | .sysSetsr, _ => some .errMode
  | .sysRun, .setup => none
  | .sysRun, _ => some .errMode
  | .sysSetup, .setup => some .errMode
  | .sysSetup, .runOutside => none
  | .sysSetup, .runInside => some .errInblk
  | .blkBegin, .setup => some .errMode
  | .blkBegin, .runOutside => none
  | .blkBegin, .runInside => some .errInblk
  | .blkEnd, .setup => some .errMode
  | .blkEnd, .runOutside => some .errInblk
  | .blkEnd, .runInside => none
  | .regRd, _ => none
  | .regWr, .runInside => some .errInblk
  | .regWr, _ => none
  | .bqProc, _ | .oscProc, _ | .dlProc, _ | .fdnProc, _ | .hbProc, _ | .hbUp, _ => none
  | .bqSetlp, .runInside | .bqSethp, .runInside | .bqSetbp, .runInside | .bqSetnotch, .runInside
  | .bqSetloshelf, .runInside | .bqSethishelf, .runInside | .bqSetpeak, .runInside | .bqSetap, .runInside
  | .bqSetdiff, .runInside | .bqSetonepole, .runInside => some .errInblk
  | .bqSetlp, _ | .bqSethp, _ | .bqSetbp, _ | .bqSetnotch, _ | .bqSetloshelf, _ | .bqSethishelf, _
  | .bqSetpeak, _ | .bqSetap, _ | .bqSetdiff, _ | .bqSetonepole, _ => none
  | .oscSetf, _ => none
  | .dlResize, .setup => none
  | .dlResize, _ => some .errMode
  | .dlSetdelay, _ | .dlSetmoddelay, _ => none
  | .fdnResize, .setup => none
  | .fdnResize, _ => some .errMode
  | .fdnSetlen, .runInside => some .errInblk
  | .fdnSetlen, _ => none

end Sys2Proof.Machine
end

