-- ==== Sys2Proof/Machine/Memory.lean ====
section
/-! DEFINITION. The delay memories: reading and writing one sample, the masked index, and the canonical form
(20_memory.md R70, R72, R76). -/

namespace Sys2Proof.Machine

/-- `MemRead`: the sample at an index; `+0.0` where nothing is listed (10_state.md R34, R41). -/
def memRead : SampleMem → Nat → F
  | [], _ => F.zero
  | (k, x) :: rest, i => if k = i then x else memRead rest i

/-- An entry put before the first entry with a larger index. -/
def memInsert : SampleMem → Nat → F → SampleMem
  | [], i, v => [(i, v)]
  | (k, x) :: rest, i, v => if i < k then (i, v) :: (k, x) :: rest else (k, x) :: memInsert rest i v

/-- `MemWrite`: the sample at an index replaced; a `+0.0` takes the entry away (log 13). -/
def memWrite (m : SampleMem) (i : Nat) (v : F) : SampleMem :=
  let others := m.filter (fun c => decide (c.1 ≠ i))
  if v = F.zero then others else memInsert others i v

/-- Canonical form with every index at or above `least`: indices strictly rising, no entry `+0.0`. -/
def memWfFrom : (least : Nat) → SampleMem → Bool
  | _, [] => true
  | least, (k, x) :: rest => decide (least ≤ k) && decide (x ≠ F.zero) && memWfFrom (k + 1) rest

/-- The canonical form of a delay memory. -/
def Memory.wf (m : SampleMem) : Bool := memWfFrom 0 m

/-- Every listed index lies inside a memory of `2^log2` samples. -/
def memFits (log2 : Nat) (m : SampleMem) : Bool := m.all (fun c => decide (c.1 < 2 ^ log2))

/-- The mask of a ring of `2^log2` samples (10_state.md R33, R41). -/
def ringMask (log2 : Nat) : U32 := BitVec.ofNat 32 (2 ^ log2 - 1)

/-- `idx(d) = (WIDX - d) & MASK` (20_memory.md R72). -/
def ringIndex (log2 : Nat) (widx d : U32) : Nat := ((widx - d) &&& ringMask log2).toNat

end Sys2Proof.Machine
end

