-- ==== Sys2Proof/Machine/Ops.lean ====
section
/-! DEFINITION. The operations the meanings share: giving a response, THE ONE exception of the block (the refusal,
60_exceptions.md R301, R302; there is no return from it, R309), the checks in front of a meaning (R305), and the
update of one unit's registers. -/

namespace Sys2Proof.Machine

/-- What a meaning answers. -/
abbrev Out := Host.Outcome State Fault Refusal

/-- A response given at the port (00_scope.md R8). -/
def State.give (s : State) (r : Response) : State :=
  { s with port := { s.port with outputs := r :: s.port.outputs } }

/-- `respond(r0, r1)`: the command ends with status OK (00_scope.md R12). -/
def respond (r0 r1 : U32) (s : State) : Out := .next (s.give { status := .ok, res0 := r0, res1 := r1 })

/-- `refuse(code)`: LASTERR and ERRCNT are written, the response carries the code and zeros, nothing else changes
(60_exceptions.md R302). -/
def refuse (code : Status) (s : State) : State :=
  State.give
    { s with sys := { s.sys with lasterr := lasterrOf code, errcnt := errcntNext s.sys.errcnt } }
    { status := code, res0 := 0, res1 := 0 }

/-- The command ends refused, with the block ready for the next one (60_exceptions.md R301, R309). -/
def refused (code : Status) (s : State) : Out := .next (refuse code s)

/-- One check of 60_exceptions.md R305: the command goes on where the condition holds, else it is refused. -/
def check (good : Bool) (code : Status) (s : State) (go : Out) : Out := if good then go else refused code s

/-- The unit check of a unit command (30_encoding.md R102, 60_exceptions.md R303): the unit, or ERR_UNIT. -/
def withUnit {α : Type} (units : List α) (u : Nat) (s : State) (go : α → Out) : Out :=
  match units[u]? with
  | some x => go x
  | none => refused .errUnit s

/-- The place of the command's own float operations among the free NaN bits (log 6). -/
def State.draw (s : State) : Draw := [s.draws]

/-- BQ unit `u` replaced by what `f` makes of it. -/
def State.updBq (s : State) (u : Nat) (f : BqUnit → BqUnit) : State := { s with bq := s.bq.modify u f }

/-- OSC unit `u` replaced by what `f` makes of it. -/
def State.updOsc (s : State) (u : Nat) (f : OscUnit → OscUnit) : State := { s with osc := s.osc.modify u f }

/-- DL unit `u` replaced by what `f` makes of it. -/
def State.updDl (s : State) (u : Nat) (f : DlUnit → DlUnit) : State := { s with dl := s.dl.modify u f }

/-- FDN unit `u` replaced by what `f` makes of it. -/
def State.updFdn (s : State) (u : Nat) (f : FdnUnit → FdnUnit) : State := { s with fdn := s.fdn.modify u f }

/-- HB unit `u` replaced by what `f` makes of it. -/
def State.updHb (s : State) (u : Nat) (f : HbUnit → HbUnit) : State := { s with hb := s.hb.modify u f }

/-- `split(v)`: whole part and fraction of a delay (43_delay.md R215). DESIGN CHOICE (log 18): where the pseudocode of R215
and the sentence of R217 on `fr` for a negative delay differ, the pseudocode holds: `fr` is 1.0 for a `v` just below zero
and a NaN for minus infinity. -/
def split (nm : Num) (d : Draw) (v : F) : U32 × F :=
  let fl := nm.ffloor (0 :: d) v
  (f2u fl, nm.fsub (1 :: d) v fl)

/-- The weighted average of two adjacent samples (43_delay.md R219). -/
def interpolate (nm : Num) (d : Draw) (fr a b : F) : F :=
  nm.fadd (3 :: d) (nm.fmul (1 :: d) (nm.fsub (0 :: d) F.one fr) a) (nm.fmul (2 :: d) fr b)

/-- The biquad's difference equation (41_biquad.md R161), also an FDN line's `damp` (44_fdn.md R245). -/
def biquadOut (nm : Num) (d : Draw) (b : BqUnit) (x : F) : F :=
  let t0 := nm.fmul (0 :: d) b.a0 x
  let t1 := nm.fmul (1 :: d) b.a1 b.x1
  let t2 := nm.fmul (2 :: d) b.a2 b.x2
  let t3 := nm.fmul (3 :: d) b.b1 b.y1
  let t4 := nm.fmul (4 :: d) b.b2 b.y2
  nm.fsub (8 :: d) (nm.fsub (7 :: d) (nm.fadd (6 :: d) (nm.fadd (5 :: d) t0 t1) t2) t3) t4

/-- The biquad's history advanced by an input and its output (41_biquad.md R161, 44_fdn.md R246). -/
def BqUnit.advance (b : BqUnit) (x y : F) : BqUnit := { b with x2 := b.x1, x1 := x, y2 := b.y1, y1 := y }

/-- `incOf(f, fs)` (42_oscillator.md R191). -/
def incOf (nm : Num) (d : Draw) (f fs : F) : U32 := f2u (nm.fmul (1 :: d) f (nm.fdiv (0 :: d) F.pow32 fs))

end Sys2Proof.Machine
end

