-- ==== Sys2Proof/Machine/Biquad.lean ====
section
/-! DEFINITION. The BQ family (41_biquad.md). -/

namespace Sys2Proof.Machine

/-- BQ.PROC (41_biquad.md R161). -/
def execBqProc (u : Nat) (x : F) (s : State) : Out :=
  withUnit s.bq u s fun b =>
    let y := biquadOut s.cfg.num s.draw b x
    respond y 0 (s.updBq u (fun b => b.advance x y))

/-- The five coefficient registers written, the history kept (41_biquad.md R162). -/
def BqUnit.withCoeffs (b : BqUnit) (c : BqCoeffs) : BqUnit :=
  { b with a0 := c.a0, a1 := c.a1, a2 := c.a2, b1 := c.b1, b2 := c.b2 }

/-- The frame of every setter (41_biquad.md R162): the checks, then the design function's five values. A setter that
does not read `SYS.FS` gives the design function `+0.0` in its place (log 10). -/
def bqSetter (mode : BqMode) (readsFs : Bool) (u : Nat) (f q g : F) (s : State) : Out :=
  withUnit s.bq u s fun _ =>
    check (!inBlock s) .errInblk s <|
    check (!readsFs || fsConfigured s) .errConfig s <|
    let c := bqDesign s.cfg.design s.cfg.num s.draw mode f q g (if readsFs then s.sys.fs else F.zero)
    respond 0 0 (s.updBq u (fun b => b.withCoeffs c))

/-- BQ.SETLP (41_biquad.md R164). -/
def execBqSetlp (u : Nat) (f q : F) (s : State) : Out := bqSetter .lp true u f q F.zero s

/-- BQ.SETHP (41_biquad.md R165). -/
def execBqSethp (u : Nat) (f q : F) (s : State) : Out := bqSetter .hp true u f q F.zero s

/-- BQ.SETBP (41_biquad.md R166). -/
def execBqSetbp (u : Nat) (f q : F) (s : State) : Out := bqSetter .bp true u f q F.zero s

/-- BQ.SETNOTCH (41_biquad.md R167). -/
def execBqSetnotch (u : Nat) (f q : F) (s : State) : Out := bqSetter .notch true u f q F.zero s

/-- BQ.SETLOSHELF (41_biquad.md R168). -/
def execBqSetloshelf (u : Nat) (f q g : F) (s : State) : Out := bqSetter .loshelf true u f q g s

/-- BQ.SETHISHELF (41_biquad.md R169). -/
def execBqSethishelf (u : Nat) (f q g : F) (s : State) : Out := bqSetter .hishelf true u f q g s

/-- BQ.SETPEAK (41_biquad.md R170). -/
def execBqSetpeak (u : Nat) (f q g : F) (s : State) : Out := bqSetter .peak true u f q g s

/-- BQ.SETAP (41_biquad.md R171). -/
def execBqSetap (u : Nat) (f q : F) (s : State) : Out := bqSetter .ap true u f q F.zero s

/-- BQ.SETDIFF (41_biquad.md R172): it does not read `SYS.FS`. -/
def execBqSetdiff (u : Nat) (s : State) : Out := bqSetter .diff false u F.zero F.zero F.zero s

/-- BQ.SETONEPOLE (41_biquad.md R173). -/
def execBqSetonepole (u : Nat) (f : F) (s : State) : Out := bqSetter .onepole true u f F.zero F.zero s

end Sys2Proof.Machine
end

