-- ==== Sys2Proof/Machine/Delay.lean ====
section
/-! DEFINITION. The DL family (43_delay.md). -/

namespace Sys2Proof.Machine

/-- A line as DL.RESIZE leaves it (43_delay.md R212): cleared, of length `2^e`; kind, delays and gains kept. -/
def DlUnit.resized (l : DlUnit) (e : Nat) : DlUnit :=
  { l with log2len := BitVec.ofNat 32 e, widx := 0, buf := [], fixout := F.zero, apX1 := F.zero, apY1 := F.zero }

/-- A length in samples that a memory of `2^maxLog2` samples can give (43_delay.md R212). -/
def lengthOk (maxLog2 : Nat) (p : F) : Bool := !isNan p && !flt p F.zero && !flt (pow2 maxLog2) p

/-- DL.RESIZE (43_delay.md R212). -/
def execDlResize (u : Nat) (duration : F) (s : State) : Out :=
  withUnit s.dl u s fun _ =>
    check (!inRun s) .errMode s <|
    check (fsConfigured s) .errConfig s <|
    let p := s.cfg.num.fmul (0 :: s.draw) duration s.sys.fs
    check (lengthOk s.cfg.dlMaxLog2 p) .errConfig s <|
    respond 0 0 (s.updDl u (fun l => l.resized (clog2 p)))

/-- DL.SETDELAY (43_delay.md R213). -/
def execDlSetdelay (u : Nat) (delay : F) (s : State) : Out :=
  withUnit s.dl u s fun _ =>
    check (fsConfigured s) .errConfig s <|
    respond 0 0 (s.updDl u (fun l => { l with fixdly := f2u (s.cfg.num.fmul (0 :: s.draw) delay s.sys.fs) }))

/-- DL.SETMODDELAY (43_delay.md R214). -/
def execDlSetmoddelay (u : Nat) (delay : F) (s : State) : Out :=
  withUnit s.dl u s fun _ =>
    check (fsConfigured s) .errConfig s <|
    respond 0 0 (s.updDl u (fun l => { l with moddly := s.cfg.num.fmul (0 :: s.draw) delay s.sys.fs }))

/-- The line with a sample written at the write index, which is not yet advanced (43_delay.md R216). -/
def DlUnit.written (l : DlUnit) (v : F) : DlUnit :=
  { l with buf := memWrite l.buf (ringIndex l.log2len.toNat l.widx 0) v }

/-- `tap(d)` (43_delay.md R215). -/
def DlUnit.tap (l : DlUnit) (delay : U32) : F := memRead l.buf (ringIndex l.log2len.toNat l.widx delay)

/-- The sample that enters the line: the input, with the fixed-tap feedback for the kinds that mix (43_delay.md R216). -/
def DlUnit.lineIn (nm : Num) (d : Draw) (l : DlUnit) (x : F) : F :=
  if l.kind = 0 then x else nm.fadd (1 :: d) x (nm.fmul (0 :: d) l.gFb l.fixout)

/-- `eta` of the allpass interpolator (43_delay.md R216, R220). -/
def etaOf (nm : Num) (d : Draw) (fr : F) : F := nm.fdiv (2 :: d) (nm.fsub (0 :: d) F.one fr) (nm.fadd (1 :: d) F.one fr)

/-- The modulated tap of a line just written, linear or allpass by kind (43_delay.md R216, R219, R220). -/
def DlUnit.modulated (nm : Num) (d : Draw) (l : DlUnit) : F :=
  let dv := split nm (0 :: d) l.moddly
  let a := l.tap dv.1
  if l.kind = 1 then interpolate nm (1 :: d) dv.2 a (l.tap (dv.1 + 1))
  else nm.fadd (4 :: d) (nm.fmul (3 :: d) (etaOf nm (2 :: d) dv.2) (nm.fsub (5 :: d) a l.apY1)) l.apX1

/-- The line after a sample, and the output (43_delay.md R216): write, then read the taps, then advance. -/
def DlUnit.proc (nm : Num) (d : Draw) (l : DlUnit) (x : F) : DlUnit × F :=
  let l1 := l.written (l.lineIn nm (0 :: d) x)
  let fixed := l1.tap l1.fixdly
  if l.kind = 0 then ({ l1 with fixout := fixed, widx := l.widx + 1 }, fixed)
  else
    let m := l1.modulated nm (1 :: d)
    let y := nm.fadd (4 :: d) (nm.fmul (2 :: d) l.gDry x) (nm.fmul (3 :: d) l.gFf m)
    let l2 := { l1 with fixout := fixed, widx := l.widx + 1 }
    if l.kind = 1 then (l2, y)
    else ({ l2 with apX1 := l1.tap (split nm (0 :: 1 :: d) l.moddly).1, apY1 := m }, y)

/-- DL.PROC (43_delay.md R216). A line whose mask would reach outside its memory, which no run makes, faults (log 15). -/
def execDlProc (u : Nat) (x : F) (s : State) : Out :=
  withUnit s.dl u s fun l =>
    if s.cfg.dlMaxLog2 < l.log2len.toNat then .fault .sampleOutsideMemory
    else
      let r := l.proc s.cfg.num s.draw x
      respond r.2 0 (s.updDl u (fun _ => r.1))

end Sys2Proof.Machine
end

