-- ==== Sys2Proof/Machine/FeedbackNet.lean ====
section
/-! DEFINITION. The FDN family (44_fdn.md). -/

namespace Sys2Proof.Machine

/-- Entry `i`, `j` of the Householder matrix of size `n` (44_fdn.md R243). -/
def householderEntry (nm : Num) (d : Draw) (n i j : Nat) : F :=
  let c := nm.fdiv (0 :: d) F.two (u2f (BitVec.ofNat 32 n))
  if i = j then nm.fsub (1 :: d) F.one c else nm.fsub (1 :: d) F.zero c

/-- `Cfg.FDN_MATRIX_DEFAULT(n)[i][j]` (44_fdn.md R243; log 9). -/
def matrixEntry (c : MatrixChoice) (nm : Num) (d : Draw) (n i j : Nat) : F :=
  match c with
  | .householder => householderEntry nm d n i j
  | .other k => Config.otherMatrix k n i j

/-- The matrix registers with the `n` by `n` default entries loaded; the others, not defined, are kept (44_fdn.md R242; log 14). -/
def loadMatrix (c : MatrixChoice) (nm : Num) (d : Draw) (n : Nat) (old : List F) : List F :=
  (List.range 256).map fun k =>
    if k / 16 < n ∧ k % 16 < n then matrixEntry c nm (k :: d) n (k / 16) (k % 16) else old.getD k F.zero

/-- An FDN unit as FDN.RESIZE leaves it (44_fdn.md R242): `n` fresh lines, the default matrix; `FB` and `RATIO` kept. -/
def FdnUnit.resized (c : MatrixChoice) (nm : Num) (d : Draw) (f : FdnUnit) (n : U32) : FdnUnit :=
  { f with
    n := n
    lines := List.replicate n.toNat FdnLine.fresh ++ f.lines.drop n.toNat
    m := loadMatrix c nm d n.toNat f.m
    outEven := F.zero
    outOdd := F.zero }

/-- FDN.RESIZE (44_fdn.md R242). It does not read `SYS.FS`. -/
def execFdnResize (u : Nat) (n : U32) (s : State) : Out :=
  withUnit s.fdn u s fun _ =>
    check (!inRun s) .errMode s <|
    check (decide (n.toNat ≤ s.cfg.fdnNCap)) .errConfig s <|
    respond 0 0 (s.updFdn u (fun f => f.resized s.cfg.matrix s.cfg.num s.draw n))

/-- Delays given to lines one after the other, each the one before times the ratio (44_fdn.md R244). -/
def setLengths (nm : Num) (d : Draw) (ratio : F) : Nat → F → List FdnLine → List FdnLine
  | _, _, [] => []
  | j, t, l :: rest => { l with ldly := t } :: setLengths nm d ratio (j + 1) (nm.fmul (j :: 1 :: d) t ratio) rest

/-- FDN.SETLEN (44_fdn.md R244): only the lines in use are written. -/
def execFdnSetlen (u : Nat) (longest : F) (s : State) : Out :=
  withUnit s.fdn u s fun _ =>
    check (!inBlock s) .errInblk s <|
    check (fsConfigured s) .errConfig s <|
    let t := s.cfg.num.fmul (0 :: s.draw) longest s.sys.fs
    respond 0 0 (s.updFdn u (fun f =>
      { f with lines := setLengths s.cfg.num s.draw f.ratio 0 t (f.lines.take f.n.toNat) ++ f.lines.drop f.n.toNat }))

/-- `in[j]` (44_fdn.md R246 step 1): the sum so far, and the outputs from line `i` on, added in ascending order. -/
def lineInput (nm : Num) (d : Draw) (m : List F) (j : Nat) : (i : Nat) → (outs : List F) → (sum : F) → F
  | _, [], sum => sum
  | i, o :: rest, sum =>
    lineInput nm d m j (i + 1) rest
      (nm.fadd (1 :: i :: d) sum (nm.fmul (0 :: i :: d) o (m.getD (16 * i + j) F.zero)))

/-- One line after a sample (44_fdn.md R246 step 2): write, interpolated read, damping filter, gain. -/
def FdnLine.proc (nm : Num) (d : Draw) (lineLog2 : Nat) (fb : F) (l : FdnLine) (inp : F) : FdnLine :=
  let buf := memWrite l.buf (ringIndex lineLog2 l.lwidx 0) inp
  let dv := split nm (0 :: d) l.ldly
  let a := memRead buf (ringIndex lineLog2 l.lwidx dv.1)
  let b := memRead buf (ringIndex lineLog2 l.lwidx (dv.1 + 1))
  let x := interpolate nm (1 :: d) dv.2 a b
  let y := biquadOut nm (2 :: d) l.filter x
  { l with buf := buf, lwidx := l.lwidx + 1, filter := l.filter.advance x y, lineout := nm.fmul (3 :: d) fb y }

/-- All lines in use after a sample, from line `j` on; every input is mixed from the old outputs (44_fdn.md R246). -/
def procLines (nm : Num) (d : Draw) (lineLog2 : Nat) (fb x : F) (m outs : List F) : (j : Nat) → List FdnLine → List FdnLine
  | _, [] => []
  | j, l :: rest =>
    l.proc nm (1 :: j :: d) lineLog2 fb (lineInput nm (0 :: j :: d) m j 0 outs x) ::
      procLines nm d lineLog2 fb x m outs (j + 1) rest

/-- `tot`: the sum of line outputs in ascending order (44_fdn.md R246 step 3). -/
def sumAll (nm : Num) (d : Draw) : (j : Nat) → List FdnLine → F → F
  | _, [], sum => sum
  | j, l :: rest, sum => sumAll nm d (j + 1) rest (nm.fadd (j :: d) sum l.lineout)

/-- `ev` (for 0) or `od` (for 1): the sum of the outputs of the lines of one parity (44_fdn.md R246 step 3). -/
def sumParity (nm : Num) (d : Draw) (parity : Nat) : (j : Nat) → List FdnLine → F → F
  | _, [], sum => sum
  | j, l :: rest, sum =>
    sumParity nm d parity (j + 1) rest (if j % 2 = parity then nm.fadd (j :: d) sum l.lineout else sum)

/-- An FDN unit after a sample, and the output (44_fdn.md R246). -/
def FdnUnit.proc (nm : Num) (d : Draw) (lineLog2 : Nat) (f : FdnUnit) (x : F) : FdnUnit × F :=
  let used := f.lines.take f.n.toNat
  let now := procLines nm (0 :: d) lineLog2 f.fb x f.m (used.map (fun l => l.lineout)) 0 used
  ({ f with
      lines := now ++ f.lines.drop f.n.toNat
      outEven := sumParity nm (2 :: d) 0 0 now F.zero
      outOdd := sumParity nm (3 :: d) 1 0 now F.zero },
    sumAll nm (1 :: d) 0 now F.zero)

/-- FDN.PROC (44_fdn.md R246). -/
def execFdnProc (u : Nat) (x : F) (s : State) : Out :=
  withUnit s.fdn u s fun f =>
    let r := f.proc s.cfg.num s.draw s.cfg.fdnLineLog2 x
    respond r.2 0 (s.updFdn u (fun _ => r.1))

end Sys2Proof.Machine
end

