-- ==== Sys2Proof/Machine/Operands.lean ====
section
/-! DEFINITION. The register space (20_memory.md R70, R71): the registers by name, the triple (class, unit, register) that
names each, the access classes (10_state.md R22), and reading and writing one register. -/

namespace Sys2Proof.Machine

/-- SYS registers (10_state.md R24). -/
inductive SysReg where
  | mode | inblk | fs | lasterr | errcnt | nBq | nOsc | nDl | nFdn | nHb
  | dlMaxLog2 | fdnLineLog2 | fdnNCap | hbNsec | version
  deriving DecidableEq, Repr

/-- BQ registers (10_state.md R27). -/
inductive BqReg where
  | a0 | a1 | a2 | b1 | b2 | x1 | x2 | y1 | y2
  deriving DecidableEq, Repr

/-- OSC registers (10_state.md R30). -/
inductive OscReg where
  | phase | inc | freq | wave
  deriving DecidableEq, Repr

/-- DL registers (10_state.md R33). -/
inductive DlReg where
  | kind | log2len | widx | fixdly | moddly | gDry | gFf | gFb | fixout | apX1 | apY1
  deriving DecidableEq, Repr

/-- FDN scalar registers (10_state.md R38). -/
inductive FdnReg where
  | n | fb | ratio | outEven | outOdd
  deriving DecidableEq, Repr

/-- FDN per-line registers (10_state.md R40). -/
inductive LineReg where
  | ldly | lwidx | lineout | da0 | da1 | da2 | db1 | db2 | dx1 | dx2 | dy1 | dy2
  deriving DecidableEq, Repr

/-- HB section registers (10_state.md R44). -/
inductive SecReg where
  | coef | sx1 | sx2 | sy1 | sy2
  deriving DecidableEq, Repr

/-- A register of the block by name (30_encoding.md R111): `FDN[u].M[i][j]`, `FDN[u].L[j].NAME`, `HB[u].S[s].NAME`, ... -/
inductive Reg where
  | sys (r : SysReg)
  | bq (u : Nat) (r : BqReg)
  | osc (u : Nat) (r : OscReg)
  | dl (u : Nat) (r : DlReg)
  | fdn (u : Nat) (r : FdnReg)
  | matrix (u i j : Nat)
  | line (u j : Nat) (r : LineReg)
  | bdly (u : Nat)
  | sect (u sec : Nat) (r : SecReg)
  deriving DecidableEq, Repr

/-- The registers in the order of their numbers (10_state.md R24). -/
def sysRegs : List SysReg :=
  [.mode, .inblk, .fs, .lasterr, .errcnt, .nBq, .nOsc, .nDl, .nFdn, .nHb, .dlMaxLog2, .fdnLineLog2, .fdnNCap,
    .hbNsec, .version]

/-- The registers in the order of their numbers (10_state.md R27). -/
def bqRegs : List BqReg := [.a0, .a1, .a2, .b1, .b2, .x1, .x2, .y1, .y2]

/-- The registers in the order of their numbers (10_state.md R30). -/
def oscRegs : List OscReg := [.phase, .inc, .freq, .wave]

/-- The registers in the order of their numbers (10_state.md R33). -/
def dlRegs : List DlReg := [.kind, .log2len, .widx, .fixdly, .moddly, .gDry, .gFf, .gFb, .fixout, .apX1, .apY1]

/-- The registers in the order of their numbers (10_state.md R38). -/
def fdnRegs : List FdnReg := [.n, .fb, .ratio, .outEven, .outOdd]

/-- The registers in the order of `k` (10_state.md R40). -/
def lineRegs : List LineReg :=
  [.ldly, .lwidx, .lineout, .da0, .da1, .da2, .db1, .db2, .dx1, .dx2, .dy1, .dy2]

/-- The registers in the order of `k` (10_state.md R44). -/
def secRegs : List SecReg := [.coef, .sx1, .sx2, .sy1, .sy2]

/-- Does (CLS, UNIT) name a unit (20_memory.md R71, 60_exceptions.md R303)? -/
def unitExists (s : State) (cls unit : Nat) : Bool :=
  match cls with
  | 0 => decide (unit = 0)
  | 1 => decide (unit < s.bq.length)
  | 2 => decide (unit < s.osc.length)
  | 3 => decide (unit < s.dl.length)
  | 4 => decide (unit < s.fdn.length)
  | 5 => decide (unit < s.hb.length)
  | _ => false

/-- The value of an FDN unit's `N` register (10_state.md R37). -/
def fdnLineCount (s : State) (u : Nat) : Nat :=
  match s.fdn[u]? with
  | some f => f.n.toNat
  | none => 0

/-- FDN register number to register: scalars from 0x000, matrix from 0x100, lines from 0x200, the last two only for
line indices below `N` (10_state.md R38 to R40). -/
def fdnRegAt (s : State) (u reg : Nat) : Option Reg :=
  let n := fdnLineCount s u
  if reg < 0x100 then (fdnRegs[reg]?).map (Reg.fdn u)
  else if reg < 0x200 then
    let i := (reg - 0x100) / 16
    let j := (reg - 0x100) % 16
    if i < n ∧ j < n then some (.matrix u i j) else none
  else if reg < 0x300 then
    let j := (reg - 0x200) / 16
    if j < n then (lineRegs[(reg - 0x200) % 16]?).map (Reg.line u j) else none
  else none

/-- HB register number to register: BDLY at 0, sections from 0x100, only for `s < 2*HB_NSEC` (10_state.md R44). -/
def hbRegAt (s : State) (u reg : Nat) : Option Reg :=
  if reg = 0 then some (.bdly u)
  else if 0x100 ≤ reg then
    let sec := (reg - 0x100) / 16
    if sec < 2 * s.cfg.hbNsec then (secRegs[(reg - 0x100) % 16]?).map (Reg.sect u sec) else none
  else none

/-- The register a number names in a unit that exists; `none` where the number is not defined (20_memory.md R71). -/
def regAt (s : State) (cls unit reg : Nat) : Option Reg :=
  match cls with
  | 0 => (sysRegs[reg]?).map Reg.sys
  | 1 => (bqRegs[reg]?).map (Reg.bq unit)
  | 2 => (oscRegs[reg]?).map (Reg.osc unit)
  | 3 => (dlRegs[reg]?).map (Reg.dl unit)
  | 4 => fdnRegAt s unit reg
  | 5 => hbRegAt s unit reg
  | _ => none

/-- The checks 2 and 3 of 60_exceptions.md R305 on a register triple: the register, or ERR_UNIT, or ERR_REG. -/
def withReg (s : State) (cls unit reg : Nat) (go : Reg → Out) : Out :=
  check (unitExists s cls unit) .errUnit s
    (match regAt s cls unit reg with
     | some r => go r
     | none => refused .errReg s)

/-- The triple (class, unit, register number) of a register (10_state.md R24, R27, R30, R33, R38 to R40, R44). -/
def regTriple : Reg → Nat × Nat × Nat
  | .sys r => (0, 0, sysRegs.idxOf r)
  | .bq u r => (1, u, bqRegs.idxOf r)
  | .osc u r => (2, u, oscRegs.idxOf r)
  | .dl u r => (3, u, dlRegs.idxOf r)
  | .fdn u r => (4, u, fdnRegs.idxOf r)
  | .matrix u i j => (4, u, 0x100 + 16 * i + j)
  | .line u j r => (4, u, 0x200 + 16 * j + lineRegs.idxOf r)
  | .bdly u => (5, u, 0)
  | .sect u sec r => (5, u, 0x100 + 16 * sec + secRegs.idxOf r)

/-- Access classes (10_state.md R22); an RW-enum register takes the values `0` to `top`. -/
inductive Access where
  | rw
  | ro
  | rwEnum (top : Nat)
  deriving DecidableEq, Repr

/-- The access column of the register tables (10_state.md R24, R27, R30, R33, R38 to R40, R44). -/
def accessOf : Reg → Access
  | .sys _ => .ro
  | .bq _ _ => .rw
  | .osc _ .phase => .rw
  | .osc _ .inc => .ro
  | .osc _ .freq => .ro
  | .osc _ .wave => .rwEnum 1
  | .dl _ .kind => .rwEnum 2
  | .dl _ .log2len => .ro
  | .dl _ .widx => .ro
  | .dl _ _ => .rw
  | .fdn _ .fb => .rw
  | .fdn _ .ratio => .rw
  | .fdn _ _ => .ro
  | .matrix _ _ _ => .rw
  | .line _ _ .lwidx => .ro
  | .line _ _ _ => .rw
  | .bdly _ => .rw
  | .sect _ _ .coef => .ro
  | .sect _ _ _ => .rw

/-- May REG.WR write the register at all (10_state.md R22)? -/
def writable : Access → Bool
  | .ro => false
  | .rw => true
  | .rwEnum _ => true

/-- Is a value legal for the register (10_state.md R22; 46_system.md R291)? -/
def valueLegal : Access → U32 → Bool
  | .rwEnum top, v => decide (v.toNat ≤ top)
  | .rw, _ => true
  | .ro, _ => true

/-- The coefficient of section `sec` (10_state.md R43). -/
def hbCoef (c : Cfg) (sec : Nat) : F :=
  if sec < c.hbNsec then c.hbCoefA.getD sec F.zero else c.hbCoefB.getD (sec - c.hbNsec) F.zero

/-- The value of a SYS register (10_state.md R24). -/
def sysRead (s : State) : SysReg → U32
  | .mode => s.sys.mode
  | .inblk => s.sys.inblk
  | .fs => s.sys.fs
  | .lasterr => s.sys.lasterr
  | .errcnt => s.sys.errcnt
  | .nBq => BitVec.ofNat 32 s.bq.length
  | .nOsc => BitVec.ofNat 32 s.osc.length
  | .nDl => BitVec.ofNat 32 s.dl.length
  | .nFdn => BitVec.ofNat 32 s.fdn.length
  | .nHb => BitVec.ofNat 32 s.hb.length
  | .dlMaxLog2 => BitVec.ofNat 32 s.cfg.dlMaxLog2
  | .fdnLineLog2 => BitVec.ofNat 32 s.cfg.fdnLineLog2
  | .fdnNCap => BitVec.ofNat 32 s.cfg.fdnNCap
  | .hbNsec => BitVec.ofNat 32 s.cfg.hbNsec
  | .version => 0x00000001#32

/-- A BQ register's value. -/
def BqUnit.get (b : BqUnit) : BqReg → F
  | .a0 => b.a0
  | .a1 => b.a1
  | .a2 => b.a2
  | .b1 => b.b1
  | .b2 => b.b2
  | .x1 => b.x1
  | .x2 => b.x2
  | .y1 => b.y1
  | .y2 => b.y2

/-- A BQ register written. -/
def BqUnit.put (b : BqUnit) (r : BqReg) (v : F) : BqUnit :=
  match r with
  | .a0 => { b with a0 := v }
  | .a1 => { b with a1 := v }
  | .a2 => { b with a2 := v }
  | .b1 => { b with b1 := v }
  | .b2 => { b with b2 := v }
  | .x1 => { b with x1 := v }
  | .x2 => { b with x2 := v }
  | .y1 => { b with y1 := v }
  | .y2 => { b with y2 := v }

/-- An OSC register's value. -/
def OscUnit.get (o : OscUnit) : OscReg → U32
  | .phase => o.phase
  | .inc => o.inc
  | .freq => o.freq
  | .wave => o.wave

/-- An OSC register written. -/
def OscUnit.put (o : OscUnit) (r : OscReg) (v : U32) : OscUnit :=
  match r with
  | .phase => { o with phase := v }
  | .inc => { o with inc := v }
  | .freq => { o with freq := v }
  | .wave => { o with wave := v }

/-- A DL register's value. -/
def DlUnit.get (l : DlUnit) : DlReg → U32
  | .kind => l.kind
  | .log2len => l.log2len
  | .widx => l.widx
  | .fixdly => l.fixdly
  | .moddly => l.moddly
  | .gDry => l.gDry
  | .gFf => l.gFf
  | .gFb => l.gFb
  | .fixout => l.fixout
  | .apX1 => l.apX1
  | .apY1 => l.apY1

/-- A DL register written. -/
def DlUnit.put (l : DlUnit) (r : DlReg) (v : U32) : DlUnit :=
  match r with
  | .kind => { l with kind := v }
  | .log2len => { l with log2len := v }
  | .widx => { l with widx := v }
  | .fixdly => { l with fixdly := v }
  | .moddly => { l with moddly := v }
  | .gDry => { l with gDry := v }
  | .gFf => { l with gFf := v }
  | .gFb => { l with gFb := v }
  | .fixout => { l with fixout := v }
  | .apX1 => { l with apX1 := v }
  | .apY1 => { l with apY1 := v }

/-- An FDN scalar register's value. -/
def FdnUnit.get (f : FdnUnit) : FdnReg → U32
  | .n => f.n
  | .fb => f.fb
  | .ratio => f.ratio
  | .outEven => f.outEven
  | .outOdd => f.outOdd

/-- An FDN scalar register written. -/
def FdnUnit.put (f : FdnUnit) (r : FdnReg) (v : U32) : FdnUnit :=
  match r with
  | .n => { f with n := v }
  | .fb => { f with fb := v }
  | .ratio => { f with ratio := v }
  | .outEven => { f with outEven := v }
  | .outOdd => { f with outOdd := v }

/-- A line register's value. -/
def FdnLine.get (l : FdnLine) : LineReg → U32
  | .ldly => l.ldly
  | .lwidx => l.lwidx
  | .lineout => l.lineout
  | .da0 => l.filter.a0
  | .da1 => l.filter.a1
  | .da2 => l.filter.a2
  | .db1 => l.filter.b1
  | .db2 => l.filter.b2
  | .dx1 => l.filter.x1
  | .dx2 => l.filter.x2
  | .dy1 => l.filter.y1
  | .dy2 => l.filter.y2

/-- A line register written. -/
def FdnLine.put (l : FdnLine) (r : LineReg) (v : U32) : FdnLine :=
  match r with
  | .ldly => { l with ldly := v }
  | .lwidx => { l with lwidx := v }
  | .lineout => { l with lineout := v }
  | .da0 => { l with filter := { l.filter with a0 := v } }
  | .da1 => { l with filter := { l.filter with a1 := v } }
  | .da2 => { l with filter := { l.filter with a2 := v } }
  | .db1 => { l with filter := { l.filter with b1 := v } }
  | .db2 => { l with filter := { l.filter with b2 := v } }
  | .dx1 => { l with filter := { l.filter with x1 := v } }
  | .dx2 => { l with filter := { l.filter with x2 := v } }
  | .dy1 => { l with filter := { l.filter with y1 := v } }
  | .dy2 => { l with filter := { l.filter with y2 := v } }

/-- A section's history register; the coefficient, a constant, is given. -/
def HbSection.get (h : HbSection) (coef : F) : SecReg → F
  | .coef => coef
  | .sx1 => h.sx1
  | .sx2 => h.sx2
  | .sy1 => h.sy1
  | .sy2 => h.sy2

/-- A section's history register written; the coefficient cannot be. -/
def HbSection.put (h : HbSection) (r : SecReg) (v : F) : HbSection :=
  match r with
  | .coef => h
  | .sx1 => { h with sx1 := v }
  | .sx2 => { h with sx2 := v }
  | .sy1 => { h with sy1 := v }
  | .sy2 => { h with sy2 := v }

/-- Place of `M[i][j]` (10_state.md R39: number 0x100 + 16*i + j). -/
def matrixPlace (i j : Nat) : Nat := 16 * i + j

/-- What `f` reads of an element of a list, 0 where there is none. -/
def readAt {α : Type} (units : List α) (u : Nat) (f : α → U32) : U32 :=
  match units[u]? with
  | some x => f x
  | none => 0

/-- The value of a register; no read has a side effect (20_memory.md R78). -/
def readReg (s : State) : Reg → U32
  | .sys r => sysRead s r
  | .bq u r => readAt s.bq u (fun b => b.get r)
  | .osc u r => readAt s.osc u (fun o => o.get r)
  | .dl u r => readAt s.dl u (fun l => l.get r)
  | .fdn u r => readAt s.fdn u (fun f => f.get r)
  | .matrix u i j => readAt s.fdn u (fun f => f.m.getD (matrixPlace i j) F.zero)
  | .line u j r => readAt s.fdn u (fun f => readAt f.lines j (fun l => l.get r))
  | .bdly u => readAt s.hb u (fun h => h.bdly)
  | .sect u sec r => readAt s.hb u (fun h => readAt h.secs sec (fun x => x.get (hbCoef s.cfg sec) r))

/-- A register written, and no other (46_system.md R291). A SYS register, which only its own commands write,
is left alone. -/
def writeReg (s : State) (r : Reg) (v : U32) : State :=
  match r with
  | .sys _ => s
  | .bq u r => s.updBq u (fun b => b.put r v)
  | .osc u r => s.updOsc u (fun o => o.put r v)
  | .dl u r => s.updDl u (fun l => l.put r v)
  | .fdn u r => s.updFdn u (fun f => f.put r v)
  | .matrix u i j => s.updFdn u (fun f => { f with m := f.m.set (matrixPlace i j) v })
  | .line u j r => s.updFdn u (fun f => { f with lines := f.lines.modify j (fun l => l.put r v) })
  | .bdly u => s.updHb u (fun h => { h with bdly := v })
  | .sect u sec r => s.updHb u (fun h => { h with secs := h.secs.modify sec (fun x => x.put r v) })

end Sys2Proof.Machine
end

