-- ==== Sys2Proof/Machine/HalfBand.lean ====
section
/-! DEFINITION. The HB family (45_halfband.md). -/

namespace Sys2Proof.Machine

/-- `sec(s, v)`: one allpass section step (45_halfband.md R263). -/
def HbSection.step (nm : Num) (d : Draw) (coef : F) (h : HbSection) (v : F) : HbSection × F :=
  let y := nm.fadd (2 :: d) (nm.fmul (1 :: d) coef (nm.fsub (0 :: d) v h.sy2)) h.sx2
  ({ sx1 := v, sx2 := h.sx1, sy1 := y, sy2 := h.sy1 }, y)

/-- Sections run one after the other, each on the output of the one before, numbered from `sec` on (45_halfband.md R264). -/
def cascade (c : Cfg) (d : Draw) : (sec : Nat) → List HbSection → F → List HbSection × F
  | _, [], v => ([], v)
  | sec, h :: rest, v =>
    let r := h.step c.num (sec :: d) (hbCoef c sec) v
    let t := cascade c d (sec + 1) rest r.2
    (r.1 :: t.1, t.2)

/-- `hbstep(v)` (45_halfband.md R264): both cascades on the same input; cascade B comes out one step later. -/
def HbUnit.step (c : Cfg) (d : Draw) (h : HbUnit) (v : F) : HbUnit × F :=
  let ra := cascade c (0 :: d) 0 (h.secs.take c.hbNsec) v
  let rb := cascade c (1 :: d) c.hbNsec (h.secs.drop c.hbNsec) v
  ({ bdly := rb.2, secs := ra.1 ++ rb.1 }, c.num.fmul (3 :: d) F.half (c.num.fadd (2 :: d) ra.2 h.bdly))

/-- HB.PROC (45_halfband.md R265). -/
def execHbProc (u : Nat) (x : F) (s : State) : Out :=
  withUnit s.hb u s fun h =>
    let r := h.step s.cfg s.draw x
    respond r.2 0 (s.updHb u (fun _ => r.1))

/-- HB.UP (45_halfband.md R266): the sample, then the inserted zero on the state the first step left. -/
def execHbUp (u : Nat) (x : F) (s : State) : Out :=
  withUnit s.hb u s fun h =>
    let r0 := h.step s.cfg (0 :: s.draw) x
    let r1 := r0.1.step s.cfg (1 :: s.draw) F.zero
    respond r0.2 r1.2 (s.updHb u (fun _ => r1.1))

end Sys2Proof.Machine
end

