-- ==== Sys2Proof/Machine/Oscillator.lean ====
section
/-! DEFINITION. The OSC family (42_oscillator.md). -/

namespace Sys2Proof.Machine

/-- OSC.SETF (42_oscillator.md R192). -/
def execOscSetf (u : Nat) (f : F) (s : State) : Out :=
  withUnit s.osc u s fun _ =>
    check (fsConfigured s) .errConfig s <|
    respond 0 0 (s.updOsc u (fun o => { o with freq := f, inc := incOf s.cfg.num s.draw f s.sys.fs }))

/-- The triangle fold of a phase (42_oscillator.md R195). -/
def fold (nm : Num) (d : Draw) (p : U32) : F :=
  let ph := nm.fmul (0 :: d) (i2f (signedReading (p - 0x40000000#32))) F.pow31Inv
  nm.fsub (2 :: d) F.one (nm.fmul (1 :: d) F.two (nm.fabs ph))

/-- The parabola, the spec's value of `OSC_SINE_POLY` (42_oscillator.md R196). -/
def parabola (nm : Num) (d : Draw) (t : F) : F := nm.fmul (1 :: d) t (nm.fsub (0 :: d) F.two (nm.fabs t))

/-- `Cfg.OSC_SINE_POLY` (42_oscillator.md R196; log 8). -/
def sinePoly (c : SineChoice) (nm : Num) (d : Draw) (t : F) : F :=
  match c with
  | .parabola => parabola nm d t
  | .other k => Config.otherSine k t

/-- The waveform value of a folded phase: SINE for `WAVE = 0`, else the triangle (42_oscillator.md R193, R197). -/
def waveOut (c : SineChoice) (nm : Num) (d : Draw) (wave : U32) (t : F) : F :=
  if wave = 0 then sinePoly c nm d t else t

/-- OSC.PROC (42_oscillator.md R193): the phase advances first. -/
def execOscProc (u : Nat) (s : State) : Out :=
  withUnit s.osc u s fun o =>
    let p1 := o.phase + o.inc
    respond (waveOut s.cfg.sine s.cfg.num (1 :: s.draw) o.wave (fold s.cfg.num (0 :: s.draw) p1)) 0
      (s.updOsc u (fun o => { o with phase := p1 }))

end Sys2Proof.Machine
end

