-- ==== Sys2Proof/Machine/System.lean ====
section
/-! DEFINITION. The SYS, BLK and REG commands (46_system.md). -/

namespace Sys2Proof.Machine

/-- Every oscillator's increment rederived from its frequency and a sample rate (46_system.md R281). -/
def rederiveIncs (nm : Num) (d : Draw) (fs : F) : Nat → List OscUnit → List OscUnit
  | _, [] => []
  | v, o :: rest => { o with inc := incOf nm (v :: d) o.freq fs } :: rederiveIncs nm d fs (v + 1) rest

/-- SYS.SETSR (46_system.md R281). -/
def execSysSetsr (fs : F) (s : State) : Out :=
  check (inSetup s) .errMode s <|
  check (sampleRateOk fs) .errConfig s <|
  respond 0 0 { s with sys := { s.sys with fs := fs }, osc := rederiveIncs s.cfg.num s.draw fs 0 s.osc }

/-- SYS.RUN (46_system.md R282). -/
def execSysRun (s : State) : Out :=
  check (inSetup s) .errMode s <|
  check (fsConfigured s) .errConfig s <|
  respond 0 0 { s with sys := { s.sys with mode := 1 } }

/-- SYS.SETUP (46_system.md R283). -/
def execSysSetup (s : State) : Out :=
  check (inRun s) .errMode s <|
  check (!inBlock s) .errInblk s <|
  respond 0 0 { s with sys := { s.sys with mode := 0 } }

/-- BLK.BEGIN (46_system.md R285). -/
def execBlkBegin (s : State) : Out :=
  check (inRun s) .errMode s <|
  check (!inBlock s) .errInblk s <|
  respond 0 0 { s with sys := { s.sys with inblk := 1 } }

/-- BLK.END (46_system.md R286). -/
def execBlkEnd (s : State) : Out :=
  check (inRun s) .errMode s <|
  check (!noBlock s) .errInblk s <|
  respond 0 0 { s with sys := { s.sys with inblk := 0 } }

/-- REG.RD (46_system.md R290). -/
def execRegRd (cls unit reg : Nat) (s : State) : Out :=
  withReg s cls unit reg fun r => respond (readReg s r) 0 s

/-- REG.WR (46_system.md R291). -/
def execRegWr (cls unit reg : Nat) (value : U32) (s : State) : Out :=
  withReg s cls unit reg fun r =>
    check (writable (accessOf r)) .errReg s <|
    check (!inBlock s) .errInblk s <|
    check (valueLegal (accessOf r) value) .errConfig s <|
    respond 0 0 (writeReg s r value)

end Sys2Proof.Machine
end

