-- ==== Sys2Proof/Machine/Dispatch.lean ====
section
/-! DEFINITION. The meaning of every command: one arm per constructor of Instr (30_encoding.md R108). -/

namespace Sys2Proof.Machine

def exec (i : Instr) (s : State) : Host.Outcome State Fault Refusal :=
  match i with
  | .sysSetsr fs => Sys2Proof.Machine.execSysSetsr fs s
  | .sysRun => Sys2Proof.Machine.execSysRun s
  | .sysSetup => Sys2Proof.Machine.execSysSetup s
  | .blkBegin => Sys2Proof.Machine.execBlkBegin s
  | .blkEnd => Sys2Proof.Machine.execBlkEnd s
  | .regRd cls unit reg => Sys2Proof.Machine.execRegRd cls unit reg s
  | .regWr cls unit reg value => Sys2Proof.Machine.execRegWr cls unit reg value s
  | .bqProc u x => Sys2Proof.Machine.execBqProc u x s
  | .bqSetlp u f q => Sys2Proof.Machine.execBqSetlp u f q s
  | .bqSethp u f q => Sys2Proof.Machine.execBqSethp u f q s
  | .bqSetbp u f q => Sys2Proof.Machine.execBqSetbp u f q s
  | .bqSetnotch u f q => Sys2Proof.Machine.execBqSetnotch u f q s
  | .bqSetloshelf u f q g => Sys2Proof.Machine.execBqSetloshelf u f q g s
  | .bqSethishelf u f q g => Sys2Proof.Machine.execBqSethishelf u f q g s
  | .bqSetpeak u f q g => Sys2Proof.Machine.execBqSetpeak u f q g s
  | .bqSetap u f q => Sys2Proof.Machine.execBqSetap u f q s
  | .bqSetdiff u => Sys2Proof.Machine.execBqSetdiff u s
  | .bqSetonepole u f => Sys2Proof.Machine.execBqSetonepole u f s
  | .oscProc u => Sys2Proof.Machine.execOscProc u s
  | .oscSetf u f => Sys2Proof.Machine.execOscSetf u f s
  | .dlProc u x => Sys2Proof.Machine.execDlProc u x s
  | .dlResize u duration => Sys2Proof.Machine.execDlResize u duration s
  | .dlSetdelay u delay => Sys2Proof.Machine.execDlSetdelay u delay s
  | .dlSetmoddelay u delay => Sys2Proof.Machine.execDlSetmoddelay u delay s
  | .fdnProc u x => Sys2Proof.Machine.execFdnProc u x s
  | .fdnResize u n => Sys2Proof.Machine.execFdnResize u n s
  | .fdnSetlen u longest => Sys2Proof.Machine.execFdnSetlen u longest s
  | .hbProc u x => Sys2Proof.Machine.execHbProc u x s
  | .hbUp u x => Sys2Proof.Machine.execHbUp u x s

end Sys2Proof.Machine
end

