-- ==== Sys2Proof/WellFormed.lean ====
section
/-! DEFINITION. When a command can be written as a command word: every number it names fits its field
(30_encoding.md R100). Whether a unit or a register EXISTS is no matter of form: the block answers it with a
status code (60_exceptions.md R303). -/

namespace Sys2Proof

/-- A class code fits the 4-bit CLS field. -/
def clsFits (cls : Nat) : Bool := decide (cls < 2 ^ 4)

/-- A unit index fits the 8-bit UNIT field. -/
def unitFits (unit : Nat) : Bool := decide (unit < 2 ^ 8)

/-- A register number fits the 12-bit REG field. -/
def regFits (reg : Nat) : Bool := decide (reg < 2 ^ 12)

/-- Every number a command names fits its field. -/
def Instr.wellFormed : Instr → Bool
  | .sysSetsr _ | .sysRun | .sysSetup | .blkBegin | .blkEnd => true
  | .regRd cls unit reg => clsFits cls && unitFits unit && regFits reg
  | .regWr cls unit reg _ => clsFits cls && unitFits unit && regFits reg
  | .bqProc unit _ => unitFits unit
  | .bqSetlp unit _ _ => unitFits unit
  | .bqSethp unit _ _ => unitFits unit
  | .bqSetbp unit _ _ => unitFits unit
  | .bqSetnotch unit _ _ => unitFits unit
  | .bqSetloshelf unit _ _ _ => unitFits unit
  | .bqSethishelf unit _ _ _ => unitFits unit
  | .bqSetpeak unit _ _ _ => unitFits unit
  | .bqSetap unit _ _ => unitFits unit
  | .bqSetdiff unit => unitFits unit
  | .bqSetonepole unit _ => unitFits unit
  | .oscProc unit => unitFits unit
  | .oscSetf unit _ => unitFits unit
  | .dlProc unit _ => unitFits unit
  | .dlResize unit _ => unitFits unit
  | .dlSetdelay unit _ => unitFits unit
  | .dlSetmoddelay unit _ => unitFits unit
  | .fdnProc unit _ => unitFits unit
  | .fdnResize unit _ => unitFits unit
  | .fdnSetlen unit _ => unitFits unit
  | .hbProc unit _ => unitFits unit
  | .hbUp unit _ => unitFits unit

end Sys2Proof
end

