-- ==== Sys2Proof/Decode.lean ====
section
/-! DEFINITION. Command words and commands (30_encoding.md): the fields of a word, the opcode map, decoding (total,
rejecting by name), and after it encoding and the `match` and `mask` words of spec/opcode_table.json. -/

namespace Sys2Proof

/-- The fields of a command word (30_encoding.md R100). -/
structure Fields where
  opc : BitVec 8
  cls : BitVec 4
  unit : BitVec 8
  reg : BitVec 12
  a : U32
  b : U32
  c : U32
  deriving DecidableEq, Repr

/-- The fields read from a word: OPC 127:120, CLS 119:116, UNIT 115:108, REG 107:96, A 95:64, B 63:32, C 31:0
(30_encoding.md R100). -/
def fieldsOf (w : CommandWord) : Fields where
  opc := w.extractLsb' 120 8
  cls := w.extractLsb' 116 4
  unit := w.extractLsb' 108 8
  reg := w.extractLsb' 96 12
  a := w.extractLsb' 64 32
  b := w.extractLsb' 32 32
  c := w.extractLsb' 0 32

/-- The word `OPC ++ CLS ++ UNIT ++ REG ++ A ++ B ++ C` (30_encoding.md R113). -/
def wordOf (f : Fields) : CommandWord := f.opc ++ f.cls ++ f.unit ++ f.reg ++ f.a ++ f.b ++ f.c

/-- Which fields besides OPC a command uses (30_encoding.md R101, R108). -/
structure FieldUse where
  cls : Bool
  unit : Bool
  reg : Bool
  a : Bool
  b : Bool
  c : Bool
  deriving DecidableEq, Repr

/-- The OPC value of each command (30_encoding.md R108). -/
def opcodeByte : Opcode → BitVec 8
  | .sysSetsr => 0x01#8
  | .sysRun => 0x02#8
  | .sysSetup => 0x03#8
  | .blkBegin => 0x04#8
  | .blkEnd => 0x05#8
  | .regRd => 0x06#8
  | .regWr => 0x07#8
  | .bqProc => 0x10#8
  | .bqSetlp => 0x11#8
  | .bqSethp => 0x12#8
  | .bqSetbp => 0x13#8
  | .bqSetnotch => 0x14#8
  | .bqSetloshelf => 0x15#8
  | .bqSethishelf => 0x16#8
  | .bqSetpeak => 0x17#8
  | .bqSetap => 0x18#8
  | .bqSetdiff => 0x19#8
  | .bqSetonepole => 0x1A#8
  | .oscProc => 0x20#8
  | .oscSetf => 0x21#8
  | .dlProc => 0x30#8
  | .dlResize => 0x31#8
  | .dlSetdelay => 0x32#8
  | .dlSetmoddelay => 0x33#8
  | .fdnProc => 0x40#8
  | .fdnResize => 0x41#8
  | .fdnSetlen => 0x42#8
  | .hbProc => 0x50#8
  | .hbUp => 0x51#8

/-- The command an OPC value selects; `none` for the undefined ones (30_encoding.md R107, R108). -/
def opcodeAt (opc : BitVec 8) : Option Opcode :=
  match opc.toNat with
  | 0x01 => some .sysSetsr
  | 0x02 => some .sysRun
  | 0x03 => some .sysSetup
  | 0x04 => some .blkBegin
  | 0x05 => some .blkEnd
  | 0x06 => some .regRd
  | 0x07 => some .regWr
  | 0x10 => some .bqProc
  | 0x11 => some .bqSetlp
  | 0x12 => some .bqSethp
  | 0x13 => some .bqSetbp
  | 0x14 => some .bqSetnotch
  | 0x15 => some .bqSetloshelf
  | 0x16 => some .bqSethishelf
  | 0x17 => some .bqSetpeak
  | 0x18 => some .bqSetap
  | 0x19 => some .bqSetdiff
  | 0x1A => some .bqSetonepole
  | 0x20 => some .oscProc
  | 0x21 => some .oscSetf
  | 0x30 => some .dlProc
  | 0x31 => some .dlResize
  | 0x32 => some .dlSetdelay
  | 0x33 => some .dlSetmoddelay
  | 0x40 => some .fdnProc
  | 0x41 => some .fdnResize
  | 0x42 => some .fdnSetlen
  | 0x50 => some .hbProc
  | 0x51 => some .hbUp
  | _ => none

/-- The "fields used" column of 30_encoding.md R108. -/
def fieldUse : Opcode → FieldUse
  | .sysSetsr => ⟨false, false, false, true, false, false⟩
  | .sysRun => ⟨false, false, false, false, false, false⟩
  | .sysSetup => ⟨false, false, false, false, false, false⟩
  | .blkBegin => ⟨false, false, false, false, false, false⟩
  | .blkEnd => ⟨false, false, false, false, false, false⟩
  | .regRd => ⟨true, true, true, false, false, false⟩
  | .regWr => ⟨true, true, true, true, false, false⟩
  | .bqProc => ⟨false, true, false, true, false, false⟩
  | .bqSetlp => ⟨false, true, false, true, true, false⟩
  | .bqSethp => ⟨false, true, false, true, true, false⟩
  | .bqSetbp => ⟨false, true, false, true, true, false⟩
  | .bqSetnotch => ⟨false, true, false, true, true, false⟩
  | .bqSetloshelf => ⟨false, true, false, true, true, true⟩
  | .bqSethishelf => ⟨false, true, false, true, true, true⟩
  | .bqSetpeak => ⟨false, true, false, true, true, true⟩
  | .bqSetap => ⟨false, true, false, true, true, false⟩
  | .bqSetdiff => ⟨false, true, false, false, false, false⟩
  | .bqSetonepole => ⟨false, true, false, true, false, false⟩
  | .oscProc => ⟨false, true, false, false, false, false⟩
  | .oscSetf => ⟨false, true, false, true, false, false⟩
  | .dlProc => ⟨false, true, false, true, false, false⟩
  | .dlResize => ⟨false, true, false, true, false, false⟩
  | .dlSetdelay => ⟨false, true, false, true, false, false⟩
  | .dlSetmoddelay => ⟨false, true, false, true, false, false⟩
  | .fdnProc => ⟨false, true, false, true, false, false⟩
  | .fdnResize => ⟨false, true, false, true, false, false⟩
  | .fdnSetlen => ⟨false, true, false, true, false, false⟩
  | .hbProc => ⟨false, true, false, true, false, false⟩
  | .hbUp => ⟨false, true, false, true, false, false⟩

/-- Every field the command does not use is zero (30_encoding.md R101). -/
def unusedZero (u : FieldUse) (f : Fields) : Bool :=
  (u.cls || decide (f.cls = 0)) && (u.unit || decide (f.unit = 0)) && (u.reg || decide (f.reg = 0)) &&
    (u.a || decide (f.a = 0)) && (u.b || decide (f.b = 0)) && (u.c || decide (f.c = 0))

/-- The command of an opcode with its operands taken from the fields (30_encoding.md R103, R108). -/
def instrOf (op : Opcode) (f : Fields) : Instr :=
  match op with
  | .sysSetsr => .sysSetsr f.a
  | .sysRun => .sysRun
  | .sysSetup => .sysSetup
  | .blkBegin => .blkBegin
  | .blkEnd => .blkEnd
  | .regRd => .regRd f.cls.toNat f.unit.toNat f.reg.toNat
  | .regWr => .regWr f.cls.toNat f.unit.toNat f.reg.toNat f.a
  | .bqProc => .bqProc f.unit.toNat f.a
  | .bqSetlp => .bqSetlp f.unit.toNat f.a f.b
  | .bqSethp => .bqSethp f.unit.toNat f.a f.b
  | .bqSetbp => .bqSetbp f.unit.toNat f.a f.b
  | .bqSetnotch => .bqSetnotch f.unit.toNat f.a f.b
  | .bqSetloshelf => .bqSetloshelf f.unit.toNat f.a f.b f.c
  | .bqSethishelf => .bqSethishelf f.unit.toNat f.a f.b f.c
  | .bqSetpeak => .bqSetpeak f.unit.toNat f.a f.b f.c
  | .bqSetap => .bqSetap f.unit.toNat f.a f.b
  | .bqSetdiff => .bqSetdiff f.unit.toNat
  | .bqSetonepole => .bqSetonepole f.unit.toNat f.a
  | .oscProc => .oscProc f.unit.toNat
  | .oscSetf => .oscSetf f.unit.toNat f.a
  | .dlProc => .dlProc f.unit.toNat f.a
  | .dlResize => .dlResize f.unit.toNat f.a
  | .dlSetdelay => .dlSetdelay f.unit.toNat f.a
  | .dlSetmoddelay => .dlSetmoddelay f.unit.toNat f.a
  | .fdnProc => .fdnProc f.unit.toNat f.a
  | .fdnResize => .fdnResize f.unit.toNat f.a
  | .fdnSetlen => .fdnSetlen f.unit.toNat f.a
  | .hbProc => .hbProc f.unit.toNat f.a
  | .hbUp => .hbUp f.unit.toNat f.a

/-- Why a word is no command (30_encoding.md R101, R107). -/
inductive IllegalReason where
  /-- OPC is not one of the 29 opcodes. -/
  | undefinedOpcode
  /-- A field the opcode does not use is not zero. -/
  | unusedFieldNotZero
  deriving DecidableEq, Repr

/-- What a word is: a command, or an illegal encoding (30_encoding.md R109). -/
inductive Decoded where
  | command (i : Instr)
  | illegal (why : IllegalReason)
  deriving DecidableEq, Repr

/-- Decoding, total on every 128-bit word (30_encoding.md R109). -/
def decode (w : CommandWord) : Decoded :=
  match opcodeAt (fieldsOf w).opc with
  | none => .illegal .undefinedOpcode
  | some op =>
    if unusedZero (fieldUse op) (fieldsOf w) then .command (instrOf op (fieldsOf w))
    else .illegal .unusedFieldNotZero

/-- The word on the command port for an instruction whose bits are `w`, of which the table gives `nbits`: a
command is one whole word, with no byte order (20_memory.md R77; log 17). -/
def tableWord (nbits w : Nat) : CommandWord := BitVec.ofNat 128 (w % 2 ^ nbits)

/-- The instruction the decoder reads from a table word. -/
def decodeTableWord (nbits w : Nat) : Option Instr :=
  match decode (tableWord nbits w) with
  | .command i => some i
  | .illegal _ => none

/-- The fields a command is written with; the fields it does not use are zero (30_encoding.md R101, R108). -/
def operandFields : Instr → Fields
  | .sysSetsr a => ⟨opcodeByte .sysSetsr, 0, 0, 0, a, 0, 0⟩
  | .sysRun => ⟨opcodeByte .sysRun, 0, 0, 0, 0, 0, 0⟩
  | .sysSetup => ⟨opcodeByte .sysSetup, 0, 0, 0, 0, 0, 0⟩
  | .blkBegin => ⟨opcodeByte .blkBegin, 0, 0, 0, 0, 0, 0⟩
  | .blkEnd => ⟨opcodeByte .blkEnd, 0, 0, 0, 0, 0, 0⟩
  | .regRd cls unit reg => ⟨opcodeByte .regRd, BitVec.ofNat 4 cls, BitVec.ofNat 8 unit, BitVec.ofNat 12 reg, 0, 0, 0⟩
  | .regWr cls unit reg a => ⟨opcodeByte .regWr, BitVec.ofNat 4 cls, BitVec.ofNat 8 unit, BitVec.ofNat 12 reg, a, 0, 0⟩
  | .bqProc unit a => ⟨opcodeByte .bqProc, 0, BitVec.ofNat 8 unit, 0, a, 0, 0⟩
  | .bqSetlp unit a b => ⟨opcodeByte .bqSetlp, 0, BitVec.ofNat 8 unit, 0, a, b, 0⟩
  | .bqSethp unit a b => ⟨opcodeByte .bqSethp, 0, BitVec.ofNat 8 unit, 0, a, b, 0⟩
  | .bqSetbp unit a b => ⟨opcodeByte .bqSetbp, 0, BitVec.ofNat 8 unit, 0, a, b, 0⟩
  | .bqSetnotch unit a b => ⟨opcodeByte .bqSetnotch, 0, BitVec.ofNat 8 unit, 0, a, b, 0⟩
  | .bqSetloshelf unit a b c => ⟨opcodeByte .bqSetloshelf, 0, BitVec.ofNat 8 unit, 0, a, b, c⟩
  | .bqSethishelf unit a b c => ⟨opcodeByte .bqSethishelf, 0, BitVec.ofNat 8 unit, 0, a, b, c⟩
  | .bqSetpeak unit a b c => ⟨opcodeByte .bqSetpeak, 0, BitVec.ofNat 8 unit, 0, a, b, c⟩
  | .bqSetap unit a b => ⟨opcodeByte .bqSetap, 0, BitVec.ofNat 8 unit, 0, a, b, 0⟩
  | .bqSetdiff unit => ⟨opcodeByte .bqSetdiff, 0, BitVec.ofNat 8 unit, 0, 0, 0, 0⟩
  | .bqSetonepole unit a => ⟨opcodeByte .bqSetonepole, 0, BitVec.ofNat 8 unit, 0, a, 0, 0⟩
  | .oscProc unit => ⟨opcodeByte .oscProc, 0, BitVec.ofNat 8 unit, 0, 0, 0, 0⟩
  | .oscSetf unit a => ⟨opcodeByte .oscSetf, 0, BitVec.ofNat 8 unit, 0, a, 0, 0⟩
  | .dlProc unit a => ⟨opcodeByte .dlProc, 0, BitVec.ofNat 8 unit, 0, a, 0, 0⟩
  | .dlResize unit a => ⟨opcodeByte .dlResize, 0, BitVec.ofNat 8 unit, 0, a, 0, 0⟩
  | .dlSetdelay unit a => ⟨opcodeByte .dlSetdelay, 0, BitVec.ofNat 8 unit, 0, a, 0, 0⟩
  | .dlSetmoddelay unit a => ⟨opcodeByte .dlSetmoddelay, 0, BitVec.ofNat 8 unit, 0, a, 0, 0⟩
  | .fdnProc unit a => ⟨opcodeByte .fdnProc, 0, BitVec.ofNat 8 unit, 0, a, 0, 0⟩
  | .fdnResize unit a => ⟨opcodeByte .fdnResize, 0, BitVec.ofNat 8 unit, 0, a, 0, 0⟩
  | .fdnSetlen unit a => ⟨opcodeByte .fdnSetlen, 0, BitVec.ofNat 8 unit, 0, a, 0, 0⟩
  | .hbProc unit a => ⟨opcodeByte .hbProc, 0, BitVec.ofNat 8 unit, 0, a, 0, 0⟩
  | .hbUp unit a => ⟨opcodeByte .hbUp, 0, BitVec.ofNat 8 unit, 0, a, 0, 0⟩

/-- Encoding: the word of a command (30_encoding.md R100, R108). -/
def encode (i : Instr) : CommandWord := wordOf (operandFields i)

/-- The `match` word of a row of spec/opcode_table.json (30_encoding.md R110). -/
def matchWord : Opcode → CommandWord
  | .sysSetsr => 0x01000000000000000000000000000000#128
  | .sysRun => 0x02000000000000000000000000000000#128
  | .sysSetup => 0x03000000000000000000000000000000#128
  | .blkBegin => 0x04000000000000000000000000000000#128
  | .blkEnd => 0x05000000000000000000000000000000#128
  | .regRd => 0x06000000000000000000000000000000#128
  | .regWr => 0x07000000000000000000000000000000#128
  | .bqProc => 0x10000000000000000000000000000000#128
  | .bqSetlp => 0x11000000000000000000000000000000#128
  | .bqSethp => 0x12000000000000000000000000000000#128
  | .bqSetbp => 0x13000000000000000000000000000000#128
  | .bqSetnotch => 0x14000000000000000000000000000000#128
  | .bqSetloshelf => 0x15000000000000000000000000000000#128
  | .bqSethishelf => 0x16000000000000000000000000000000#128
  | .bqSetpeak => 0x17000000000000000000000000000000#128
  | .bqSetap => 0x18000000000000000000000000000000#128
  | .bqSetdiff => 0x19000000000000000000000000000000#128
  | .bqSetonepole => 0x1A000000000000000000000000000000#128
  | .oscProc => 0x20000000000000000000000000000000#128
  | .oscSetf => 0x21000000000000000000000000000000#128
  | .dlProc => 0x30000000000000000000000000000000#128
  | .dlResize => 0x31000000000000000000000000000000#128
  | .dlSetdelay => 0x32000000000000000000000000000000#128
  | .dlSetmoddelay => 0x33000000000000000000000000000000#128
  | .fdnProc => 0x40000000000000000000000000000000#128
  | .fdnResize => 0x41000000000000000000000000000000#128
  | .fdnSetlen => 0x42000000000000000000000000000000#128
  | .hbProc => 0x50000000000000000000000000000000#128
  | .hbUp => 0x51000000000000000000000000000000#128

/-- The `mask` word of a row of spec/opcode_table.json (30_encoding.md R110). -/
def maskWord : Opcode → CommandWord
  | .sysSetsr => 0xFFFFFFFF00000000FFFFFFFFFFFFFFFF#128
  | .sysRun => 0xFFFFFFFFFFFFFFFFFFFFFFFFFFFFFFFF#128
  | .sysSetup => 0xFFFFFFFFFFFFFFFFFFFFFFFFFFFFFFFF#128
  | .blkBegin => 0xFFFFFFFFFFFFFFFFFFFFFFFFFFFFFFFF#128
  | .blkEnd => 0xFFFFFFFFFFFFFFFFFFFFFFFFFFFFFFFF#128
  | .regRd => 0xFF000000FFFFFFFFFFFFFFFFFFFFFFFF#128
  | .regWr => 0xFF00000000000000FFFFFFFFFFFFFFFF#128
  | .bqProc => 0xFFF00FFF00000000FFFFFFFFFFFFFFFF#128
  | .bqSetlp => 0xFFF00FFF0000000000000000FFFFFFFF#128
  | .bqSethp => 0xFFF00FFF0000000000000000FFFFFFFF#128
  | .bqSetbp => 0xFFF00FFF0000000000000000FFFFFFFF#128
  | .bqSetnotch => 0xFFF00FFF0000000000000000FFFFFFFF#128
  | .bqSetloshelf => 0xFFF00FFF000000000000000000000000#128
  | .bqSethishelf => 0xFFF00FFF000000000000000000000000#128
  | .bqSetpeak => 0xFFF00FFF000000000000000000000000#128
  | .bqSetap => 0xFFF00FFF0000000000000000FFFFFFFF#128
  | .bqSetdiff => 0xFFF00FFFFFFFFFFFFFFFFFFFFFFFFFFF#128
  | .bqSetonepole => 0xFFF00FFF00000000FFFFFFFFFFFFFFFF#128
  | .oscProc => 0xFFF00FFFFFFFFFFFFFFFFFFFFFFFFFFF#128
  | .oscSetf => 0xFFF00FFF00000000FFFFFFFFFFFFFFFF#128
  | .dlProc => 0xFFF00FFF00000000FFFFFFFFFFFFFFFF#128
  | .dlResize => 0xFFF00FFF00000000FFFFFFFFFFFFFFFF#128
  | .dlSetdelay => 0xFFF00FFF00000000FFFFFFFFFFFFFFFF#128
  | .dlSetmoddelay => 0xFFF00FFF00000000FFFFFFFFFFFFFFFF#128
  | .fdnProc => 0xFFF00FFF00000000FFFFFFFFFFFFFFFF#128
  | .fdnResize => 0xFFF00FFF00000000FFFFFFFFFFFFFFFF#128
  | .fdnSetlen => 0xFFF00FFF00000000FFFFFFFFFFFFFFFF#128
  | .hbProc => 0xFFF00FFF00000000FFFFFFFFFFFFFFFF#128
  | .hbUp => 0xFFF00FFF00000000FFFFFFFFFFFFFFFF#128

end Sys2Proof
end

