-- ==== Sys2Proof/Machine/Port.lean ====
section
/-! DEFINITION. What the block takes from its port, one input a step (00_scope.md R8, R9; 70_reset_and_hazards.md R340). -/

namespace Sys2Proof.Machine

/-- The first input taken off the port; `draws` is not yet advanced. -/
def State.taking (s : State) (rest : List PortInput) : State := { s with port := { s.port with inputs := rest } }

/-- The count of inputs taken advanced, so that the next command draws fresh NaN bits (log 6). -/
def State.counted (s : State) : State := { s with draws := s.draws + 1 }

/-- The answer of a command with the count of inputs advanced in its next state. -/
def countedOut : Out → Out
  | .next s => .next s.counted
  | .fault r => .fault r
  | .refused r => .refused r

/-- `rst`: every register and memory takes its reset value (70_reset_and_hazards.md R340, R341). The configuration stays, and
so do the inputs still to come and the responses already given (log 3). -/
def State.resetPin (s : State) : State :=
  { State.resetOf s.counts s.cfg with port := s.port, draws := s.draws }

/-- A command word put in front of what the host is going to present. -/
def State.presented (s : State) (w : CommandWord) : State :=
  { s with port := { s.port with inputs := .command w :: s.port.inputs } }

end Sys2Proof.Machine
end

