-- ==== Sys2Proof/Machine/Step.lean ====
section
/-! DEFINITION. One step of the block: it takes the first input of its port, performs it completely and answers (00_scope.md
R3, R9; 20_memory.md R79, R80). -/

namespace Sys2Proof.Machine

/-- A command word performed: a command has its meaning, an illegal encoding is refused with ERR_OPCODE
(30_encoding.md R101, R107, R109). -/
def perform (w : CommandWord) (s : State) : Host.Outcome State Fault Refusal :=
  match decode w with
  | .command i => exec i s
  | .illegal _ => refused .errOpcode s

/-- One step. With nothing presented the block waits and nothing changes (70_reset_and_hazards.md R340, 00_scope.md R3). -/
def step (s : State) : Host.Outcome State Fault Refusal :=
  match s.port.inputs with
  | [] => .next s
  | .reset :: rest => .next (s.taking rest).resetPin.counted
  | .command w :: rest => countedOut (perform w (s.taking rest))

/-- `s` with a table word presented at the port, so that the very next step takes it (log 2). -/
def State.withFetchWord (s : State) (nbits w : Nat) : State := s.presented (tableWord nbits w)

end Sys2Proof.Machine
end

