-- ==== Sys2Proof/Machine/Pseudo.lean ====
section
/-! DEFINITION. The assembler's literals and the eleven pseudo-commands, each a list of REG.WR (30_encoding.md R111, R112). -/

namespace Sys2Proof.Machine

/-- An operand as the assembler writes it (30_encoding.md R111): a decimal numeral `digits * 10^-places`, a bit
pattern after `#0x`, or a U32 numeral. -/
inductive Literal where
  | decimal (negative : Bool) (digits places : Nat)
  | pattern (bits : U32)
  | whole (n : Nat)
  deriving DecidableEq, Repr

/-- The 32 bits of a literal: a decimal numeral means the nearest binary32 value, ties to even (30_encoding.md R111). DESIGN
CHOICE (log 19), where R111 is silent: a decimal from half a step above the largest finite value on is an infinity of its sign, a
decimal whose nearest value is zero keeps its sign, and a U32 numeral of 2^32 or more is taken modulo 2^32. -/
def literalBits : Literal → U32
  | .decimal negative digits places => pack negative (roundMag (digits * oneUnits) (10 ^ places))
  | .pattern bits => bits
  | .whole n => BitVec.ofNat 32 n

/-- The pseudo-commands (30_encoding.md R112). -/
inductive Pseudo where
  | bqSetcoef (u : Nat) (a0 a1 a2 b1 b2 : F)
  | bqClear (u : Nat)
  | oscSetphase (u : Nat) (p : U32)
  | oscSetwave (u : Nat) (w : U32)
  | dlSetkind (u : Nat) (k : U32)
  | dlSetmix (u : Nat) (dry ff fb : F)
  | dlSetfixed (u : Nat) (n : U32)
  | fdnSetfb (u : Nat) (g : F)
  | fdnSetratio (u : Nat) (r : F)
  | fdnSetdamp (u j : Nat) (a0 a1 a2 b1 b2 : F)
  | hbClear (u : Nat)
  deriving DecidableEq, Repr

/-- `REG.WR` of a register by its name (30_encoding.md R111). -/
def regWrOf (r : Reg) (v : U32) : Instr := .regWr (regTriple r).1 (regTriple r).2.1 (regTriple r).2.2 v

/-- The commands that clear one section of an HB unit (30_encoding.md R112). -/
def clearSection (u sec : Nat) : List Instr :=
  [regWrOf (.sect u sec .sx1) F.zero, regWrOf (.sect u sec .sx2) F.zero,
    regWrOf (.sect u sec .sy1) F.zero, regWrOf (.sect u sec .sy2) F.zero]

/-- The expansion column of 30_encoding.md R112, for a block with `nsec` half-band sections a cascade. -/
def expand (nsec : Nat) : Pseudo → List Instr
  | .bqSetcoef u a0 a1 a2 b1 b2 =>
    [regWrOf (.bq u .a0) a0, regWrOf (.bq u .a1) a1, regWrOf (.bq u .a2) a2, regWrOf (.bq u .b1) b1,
      regWrOf (.bq u .b2) b2]
  | .bqClear u =>
    [regWrOf (.bq u .x1) F.zero, regWrOf (.bq u .x2) F.zero, regWrOf (.bq u .y1) F.zero, regWrOf (.bq u .y2) F.zero]
  | .oscSetphase u p => [regWrOf (.osc u .phase) p]
  | .oscSetwave u w => [regWrOf (.osc u .wave) w]
  | .dlSetkind u k => [regWrOf (.dl u .kind) k]
  | .dlSetmix u dry ff fb => [regWrOf (.dl u .gDry) dry, regWrOf (.dl u .gFf) ff, regWrOf (.dl u .gFb) fb]
  | .dlSetfixed u n => [regWrOf (.dl u .fixdly) n]
  | .fdnSetfb u g => [regWrOf (.fdn u .fb) g]
  | .fdnSetratio u r => [regWrOf (.fdn u .ratio) r]
  | .fdnSetdamp u j a0 a1 a2 b1 b2 =>
    [regWrOf (.line u j .da0) a0, regWrOf (.line u j .da1) a1, regWrOf (.line u j .da2) a2,
      regWrOf (.line u j .db1) b1, regWrOf (.line u j .db2) b2]
  | .hbClear u => regWrOf (.bdly u) F.zero :: (List.range (2 * nsec)).flatMap (clearSection u)

/-- The status of the response given last. -/
def lastStatus (s : State) : Option Status := (s.port.outputs.head?).map (fun r => r.status)

/-- Commands performed in order up to and including the first refused one (30_encoding.md R112; log 16). -/
def execUntilRefused : List Instr → State → Out
  | [], s => .next s
  | i :: rest, s =>
    match exec i s with
    | .next t => if lastStatus t = some .ok then execUntilRefused rest t else .next t
    | .fault r => .fault r
    | .refused r => .refused r

/-- A pseudo-command: the writes before the first refused one have taken effect (30_encoding.md R112). -/
def execPseudo (p : Pseudo) (s : State) : Out := execUntilRefused (expand s.cfg.hbNsec p) s

end Sys2Proof.Machine
end

