-- ==== Sys2Proof/Machine/View.lean ====
section
/-! DEFINITION. What a claim sees of the block: registers by name, delay memories sample by sample, the response at the port;
and the causes of a refusal as a list in the order of 60_exceptions.md R305, written from R303. No meaning uses this file. -/

namespace Sys2Proof.Machine

/-- The index ranges of the registers that have indices (10_state.md R39, R40, R44). -/
def inRange (s : State) : Reg → Prop
  | .matrix u i j => i < fdnLineCount s u ∧ j < fdnLineCount s u
  | .line u j _ => j < fdnLineCount s u
  | .sect _ sec _ => sec < 2 * s.cfg.hbNsec
  | _ => True

/-- A register the block has as it stands (20_memory.md R71). -/
def DefinedReg (s : State) (r : Reg) : Prop :=
  ∃ cls unit reg, unitExists s cls unit = true ∧ regAt s cls unit reg = some r

/-- The sample at an index of the delay memory of DL unit `u` (10_state.md R34). -/
def dlSample (s : State) (u i : Nat) : F := readAt s.dl u (fun l => memRead l.buf i)

/-- The sample at an index of the memory of line `j` of FDN unit `u` (10_state.md R41). -/
def lineSample (s : State) (u j i : Nat) : F := readAt s.fdn u (fun f => readAt f.lines j (fun l => memRead l.buf i))

/-- Every line memory reads as before. -/
def linesSame (s t : State) : Prop := ∀ u j i, lineSample t u j i = lineSample s u j i

/-- Every delay memory of the block reads as before. -/
def memSame (s t : State) : Prop := (∀ u i, dlSample t u i = dlSample s u i) ∧ linesSame s t

/-- One sample of DL unit `u` was written, at index `k`, and no other delay memory of the block. -/
def dlWritten (s t : State) (u k : Nat) (v : F) : Prop :=
  (∀ w i, dlSample t w i = if w = u ∧ i = k then v else dlSample s w i) ∧ linesSame s t

/-- Every register reads as before but those listed, which read as listed. -/
def regsExcept (s t : State) (written : List (Reg × U32)) : Prop :=
  ∀ r, readReg t r = (written.lookup r).getD (readReg s r)

/-- The command that led from `s` to `t` was accepted and answered `r0`, `r1`: one response at the port; configuration, unit
counts, inputs and the model's count as they were. -/
def answered (s t : State) (r0 r1 : U32) : Prop :=
  t.port = { inputs := s.port.inputs, outputs := { status := .ok, res0 := r0, res1 := r1 } :: s.port.outputs } ∧
    t.cfg = s.cfg ∧ t.counts = s.counts ∧ t.draws = s.draws

/-- The unit count of a class (60_exceptions.md R303, last paragraph). -/
def classCount (s : State) : Nat → Nat
  | 1 => s.counts.nBq
  | 2 => s.counts.nOsc
  | 3 => s.counts.nDl
  | 4 => s.counts.nFdn
  | 5 => s.counts.nHb
  | _ => 0

/-- The (class, unit) a command names, if it names one (30_encoding.md R102). -/
def targetOf : Instr → Option (Nat × Nat)
  | .sysSetsr _ | .sysRun | .sysSetup | .blkBegin | .blkEnd => none
  | .regRd cls u _ | .regWr cls u _ _ => some (cls, u)
  | .bqProc u _ | .bqSetonepole u _ | .bqSetdiff u => some (1, u)
  | .bqSetlp u _ _ | .bqSethp u _ _ | .bqSetbp u _ _ | .bqSetnotch u _ _ | .bqSetap u _ _ => some (1, u)
  | .bqSetloshelf u _ _ _ | .bqSethishelf u _ _ _ | .bqSetpeak u _ _ _ => some (1, u)
  | .oscProc u | .oscSetf u _ => some (2, u)
  | .dlProc u _ | .dlResize u _ | .dlSetdelay u _ | .dlSetmoddelay u _ => some (3, u)
  | .fdnProc u _ | .fdnResize u _ | .fdnSetlen u _ => some (4, u)
  | .hbProc u _ | .hbUp u _ => some (5, u)

/-- The ten BQ setters (41_biquad.md R162). -/
def bqSetters : List Opcode :=
  [.bqSetlp, .bqSethp, .bqSetbp, .bqSetnotch, .bqSetloshelf, .bqSethishelf, .bqSetpeak, .bqSetap, .bqSetdiff,
    .bqSetonepole]

/-- The commands that read `SYS.FS`, and SYS.RUN (60_exceptions.md R303). -/
def needsRate : List Opcode :=
  [.sysRun, .bqSetlp, .bqSethp, .bqSetbp, .bqSetnotch, .bqSetloshelf, .bqSethishelf, .bqSetpeak, .bqSetap,
    .bqSetonepole, .oscSetf, .dlResize, .dlSetdelay, .dlSetmoddelay, .fdnSetlen]

/-- The cause of ERR_UNIT (60_exceptions.md R303). -/
def causeUnit (s : State) (i : Instr) : Prop :=
  match targetOf i with
  | none => False
  | some (cls, u) => 5 < cls ∨ (cls = 0 ∧ u ≠ 0) ∨ (1 ≤ cls ∧ cls ≤ 5 ∧ classCount s cls ≤ u)

/-- The cause of ERR_REG (60_exceptions.md R303). -/
def causeReg (s : State) : Instr → Prop
  | .regRd cls u reg => regAt s cls u reg = none
  | .regWr cls u reg _ => regAt s cls u reg = none ∨ ∃ r, regAt s cls u reg = some r ∧ accessOf r = .ro
  | _ => False

/-- The cause of ERR_MODE (60_exceptions.md R303). -/
def causeMode (s : State) (i : Instr) : Prop :=
  (i.opcode ∈ [Opcode.sysSetsr, .sysRun, .dlResize, .fdnResize] ∧ s.sys.mode = 1) ∨
    (i.opcode ∈ [Opcode.sysSetup, .blkBegin, .blkEnd] ∧ s.sys.mode = 0)

/-- The cause of ERR_INBLK (60_exceptions.md R303). -/
def causeInblk (s : State) (i : Instr) : Prop :=
  (i.opcode ∈ bqSetters ++ [.fdnSetlen, .regWr, .sysSetup, .blkBegin] ∧ s.sys.inblk = 1) ∨
    (i.opcode = .blkEnd ∧ s.sys.inblk = 0)

/-- The causes of ERR_CONFIG (60_exceptions.md R303). -/
def causeConfig (s : State) (i : Instr) : Prop :=
  (i.opcode ∈ needsRate ∧ feq s.sys.fs F.zero = true) ∨
    match i with
    | .sysSetsr fs => isNan fs = true ∨ isInf fs = true ∨ flt F.zero fs = false
    | .dlResize _ d =>
      let p := s.cfg.num.fmul [] d s.sys.fs
      isNan p = true ∨ flt p F.zero = true ∨ flt (pow2 s.cfg.dlMaxLog2) p = true
    | .fdnResize _ n => s.cfg.fdnNCap < n.toNat
    | .regWr cls u reg v =>
      ∃ r top, regAt s cls u reg = some r ∧ accessOf r = .rwEnum top ∧ top < v.toNat
    | _ => False

/-- The one code reported is that of the first cause that applies; `none` where no cause applies (60_exceptions.md R305, checks
2 to 6). -/
def firstCause (s : State) (i : Instr) (code : Option Status) : Prop :=
  (causeUnit s i ∧ code = some .errUnit) ∨
    (¬ causeUnit s i ∧
      ((causeReg s i ∧ code = some .errReg) ∨
        (¬ causeReg s i ∧
          ((causeMode s i ∧ code = some .errMode) ∨
            (¬ causeMode s i ∧
              ((causeInblk s i ∧ code = some .errInblk) ∨
                (¬ causeInblk s i ∧
                  ((causeConfig s i ∧ code = some .errConfig) ∨ (¬ causeConfig s i ∧ code = none)))))))))

/-- `v` is the exact real `x` (both in units of 2^-149) rounded to binary32 (40_numerics.md R132, R133): an infinity from half a step
above the largest finite value on, else a nearest finite value, the even pattern where two are equally near, with the sign of
`x`. -/
def RoundsTo (v : F) (x : ℝ) : Prop :=
  isNan v = false ∧ (isInf v = true ↔ 2 ^ 277 - 2 ^ 252 ≤ |x|) ∧ (x ≠ 0 → (signBit v = true ↔ x < 0)) ∧
    (isInf v = false → ∀ w, isFinite w = true →
      |x - signedUnits v| ≤ |x - signedUnits w| ∧
      (|x - signedUnits v| = |x - signedUnits w| → signedUnits w ≠ signedUnits v → v.toNat % 2 = 0))

/-- `sec(s, v)` as 45_halfband.md R263 writes it: `h` and `h'` are the section before and after, `v` its input and `y` its
output. -/
def SectionStep (nm : Num) (coef : F) (h h' : HbSection) (v y : F) : Prop :=
  (∃ e : Nat → Draw, y = nm.fadd (e 2) (nm.fmul (e 1) coef (nm.fsub (e 0) v h.sy2)) h.sx2) ∧
    h'.sx2 = h.sx1 ∧ h'.sx1 = v ∧ h'.sy2 = h.sy1 ∧ h'.sy1 = y

/-- `hbstep(v)` as 45_halfband.md R264 writes it: `a k` and `b k` are what goes into section `k` of cascade A and of cascade B, and
what comes out of the section before. -/
def HalfBandStep (c : Cfg) (h h' : HbUnit) (v y : F) : Prop :=
  h'.secs.length = h.secs.length ∧
    ∃ (a b : Nat → F) (e : Nat → Draw),
      a 0 = v ∧ b 0 = v ∧
      (∀ k, k < c.hbNsec → ∃ p p', h.secs[k]? = some p ∧ h'.secs[k]? = some p' ∧
        SectionStep c.num (c.hbCoefA.getD k F.zero) p p' (a k) (a (k + 1))) ∧
      (∀ k, k < c.hbNsec → ∃ p p', h.secs[c.hbNsec + k]? = some p ∧ h'.secs[c.hbNsec + k]? = some p' ∧
        SectionStep c.num (c.hbCoefB.getD k F.zero) p p' (b k) (b (k + 1))) ∧
      y = c.num.fmul (e 1) F.half (c.num.fadd (e 0) (a c.hbNsec) h.bdly) ∧ h'.bdly = b c.hbNsec

end Sys2Proof.Machine
end

