-- ==== Sys2Proof/Safety.lean ====
section
/-! DEFINITION. What a sound state of the block is, in the terms the claims use: the invariant `Sound` every step keeps, and
the safety of a run. -/

namespace Sys2Proof.Machine

/-- The two flags are one of the three control states (46_system.md R287; 10_state.md R24, R25). -/
def flagsOk (r : SysRegs) : Prop :=
  (r.mode = 0 ∨ r.mode = 1) ∧ (r.inblk = 0 ∨ r.inblk = 1) ∧ (r.inblk = 1 → r.mode = 1)

/-- The sample rate is `+0.0`, or one SYS.SETSR takes; the block is in RUN only with a sample rate (10_state.md R24,
46_system.md R281, R282). -/
def rateOk (r : SysRegs) : Prop :=
  (r.fs = F.zero ∨ sampleRateOk r.fs = true) ∧ (r.mode = 1 → sampleRateOk r.fs = true)

/-- LASTERR holds a code, and is zero exactly while nothing has been refused (10_state.md R24, R26). -/
def errorsOk (r : SysRegs) : Prop := r.lasterr.toNat ≤ 6 ∧ (r.lasterr = 0 ↔ r.errcnt = 0)

/-- WAVE is a legal value, and INC is the one derived from FREQ and the sample rate (10_state.md R30, R31). -/
def oscOk (nm : Num) (fs : F) (o : OscUnit) : Prop :=
  o.wave.toNat ≤ 1 ∧ ((fs = F.zero ∧ o.freq = F.zero ∧ o.inc = 0) ∨ ∃ d, o.inc = incOf nm d o.freq fs)

/-- KIND is a legal value, the length fits the memory, and the memory is canonical with every sample outside the part in
use silent (10_state.md R33, R34). -/
def dlOk (maxLog2 : Nat) (l : DlUnit) : Prop :=
  l.kind.toNat ≤ 2 ∧ l.log2len.toNat ≤ maxLog2 ∧ Memory.wf l.buf = true ∧ memFits l.log2len.toNat l.buf = true

/-- A line's memory is canonical and inside its size (10_state.md R41). -/
def lineOk (lineLog2 : Nat) (l : FdnLine) : Prop := Memory.wf l.buf = true ∧ memFits lineLog2 l.buf = true

/-- N is a legal line count; 16 lines, 256 matrix registers (10_state.md R38 to R41). -/
def fdnOk (c : Cfg) (f : FdnUnit) : Prop :=
  f.n.toNat ≤ c.fdnNCap ∧ f.lines.length = 16 ∧ f.m.length = 256 ∧ ∀ l ∈ f.lines, lineOk c.fdnLineLog2 l

/-- An HB unit has the sections of both cascades (10_state.md R42). -/
def hbOk (c : Cfg) (h : HbUnit) : Prop := h.secs.length = 2 * c.hbNsec

/-- The invariant of the block. -/
structure Sound (s : State) : Prop where
  /-- 00_scope.md R6, sizes. -/
  cfg : s.cfg.ok = true
  /-- 00_scope.md R6, unit counts. -/
  counts : s.counts.ok = true
  flags : flagsOk s.sys
  rate : rateOk s.sys
  errors : errorsOk s.sys
  osc : ∀ o ∈ s.osc, oscOk s.cfg.num s.sys.fs o
  dl : ∀ l ∈ s.dl, dlOk s.cfg.dlMaxLog2 l
  fdn : ∀ f ∈ s.fdn, fdnOk s.cfg f
  hb : ∀ h ∈ s.hb, hbOk s.cfg h

/-- How many command words are among the inputs. -/
def commandCount : List PortInput → Nat
  | [] => 0
  | .command _ :: rest => commandCount rest + 1
  | .reset :: rest => commandCount rest

/-- A safe run of `k` steps: it ends in a next state, never in a fault or a refusal of the model, and that state is
sound (60_exceptions.md R301: there is no fault state). -/
def SafeRun (k : Nat) (s : State) : Prop := ∃ t, Host.Core.run
  { State := State, Fault := Fault, Refusal := Refusal, step := step, reset := State.reset } k s = .next t ∧ Sound t

end Sys2Proof.Machine
end

