-- ==== Sys2Proof/Certificates/Slice0/Obligations.lean ====
section
/-! DEFINITION. The statements for the provers. Where a statement says that there is an `e` into `Draw`, the float operations of
the rule give what the rule says, and a NaN among their results is drawn at a place the statement says nothing of
(40_numerics.md R133, log 6). -/

section
open Sys2Proof Sys2Proof.Machine

/-! ## Encoding -/

/-- 30_encoding.md R113: the nine worked words. -/
def Obligations.WorkedWordsDecode : Prop :=
  decode 0x01000000473B80000000000000000000#128 = .command (.sysSetsr 0x473B8000#32) ∧
  decode 0x02000000000000000000000000000000#128 = .command .sysRun ∧
  decode 0x04000000000000000000000000000000#128 = .command .blkBegin ∧
  decode 0x100030003F8000000000000000000000#128 = .command (.bqProc 3 0x3F800000#32) ∧
  decode 0x11000000447A00003F00000000000000#128 = .command (.bqSetlp 0 0x447A0000#32 0x3F000000#32) ∧
  decode 0x07102003BF0000000000000000000000#128 = .command (.regWr 1 2 3 0xBF000000#32) ∧
  decode 0x06400110000000000000000000000000#128 = .command (.regRd 4 0 0x110) ∧
  decode 0x41000000000000040000000000000000#128 = .command (.fdnResize 0 4#32) ∧
  decode 0x510010003E8000000000000000000000#128 = .command (.hbUp 1 0x3E800000#32)

/-- 30_encoding.md R100, R101, R103, R108, R109: decoding the word of a well-formed command gives the command back. -/
def Obligations.DecodeOfEncode : Prop :=
  ∀ i : Instr, i.wellFormed = true → decode (encode i) = .command i

/-- 30_encoding.md R100, R101, R109: a word that decodes to a command is the word of that command. -/
def Obligations.EncodeOfDecode : Prop :=
  ∀ w i, decode w = .command i → encode i = w ∧ i.wellFormed = true

/-- 30_encoding.md R110: `match` and `mask` of every row, and a word is the command iff it matches the row. -/
def Obligations.DecodeIsTableMatch : Prop :=
  (∀ op, matchWord op = wordOf { opc := opcodeByte op, cls := 0, unit := 0, reg := 0, a := 0, b := 0, c := 0 }) ∧
  (∀ op, maskWord op = wordOf
    { opc := BitVec.allOnes 8
      cls := if (fieldUse op).cls then 0 else BitVec.allOnes 4
      unit := if (fieldUse op).unit then 0 else BitVec.allOnes 8
      reg := if (fieldUse op).reg then 0 else BitVec.allOnes 12
      a := if (fieldUse op).a then 0 else BitVec.allOnes 32
      b := if (fieldUse op).b then 0 else BitVec.allOnes 32
      c := if (fieldUse op).c then 0 else BitVec.allOnes 32 }) ∧
  ∀ w op, (∃ i, decode w = .command i ∧ i.opcode = op) ↔ w &&& maskWord op = matchWord op

/-- 30_encoding.md R109: every word matches exactly one row and is that command, or matches none and is illegal, for one of two
reasons. -/
def Obligations.EveryWordOneCommandOrIllegal : Prop :=
  ∀ w,
    ((∃ i, decode w = .command i ∧ ∀ op, w &&& maskWord op = matchWord op ↔ op = i.opcode) ∨
      ((∃ why, decode w = .illegal why) ∧ ∀ op, w &&& maskWord op ≠ matchWord op)) ∧
    (decode w = .illegal .undefinedOpcode ↔ ∀ op, (fieldsOf w).opc ≠ opcodeByte op) ∧
    (decode w = .illegal .unusedFieldNotZero ↔
      ∃ op, (fieldsOf w).opc = opcodeByte op ∧ unusedZero (fieldUse op) (fieldsOf w) = false)

/-- 30_encoding.md R101, R107: an undefined opcode or a nonzero unused field is refused with ERR_OPCODE; opcode 0x00 and groups 6
to 15 are undefined. -/
def Obligations.IllegalWordsRefused : Prop :=
  (∀ s w rest, s.port.inputs = .command w :: rest →
    ((∀ op, (fieldsOf w).opc ≠ opcodeByte op) ∨
      (∃ op, (fieldsOf w).opc = opcodeByte op ∧ unusedZero (fieldUse op) (fieldsOf w) = false)) →
    step s = .next (refuse .errOpcode (s.taking rest)).counted) ∧
  (∀ op, opcodeByte op ≠ 0 ∧ (opcodeByte op).toNat < 0x60) ∧
  unusedZero (fieldUse .sysRun) (fieldsOf 0) = true

/-! ## The machine -/

/-- 00_scope.md R3, R9; 20_memory.md R80: a step takes the first word of the port and is the meaning of its command, at the
state with that word taken off; the count of inputs (log 6) goes up by one. A table word put at the port is what the very
next step runs (log 2). -/
def Obligations.StepRunsTheDecodedCommand : Prop :=
  (∀ s w rest i, s.port.inputs = .command w :: rest → decode w = .command i →
    step s = countedOut (exec i (s.taking rest))) ∧
  (∀ s nbits w i, decodeTableWord nbits w = some i → step (s.withFetchWord nbits w) = countedOut (exec i s)) ∧
  (∀ t, countedOut (.next t) = .next { t with draws := t.draws + 1 })

/-- 70_reset_and_hazards.md R340, 00_scope.md R3, with the model's port (logs 1, 3): with nothing presented nothing changes; `rst`
brings the whole state of the block to its reset value, gives no response, and keeps the configuration. -/
def Obligations.IdleAndResetSteps : Prop :=
  (∀ s, s.port.inputs = [] → step s = .next s) ∧
  (∀ s rest, s.port.inputs = .reset :: rest →
    step s = .next
      { State.resetOf s.counts s.cfg with
        port := { inputs := rest, outputs := s.port.outputs }, draws := s.draws + 1 })

/-- 00_scope.md R8, in the model's port (log 1): exactly one response for a command word taken, none for a pulse of `rst`. -/
def Obligations.OneResponsePerCommand : Prop :=
  ∀ s t, step s = .next t →
    (∀ w rest, s.port.inputs = .command w :: rest →
      t.port.inputs = rest ∧ ∃ r, t.port.outputs = r :: s.port.outputs) ∧
    (∀ rest, s.port.inputs = .reset :: rest → t.port = { s.port with inputs := rest })

/-- 30_encoding.md R104: the fields of the response word; RES0 = RES1 = 0 when STATUS is not OK; an unused result word is 0, for
every word the block takes. -/
def Obligations.ResponseFormat : Prop :=
  (∀ r : Response,
    (responseWord r).extractLsb' 88 8 = statusCode r.status ∧ (responseWord r).extractLsb' 64 24 = 0 ∧
      (responseWord r).extractLsb' 32 32 = r.res0 ∧ (responseWord r).extractLsb' 0 32 = r.res1) ∧
  (∀ s t w rest r, s.port.inputs = .command w :: rest → step s = .next t → t.port.outputs = r :: s.port.outputs →
    (statusCode r.status ≠ 0 → r.res0 = 0 ∧ r.res1 = 0) ∧
    ∀ i, decode w = .command i →
      (i.opcode ≠ .hbUp → r.res1 = 0) ∧
      (i.opcode ∉ [Opcode.regRd, .bqProc, .oscProc, .dlProc, .fdnProc, .hbProc, .hbUp] → r.res0 = 0))

/-- 00_scope.md R8, R9; 60_exceptions.md R301: from every sound state a run over all the inputs ends in a next state with one more
response for every command, in order behind those already given; no run ends in a fault or a refusal of the model. -/
def Obligations.RunAnswersEveryCommand : Prop :=
  ∀ s, Sound s →
    (∀ k, SafeRun k s) ∧
    ∃ t rs, Sys2Proof.core.run s.port.inputs.length s = .next t ∧ t.port.inputs = [] ∧
      t.port.outputs = rs ++ s.port.outputs ∧ rs.length = commandCount s.port.inputs

/-- 10_state.md R47 with R24, R39, R40, R43: what every register reads after reset and what every delay memory holds, for every
configuration; no matrix or line register is defined yet. -/
def Obligations.ResetValues : Prop :=
  ∀ n c,
    let s := State.resetOf n c
    readReg s (.sys .mode) = 0 ∧ readReg s (.sys .inblk) = 0 ∧ readReg s (.sys .fs) = F.zero ∧
    readReg s (.sys .lasterr) = 0 ∧ readReg s (.sys .errcnt) = 0 ∧
    readReg s (.sys .nBq) = BitVec.ofNat 32 n.nBq ∧ readReg s (.sys .nOsc) = BitVec.ofNat 32 n.nOsc ∧
    readReg s (.sys .nDl) = BitVec.ofNat 32 n.nDl ∧ readReg s (.sys .nFdn) = BitVec.ofNat 32 n.nFdn ∧
    readReg s (.sys .nHb) = BitVec.ofNat 32 n.nHb ∧ readReg s (.sys .dlMaxLog2) = BitVec.ofNat 32 c.dlMaxLog2 ∧
    readReg s (.sys .fdnLineLog2) = BitVec.ofNat 32 c.fdnLineLog2 ∧
    readReg s (.sys .fdnNCap) = BitVec.ofNat 32 c.fdnNCap ∧ readReg s (.sys .hbNsec) = BitVec.ofNat 32 c.hbNsec ∧
    readReg s (.sys .version) = 1 ∧
    (∀ u, u < n.nBq → readReg s (.bq u .a0) = F.one ∧ ∀ r, r ≠ .a0 → readReg s (.bq u r) = F.zero) ∧
    (∀ u, u < n.nOsc → ∀ r, readReg s (.osc u r) = 0) ∧
    (∀ u, u < n.nDl → readReg s (.dl u .gFf) = F.one ∧ (∀ r, r ≠ .gFf → readReg s (.dl u r) = 0) ∧
      ∀ k, dlSample s u k = F.zero) ∧
    (∀ u, u < n.nFdn → readReg s (.fdn u .ratio) = F.threeQuarters ∧
      (∀ r, r ≠ .ratio → readReg s (.fdn u r) = 0) ∧ ∀ j k, lineSample s u j k = F.zero) ∧
    (∀ u i j r, ¬ DefinedReg s (.matrix u i j) ∧ ¬ DefinedReg s (.line u j r)) ∧
    (∀ u, u < n.nHb → readReg s (.bdly u) = F.zero ∧
      ∀ sec, sec < 2 * c.hbNsec →
        (∀ r, r ≠ .coef → readReg s (.sect u sec r) = F.zero) ∧
        readReg s (.sect u sec .coef) =
          if sec < c.hbNsec then c.hbCoefA.getD sec F.zero else c.hbCoefB.getD (sec - c.hbNsec) F.zero)

/-- 70_reset_and_hazards.md R341, 00_scope.md R6: the reset state of every legal configuration is sound, that of the model's own
configuration (log 4) too. -/
def Obligations.ResetIsSound : Prop :=
  (∀ n c, n.ok = true → c.ok = true → Sound (State.resetOf n c)) ∧ Sound State.reset

/-- 46_system.md R287 with 10_state.md R24, R31, R33, R34, R38, R41: every step keeps the invariant of the block. -/
def Obligations.StepKeepsInvariant : Prop :=
  ∀ s t, Sound s → step s = .next t → Sound t

/-- 60_exceptions.md R301: there is no fault state; from a sound state every step answers a next state. -/
def Obligations.SoundStatesNeverStop : Prop :=
  ∀ s, Sound s → ∃ t, step s = .next t

/-- 00_scope.md R6: the configuration and the unit counts are fixed for the life of the block. -/
def Obligations.ConfigurationIsFixed : Prop :=
  ∀ s t, step s = .next t → t.cfg = s.cfg ∧ t.counts = s.counts

/-- 70_reset_and_hazards.md R342: what the PROC commands answer in the reset state, for BQ and OSC under the spec's `Num` (log 12);
the sine of another configuration than the spec's is left open (log 8). -/
def Obligations.ResetStateDriven : Prop :=
  ∀ n c u x,
    let s := State.resetOf n c
    (u < n.nBq → c.num.basic = .binary32 → isFinite x = true →
      ∃ t, exec (.bqProc u x) s = .next t ∧ answered s t (if x = 0x80000000#32 then F.zero else x) 0) ∧
    (u < n.nOsc → c.num.basic = .binary32 → c.sine = .parabola →
      ∃ t, exec (.oscProc u) s = .next t ∧ answered s t F.zero 0 ∧ readReg t (.osc u .phase) = 0) ∧
    (u < n.nDl → ∃ t, exec (.dlProc u x) s = .next t ∧ answered s t x 0) ∧
    (u < n.nFdn → exec (.fdnProc u x) s = .next (s.give { status := .ok, res0 := F.zero, res1 := 0 }))

/-! ## Refusals -/

/-- 60_exceptions.md R302: a refusal writes LASTERR and ERRCNT and answers the code with zeros, and nothing else changes; a word
that is answered with another status than OK did exactly that; an accepted one leaves the two registers. -/
def Obligations.RefusalEffect : Prop :=
  (∀ code s,
    readReg (refuse code s) (.sys .lasterr) = (statusCode code).setWidth 32 ∧
    (readReg (refuse code s) (.sys .errcnt)).toNat = min ((readReg s (.sys .errcnt)).toNat + 1) 0xFFFFFFFF ∧
    (∀ r, r ≠ .sys .lasterr → r ≠ .sys .errcnt → readReg (refuse code s) r = readReg s r) ∧
    memSame s (refuse code s) ∧
    (refuse code s).port =
      { inputs := s.port.inputs, outputs := { status := code, res0 := 0, res1 := 0 } :: s.port.outputs }) ∧
  (∀ s t w rest r, s.port.inputs = .command w :: rest → step s = .next t → t.port.outputs = r :: s.port.outputs →
    (r.status ≠ .ok → t = (refuse r.status (s.taking rest)).counted) ∧
    (r.status = .ok → t.sys.lasterr = s.sys.lasterr ∧ t.sys.errcnt = s.sys.errcnt))

/-- 60_exceptions.md R306: the gating table, for every command in each of the three control states. -/
def Obligations.GatingTable : Prop :=
  ∀ i s t r, flagsOk s.sys → exec i s = .next t → t.port.outputs = r :: s.port.outputs →
    (gate i.opcode (controlState s) = none → r.status ≠ .errMode ∧ r.status ≠ .errInblk) ∧
    (∀ code, gate i.opcode (controlState s) = some code →
      r.status = code ∨ r.status = .errUnit ∨ r.status = .errReg)

/-- 60_exceptions.md R303, R305: an illegal word is refused with ERR_OPCODE, a command with the code of the first cause that
applies, and a command to which none applies is accepted. -/
def Obligations.FirstCauseIsReported : Prop :=
  ∀ s w rest, Sound s → s.port.inputs = .command w :: rest →
    let s' := s.taking rest
    (∀ why, decode w = .illegal why → step s = .next (refuse .errOpcode s').counted) ∧
    ∀ i, decode w = .command i →
      (∀ code, firstCause s' i (some code) → step s = .next (refuse code s').counted) ∧
      (firstCause s' i none →
        ∃ t r, step s = .next t ∧ t.port.outputs = r :: s.port.outputs ∧ r.status = .ok)

/-! ## Which commands write what -/

/-- 10_state.md R25: MODE and INBLK are written by four commands and by nothing else. -/
def Obligations.FlagsWrittenByFourCommands : Prop :=
  ∀ i s t, exec i s = .next t →
    (t.sys.mode ≠ s.sys.mode → i = .sysRun ∨ i = .sysSetup) ∧
    (t.sys.inblk ≠ s.sys.inblk → i = .blkBegin ∨ i = .blkEnd)

/-- 10_state.md R28: the coefficients of a biquad change only outside a block, by a setter or REG.WR. -/
def Obligations.BqCoefficientWriters : Prop :=
  ∀ i s t u r, exec i s = .next t → r ∈ [BqReg.a0, .a1, .a2, .b1, .b2] →
    readReg t (.bq u r) ≠ readReg s (.bq u r) →
    (i.opcode ∈ bqSetters ∨ i.opcode = .regWr) ∧ readReg s (.sys .inblk) ≠ 1

/-- 10_state.md R29: the history of a biquad changes only by BQ.PROC or REG.WR. -/
def Obligations.BqHistoryWriters : Prop :=
  ∀ i s t u r, exec i s = .next t → r ∈ [BqReg.x1, .x2, .y1, .y2] →
    readReg t (.bq u r) ≠ readReg s (.bq u r) → i.opcode = .bqProc ∨ i.opcode = .regWr

/-- 10_state.md R31, R32: INC is written only by OSC.SETF and SYS.SETSR, which derive it from FREQ and the sample rate; PHASE only by
OSC.PROC, which adds INC modulo 2^32, and by REG.WR. -/
def Obligations.OscIncrementAndPhaseWriters : Prop :=
  ∀ i s t u, exec i s = .next t →
    (readReg t (.osc u .inc) ≠ readReg s (.osc u .inc) →
      (i.opcode = .oscSetf ∨ i.opcode = .sysSetsr) ∧
      ∀ d, readReg t (.osc u .inc) = incOf s.cfg.num d (readReg t (.osc u .freq)) (readReg t (.sys .fs))) ∧
    (readReg t (.osc u .phase) ≠ readReg s (.osc u .phase) →
      i.opcode = .regWr ∨
      (i = .oscProc u ∧ readReg t (.osc u .phase) = readReg s (.osc u .phase) + readReg s (.osc u .inc)))

/-- 10_state.md R34, R41: the delay memories are reached only by their own PROC and RESIZE commands. -/
def Obligations.MemoriesReachedOnlyBy : Prop :=
  ∀ i s t, exec i s = .next t →
    (∀ u k, dlSample t u k ≠ dlSample s u k → (∃ x, i = .dlProc u x) ∨ ∃ d, i = .dlResize u d) ∧
    (∀ u j k, lineSample t u j k ≠ lineSample s u j k → (∃ x, i = .fdnProc u x) ∨ ∃ n, i = .fdnResize u n)

/-! ## SYS, BLK and REG commands -/

/-- 20_memory.md R71 with 10_state.md R22, R24, R27, R30, R33, R38 to R40, R44: a register number names the register with that triple,
and no other, as far as its indices are in range; and the number and the access class of every register. -/
def Obligations.RegisterNumbering : Prop :=
  (∀ s cls unit reg r, Sound s → unitExists s cls unit = true →
    (regAt s cls unit reg = some r ↔ regTriple r = (cls, unit, reg) ∧ inRange s r)) ∧
  (∀ r k, (r, k) ∈
      [(SysReg.mode, 0x000), (.inblk, 0x001), (.fs, 0x002), (.lasterr, 0x003), (.errcnt, 0x004), (.nBq, 0x005),
        (.nOsc, 0x006), (.nDl, 0x007), (.nFdn, 0x008), (.nHb, 0x009), (.dlMaxLog2, 0x00A), (.fdnLineLog2, 0x00B),
        (.fdnNCap, 0x00C), (.hbNsec, 0x00D), (.version, 0x00E)] →
    regTriple (.sys r) = (0, 0, k) ∧ accessOf (.sys r) = .ro) ∧
  ∀ u,
    (∀ r k, (r, k) ∈
        [(BqReg.a0, 0x000), (.a1, 0x001), (.a2, 0x002), (.b1, 0x003), (.b2, 0x004), (.x1, 0x005), (.x2, 0x006),
          (.y1, 0x007), (.y2, 0x008)] →
      regTriple (.bq u r) = (1, u, k) ∧ accessOf (.bq u r) = .rw) ∧
    (∀ r k acc, (r, k, acc) ∈
        [(OscReg.phase, 0x000, Access.rw), (.inc, 0x001, .ro), (.freq, 0x002, .ro), (.wave, 0x003, .rwEnum 1)] →
      regTriple (.osc u r) = (2, u, k) ∧ accessOf (.osc u r) = acc) ∧
    (∀ r k acc, (r, k, acc) ∈
        [(DlReg.kind, 0x000, Access.rwEnum 2), (.log2len, 0x001, .ro), (.widx, 0x002, .ro), (.fixdly, 0x003, .rw),
          (.moddly, 0x004, .rw), (.gDry, 0x005, .rw), (.gFf, 0x006, .rw), (.gFb, 0x007, .rw), (.fixout, 0x008, .rw),
          (.apX1, 0x009, .rw), (.apY1, 0x00A, .rw)] →
      regTriple (.dl u r) = (3, u, k) ∧ accessOf (.dl u r) = acc) ∧
    (∀ r k acc, (r, k, acc) ∈
        [(FdnReg.n, 0x000, Access.ro), (.fb, 0x001, .rw), (.ratio, 0x002, .rw), (.outEven, 0x003, .ro),
          (.outOdd, 0x004, .ro)] →
      regTriple (.fdn u r) = (4, u, k) ∧ accessOf (.fdn u r) = acc) ∧
    (∀ i j, regTriple (.matrix u i j) = (4, u, 0x100 + 16 * i + j) ∧ accessOf (.matrix u i j) = .rw) ∧
    (∀ j r k acc, (r, k, acc) ∈
        [(LineReg.ldly, 0, Access.rw), (.lwidx, 1, .ro), (.lineout, 2, .rw), (.da0, 3, .rw), (.da1, 4, .rw), (.da2, 5, .rw),
          (.db1, 6, .rw), (.db2, 7, .rw), (.dx1, 8, .rw), (.dx2, 9, .rw), (.dy1, 10, .rw), (.dy2, 11, .rw)] →
      regTriple (.line u j r) = (4, u, 0x200 + 16 * j + k) ∧ accessOf (.line u j r) = acc) ∧
    (regTriple (.bdly u) = (5, u, 0x000) ∧ accessOf (.bdly u) = .rw) ∧
    (∀ sec r k acc, (r, k, acc) ∈
        [(SecReg.coef, 0, Access.ro), (.sx1, 1, .rw), (.sx2, 2, .rw), (.sy1, 3, .rw), (.sy2, 4, .rw)] →
      regTriple (.sect u sec r) = (5, u, 0x100 + 16 * sec + k) ∧ accessOf (.sect u sec r) = acc)

/-- 46_system.md R290: REG.RD answers the register's value and changes no state, or is refused. -/
def Obligations.RegRdResult : Prop :=
  ∀ s cls unit reg,
    (unitExists s cls unit = false → exec (.regRd cls unit reg) s = .next (refuse .errUnit s)) ∧
    (unitExists s cls unit = true → regAt s cls unit reg = none →
      exec (.regRd cls unit reg) s = .next (refuse .errReg s)) ∧
    (∀ r, unitExists s cls unit = true → regAt s cls unit reg = some r →
      exec (.regRd cls unit reg) s = .next (s.give { status := .ok, res0 := readReg s r, res1 := 0 }))

/-- 46_system.md R291: REG.WR writes exactly one register, or is refused by the first of its checks. -/
def Obligations.RegWrResult : Prop :=
  ∀ s cls unit reg v, Sound s →
    (unitExists s cls unit = false → exec (.regWr cls unit reg v) s = .next (refuse .errUnit s)) ∧
    (unitExists s cls unit = true → regAt s cls unit reg = none →
      exec (.regWr cls unit reg v) s = .next (refuse .errReg s)) ∧
    (∀ r, unitExists s cls unit = true → regAt s cls unit reg = some r →
      (accessOf r = .ro → exec (.regWr cls unit reg v) s = .next (refuse .errReg s)) ∧
      (accessOf r ≠ .ro → readReg s (.sys .inblk) = 1 →
        exec (.regWr cls unit reg v) s = .next (refuse .errInblk s)) ∧
      (∀ top, accessOf r = .rwEnum top → readReg s (.sys .inblk) ≠ 1 → top < v.toNat →
        exec (.regWr cls unit reg v) s = .next (refuse .errConfig s)) ∧
      (accessOf r = .rw ∨ (∃ top, accessOf r = .rwEnum top ∧ v.toNat ≤ top) → readReg s (.sys .inblk) ≠ 1 →
        ∃ t, exec (.regWr cls unit reg v) s = .next t ∧ answered s t 0 0 ∧ readReg t r = v ∧
          (∀ r', DefinedReg s r' → r' ≠ r → readReg t r' = readReg s r') ∧ memSame s t))

/-- 20_memory.md R78: an accepted REG.WR given again leaves the same state but for the response. -/
def Obligations.RegWrIdempotent : Prop :=
  ∀ s t cls unit reg v, exec (.regWr cls unit reg v) s = .next t →
    t.port.outputs = { status := .ok, res0 := 0, res1 := 0 } :: s.port.outputs →
    exec (.regWr cls unit reg v) t = .next (t.give { status := .ok, res0 := 0, res1 := 0 })

/-- 46_system.md R281: SYS.SETSR writes FS and rederives every increment, and nothing else, or is refused. -/
def Obligations.SysSetsrResult : Prop :=
  ∀ s fs,
    (readReg s (.sys .mode) ≠ 0 → exec (.sysSetsr fs) s = .next (refuse .errMode s)) ∧
    (readReg s (.sys .mode) = 0 → isNan fs = true ∨ isInf fs = true ∨ flt F.zero fs = false →
      exec (.sysSetsr fs) s = .next (refuse .errConfig s)) ∧
    (readReg s (.sys .mode) = 0 → isNan fs = false → isInf fs = false → flt F.zero fs = true →
      ∃ t, exec (.sysSetsr fs) s = .next t ∧ answered s t 0 0 ∧ memSame s t ∧
        readReg t (.sys .fs) = fs ∧
        (∀ u d, u < s.counts.nOsc → readReg t (.osc u .inc) = incOf s.cfg.num d (readReg s (.osc u .freq)) fs) ∧
        (∀ r, r ≠ .sys .fs → (∀ u, r ≠ .osc u .inc) → readReg t r = readReg s r))

/-- 46_system.md R282, R283, R285, R286: the four commands that write the two flags. -/
def Obligations.FlagCommandsResult : Prop :=
  ∀ s,
    (readReg s (.sys .mode) ≠ 0 → exec .sysRun s = .next (refuse .errMode s)) ∧
    (readReg s (.sys .mode) = 0 → feq (readReg s (.sys .fs)) F.zero = true →
      exec .sysRun s = .next (refuse .errConfig s)) ∧
    (readReg s (.sys .mode) = 0 → feq (readReg s (.sys .fs)) F.zero = false →
      ∃ t, exec .sysRun s = .next t ∧ answered s t 0 0 ∧ regsExcept s t [(.sys .mode, 1)] ∧ memSame s t) ∧
    (readReg s (.sys .mode) ≠ 1 →
      exec .sysSetup s = .next (refuse .errMode s) ∧ exec .blkBegin s = .next (refuse .errMode s) ∧
        exec .blkEnd s = .next (refuse .errMode s)) ∧
    (readReg s (.sys .mode) = 1 → readReg s (.sys .inblk) = 1 →
      exec .sysSetup s = .next (refuse .errInblk s) ∧ exec .blkBegin s = .next (refuse .errInblk s)) ∧
    (readReg s (.sys .mode) = 1 → readReg s (.sys .inblk) = 0 → exec .blkEnd s = .next (refuse .errInblk s)) ∧
    (readReg s (.sys .mode) = 1 → readReg s (.sys .inblk) ≠ 1 →
      (∃ t, exec .sysSetup s = .next t ∧ answered s t 0 0 ∧ regsExcept s t [(.sys .mode, 0)] ∧ memSame s t) ∧
      (∃ t, exec .blkBegin s = .next t ∧ answered s t 0 0 ∧ regsExcept s t [(.sys .inblk, 1)] ∧ memSame s t)) ∧
    (readReg s (.sys .mode) = 1 → readReg s (.sys .inblk) ≠ 0 →
      ∃ t, exec .blkEnd s = .next t ∧ answered s t 0 0 ∧ regsExcept s t [(.sys .inblk, 0)] ∧ memSame s t)

/-! ## BQ -/

/-- 41_biquad.md R161: the output, the history and the frame of BQ.PROC; a unit that does not exist is refused. -/
def Obligations.BqProcResult : Prop :=
  ∀ s u x,
    let nm := s.cfg.num
    (s.counts.nBq ≤ u → exec (.bqProc u x) s = .next (refuse .errUnit s)) ∧
    (u < s.counts.nBq →
      ∃ (t : State) (e : Nat → Draw),
        let t0 := nm.fmul (e 0) (readReg s (.bq u .a0)) x
        let t1 := nm.fmul (e 1) (readReg s (.bq u .a1)) (readReg s (.bq u .x1))
        let t2 := nm.fmul (e 2) (readReg s (.bq u .a2)) (readReg s (.bq u .x2))
        let t3 := nm.fmul (e 3) (readReg s (.bq u .b1)) (readReg s (.bq u .y1))
        let t4 := nm.fmul (e 4) (readReg s (.bq u .b2)) (readReg s (.bq u .y2))
        let y := nm.fsub (e 8) (nm.fsub (e 7) (nm.fadd (e 6) (nm.fadd (e 5) t0 t1) t2) t3) t4
        exec (.bqProc u x) s = .next t ∧ answered s t y 0 ∧
          regsExcept s t
            [(.bq u .x2, readReg s (.bq u .x1)), (.bq u .x1, x), (.bq u .y2, readReg s (.bq u .y1)), (.bq u .y1, y)] ∧
          memSame s t)

/-- 41_biquad.md R161, corner cases, under the spec's `Num`: with the reset coefficients and a finite history the output is the
input, for every finite input but `-0.0`, whose sign the sums need not keep. -/
def Obligations.BqIdentity : Prop :=
  ∀ s u x, u < s.counts.nBq → s.cfg.num.basic = .binary32 →
    isFinite x = true → x ≠ 0x80000000#32 →
    readReg s (.bq u .a0) = F.one →
    (∀ r, r ∈ [BqReg.a1, .a2, .b1, .b2] → readReg s (.bq u r) = F.zero) →
    (∀ r, r ∈ [BqReg.x1, .x2, .y1, .y2] → isFinite (readReg s (.bq u r)) = true) →
    ∃ t, exec (.bqProc u x) s = .next t ∧ answered s t x 0 ∧
      regsExcept s t
        [(.bq u .x2, readReg s (.bq u .x1)), (.bq u .x1, x), (.bq u .y2, readReg s (.bq u .y1)), (.bq u .y1, x)] ∧
      memSame s t

/-- 41_biquad.md R162: the frame of the ten setters. The design function is that of the configuration; the operands a setter does
not have, and the sample rate BQ.SETDIFF does not read, are given to it as `+0.0` (the model's choice, log 10). -/
def Obligations.BqSetterFrame : Prop :=
  ∀ s u f q g i m q' g' fs,
    (i, m, q', g', fs) ∈
      [(Instr.bqSetlp u f q, BqMode.lp, q, F.zero, s.sys.fs), (.bqSethp u f q, .hp, q, F.zero, s.sys.fs),
        (.bqSetbp u f q, .bp, q, F.zero, s.sys.fs), (.bqSetnotch u f q, .notch, q, F.zero, s.sys.fs),
        (.bqSetloshelf u f q g, .loshelf, q, g, s.sys.fs), (.bqSethishelf u f q g, .hishelf, q, g, s.sys.fs),
        (.bqSetpeak u f q g, .peak, q, g, s.sys.fs), (.bqSetap u f q, .ap, q, F.zero, s.sys.fs),
        (.bqSetonepole u f, .onepole, F.zero, F.zero, s.sys.fs)] →
    (s.counts.nBq ≤ u → exec i s = .next (refuse .errUnit s) ∧ exec (.bqSetdiff u) s = .next (refuse .errUnit s)) ∧
    (u < s.counts.nBq → readReg s (.sys .inblk) = 1 →
      exec i s = .next (refuse .errInblk s) ∧ exec (.bqSetdiff u) s = .next (refuse .errInblk s)) ∧
    (u < s.counts.nBq → readReg s (.sys .inblk) ≠ 1 → feq s.sys.fs F.zero = true →
      exec i s = .next (refuse .errConfig s)) ∧
    (u < s.counts.nBq → readReg s (.sys .inblk) ≠ 1 → feq s.sys.fs F.zero = false →
      ∃ t d, exec i s = .next t ∧ answered s t 0 0 ∧ memSame s t ∧
        regsExcept s t
          [(.bq u .a0, (bqDesign s.cfg.design s.cfg.num d m f q' g' fs).a0), (.bq u .a1, (bqDesign s.cfg.design s.cfg.num d m f q' g' fs).a1),
            (.bq u .a2, (bqDesign s.cfg.design s.cfg.num d m f q' g' fs).a2), (.bq u .b1, (bqDesign s.cfg.design s.cfg.num d m f q' g' fs).b1),
            (.bq u .b2, (bqDesign s.cfg.design s.cfg.num d m f q' g' fs).b2)]) ∧
    (u < s.counts.nBq → readReg s (.sys .inblk) ≠ 1 →
      ∃ t d, exec (.bqSetdiff u) s = .next t ∧ answered s t 0 0 ∧ memSame s t ∧
        (let c := bqDesign s.cfg.design s.cfg.num d .diff F.zero F.zero F.zero F.zero
         regsExcept s t [(.bq u .a0, c.a0), (.bq u .a1, c.a1), (.bq u .a2, c.a2), (.bq u .b1, c.b1), (.bq u .b2, c.b2)]))

/-- 41_biquad.md R163 to R167, R171: what the five setters without a gain write, under the spec's design function. -/
def Obligations.BqFormulasWithoutGain : Prop :=
  ∀ s u f q,
    let nm := s.cfg.num
    u < s.counts.nBq → readReg s (.sys .inblk) ≠ 1 → feq s.sys.fs F.zero = false → s.cfg.design = .rbj →
    ∃ (t : Opcode → State) (e : Opcode → Nat → Draw),
      (exec (.bqSetlp u f q) s = .next (t .bqSetlp) ∧ exec (.bqSethp u f q) s = .next (t .bqSethp) ∧
        exec (.bqSetbp u f q) s = .next (t .bqSetbp) ∧ exec (.bqSetnotch u f q) s = .next (t .bqSetnotch) ∧
        exec (.bqSetap u f q) s = .next (t .bqSetap)) ∧
      ∀ op, op ∈ [Opcode.bqSetlp, .bqSethp, .bqSetbp, .bqSetnotch, .bqSetap] →
        let e := e op
        let w := nm.fdiv (e 1) (nm.fmul (e 0) F.twoPi f) (readReg s (.sys .fs))
        let cs := nm.cos w
        let al := nm.fdiv (e 3) (nm.sin w) (nm.fmul (e 2) F.two q)
        let nb1 := nm.fmul (e 4) F.negTwo cs
        let n := nm.fdiv (e 6) F.one (nm.fadd (e 5) F.one al)
        let omc := nm.fsub (e 7) F.one cs
        let opc := nm.fadd (e 7) F.one cs
        let b2 := nm.fmul (e 9) (nm.fsub (e 8) F.one al) n
        let reg := fun r => readReg (t op) (.bq u r)
        (op = .bqSetlp → reg .a0 = nm.fmul (e 11) (nm.fmul (e 10) omc F.half) n ∧ reg .a1 = nm.fmul (e 12) omc n ∧
          reg .a2 = nm.fmul (e 14) (nm.fmul (e 13) omc F.half) n ∧ reg .b1 = nm.fmul (e 15) nb1 n ∧ reg .b2 = b2) ∧
        (op = .bqSethp → reg .a0 = nm.fmul (e 11) (nm.fmul (e 10) opc F.half) n ∧ reg .a1 = nm.fmul (e 12) (nm.fneg opc) n ∧
          reg .a2 = nm.fmul (e 14) (nm.fmul (e 13) opc F.half) n ∧ reg .b1 = nm.fmul (e 15) nb1 n ∧ reg .b2 = b2) ∧
        (op = .bqSetbp → reg .a0 = nm.fmul (e 10) al n ∧ reg .a1 = F.zero ∧ reg .a2 = nm.fmul (e 12) (nm.fneg al) n ∧
          reg .b1 = nm.fmul (e 15) nb1 n ∧ reg .b2 = b2) ∧
        (op = .bqSetnotch → reg .a0 = n ∧ reg .a1 = nm.fmul (e 12) nb1 n ∧ reg .a2 = n ∧ reg .b1 = nm.fmul (e 15) nb1 n ∧
          reg .b2 = b2) ∧
        (op = .bqSetap → reg .a0 = nm.fmul (e 11) (nm.fsub (e 10) F.one al) n ∧ reg .a1 = nm.fmul (e 12) nb1 n ∧
          reg .a2 = nm.fmul (e 14) (nm.fadd (e 13) F.one al) n ∧ reg .b1 = nm.fmul (e 15) nb1 n ∧ reg .b2 = b2)

/-- 41_biquad.md R168, R169, R170: what the shelf and peak setters write, under the spec's design function. -/
def Obligations.BqFormulasWithGain : Prop :=
  ∀ s u f q g,
    let nm := s.cfg.num
    u < s.counts.nBq → readReg s (.sys .inblk) ≠ 1 → feq s.sys.fs F.zero = false → s.cfg.design = .rbj →
    ∃ (t : Opcode → State) (e : Opcode → Nat → Draw),
      (exec (.bqSetloshelf u f q g) s = .next (t .bqSetloshelf) ∧
        exec (.bqSethishelf u f q g) s = .next (t .bqSethishelf) ∧
        exec (.bqSetpeak u f q g) s = .next (t .bqSetpeak)) ∧
      ∀ op, op ∈ [Opcode.bqSetloshelf, .bqSethishelf, .bqSetpeak] →
        let e := e op
        let w := nm.fdiv (e 1) (nm.fmul (e 0) F.twoPi f) (readReg s (.sys .fs))
        let cs := nm.cos w
        let al := nm.fdiv (e 3) (nm.sin w) (nm.fmul (e 2) F.two q)
        let nb1 := nm.fmul (e 4) F.negTwo cs
        let ag := nm.fsqrt (e 10) g
        let sq := nm.fmul (e 13) (nm.fmul (e 12) F.two (nm.fsqrt (e 11) ag)) al
        let ap1 := nm.fadd (e 14) ag F.one
        let am1 := nm.fsub (e 15) ag F.one
        let mc := nm.fmul (e 16) am1 cs
        let pc := nm.fmul (e 17) ap1 cs
        let reg := fun r => readReg (t op) (.bq u r)
        (op = .bqSetloshelf →
          let n := nm.fdiv (e 22) F.one (nm.fadd (e 21) (nm.fadd (e 20) ap1 mc) sq)
          reg .a0 = nm.fmul (e 33) (nm.fmul (e 32) ag (nm.fadd (e 31) (nm.fsub (e 30) ap1 mc) sq)) n ∧
          reg .a1 = nm.fmul (e 43) (nm.fmul (e 42) (nm.fmul (e 41) F.two ag) (nm.fsub (e 40) am1 pc)) n ∧
          reg .a2 = nm.fmul (e 53) (nm.fmul (e 52) ag (nm.fsub (e 51) (nm.fsub (e 50) ap1 mc) sq)) n ∧
          reg .b1 = nm.fmul (e 62) (nm.fmul (e 61) F.negTwo (nm.fadd (e 60) am1 pc)) n ∧
          reg .b2 = nm.fmul (e 72) (nm.fsub (e 71) (nm.fadd (e 70) ap1 mc) sq) n) ∧
        (op = .bqSethishelf →
          let n := nm.fdiv (e 22) F.one (nm.fadd (e 21) (nm.fsub (e 20) ap1 mc) sq)
          reg .a0 = nm.fmul (e 33) (nm.fmul (e 32) ag (nm.fadd (e 31) (nm.fadd (e 30) ap1 mc) sq)) n ∧
          reg .a1 = nm.fmul (e 43) (nm.fmul (e 42) (nm.fmul (e 41) F.negTwo ag) (nm.fadd (e 40) am1 pc)) n ∧
          reg .a2 = nm.fmul (e 53) (nm.fmul (e 52) ag (nm.fsub (e 51) (nm.fadd (e 50) ap1 mc) sq)) n ∧
          reg .b1 = nm.fmul (e 62) (nm.fmul (e 61) F.two (nm.fsub (e 60) am1 pc)) n ∧
          reg .b2 = nm.fmul (e 72) (nm.fsub (e 71) (nm.fsub (e 70) ap1 mc) sq) n) ∧
        (op = .bqSetpeak →
          let aA := nm.fmul (e 20) al ag
          let adA := nm.fdiv (e 21) al ag
          let n := nm.fdiv (e 23) F.one (nm.fadd (e 22) F.one adA)
          reg .a0 = nm.fmul (e 31) (nm.fadd (e 30) F.one aA) n ∧ reg .a1 = nm.fmul (e 40) nb1 n ∧
          reg .a2 = nm.fmul (e 51) (nm.fsub (e 50) F.one aA) n ∧ reg .b1 = nm.fmul (e 60) nb1 n ∧
          reg .b2 = nm.fmul (e 71) (nm.fsub (e 70) F.one adA) n)

/-- 41_biquad.md R172, R173: what BQ.SETDIFF and BQ.SETONEPOLE write, under the spec's design function. -/
def Obligations.BqDifferentiatorAndOnePole : Prop :=
  ∀ s u f,
    let nm := s.cfg.num
    u < s.counts.nBq → readReg s (.sys .inblk) ≠ 1 → s.cfg.design = .rbj →
    (∃ t, exec (.bqSetdiff u) s = .next t ∧ answered s t 0 0 ∧ memSame s t ∧
      regsExcept s t
        [(.bq u .a0, F.one), (.bq u .a1, F.negOne), (.bq u .a2, F.zero), (.bq u .b1, F.zero), (.bq u .b2, F.zero)]) ∧
    (feq s.sys.fs F.zero = false →
      ∃ (t : State) (e : Nat → Draw),
        let w := nm.fdiv (e 1) (nm.fmul (e 0) F.twoPi f) (readReg s (.sys .fs))
        let p := nm.exp (nm.fneg w)
        exec (.bqSetonepole u f) s = .next t ∧ answered s t 0 0 ∧ memSame s t ∧
          regsExcept s t
            [(.bq u .a0, nm.fsub (e 2) F.one p), (.bq u .a1, F.zero), (.bq u .a2, F.zero), (.bq u .b1, nm.fneg p),
              (.bq u .b2, F.zero)])

/-! ## OSC -/

/-- 42_oscillator.md R191, R192: OSC.SETF writes FREQ and INC and nothing else, or is refused; under the spec's `Num` a NaN
frequency gives INC = 0. -/
def Obligations.OscSetfResult : Prop :=
  ∀ s u f,
    let nm := s.cfg.num
    (s.counts.nOsc ≤ u → exec (.oscSetf u f) s = .next (refuse .errUnit s)) ∧
    (u < s.counts.nOsc → feq s.sys.fs F.zero = true → exec (.oscSetf u f) s = .next (refuse .errConfig s)) ∧
    (u < s.counts.nOsc → feq s.sys.fs F.zero = false →
      ∃ t, exec (.oscSetf u f) s = .next t ∧ answered s t 0 0 ∧ memSame s t ∧
        (∀ d d', regsExcept s t
          [(.osc u .freq, f), (.osc u .inc, f2u (nm.fmul d f (nm.fdiv d' F.pow32 (readReg s (.sys .fs)))))]) ∧
        (nm.basic = .binary32 → isNan f = true → readReg t (.osc u .inc) = 0))

/-- 42_oscillator.md R193, R195, R196, R197: OSC.PROC advances the phase modulo 2^32 and answers the waveform of the new phase: the
fold, or for WAVE = 0 the parabola of the fold (in a configuration that takes it); only the phase changes. Under the
spec's `Num` no operation here gives a NaN, and another `Num` draws none, so the answer is the same for every draw. -/
def Obligations.OscProcResult : Prop :=
  ∀ s u,
    let nm := s.cfg.num
    let p1 := readReg s (.osc u .phase) + readReg s (.osc u .inc)
    (s.counts.nOsc ≤ u → exec (.oscProc u) s = .next (refuse .errUnit s)) ∧
    (u < s.counts.nOsc →
      ∃ t y, exec (.oscProc u) s = .next t ∧ answered s t y 0 ∧ memSame s t ∧ regsExcept s t [(.osc u .phase, p1)] ∧
        ∀ e : Nat → Draw,
          let ph := nm.fmul (e 0) (i2f (signedReading (p1 - 0x40000000#32))) 0x30000000#32
          let fold := nm.fsub (e 2) F.one (nm.fmul (e 1) F.two (nm.fabs ph))
          (readReg s (.osc u .wave) ≠ 0 → y = fold) ∧
          (readReg s (.osc u .wave) = 0 → s.cfg.sine = .parabola →
            y = nm.fmul (e 4) fold (nm.fsub (e 3) F.two (nm.fabs fold))) ∧
          (∀ k, readReg s (.osc u .wave) = 0 → s.cfg.sine = .other k → y = Config.otherSine k fold))

/-- 42_oscillator.md R195, R197, under the spec's `Num`: the fold lies in -1.0 to 1.0, and takes the four values the rule states. -/
def Obligations.FoldRange : Prop :=
  ∀ nm : Sys2Proof.Num, nm.basic = .binary32 →
    (∀ d p, isNan (fold nm d p) = false ∧ flt F.one (fold nm d p) = false ∧ flt (fold nm d p) F.negOne = false) ∧
    ∀ d, fold nm d 0 = F.zero ∧ fold nm d 0x40000000#32 = F.one ∧ fold nm d 0x80000000#32 = F.zero ∧
      fold nm d 0xC0000000#32 = F.negOne

/-- 40_numerics.md R143, 42_oscillator.md R194: `N` OSC.PROC commands move the phase by `N` increments modulo 2^32 and answer the
waveform of each phase on the way. -/
def Obligations.PhaseLaw : Prop :=
  ∀ s u n, u < s.counts.nOsc → u < 256 →
    s.port.inputs = List.replicate n (.command (encode (.oscProc u))) →
    ∃ t, Sys2Proof.core.run n s = .next t ∧
      readReg t (.osc u .phase) = readReg s (.osc u .phase) + BitVec.ofNat 32 n * readReg s (.osc u .inc) ∧
      t.port.outputs =
        ((List.range n).map fun k =>
          ({ status := .ok
             res0 := waveOut s.cfg.sine s.cfg.num [] (readReg s (.osc u .wave))
               (fold s.cfg.num [] (readReg s (.osc u .phase) + BitVec.ofNat 32 (k + 1) * readReg s (.osc u .inc)))
             res1 := 0 } : Response)).reverse ++ s.port.outputs

/-! ## DL -/

/-- 43_delay.md R212: DL.RESIZE clears the line and gives it the length 2^clog2(p); the rest is kept; or it is refused. -/
def Obligations.DlResizeResult : Prop :=
  ∀ s u d,
    let nm := s.cfg.num
    (s.counts.nDl ≤ u → exec (.dlResize u d) s = .next (refuse .errUnit s)) ∧
    (u < s.counts.nDl → readReg s (.sys .mode) = 1 → exec (.dlResize u d) s = .next (refuse .errMode s)) ∧
    (u < s.counts.nDl → readReg s (.sys .mode) ≠ 1 → feq s.sys.fs F.zero = true →
      exec (.dlResize u d) s = .next (refuse .errConfig s)) ∧
    (u < s.counts.nDl → readReg s (.sys .mode) ≠ 1 → feq s.sys.fs F.zero = false →
      (∀ n p, p = nm.fmul n d s.sys.fs →
        isNan p = true ∨ flt p F.zero = true ∨ flt (pow2 s.cfg.dlMaxLog2) p = true →
        exec (.dlResize u d) s = .next (refuse .errConfig s)) ∧
      (∀ n p, p = nm.fmul n d s.sys.fs →
        isNan p = false → flt p F.zero = false → flt (pow2 s.cfg.dlMaxLog2) p = false →
        ∃ t, exec (.dlResize u d) s = .next t ∧ answered s t 0 0 ∧
          regsExcept s t
            [(.dl u .log2len, BitVec.ofNat 32 (clog2 p)), (.dl u .widx, 0), (.dl u .fixout, F.zero),
              (.dl u .apX1, F.zero), (.dl u .apY1, F.zero)] ∧
          (∀ w k, dlSample t w k = if w = u then F.zero else dlSample s w k) ∧ linesSame s t))

/-- 43_delay.md R213, R214: the two delay setters write one register each, or are refused. -/
def Obligations.DlDelaySettersResult : Prop :=
  ∀ s u d,
    let nm := s.cfg.num
    (s.counts.nDl ≤ u → exec (.dlSetdelay u d) s = .next (refuse .errUnit s) ∧
      exec (.dlSetmoddelay u d) s = .next (refuse .errUnit s)) ∧
    (u < s.counts.nDl → feq s.sys.fs F.zero = true → exec (.dlSetdelay u d) s = .next (refuse .errConfig s) ∧
      exec (.dlSetmoddelay u d) s = .next (refuse .errConfig s)) ∧
    (u < s.counts.nDl → feq s.sys.fs F.zero = false →
      (∃ t, exec (.dlSetdelay u d) s = .next t ∧ answered s t 0 0 ∧ memSame s t ∧
        ∀ n, regsExcept s t [(.dl u .fixdly, f2u (nm.fmul n d (readReg s (.sys .fs))))]) ∧
      (∃ t n, exec (.dlSetmoddelay u d) s = .next t ∧ answered s t 0 0 ∧ memSame s t ∧
        regsExcept s t [(.dl u .moddly, nm.fmul n d (readReg s (.sys .fs)))]))

/-- 43_delay.md R216: DL.PROC of each kind: what is written to the line and where, what the taps read, the output, and the frame.
`LOG2LEN` is at most `DL_MAX_LOG2` in every state a run reaches (log 15). The fraction is that of R215's pseudocode also where
R217 says otherwise, just below zero and at minus infinity: the model's choice (log 18). -/
def Obligations.DlProcResult : Prop :=
  ∀ s u x,
    let nm := s.cfg.num
    (s.counts.nDl ≤ u → exec (.dlProc u x) s = .next (refuse .errUnit s)) ∧
    (u < s.counts.nDl → (readReg s (.dl u .log2len)).toNat ≤ s.cfg.dlMaxLog2 →
      let reg := fun r => readReg s (.dl u r)
      let idx := ringIndex (reg .log2len).toNat (reg .widx)
      let tap := fun (w : F) (d : U32) => if idx d = idx 0 then w else dlSample s u (idx d)
      (reg .kind = 0 →
        ∃ t, exec (.dlProc u x) s = .next t ∧ answered s t (tap x (reg .fixdly)) 0 ∧
          regsExcept s t [(.dl u .fixout, tap x (reg .fixdly)), (.dl u .widx, reg .widx + 1)] ∧
          dlWritten s t u (idx 0) x) ∧
      (reg .kind = 1 →
        ∃ (t : State) (e : Nat → Draw) (w fl fr m y : F),
          w = nm.fadd (e 1) x (nm.fmul (e 0) (reg .gFb) (reg .fixout)) ∧
          fl = nm.ffloor (e 2) (reg .moddly) ∧ fr = nm.fsub (e 3) (reg .moddly) fl ∧
          m = nm.fadd (e 7) (nm.fmul (e 5) (nm.fsub (e 4) F.one fr) (tap w (f2u fl))) (nm.fmul (e 6) fr (tap w (f2u fl + 1))) ∧
          y = nm.fadd (e 10) (nm.fmul (e 8) (reg .gDry) x) (nm.fmul (e 9) (reg .gFf) m) ∧
          exec (.dlProc u x) s = .next t ∧ answered s t y 0 ∧
          regsExcept s t [(.dl u .fixout, tap w (reg .fixdly)), (.dl u .widx, reg .widx + 1)] ∧
          dlWritten s t u (idx 0) w) ∧
      (reg .kind ≠ 0 → reg .kind ≠ 1 →
        ∃ (t : State) (e : Nat → Draw) (w fl fr a eta m y : F),
          w = nm.fadd (e 1) x (nm.fmul (e 0) (reg .gFb) (reg .fixout)) ∧
          fl = nm.ffloor (e 2) (reg .moddly) ∧ fr = nm.fsub (e 3) (reg .moddly) fl ∧ a = tap w (f2u fl) ∧
          eta = nm.fdiv (e 6) (nm.fsub (e 4) F.one fr) (nm.fadd (e 5) F.one fr) ∧
          m = nm.fadd (e 9) (nm.fmul (e 8) eta (nm.fsub (e 7) a (reg .apY1))) (reg .apX1) ∧
          y = nm.fadd (e 12) (nm.fmul (e 10) (reg .gDry) x) (nm.fmul (e 11) (reg .gFf) m) ∧
          exec (.dlProc u x) s = .next t ∧ answered s t y 0 ∧
          regsExcept s t
            [(.dl u .apX1, a), (.dl u .apY1, m), (.dl u .fixout, tap w (reg .fixdly)), (.dl u .widx, reg .widx + 1)] ∧
          dlWritten s t u (idx 0) w))

/-- The model's choice (log 15), no rule of the spec: a line whose LOG2LEN exceeds `DL_MAX_LOG2`, which no run makes, stops DL.PROC
with a fault. -/
def Obligations.DlProcOutsideMemoryFaults : Prop :=
  ∀ s u x, u < s.counts.nDl → s.cfg.dlMaxLog2 < (readReg s (.dl u .log2len)).toNat →
    exec (.dlProc u x) s = .fault .sampleOutsideMemory

/-- 43_delay.md R221 for kind SAMPLE: on a cleared line the output of command `n` is the input of command `n - D`, and `+0.0` before
that, for a run of any length. -/
def Obligations.SampleDelayRoundTrip : Prop :=
  ∀ s u D (xs : List F), Sound s → u < s.counts.nDl → u < 256 →
    readReg s (.dl u .kind) = 0 → readReg s (.dl u .fixdly) = D → readReg s (.dl u .widx) = 0 →
    D.toNat < 2 ^ (readReg s (.dl u .log2len)).toNat → (∀ k, dlSample s u k = F.zero) →
    s.port.inputs = xs.map (fun x => .command (encode (.dlProc u x))) →
    ∃ t, Sys2Proof.core.run xs.length s = .next t ∧
      t.port.outputs =
        ((List.range xs.length).map fun n =>
          ({ status := .ok, res0 := if n < D.toNat then F.zero else xs.getD (n - D.toNat) F.zero, res1 := 0 } :
            Response)).reverse ++ s.port.outputs

/-- 20_memory.md R74, R75: the index of a delay is that of the delay modulo the length, and the next write index is the successor in
the ring, also where WIDX wraps from 0xFFFFFFFF to 0. -/
def Obligations.RingIndexArithmetic : Prop :=
  ∀ log2 w d, log2 ≤ 31 →
    ringIndex log2 w d < 2 ^ log2 ∧
    ringIndex log2 w d = ringIndex log2 w (BitVec.ofNat 32 (d.toNat % 2 ^ log2)) ∧
    ringIndex log2 (w + 1) 0 = (ringIndex log2 w 0 + 1) % 2 ^ log2

/-! ## FDN -/

/-- 44_fdn.md R242: FDN.RESIZE gives `n` fresh lines and the default matrix of size `n`; FB, RATIO and the other units are kept; or
it is refused. That the memories of the lines from `n` on are kept is the model's choice, no rule of the spec (log 14). -/
def Obligations.FdnResizeResult : Prop :=
  ∀ s u n, Sound s →
    (s.counts.nFdn ≤ u → exec (.fdnResize u n) s = .next (refuse .errUnit s)) ∧
    (u < s.counts.nFdn → readReg s (.sys .mode) = 1 → exec (.fdnResize u n) s = .next (refuse .errMode s)) ∧
    (u < s.counts.nFdn → readReg s (.sys .mode) ≠ 1 → s.cfg.fdnNCap < n.toNat →
      exec (.fdnResize u n) s = .next (refuse .errConfig s)) ∧
    (u < s.counts.nFdn → readReg s (.sys .mode) ≠ 1 → n.toNat ≤ s.cfg.fdnNCap →
      ∃ t, exec (.fdnResize u n) s = .next t ∧ answered s t 0 0 ∧
        readReg t (.fdn u .n) = n ∧ readReg t (.fdn u .outEven) = F.zero ∧ readReg t (.fdn u .outOdd) = F.zero ∧
        (∀ j, j < n.toNat → readReg t (.line u j .da0) = F.one ∧
          ∀ r, r ≠ .da0 → readReg t (.line u j r) = 0) ∧
        (∀ i j, i < n.toNat → j < n.toNat → ∀ d,
          readReg t (.matrix u i j) = matrixEntry s.cfg.matrix s.cfg.num d n.toNat i j) ∧
        readReg t (.fdn u .fb) = readReg s (.fdn u .fb) ∧ readReg t (.fdn u .ratio) = readReg s (.fdn u .ratio) ∧
        (∀ r, (∀ q, r ≠ .fdn u q) → (∀ i j, r ≠ .matrix u i j) → (∀ j q, r ≠ .line u j q) →
          readReg t r = readReg s r) ∧
        (∀ w k, dlSample t w k = dlSample s w k) ∧
        (∀ w j k, lineSample t w j k = if w = u ∧ j < n.toNat then F.zero else lineSample s w j k))

/-- 44_fdn.md R243: the Householder default for every number of lines up to 16, and, under the spec's `Num`, the values the rule
states and those of vector V46 for n = 3. Under
the spec's `Num` no operation here gives a NaN, and another `Num` draws none, so each entry is the same for every draw. -/
def Obligations.HouseholderValues : Prop :=
  ∀ nm : Sys2Proof.Num,
    (∀ d e e' n i j, 1 ≤ n → n ≤ 16 →
      matrixEntry .householder nm d n i j =
        let c := nm.fdiv e F.two (u2f (BitVec.ofNat 32 n))
        if i = j then nm.fsub e' F.one c else nm.fsub e' F.zero c) ∧
    (nm.basic = .binary32 → ∀ d,
      let m := matrixEntry .householder nm d
      m 1 0 0 = F.negOne ∧
      (∀ i j, i < 2 → j < 2 → m 2 i j = if i = j then F.zero else F.negOne) ∧
      (∀ i j, i < 3 → j < 3 → m 3 i j = if i = j then 0x3EAAAAAA#32 else 0xBF2AAAAB#32) ∧
      (∀ i j, i < 4 → j < 4 → m 4 i j = if i = j then 0x3F000000#32 else 0xBF000000#32) ∧
      (∀ i j, i < 8 → j < 8 → m 8 i j = if i = j then 0x3F400000#32 else 0xBE800000#32) ∧
      (∀ i j, i < 16 → j < 16 → m 16 i j = if i = j then 0x3F600000#32 else 0xBE000000#32))

/-- 44_fdn.md R244: FDN.SETLEN gives the lines in use their delays, each the one before times RATIO, and changes nothing else; or it
is refused. -/
def Obligations.FdnSetlenResult : Prop :=
  ∀ s u T,
    let nm := s.cfg.num
    Sound s →
    (s.counts.nFdn ≤ u → exec (.fdnSetlen u T) s = .next (refuse .errUnit s)) ∧
    (u < s.counts.nFdn → readReg s (.sys .inblk) = 1 → exec (.fdnSetlen u T) s = .next (refuse .errInblk s)) ∧
    (u < s.counts.nFdn → readReg s (.sys .inblk) ≠ 1 → feq s.sys.fs F.zero = true →
      exec (.fdnSetlen u T) s = .next (refuse .errConfig s)) ∧
    (u < s.counts.nFdn → readReg s (.sys .inblk) ≠ 1 → feq s.sys.fs F.zero = false →
      ∃ (t : State) (e : Nat → Draw) (t' : Nat → F),
        t' 0 = nm.fmul (e 0) T (readReg s (.sys .fs)) ∧
        (∀ j, t' (j + 1) = nm.fmul (e (j + 1)) (t' j) (readReg s (.fdn u .ratio))) ∧
        exec (.fdnSetlen u T) s = .next t ∧ answered s t 0 0 ∧ memSame s t ∧
        (∀ j, j < (readReg s (.fdn u .n)).toNat → readReg t (.line u j .ldly) = t' j) ∧
        (∀ r, (∀ j, j < (readReg s (.fdn u .n)).toNat → r ≠ .line u j .ldly) → readReg t r = readReg s r))

/-- 44_fdn.md R245, R246: one sample through the network: `acc j i` is `in[j]` after the first `i` lines are mixed in, `v j` what
the delay of line `j` gives, `f j` what its damping filter gives, `g j` its new LINEOUT; `tot`, `ev`, `od` are the sums so
far. The fraction of
a delay is that of R215's pseudocode also where R217 says otherwise: the model's choice (log 18). -/
def Obligations.FdnProcResult : Prop :=
  ∀ s u x,
    let nm := s.cfg.num
    Sound s →
    (s.counts.nFdn ≤ u → exec (.fdnProc u x) s = .next (refuse .errUnit s)) ∧
    (u < s.counts.nFdn →
      ∃ (t : State) (e : Nat → Nat → Nat → Draw) (acc : Nat → Nat → F) (v f g : Nat → F) (tot ev od : Nat → F),
        let reg := fun j r => readReg s (.line u j r)
        let N := (readReg s (.fdn u .n)).toNat
        let idx := fun j => ringIndex s.cfg.fdnLineLog2 (reg j .lwidx)
        let tap := fun j (d : U32) => if idx j d = idx j 0 then acc j N else lineSample s u j (idx j d)
        (∀ j, acc j 0 = x) ∧
        (∀ j i, i < N → acc j (i + 1) =
          nm.fadd (e 0 j i) (acc j i) (nm.fmul (e 1 j i) (reg i .lineout) (readReg s (.matrix u i j)))) ∧
        (∀ j, j < N →
          let fl := nm.ffloor (e 2 j 0) (reg j .ldly)
          let fr := nm.fsub (e 2 j 1) (reg j .ldly) fl
          v j = nm.fadd (e 2 j 5) (nm.fmul (e 2 j 3) (nm.fsub (e 2 j 2) F.one fr) (tap j (f2u fl)))
            (nm.fmul (e 2 j 4) fr (tap j (f2u fl + 1))) ∧
          f j = nm.fsub (e 3 j 8)
            (nm.fsub (e 3 j 7)
              (nm.fadd (e 3 j 6)
                (nm.fadd (e 3 j 5) (nm.fmul (e 3 j 0) (reg j .da0) (v j)) (nm.fmul (e 3 j 1) (reg j .da1) (reg j .dx1)))
                (nm.fmul (e 3 j 2) (reg j .da2) (reg j .dx2)))
              (nm.fmul (e 3 j 3) (reg j .db1) (reg j .dy1)))
            (nm.fmul (e 3 j 4) (reg j .db2) (reg j .dy2)) ∧
          g j = nm.fmul (e 4 j 0) (readReg s (.fdn u .fb)) (f j)) ∧
        tot 0 = F.zero ∧ ev 0 = F.zero ∧ od 0 = F.zero ∧
        (∀ j, j < N → tot (j + 1) = nm.fadd (e 5 j 0) (tot j) (g j) ∧
          ev (j + 1) = (if j % 2 = 0 then nm.fadd (e 6 j 0) (ev j) (g j) else ev j) ∧
          od (j + 1) = (if j % 2 = 0 then od j else nm.fadd (e 7 j 0) (od j) (g j))) ∧
        exec (.fdnProc u x) s = .next t ∧ answered s t (tot N) 0 ∧
        readReg t (.fdn u .outEven) = ev N ∧ readReg t (.fdn u .outOdd) = od N ∧
        (∀ j, j < N →
          readReg t (.line u j .lwidx) = reg j .lwidx + 1 ∧ readReg t (.line u j .lineout) = g j ∧
          readReg t (.line u j .dx2) = reg j .dx1 ∧ readReg t (.line u j .dx1) = v j ∧
          readReg t (.line u j .dy2) = reg j .dy1 ∧ readReg t (.line u j .dy1) = f j) ∧
        (∀ r, r ≠ .fdn u .outEven → r ≠ .fdn u .outOdd →
          (∀ j q, j < N → q ∈ [LineReg.lwidx, .lineout, .dx1, .dx2, .dy1, .dy2] → r ≠ .line u j q) →
          readReg t r = readReg s r) ∧
        (∀ w k, dlSample t w k = dlSample s w k) ∧
        (∀ w j k, lineSample t w j k =
          if w = u ∧ j < N ∧ k = idx j 0 then acc j N else lineSample s w j k))

/-! ## HB -/

/-- 45_halfband.md R263, R264, R265: HB.PROC is one filter step of its unit and changes nothing else of the block. -/
def Obligations.HbProcResult : Prop :=
  ∀ s u x,
    (s.counts.nHb ≤ u → exec (.hbProc u x) s = .next (refuse .errUnit s)) ∧
    (∀ h, s.hb[u]? = some h → hbOk s.cfg h →
      ∃ h' y, HalfBandStep s.cfg h h' x y ∧
        exec (.hbProc u x) s =
          .next (({ s with hb := s.hb.set u h' } : State).give { status := .ok, res0 := y, res1 := 0 }))

/-- 45_halfband.md R263, R264, R266: HB.UP is a filter step on the sample and then one on `+0.0`, on the registers the first left; it
answers both outputs and changes nothing else of the block. -/
def Obligations.HbUpResult : Prop :=
  ∀ s u x,
    (s.counts.nHb ≤ u → exec (.hbUp u x) s = .next (refuse .errUnit s)) ∧
    (∀ h, s.hb[u]? = some h → hbOk s.cfg h →
      ∃ h1 h2 y0 y1, HalfBandStep s.cfg h h1 x y0 ∧ HalfBandStep s.cfg h1 h2 F.zero y1 ∧
        exec (.hbUp u x) s =
          .next (({ s with hb := s.hb.set u h2 } : State).give { status := .ok, res0 := y0, res1 := y1 }))

/-! ## Arithmetic -/

/-- 40_numerics.md R132, R133, under the spec's `Num`: an operation with a NaN operand and every invalid operation gives a quiet NaN;
division of a nonzero number by zero gives an infinity of the IEEE sign; every other operation on an infinity is that of the
standard R132 names (log 12); `fabs` and `fneg` only write the sign bit. -/
def Obligations.NanAndInfinityRules : Prop :=
  let quiet := fun v : F => isNan v = true ∧ v.getLsbD 22 = true
  ∀ (nm : Sys2Proof.Num) d a b, nm.basic = .binary32 →
    (isNan a = true ∨ isNan b = true →
      quiet (nm.fadd d a b) ∧ quiet (nm.fsub d a b) ∧ quiet (nm.fmul d a b) ∧ quiet (nm.fdiv d a b)) ∧
    (isNan a = true → quiet (nm.fsqrt d a) ∧ quiet (nm.ffloor d a)) ∧
    (isInf a = true → isInf b = true → signBit a ≠ signBit b → quiet (nm.fadd d a b) ∧ nm.fsub d a b = a) ∧
    (isInf a = true → isInf b = true → signBit a = signBit b → quiet (nm.fsub d a b) ∧ nm.fadd d a b = a) ∧
    (isInf a = true → isFinite b = true →
      nm.fadd d a b = a ∧ nm.fadd d b a = a ∧ nm.fsub d a b = a ∧ nm.fsub d b a = nm.fneg a) ∧
    (isInf a = true → isZero b = true → quiet (nm.fmul d a b) ∧ quiet (nm.fmul d b a)) ∧
    (isInf a = true → isNan b = false → isZero b = false →
      isInf (nm.fmul d a b) = true ∧ signBit (nm.fmul d a b) = (signBit a != signBit b) ∧
        nm.fmul d b a = nm.fmul d a b) ∧
    (isInf a = true → isInf b = true → quiet (nm.fdiv d a b)) ∧
    (isInf a = true → isFinite b = true →
      isInf (nm.fdiv d a b) = true ∧ signBit (nm.fdiv d a b) = (signBit a != signBit b) ∧
        isZero (nm.fdiv d b a) = true ∧ signBit (nm.fdiv d b a) = (signBit a != signBit b)) ∧
    (isZero a = true → isZero b = true → quiet (nm.fdiv d a b)) ∧
    (isFinite a = true → isZero a = false → isZero b = true →
      isInf (nm.fdiv d a b) = true ∧ signBit (nm.fdiv d a b) = (signBit a != signBit b)) ∧
    (flt a F.zero = true → quiet (nm.fsqrt d a)) ∧
    (isInf a = true → (signBit a = false → nm.fsqrt d a = a) ∧ nm.ffloor d a = a) ∧
    (nm.fabs a).setWidth 31 = a.setWidth 31 ∧ signBit (nm.fabs a) = false ∧
    (nm.fneg a).setWidth 31 = a.setWidth 31 ∧ signBit (nm.fneg a) = !signBit a

/-- 40_numerics.md R137: `f2u` is truncation toward zero modulo 2^32, and 0 for a NaN or an infinity; a finite pattern stands for
`signedUnits` times 2^-149. -/
def Obligations.FloatToUnsigned : Prop :=
  (∀ v, isNan v = true ∨ isInf v = true → f2u v = 0) ∧
  (∀ v, isFinite v = true → ((f2u v).toNat : Int) = (signedUnits v).tdiv (2 ^ 149) % 2 ^ 32) ∧
  f2u 0xBF800000#32 = 0xFFFFFFFF#32 ∧ f2u 0xBF400000#32 = 0 ∧ f2u 0x4F800000#32 = 0 ∧ f2u 0x407F5C29#32 = 3

/-- 40_numerics.md R144: `clog2` is the least exponent whose power of two is at least the value. -/
def Obligations.LeastPowerOfTwo : Prop :=
  ∀ p, isFinite p = true → 0 ≤ signedUnits p →
    signedUnits p ≤ 2 ^ clog2 p * 2 ^ 149 ∧
    (∀ e, signedUnits p ≤ 2 ^ e * 2 ^ 149 → clog2 p ≤ e) ∧
    (flt F.one p = false → clog2 p = 0)

/-- 40_numerics.md R132, R133, for the one rounding every operation ends with: `roundMag num den` is the pattern nearest to
`num / den` units of 2^-149, to the even pattern where two are equally near; infinity from half a step above the largest
finite value on. -/
def Obligations.RoundingToNearestEven : Prop :=
  let units := fun m : Nat => magUnits (BitVec.ofNat 32 m)
  let off := fun num den m : Nat => ((num : Int) - (units m : Int) * (den : Int)).natAbs
  ∀ num den, 0 < den →
    (roundMag num den = infMag ↔ (2 ^ 25 - 1) * 2 ^ 252 * den ≤ num) ∧
    (roundMag num den < infMag →
      ∀ m, m < infMag →
        off num den (roundMag num den) ≤ off num den m ∧
        (off num den (roundMag num den) = off num den m → m ≠ roundMag num den → roundMag num den % 2 = 0))

/-! ## Pseudo-commands -/

/-- 30_encoding.md R112, 46_system.md R291: the eleven pseudo-commands, each with the registers it writes: refused where its first
REG.WR is refused, else one OK for each write and nothing else written. That no write is tried after the first refused one (one
refusal, not one for each write) is the model's choice, DEDUCED from R112 (log 16). -/
def Obligations.PseudoCommands : Prop :=
  ∀ s u j a0 a1 a2 b1 b2 p cls ws, Sound s →
    (p, cls, ws) ∈
      [(Pseudo.bqSetcoef u a0 a1 a2 b1 b2, 1,
          [(Reg.bq u .a0, a0), (.bq u .a1, a1), (.bq u .a2, a2), (.bq u .b1, b1), (.bq u .b2, b2)]),
        (.bqClear u, 1, [(.bq u .x1, F.zero), (.bq u .x2, F.zero), (.bq u .y1, F.zero), (.bq u .y2, F.zero)]),
        (.oscSetphase u a0, 2, [(.osc u .phase, a0)]), (.oscSetwave u a0, 2, [(.osc u .wave, a0)]),
        (.dlSetkind u a0, 3, [(.dl u .kind, a0)]),
        (.dlSetmix u a0 a1 a2, 3, [(.dl u .gDry, a0), (.dl u .gFf, a1), (.dl u .gFb, a2)]),
        (.dlSetfixed u a0, 3, [(.dl u .fixdly, a0)]), (.fdnSetfb u a0, 4, [(.fdn u .fb, a0)]),
        (.fdnSetratio u a0, 4, [(.fdn u .ratio, a0)]),
        (.fdnSetdamp u j a0 a1 a2 b1 b2, 4,
          [(.line u j .da0, a0), (.line u j .da1, a1), (.line u j .da2, a2), (.line u j .db1, b1), (.line u j .db2, b2)]),
        (.hbClear u, 5,
          (.bdly u, F.zero) :: (List.range (2 * s.cfg.hbNsec)).flatMap fun k =>
            [(.sect u k .sx1, F.zero), (.sect u k .sx2, F.zero), (.sect u k .sy1, F.zero), (.sect u k .sy2, F.zero)])] →
    let reached := ∀ x, x ∈ ws → inRange s x.1
    let legal := (p = .oscSetwave u a0 → a0.toNat ≤ 1) ∧ (p = .dlSetkind u a0 → a0.toNat ≤ 2)
    (classCount s cls ≤ u → execPseudo p s = .next (refuse .errUnit s)) ∧
    (u < classCount s cls → ¬ reached → execPseudo p s = .next (refuse .errReg s)) ∧
    (u < classCount s cls → reached → readReg s (.sys .inblk) = 1 → execPseudo p s = .next (refuse .errInblk s)) ∧
    (u < classCount s cls → reached → readReg s (.sys .inblk) ≠ 1 → ¬ legal →
      execPseudo p s = .next (refuse .errConfig s)) ∧
    (u < classCount s cls → reached → readReg s (.sys .inblk) ≠ 1 → legal →
      ∃ t, execPseudo p s = .next t ∧ regsExcept s t ws ∧ memSame s t ∧
        t.port = { s.port with
          outputs := List.replicate ws.length { status := .ok, res0 := 0, res1 := 0 } ++ s.port.outputs })

/-! ## Finite arithmetic -/

/-- 40_numerics.md R132, R136 under the spec's `Num`: on finite operands every basic operation and both conversions give the
rounding of the exact result (`RoundsTo`, in units of 2^-149), once; `ffloor` is exact. The sign of a zero result is that of the
standard R132 names (log 12). -/
def Obligations.FiniteArithmeticRoundsOnce : Prop :=
  (∀ (nm : Sys2Proof.Num) d a b, nm.basic = .binary32 → isFinite a = true → isFinite b = true →
    let x : ℝ := signedUnits a
    let y : ℝ := signedUnits b
    RoundsTo (nm.fadd d a b) (x + y) ∧
    (x + y = 0 → nm.fadd d a b = if signBit a && signBit b then 0x80000000#32 else F.zero) ∧
    RoundsTo (nm.fsub d a b) (x - y) ∧
    (x - y = 0 → nm.fsub d a b = if signBit a && !signBit b then 0x80000000#32 else F.zero) ∧
    RoundsTo (nm.fmul d a b) (x * y / 2 ^ 149) ∧ signBit (nm.fmul d a b) = (signBit a != signBit b) ∧
    (y ≠ 0 → RoundsTo (nm.fdiv d a b) (x * 2 ^ 149 / y) ∧ signBit (nm.fdiv d a b) = (signBit a != signBit b)) ∧
    (0 ≤ x → RoundsTo (nm.fsqrt d a) (Real.sqrt (x * 2 ^ 149))) ∧ (x = 0 → nm.fsqrt d a = a ∧ nm.ffloor d a = a) ∧
    isFinite (nm.ffloor d a) = true ∧ (2 ^ 149 : Int) ∣ signedUnits (nm.ffloor d a) ∧
    signedUnits (nm.ffloor d a) ≤ signedUnits a ∧ signedUnits a < signedUnits (nm.ffloor d a) + 2 ^ 149) ∧
  (∀ i : Int, -2 ^ 31 ≤ i → i < 2 ^ 31 → RoundsTo (i2f i) ((i : ℝ) * 2 ^ 149)) ∧
  (∀ n : U32, RoundsTo (u2f n) ((n.toNat : ℝ) * 2 ^ 149)) ∧ i2f 0 = F.zero ∧ u2f 0 = F.zero

end
end

