-- ==== Sys2Proof/Laws/Memory.lean ====
section
/-! SUPPORT. The laws of the delay memories: what a read gives after a write, that every operation keeps the canonical form
and the size, and that equal reads mean equal memories. -/

namespace Sys2Proof.Machine

@[simp] theorem memRead_nil (i : Nat) : memRead [] i = F.zero := rfl

/-- Taking away the entries of one index makes that index read `+0.0` and leaves every other read. -/
theorem memRead_filter (m : SampleMem) (i j : Nat) :
    memRead (m.filter (fun c => decide (c.1 ≠ i))) j = if j = i then F.zero else memRead m j := by
  induction m with
  | nil => simp
  | cons c rest ih =>
    obtain ⟨k, x⟩ := c
    by_cases hk : k = i
    · subst hk
      simp only [List.filter, ne_eq, not_true_eq_false, decide_false, ih, memRead]
      split
      · rfl
      · rw [if_neg (fun h => ‹¬ _› h.symm)]
    · simp only [List.filter, ne_eq, hk, not_false_eq_true, decide_true, memRead, ih]
      split
      · subst_vars; rw [if_neg hk]
      · rfl

/-- An inserted entry is read at its index where no other entry has that index. -/
theorem memRead_memInsert (m : SampleMem) (i j : Nat) (v : F)
    (hn : ∀ c ∈ m, c.1 ≠ i) : memRead (memInsert m i v) j = if j = i then v else memRead m j := by
  induction m with
  | nil => simp [memInsert, memRead, eq_comm]
  | cons c rest ih =>
    obtain ⟨k, x⟩ := c
    have hk : k ≠ i := hn (k, x) (by simp)
    have ih := ih (fun c hc => hn c (by simp [hc]))
    simp only [memInsert]
    split
    · simp only [memRead, eq_comm (a := i)]
    · simp only [memRead, ih]
      split
      · subst_vars; rw [if_neg hk]
      · rfl

/-- Reading after writing: the written index gives the sample, every other index what it gave (20_memory.md R81). -/
theorem memRead_memWrite (m : SampleMem) (i j : Nat) (v : F) :
    memRead (memWrite m i v) j = if j = i then v else memRead m j := by
  unfold memWrite
  split
  · subst_vars; rw [memRead_filter]
  · rw [memRead_memInsert _ _ _ _ (by simp), memRead_filter]
    split <;> simp_all

@[simp] theorem memRead_memWrite_same (m : SampleMem) (i : Nat) (v : F) : memRead (memWrite m i v) i = v := by
  simp [memRead_memWrite]

theorem memRead_memWrite_other (m : SampleMem) {i j : Nat} (v : F) (h : j ≠ i) :
    memRead (memWrite m i v) j = memRead m j := by
  simp [memRead_memWrite, h]

theorem memWfFrom_mono {a b : Nat} (h : a ≤ b) : ∀ {m : SampleMem}, memWfFrom b m = true → memWfFrom a m = true
  | [], _ => rfl
  | (k, x) :: rest, hm => by
    simp only [memWfFrom, Bool.and_eq_true, decide_eq_true_eq] at hm ⊢
    exact ⟨⟨by omega, hm.1.2⟩, hm.2⟩

theorem memWfFrom_filter (p : Nat × F → Bool) : ∀ {a : Nat} {m : SampleMem}, memWfFrom a m = true →
    memWfFrom a (m.filter p) = true
  | _, [], _ => rfl
  | a, (k, x) :: rest, hm => by
    simp only [memWfFrom, Bool.and_eq_true, decide_eq_true_eq] at hm
    have ih := memWfFrom_filter p hm.2
    simp only [List.filter]
    split
    · simp only [memWfFrom, Bool.and_eq_true, decide_eq_true_eq]
      exact ⟨hm.1, ih⟩
    · exact memWfFrom_mono (by omega) ih

theorem memWfFrom_memInsert {v : F} (hv : v ≠ F.zero) {i : Nat} : ∀ {a : Nat} {m : SampleMem}, a ≤ i →
    memWfFrom a m = true → (∀ c ∈ m, c.1 ≠ i) → memWfFrom a (memInsert m i v) = true
  | a, [], ha, _, _ => by simp [memInsert, memWfFrom, ha, hv]
  | a, (k, x) :: rest, ha, hm, hn => by
    simp only [memWfFrom, Bool.and_eq_true, decide_eq_true_eq] at hm
    have hk : k ≠ i := hn (k, x) (by simp)
    simp only [memInsert]
    split
    · simp only [memWfFrom, Bool.and_eq_true, decide_eq_true_eq]
      exact ⟨⟨ha, hv⟩, ⟨by omega, hm.1.2⟩, hm.2⟩
    · simp only [memWfFrom, Bool.and_eq_true, decide_eq_true_eq]
      exact ⟨hm.1, memWfFrom_memInsert hv (by omega) hm.2 (fun c hc => hn c (by simp [hc]))⟩

/-- A write keeps the canonical form. -/
theorem Memory.wf_memWrite {m : SampleMem} (h : Memory.wf m = true) (i : Nat) (v : F) :
    Memory.wf (memWrite m i v) = true := by
  unfold Memory.wf memWrite at *
  split
  · exact memWfFrom_filter _ h
  · exact memWfFrom_memInsert ‹_› (Nat.zero_le i) (memWfFrom_filter _ h) (by simp)

@[simp] theorem Memory.wf_nil : Memory.wf [] = true := rfl

theorem mem_memInsert {c : Nat × F} {i : Nat} {v : F} : ∀ {m : SampleMem}, c ∈ memInsert m i v → c = (i, v) ∨ c ∈ m
  | [], h => by simpa [memInsert] using h
  | (k, x) :: rest, h => by
    simp only [memInsert] at h
    split at h
    · simpa using h
    · rcases List.mem_cons.1 h with h | h
      · exact .inr (by simp [h])
      · rcases mem_memInsert h with h | h
        · exact .inl h
        · exact .inr (by simp [h])

/-- A write inside the memory keeps every listed index inside it. -/
theorem memFits_memWrite {log2 : Nat} {m : SampleMem} (h : memFits log2 m = true) {i : Nat} (hi : i < 2 ^ log2) (v : F) :
    memFits log2 (memWrite m i v) = true := by
  unfold memFits memWrite at *
  simp only [List.all_eq_true, decide_eq_true_eq] at *
  intro c hc
  split at hc
  · exact h c (List.mem_of_mem_filter hc)
  · rcases mem_memInsert hc with hc | hc
    · simpa [hc] using hi
    · exact h c (List.mem_of_mem_filter hc)

@[simp] theorem memFits_nil (log2 : Nat) : memFits log2 [] = true := rfl

/-- An index outside a memory reads as `+0.0`. -/
theorem memRead_outside {log2 : Nat} {m : SampleMem} (h : memFits log2 m = true) {i : Nat} (hi : 2 ^ log2 ≤ i) :
    memRead m i = F.zero := by
  induction m with
  | nil => rfl
  | cons c rest ih =>
    obtain ⟨k, x⟩ := c
    simp only [memFits, List.all_cons, Bool.and_eq_true, decide_eq_true_eq] at h
    simp only [memRead]
    rw [if_neg (by omega)]
    exact ih h.2

theorem memRead_below {a : Nat} : ∀ {m : SampleMem}, memWfFrom a m = true → ∀ {i : Nat}, i < a → memRead m i = F.zero
  | [], _, _, _ => rfl
  | (k, x) :: rest, h, i, hi => by
    simp only [memWfFrom, Bool.and_eq_true, decide_eq_true_eq] at h
    simp only [memRead]
    rw [if_neg (by omega)]
    exact memRead_below h.2 (by omega)

theorem memRead_ext_from : ∀ {m m' : SampleMem} {a b : Nat}, memWfFrom a m = true → memWfFrom b m' = true →
    (∀ i, memRead m i = memRead m' i) → m = m'
  | [], [], _, _, _, _, _ => rfl
  | [], (k, x) :: rest, _, _, _, h', e => by
    simp only [memWfFrom, Bool.and_eq_true, decide_eq_true_eq] at h'
    have := e k
    simp only [memRead, if_true] at this
    exact absurd this.symm h'.1.2
  | (k, x) :: rest, [], _, _, h, _, e => by
    simp only [memWfFrom, Bool.and_eq_true, decide_eq_true_eq] at h
    have := e k
    simp only [memRead, if_true] at this
    exact absurd this h.1.2
  | (k, x) :: rest, (k', x') :: rest', _, _, h, h', e => by
    simp only [memWfFrom, Bool.and_eq_true, decide_eq_true_eq] at h h'
    have hkk : k = k' := by
      by_contra hne
      rcases Nat.lt_or_gt_of_ne hne with hlt | hlt
      · have := e k
        simp only [memRead, if_true, if_neg (Ne.symm hne), memRead_below h'.2 (by omega : k < k' + 1)] at this
        exact h.1.2 this
      · have := e k'
        simp only [memRead, if_true, if_neg hne, memRead_below h.2 (by omega : k' < k + 1)] at this
        exact h'.1.2 this.symm
    subst hkk
    have hx : x = x' := by simpa [memRead] using e k
    subst hx
    have : rest = rest' := memRead_ext_from h.2 h'.2 fun i => by
      by_cases hi : i = k
      · subst hi; rw [memRead_below h.2 (by omega), memRead_below h'.2 (by omega)]
      · simpa [memRead, if_neg (Ne.symm hi)] using e i
    rw [this]

/-- Two memories in canonical form that read the same everywhere are the same data. -/
theorem Memory.ext {m m' : SampleMem} (h : Memory.wf m = true) (h' : Memory.wf m' = true)
    (e : ∀ i, memRead m i = memRead m' i) : m = m' := memRead_ext_from h h' e

/-- The mask of a ring of at most 2^32 samples, as a number. -/
theorem ringMask_toNat {log2 : Nat} (h : log2 ≤ 32) : (ringMask log2).toNat = 2 ^ log2 - 1 := by
  have : 2 ^ log2 ≤ 2 ^ 32 := Nat.pow_le_pow_right (by omega) h
  have : 0 < 2 ^ log2 := Nat.two_pow_pos log2
  simp only [ringMask, BitVec.toNat_ofNat]
  omega

/-- A masked index is the remainder by the length (20_memory.md R73). -/
theorem ringIndex_eq_mod {log2 : Nat} (h : log2 ≤ 32) (w d : U32) : ringIndex log2 w d = (w - d).toNat % 2 ^ log2 := by
  simp only [ringIndex, BitVec.toNat_and, ringMask_toNat h, Nat.and_two_pow_sub_one_eq_mod]

/-- A masked index lies in the part of the memory in use. -/
theorem ringIndex_lt {log2 : Nat} (h : log2 ≤ 32) (w d : U32) : ringIndex log2 w d < 2 ^ log2 := by
  rw [ringIndex_eq_mod h]
  exact Nat.mod_lt _ (Nat.two_pow_pos log2)

end Sys2Proof.Machine
end

