-- ==== Sys2Proof/Laws/State.lean ====
section
/-! SUPPORT. One lemma per field per named update of `State`, each true by `rfl`, so that no proof unfolds a record update. -/

namespace Sys2Proof.Machine

/-! ### `State.give` -/

@[simp] theorem State.give_cfg (s : State) (r : Response) : (s.give r).cfg = s.cfg := rfl
@[simp] theorem State.give_sys (s : State) (r : Response) : (s.give r).sys = s.sys := rfl
@[simp] theorem State.give_bq (s : State) (r : Response) : (s.give r).bq = s.bq := rfl
@[simp] theorem State.give_osc (s : State) (r : Response) : (s.give r).osc = s.osc := rfl
@[simp] theorem State.give_dl (s : State) (r : Response) : (s.give r).dl = s.dl := rfl
@[simp] theorem State.give_fdn (s : State) (r : Response) : (s.give r).fdn = s.fdn := rfl
@[simp] theorem State.give_hb (s : State) (r : Response) : (s.give r).hb = s.hb := rfl
@[simp] theorem State.give_port (s : State) (r : Response) : (s.give r).port = { s.port with outputs := r :: s.port.outputs } := rfl
@[simp] theorem State.give_draws (s : State) (r : Response) : (s.give r).draws = s.draws := rfl

/-! ### `State.taking` -/

@[simp] theorem State.taking_cfg (s : State) (rest : List PortInput) : (s.taking rest).cfg = s.cfg := rfl
@[simp] theorem State.taking_sys (s : State) (rest : List PortInput) : (s.taking rest).sys = s.sys := rfl
@[simp] theorem State.taking_bq (s : State) (rest : List PortInput) : (s.taking rest).bq = s.bq := rfl
@[simp] theorem State.taking_osc (s : State) (rest : List PortInput) : (s.taking rest).osc = s.osc := rfl
@[simp] theorem State.taking_dl (s : State) (rest : List PortInput) : (s.taking rest).dl = s.dl := rfl
@[simp] theorem State.taking_fdn (s : State) (rest : List PortInput) : (s.taking rest).fdn = s.fdn := rfl
@[simp] theorem State.taking_hb (s : State) (rest : List PortInput) : (s.taking rest).hb = s.hb := rfl
@[simp] theorem State.taking_port (s : State) (rest : List PortInput) : (s.taking rest).port = { s.port with inputs := rest } := rfl
@[simp] theorem State.taking_draws (s : State) (rest : List PortInput) : (s.taking rest).draws = s.draws := rfl

/-! ### `State.counted` -/

@[simp] theorem State.counted_cfg (s : State) : (s.counted).cfg = s.cfg := rfl
@[simp] theorem State.counted_sys (s : State) : (s.counted).sys = s.sys := rfl
@[simp] theorem State.counted_bq (s : State) : (s.counted).bq = s.bq := rfl
@[simp] theorem State.counted_osc (s : State) : (s.counted).osc = s.osc := rfl
@[simp] theorem State.counted_dl (s : State) : (s.counted).dl = s.dl := rfl
@[simp] theorem State.counted_fdn (s : State) : (s.counted).fdn = s.fdn := rfl
@[simp] theorem State.counted_hb (s : State) : (s.counted).hb = s.hb := rfl
@[simp] theorem State.counted_port (s : State) : (s.counted).port = s.port := rfl
@[simp] theorem State.counted_draws (s : State) : (s.counted).draws = s.draws + 1 := rfl

/-! ### `State.presented` -/

@[simp] theorem State.presented_cfg (s : State) (w : CommandWord) : (s.presented w).cfg = s.cfg := rfl
@[simp] theorem State.presented_sys (s : State) (w : CommandWord) : (s.presented w).sys = s.sys := rfl
@[simp] theorem State.presented_bq (s : State) (w : CommandWord) : (s.presented w).bq = s.bq := rfl
@[simp] theorem State.presented_osc (s : State) (w : CommandWord) : (s.presented w).osc = s.osc := rfl
@[simp] theorem State.presented_dl (s : State) (w : CommandWord) : (s.presented w).dl = s.dl := rfl
@[simp] theorem State.presented_fdn (s : State) (w : CommandWord) : (s.presented w).fdn = s.fdn := rfl
@[simp] theorem State.presented_hb (s : State) (w : CommandWord) : (s.presented w).hb = s.hb := rfl
@[simp] theorem State.presented_port (s : State) (w : CommandWord) : (s.presented w).port = { s.port with inputs := .command w :: s.port.inputs } := rfl
@[simp] theorem State.presented_draws (s : State) (w : CommandWord) : (s.presented w).draws = s.draws := rfl

/-! ### `State.updBq` -/

@[simp] theorem State.updBq_cfg (s : State) (u : Nat) (f : BqUnit → BqUnit) : (s.updBq u f).cfg = s.cfg := rfl
@[simp] theorem State.updBq_sys (s : State) (u : Nat) (f : BqUnit → BqUnit) : (s.updBq u f).sys = s.sys := rfl
@[simp] theorem State.updBq_bq (s : State) (u : Nat) (f : BqUnit → BqUnit) : (s.updBq u f).bq = s.bq.modify u f := rfl
@[simp] theorem State.updBq_osc (s : State) (u : Nat) (f : BqUnit → BqUnit) : (s.updBq u f).osc = s.osc := rfl
@[simp] theorem State.updBq_dl (s : State) (u : Nat) (f : BqUnit → BqUnit) : (s.updBq u f).dl = s.dl := rfl
@[simp] theorem State.updBq_fdn (s : State) (u : Nat) (f : BqUnit → BqUnit) : (s.updBq u f).fdn = s.fdn := rfl
@[simp] theorem State.updBq_hb (s : State) (u : Nat) (f : BqUnit → BqUnit) : (s.updBq u f).hb = s.hb := rfl
@[simp] theorem State.updBq_port (s : State) (u : Nat) (f : BqUnit → BqUnit) : (s.updBq u f).port = s.port := rfl
@[simp] theorem State.updBq_draws (s : State) (u : Nat) (f : BqUnit → BqUnit) : (s.updBq u f).draws = s.draws := rfl

/-! ### `State.updOsc` -/

@[simp] theorem State.updOsc_cfg (s : State) (u : Nat) (f : OscUnit → OscUnit) : (s.updOsc u f).cfg = s.cfg := rfl
@[simp] theorem State.updOsc_sys (s : State) (u : Nat) (f : OscUnit → OscUnit) : (s.updOsc u f).sys = s.sys := rfl
@[simp] theorem State.updOsc_bq (s : State) (u : Nat) (f : OscUnit → OscUnit) : (s.updOsc u f).bq = s.bq := rfl
@[simp] theorem State.updOsc_osc (s : State) (u : Nat) (f : OscUnit → OscUnit) : (s.updOsc u f).osc = s.osc.modify u f := rfl
@[simp] theorem State.updOsc_dl (s : State) (u : Nat) (f : OscUnit → OscUnit) : (s.updOsc u f).dl = s.dl := rfl
@[simp] theorem State.updOsc_fdn (s : State) (u : Nat) (f : OscUnit → OscUnit) : (s.updOsc u f).fdn = s.fdn := rfl
@[simp] theorem State.updOsc_hb (s : State) (u : Nat) (f : OscUnit → OscUnit) : (s.updOsc u f).hb = s.hb := rfl
@[simp] theorem State.updOsc_port (s : State) (u : Nat) (f : OscUnit → OscUnit) : (s.updOsc u f).port = s.port := rfl
@[simp] theorem State.updOsc_draws (s : State) (u : Nat) (f : OscUnit → OscUnit) : (s.updOsc u f).draws = s.draws := rfl

/-! ### `State.updDl` -/

@[simp] theorem State.updDl_cfg (s : State) (u : Nat) (f : DlUnit → DlUnit) : (s.updDl u f).cfg = s.cfg := rfl
@[simp] theorem State.updDl_sys (s : State) (u : Nat) (f : DlUnit → DlUnit) : (s.updDl u f).sys = s.sys := rfl
@[simp] theorem State.updDl_bq (s : State) (u : Nat) (f : DlUnit → DlUnit) : (s.updDl u f).bq = s.bq := rfl
@[simp] theorem State.updDl_osc (s : State) (u : Nat) (f : DlUnit → DlUnit) : (s.updDl u f).osc = s.osc := rfl
@[simp] theorem State.updDl_dl (s : State) (u : Nat) (f : DlUnit → DlUnit) : (s.updDl u f).dl = s.dl.modify u f := rfl
@[simp] theorem State.updDl_fdn (s : State) (u : Nat) (f : DlUnit → DlUnit) : (s.updDl u f).fdn = s.fdn := rfl
@[simp] theorem State.updDl_hb (s : State) (u : Nat) (f : DlUnit → DlUnit) : (s.updDl u f).hb = s.hb := rfl
@[simp] theorem State.updDl_port (s : State) (u : Nat) (f : DlUnit → DlUnit) : (s.updDl u f).port = s.port := rfl
@[simp] theorem State.updDl_draws (s : State) (u : Nat) (f : DlUnit → DlUnit) : (s.updDl u f).draws = s.draws := rfl

/-! ### `State.updFdn` -/

@[simp] theorem State.updFdn_cfg (s : State) (u : Nat) (f : FdnUnit → FdnUnit) : (s.updFdn u f).cfg = s.cfg := rfl
@[simp] theorem State.updFdn_sys (s : State) (u : Nat) (f : FdnUnit → FdnUnit) : (s.updFdn u f).sys = s.sys := rfl
@[simp] theorem State.updFdn_bq (s : State) (u : Nat) (f : FdnUnit → FdnUnit) : (s.updFdn u f).bq = s.bq := rfl
@[simp] theorem State.updFdn_osc (s : State) (u : Nat) (f : FdnUnit → FdnUnit) : (s.updFdn u f).osc = s.osc := rfl
@[simp] theorem State.updFdn_dl (s : State) (u : Nat) (f : FdnUnit → FdnUnit) : (s.updFdn u f).dl = s.dl := rfl
@[simp] theorem State.updFdn_fdn (s : State) (u : Nat) (f : FdnUnit → FdnUnit) : (s.updFdn u f).fdn = s.fdn.modify u f := rfl
@[simp] theorem State.updFdn_hb (s : State) (u : Nat) (f : FdnUnit → FdnUnit) : (s.updFdn u f).hb = s.hb := rfl
@[simp] theorem State.updFdn_port (s : State) (u : Nat) (f : FdnUnit → FdnUnit) : (s.updFdn u f).port = s.port := rfl
@[simp] theorem State.updFdn_draws (s : State) (u : Nat) (f : FdnUnit → FdnUnit) : (s.updFdn u f).draws = s.draws := rfl

/-! ### `State.updHb` -/

@[simp] theorem State.updHb_cfg (s : State) (u : Nat) (f : HbUnit → HbUnit) : (s.updHb u f).cfg = s.cfg := rfl
@[simp] theorem State.updHb_sys (s : State) (u : Nat) (f : HbUnit → HbUnit) : (s.updHb u f).sys = s.sys := rfl
@[simp] theorem State.updHb_bq (s : State) (u : Nat) (f : HbUnit → HbUnit) : (s.updHb u f).bq = s.bq := rfl
@[simp] theorem State.updHb_osc (s : State) (u : Nat) (f : HbUnit → HbUnit) : (s.updHb u f).osc = s.osc := rfl
@[simp] theorem State.updHb_dl (s : State) (u : Nat) (f : HbUnit → HbUnit) : (s.updHb u f).dl = s.dl := rfl
@[simp] theorem State.updHb_fdn (s : State) (u : Nat) (f : HbUnit → HbUnit) : (s.updHb u f).fdn = s.fdn := rfl
@[simp] theorem State.updHb_hb (s : State) (u : Nat) (f : HbUnit → HbUnit) : (s.updHb u f).hb = s.hb.modify u f := rfl
@[simp] theorem State.updHb_port (s : State) (u : Nat) (f : HbUnit → HbUnit) : (s.updHb u f).port = s.port := rfl
@[simp] theorem State.updHb_draws (s : State) (u : Nat) (f : HbUnit → HbUnit) : (s.updHb u f).draws = s.draws := rfl

/-! ### `refuse` -/

@[simp] theorem refuse_cfg (code : Status) (s : State) : (refuse code s).cfg = s.cfg := rfl
@[simp] theorem refuse_sys (code : Status) (s : State) : (refuse code s).sys = { s.sys with lasterr := lasterrOf code, errcnt := errcntNext s.sys.errcnt } := rfl
@[simp] theorem refuse_bq (code : Status) (s : State) : (refuse code s).bq = s.bq := rfl
@[simp] theorem refuse_osc (code : Status) (s : State) : (refuse code s).osc = s.osc := rfl
@[simp] theorem refuse_dl (code : Status) (s : State) : (refuse code s).dl = s.dl := rfl
@[simp] theorem refuse_fdn (code : Status) (s : State) : (refuse code s).fdn = s.fdn := rfl
@[simp] theorem refuse_hb (code : Status) (s : State) : (refuse code s).hb = s.hb := rfl
@[simp] theorem refuse_port (code : Status) (s : State) : (refuse code s).port = { s.port with outputs := { status := code, res0 := 0, res1 := 0 } :: s.port.outputs } := rfl
@[simp] theorem refuse_draws (code : Status) (s : State) : (refuse code s).draws = s.draws := rfl

/-! ### `State.resetPin` -/

@[simp] theorem State.resetPin_cfg (s : State) : (s.resetPin).cfg = s.cfg := rfl
@[simp] theorem State.resetPin_sys (s : State) : (s.resetPin).sys = SysRegs.reset := rfl
@[simp] theorem State.resetPin_bq (s : State) : (s.resetPin).bq = List.replicate s.bq.length BqUnit.reset := rfl
@[simp] theorem State.resetPin_osc (s : State) : (s.resetPin).osc = List.replicate s.osc.length OscUnit.reset := rfl
@[simp] theorem State.resetPin_dl (s : State) : (s.resetPin).dl = List.replicate s.dl.length DlUnit.reset := rfl
@[simp] theorem State.resetPin_fdn (s : State) : (s.resetPin).fdn = List.replicate s.fdn.length FdnUnit.reset := rfl
@[simp] theorem State.resetPin_hb (s : State) : (s.resetPin).hb = List.replicate s.hb.length (HbUnit.reset s.cfg.hbNsec) := rfl
@[simp] theorem State.resetPin_port (s : State) : (s.resetPin).port = s.port := rfl
@[simp] theorem State.resetPin_draws (s : State) : (s.resetPin).draws = s.draws := rfl

/-! ### The draw of a command -/

@[simp] theorem State.draw_give (s : State) (r : Response) : (s.give r).draw = s.draw := rfl
@[simp] theorem State.draw_taking (s : State) (rest : List PortInput) : (s.taking rest).draw = s.draw := rfl
@[simp] theorem State.draw_presented (s : State) (w : CommandWord) : (s.presented w).draw = s.draw := rfl
@[simp] theorem draw_refuse (code : Status) (s : State) : (refuse code s).draw = s.draw := rfl

/-! ### The conditions on the flags read the SYS registers alone -/

@[simp] theorem inSetup_taking (s : State) (rest : List PortInput) : inSetup (s.taking rest) = inSetup s := rfl
@[simp] theorem inRun_taking (s : State) (rest : List PortInput) : inRun (s.taking rest) = inRun s := rfl
@[simp] theorem inBlock_taking (s : State) (rest : List PortInput) : inBlock (s.taking rest) = inBlock s := rfl
@[simp] theorem noBlock_taking (s : State) (rest : List PortInput) : noBlock (s.taking rest) = noBlock s := rfl
@[simp] theorem fsConfigured_taking (s : State) (rest : List PortInput) :
    fsConfigured (s.taking rest) = fsConfigured s := rfl
@[simp] theorem controlState_taking (s : State) (rest : List PortInput) :
    controlState (s.taking rest) = controlState s := rfl

end Sys2Proof.Machine
end

