-- ==== Sys2Proof/Laws/Ops.lean ====
section
/-! SUPPORT. For each shared operation one lemma that says once everything it can do: a caller cites it instead of unfolding
the operation. -/

namespace Sys2Proof.Machine

/-! ### Outcomes -/

/-- `respond` answers exactly this next state. -/
theorem respond_eq (r0 r1 : U32) (s : State) :
    respond r0 r1 s = .next (s.give { status := .ok, res0 := r0, res1 := r1 }) := rfl

/-- `refused` answers exactly this next state. -/
theorem refused_eq (code : Status) (s : State) : refused code s = .next (refuse code s) := rfl

theorem respond_next {r0 r1 : U32} {s t : State} (h : respond r0 r1 s = .next t) :
    t = s.give { status := .ok, res0 := r0, res1 := r1 } := by
  simp only [respond, Host.Outcome.next.injEq] at h; exact h.symm

theorem refused_next {code : Status} {s t : State} (h : refused code s = .next t) : t = refuse code s := by
  simp only [refused, Host.Outcome.next.injEq] at h; exact h.symm

/-- A check passes on to the rest of the meaning, or refuses. -/
theorem check_cases {good : Bool} {code : Status} {s : State} {go o : Out} (h : check good code s go = o) :
    (good = true ∧ go = o) ∨ (good = false ∧ refused code s = o) := by
  unfold check at h; cases good <;> simp_all

@[simp] theorem check_true (code : Status) (s : State) (go : Out) : check true code s go = go := rfl
@[simp] theorem check_false (code : Status) (s : State) (go : Out) : check false code s go = refused code s := rfl

theorem check_of {good : Bool} (h : good = true) (code : Status) (s : State) (go : Out) : check good code s go = go := by
  subst h; rfl

theorem check_not {good : Bool} (h : good = false) (code : Status) (s : State) (go : Out) :
    check good code s go = refused code s := by subst h; rfl

/-- The unit check finds the unit, or refuses with ERR_UNIT. -/
theorem withUnit_cases {α : Type} {units : List α} {u : Nat} {s : State} {go : α → Out} {o : Out}
    (h : withUnit units u s go = o) :
    (∃ x, units[u]? = some x ∧ go x = o) ∨ (units.length ≤ u ∧ refused .errUnit s = o) := by
  unfold withUnit at h
  split at h
  · exact .inl ⟨_, ‹_›, h⟩
  · exact .inr ⟨List.getElem?_eq_none_iff.1 ‹_›, h⟩

theorem withUnit_some {α : Type} {units : List α} {u : Nat} {x : α} (h : units[u]? = some x) (s : State) (go : α → Out) :
    withUnit units u s go = go x := by simp [withUnit, h]

theorem withUnit_none {α : Type} {units : List α} {u : Nat} (h : units.length ≤ u) (s : State) (go : α → Out) :
    withUnit units u s go = refused .errUnit s := by simp [withUnit, List.getElem?_eq_none_iff.2 h]

/-- The register checks find the register, or refuse with ERR_UNIT, or with ERR_REG. -/
theorem withReg_cases {s : State} {cls unit reg : Nat} {go : Reg → Out} {o : Out} (h : withReg s cls unit reg go = o) :
    (unitExists s cls unit = true ∧ ∃ r, regAt s cls unit reg = some r ∧ go r = o) ∨
    (unitExists s cls unit = true ∧ regAt s cls unit reg = none ∧ refused .errReg s = o) ∨
    (unitExists s cls unit = false ∧ refused .errUnit s = o) := by
  unfold withReg at h
  rcases check_cases h with ⟨hu, h⟩ | ⟨hu, h⟩
  · split at h
    · exact .inl ⟨hu, _, ‹_›, h⟩
    · exact .inr (.inl ⟨hu, ‹_›, h⟩)
  · exact .inr (.inr ⟨hu, h⟩)

theorem withReg_some {s : State} {cls unit reg : Nat} {r : Reg} (hu : unitExists s cls unit = true)
    (hr : regAt s cls unit reg = some r) (go : Reg → Out) : withReg s cls unit reg go = go r := by
  simp [withReg, hu, hr]

/-! ### When a shared operation answers a next state -/

theorem respond_eq_next {r0 r1 : U32} {s t : State} :
    respond r0 r1 s = .next t ↔ t = s.give { status := .ok, res0 := r0, res1 := r1 } :=
  ⟨respond_next, fun h => by rw [h]; rfl⟩

theorem refused_eq_next {code : Status} {s t : State} : refused code s = .next t ↔ t = refuse code s :=
  ⟨refused_next, fun h => by rw [h]; rfl⟩

theorem check_eq_next {good : Bool} {code : Status} {s t : State} {go : Out} :
    check good code s go = .next t ↔ (good = true ∧ go = .next t) ∨ (good = false ∧ t = refuse code s) := by
  cases good <;> simp [refused_eq_next]

theorem withUnit_eq_next {α : Type} {units : List α} {u : Nat} {s t : State} {go : α → Out} :
    withUnit units u s go = .next t ↔
      (∃ x, units[u]? = some x ∧ go x = .next t) ∨ (units.length ≤ u ∧ t = refuse .errUnit s) := by
  unfold withUnit
  split
  · rename_i x hx
    have hlt := (List.getElem?_eq_some_iff.1 hx).1
    simp only [hx, Option.some.injEq, exists_eq_left']
    exact ⟨.inl, fun h => h.elim id fun h => absurd h.1 (by omega)⟩
  · rename_i hx
    simp [List.getElem?_eq_none_iff.1 hx, refused_eq_next]

theorem withReg_eq_next {s t : State} {cls unit reg : Nat} {go : Reg → Out} :
    withReg s cls unit reg go = .next t ↔
      (unitExists s cls unit = true ∧ ∃ r, regAt s cls unit reg = some r ∧ go r = .next t) ∨
      (unitExists s cls unit = true ∧ regAt s cls unit reg = none ∧ t = refuse .errReg s) ∨
      (unitExists s cls unit = false ∧ t = refuse .errUnit s) := by
  unfold withReg
  rw [check_eq_next]
  cases h : regAt s cls unit reg <;> simp [refused_eq_next]

/-! ### Updates of one unit -/

/-- After one unit of a list is replaced, its place holds the new unit and every other place what it held. -/
theorem getElem?_modify_unit {α : Type} (l : List α) (u v : Nat) (f : α → α) :
    (l.modify u f)[v]? = if u = v then l[v]?.map f else l[v]? := by
  rw [List.getElem?_modify]
  split <;> simp

@[simp] theorem State.updBq_getElem? (s : State) (u v : Nat) (f : BqUnit → BqUnit) :
    (s.updBq u f).bq[v]? = if u = v then s.bq[v]?.map f else s.bq[v]? := getElem?_modify_unit _ _ _ _
@[simp] theorem State.updOsc_getElem? (s : State) (u v : Nat) (f : OscUnit → OscUnit) :
    (s.updOsc u f).osc[v]? = if u = v then s.osc[v]?.map f else s.osc[v]? := getElem?_modify_unit _ _ _ _
@[simp] theorem State.updDl_getElem? (s : State) (u v : Nat) (f : DlUnit → DlUnit) :
    (s.updDl u f).dl[v]? = if u = v then s.dl[v]?.map f else s.dl[v]? := getElem?_modify_unit _ _ _ _
@[simp] theorem State.updFdn_getElem? (s : State) (u v : Nat) (f : FdnUnit → FdnUnit) :
    (s.updFdn u f).fdn[v]? = if u = v then s.fdn[v]?.map f else s.fdn[v]? := getElem?_modify_unit _ _ _ _
@[simp] theorem State.updHb_getElem? (s : State) (u v : Nat) (f : HbUnit → HbUnit) :
    (s.updHb u f).hb[v]? = if u = v then s.hb[v]?.map f else s.hb[v]? := getElem?_modify_unit _ _ _ _

/-- What holds of every unit of a list holds after one is replaced by one of which it holds. -/
theorem forall_mem_modify {α : Type} {p : α → Prop} {l : List α} {u : Nat} {f : α → α} (h : ∀ x ∈ l, p x)
    (hf : ∀ x, l[u]? = some x → p (f x)) : ∀ x ∈ l.modify u f, p x := by
  intro x hx
  obtain ⟨v, hv, rfl⟩ := List.mem_iff_getElem.1 hx
  rw [List.getElem_modify]
  split
  · subst_vars
    exact hf _ (List.getElem?_eq_getElem (by simpa using hv))
  · exact h _ (List.getElem_mem _)

/-! ### The error registers -/

@[simp] theorem lasterrOf_toNat (code : Status) : (lasterrOf code).toNat = (statusCode code).toNat := by
  cases code <;> rfl

theorem lasterrOf_ne_zero {code : Status} (h : code ≠ .ok) : lasterrOf code ≠ 0 := by
  cases code <;> first | exact absurd rfl h | decide

/-- A refusal counts one more, until the count is full (60_exceptions.md R302). -/
theorem errcntNext_toNat (n : U32) : (errcntNext n).toNat = min (n.toNat + 1) 0xFFFFFFFF := by
  have hn := n.isLt
  unfold errcntNext
  split
  · subst_vars; rfl
  · have hne : n.toNat ≠ 0xFFFFFFFF := fun e => ‹¬ _› (BitVec.eq_of_toNat_eq (by simpa using e))
    have h1 : (n + 1).toNat = (n.toNat + 1) % 2 ^ 32 := BitVec.toNat_add n 1
    omega

theorem errcntNext_ne_zero (n : U32) : errcntNext n ≠ 0 := by
  intro h
  have := errcntNext_toNat n
  rw [h] at this
  simp only [BitVec.ofNat_eq_ofNat, BitVec.toNat_ofNat] at this
  omega

end Sys2Proof.Machine
end

