-- ==== Sys2Proof/Laws/Registers.lean ====
section
/-! SUPPORT. What a register and a delay memory read as after each named update of the state. -/

namespace Sys2Proof.Machine

theorem readAt_some {α : Type} {l : List α} {u : Nat} {x : α} (h : l[u]? = some x) (f : α → U32) :
    readAt l u f = f x := by simp [readAt, h]

theorem readAt_none {α : Type} {l : List α} {u : Nat} (h : l[u]? = none) (f : α → U32) : readAt l u f = 0 := by
  simp [readAt, h]

theorem readAt_modify {α : Type} (l : List α) (u v : Nat) (f : α → α) (g : α → U32) :
    readAt (l.modify u f) v g = if u = v then readAt l v (fun x => g (f x)) else readAt l v g := by
  have h := getElem?_modify_unit l u v f
  unfold readAt
  rw [h]
  by_cases huv : u = v
  · simp only [if_pos huv]
    cases l[v]? <;> rfl
  · simp only [if_neg huv]

theorem readAt_modify_same {α : Type} (l : List α) (u : Nat) (f : α → α) (g : α → U32) :
    readAt (l.modify u f) u g = readAt l u (fun x => g (f x)) := by rw [readAt_modify, if_pos rfl]

theorem readAt_modify_other {α : Type} (l : List α) {u v : Nat} (h : v ≠ u) (f : α → α) (g : α → U32) :
    readAt (l.modify u f) v g = readAt l v g := by rw [readAt_modify, if_neg (Ne.symm h)]

/-! ### Unit counts -/

@[simp] theorem State.give_counts (s : State) (r : Response) : (s.give r).counts = s.counts := rfl
@[simp] theorem sysRead_give (s : State) (r : Response) (q : SysReg) : sysRead (s.give r) q = sysRead s q := by cases q <;> rfl
@[simp] theorem readReg_give (s : State) (r : Response) (q : Reg) : readReg (s.give r) q = readReg s q := by
  cases q with
  | sys q => simp [readReg]
  | _ => rfl
@[simp] theorem dlSample_give (s : State) (r : Response) (v k : Nat) : dlSample (s.give r) v k = dlSample s v k := rfl
@[simp] theorem lineSample_give (s : State) (r : Response) (v j k : Nat) : lineSample (s.give r) v j k = lineSample s v j k := rfl
@[simp] theorem State.taking_counts (s : State) (rest : List PortInput) : (s.taking rest).counts = s.counts := rfl
@[simp] theorem sysRead_taking (s : State) (rest : List PortInput) (q : SysReg) : sysRead (s.taking rest) q = sysRead s q := by cases q <;> rfl
@[simp] theorem readReg_taking (s : State) (rest : List PortInput) (q : Reg) : readReg (s.taking rest) q = readReg s q := by
  cases q with
  | sys q => simp [readReg]
  | _ => rfl
@[simp] theorem dlSample_taking (s : State) (rest : List PortInput) (v k : Nat) : dlSample (s.taking rest) v k = dlSample s v k := rfl
@[simp] theorem lineSample_taking (s : State) (rest : List PortInput) (v j k : Nat) : lineSample (s.taking rest) v j k = lineSample s v j k := rfl
@[simp] theorem State.counted_counts (s : State) : (s.counted).counts = s.counts := rfl
@[simp] theorem sysRead_counted (s : State) (q : SysReg) : sysRead (s.counted) q = sysRead s q := by cases q <;> rfl
@[simp] theorem readReg_counted (s : State) (q : Reg) : readReg (s.counted) q = readReg s q := by
  cases q with
  | sys q => simp [readReg]
  | _ => rfl
@[simp] theorem dlSample_counted (s : State) (v k : Nat) : dlSample (s.counted) v k = dlSample s v k := rfl
@[simp] theorem lineSample_counted (s : State) (v j k : Nat) : lineSample (s.counted) v j k = lineSample s v j k := rfl
@[simp] theorem State.presented_counts (s : State) (w : CommandWord) : (s.presented w).counts = s.counts := rfl
@[simp] theorem sysRead_presented (s : State) (w : CommandWord) (q : SysReg) : sysRead (s.presented w) q = sysRead s q := by cases q <;> rfl
@[simp] theorem readReg_presented (s : State) (w : CommandWord) (q : Reg) : readReg (s.presented w) q = readReg s q := by
  cases q with
  | sys q => simp [readReg]
  | _ => rfl
@[simp] theorem dlSample_presented (s : State) (w : CommandWord) (v k : Nat) : dlSample (s.presented w) v k = dlSample s v k := rfl
@[simp] theorem lineSample_presented (s : State) (w : CommandWord) (v j k : Nat) : lineSample (s.presented w) v j k = lineSample s v j k := rfl

/-! ### `State.updBq` -/

@[simp] theorem State.updBq_counts (s : State) (u : Nat) (f : BqUnit → BqUnit) : (s.updBq u f).counts = s.counts := by
  simp [State.counts, State.updBq]
@[simp] theorem sysRead_updBq (s : State) (u : Nat) (f : BqUnit → BqUnit) (q : SysReg) : sysRead (s.updBq u f) q = sysRead s q := by
  cases q <;> simp [sysRead, State.updBq]
@[simp] theorem readReg_updBq_sys (s : State) (u : Nat) (f : BqUnit → BqUnit) (r : SysReg) :
    readReg (s.updBq u f) (.sys r) = readReg s (.sys r) := sysRead_updBq s u f r
@[simp] theorem readReg_updBq_osc (s : State) (u : Nat) (f : BqUnit → BqUnit) (v : Nat) (r : OscReg) :
    readReg (s.updBq u f) (.osc v r) = readReg s (.osc v r) := rfl
@[simp] theorem readReg_updBq_dl (s : State) (u : Nat) (f : BqUnit → BqUnit) (v : Nat) (r : DlReg) :
    readReg (s.updBq u f) (.dl v r) = readReg s (.dl v r) := rfl
@[simp] theorem readReg_updBq_fdn (s : State) (u : Nat) (f : BqUnit → BqUnit) (v : Nat) (r : FdnReg) :
    readReg (s.updBq u f) (.fdn v r) = readReg s (.fdn v r) := rfl
@[simp] theorem readReg_updBq_matrix (s : State) (u : Nat) (f : BqUnit → BqUnit) (v i j : Nat) :
    readReg (s.updBq u f) (.matrix v i j) = readReg s (.matrix v i j) := rfl
@[simp] theorem readReg_updBq_line (s : State) (u : Nat) (f : BqUnit → BqUnit) (v j : Nat) (r : LineReg) :
    readReg (s.updBq u f) (.line v j r) = readReg s (.line v j r) := rfl
@[simp] theorem readReg_updBq_bdly (s : State) (u : Nat) (f : BqUnit → BqUnit) (v : Nat) :
    readReg (s.updBq u f) (.bdly v) = readReg s (.bdly v) := rfl
@[simp] theorem readReg_updBq_sect (s : State) (u : Nat) (f : BqUnit → BqUnit) (v sec : Nat) (r : SecReg) :
    readReg (s.updBq u f) (.sect v sec r) = readReg s (.sect v sec r) := rfl
theorem readReg_updBq_bq (s : State) (u : Nat) (f : BqUnit → BqUnit) (v : Nat) (r : BqReg) :
    readReg (s.updBq u f) (.bq v r) =
      if u = v then readAt s.bq v (fun x => (f x).get r) else readReg s (.bq v r) :=
  readAt_modify _ _ _ _ _
@[simp] theorem dlSample_updBq (s : State) (u : Nat) (f : BqUnit → BqUnit) (v k : Nat) : dlSample (s.updBq u f) v k = dlSample s v k := rfl
@[simp] theorem lineSample_updBq (s : State) (u : Nat) (f : BqUnit → BqUnit) (v j k : Nat) :
    lineSample (s.updBq u f) v j k = lineSample s v j k := rfl

/-! ### `State.updOsc` -/

@[simp] theorem State.updOsc_counts (s : State) (u : Nat) (f : OscUnit → OscUnit) : (s.updOsc u f).counts = s.counts := by
  simp [State.counts, State.updOsc]
@[simp] theorem sysRead_updOsc (s : State) (u : Nat) (f : OscUnit → OscUnit) (q : SysReg) : sysRead (s.updOsc u f) q = sysRead s q := by
  cases q <;> simp [sysRead, State.updOsc]
@[simp] theorem readReg_updOsc_sys (s : State) (u : Nat) (f : OscUnit → OscUnit) (r : SysReg) :
    readReg (s.updOsc u f) (.sys r) = readReg s (.sys r) := sysRead_updOsc s u f r
@[simp] theorem readReg_updOsc_bq (s : State) (u : Nat) (f : OscUnit → OscUnit) (v : Nat) (r : BqReg) :
    readReg (s.updOsc u f) (.bq v r) = readReg s (.bq v r) := rfl
@[simp] theorem readReg_updOsc_dl (s : State) (u : Nat) (f : OscUnit → OscUnit) (v : Nat) (r : DlReg) :
    readReg (s.updOsc u f) (.dl v r) = readReg s (.dl v r) := rfl
@[simp] theorem readReg_updOsc_fdn (s : State) (u : Nat) (f : OscUnit → OscUnit) (v : Nat) (r : FdnReg) :
    readReg (s.updOsc u f) (.fdn v r) = readReg s (.fdn v r) := rfl
@[simp] theorem readReg_updOsc_matrix (s : State) (u : Nat) (f : OscUnit → OscUnit) (v i j : Nat) :
    readReg (s.updOsc u f) (.matrix v i j) = readReg s (.matrix v i j) := rfl
@[simp] theorem readReg_updOsc_line (s : State) (u : Nat) (f : OscUnit → OscUnit) (v j : Nat) (r : LineReg) :
    readReg (s.updOsc u f) (.line v j r) = readReg s (.line v j r) := rfl
@[simp] theorem readReg_updOsc_bdly (s : State) (u : Nat) (f : OscUnit → OscUnit) (v : Nat) :
    readReg (s.updOsc u f) (.bdly v) = readReg s (.bdly v) := rfl
@[simp] theorem readReg_updOsc_sect (s : State) (u : Nat) (f : OscUnit → OscUnit) (v sec : Nat) (r : SecReg) :
    readReg (s.updOsc u f) (.sect v sec r) = readReg s (.sect v sec r) := rfl
theorem readReg_updOsc_osc (s : State) (u : Nat) (f : OscUnit → OscUnit) (v : Nat) (r : OscReg) :
    readReg (s.updOsc u f) (.osc v r) =
      if u = v then readAt s.osc v (fun x => (f x).get r) else readReg s (.osc v r) :=
  readAt_modify _ _ _ _ _
@[simp] theorem dlSample_updOsc (s : State) (u : Nat) (f : OscUnit → OscUnit) (v k : Nat) : dlSample (s.updOsc u f) v k = dlSample s v k := rfl
@[simp] theorem lineSample_updOsc (s : State) (u : Nat) (f : OscUnit → OscUnit) (v j k : Nat) :
    lineSample (s.updOsc u f) v j k = lineSample s v j k := rfl

/-! ### `State.updDl` -/

@[simp] theorem State.updDl_counts (s : State) (u : Nat) (f : DlUnit → DlUnit) : (s.updDl u f).counts = s.counts := by
  simp [State.counts, State.updDl]
@[simp] theorem sysRead_updDl (s : State) (u : Nat) (f : DlUnit → DlUnit) (q : SysReg) : sysRead (s.updDl u f) q = sysRead s q := by
  cases q <;> simp [sysRead, State.updDl]
@[simp] theorem readReg_updDl_sys (s : State) (u : Nat) (f : DlUnit → DlUnit) (r : SysReg) :
    readReg (s.updDl u f) (.sys r) = readReg s (.sys r) := sysRead_updDl s u f r
@[simp] theorem readReg_updDl_bq (s : State) (u : Nat) (f : DlUnit → DlUnit) (v : Nat) (r : BqReg) :
    readReg (s.updDl u f) (.bq v r) = readReg s (.bq v r) := rfl
@[simp] theorem readReg_updDl_osc (s : State) (u : Nat) (f : DlUnit → DlUnit) (v : Nat) (r : OscReg) :
    readReg (s.updDl u f) (.osc v r) = readReg s (.osc v r) := rfl
@[simp] theorem readReg_updDl_fdn (s : State) (u : Nat) (f : DlUnit → DlUnit) (v : Nat) (r : FdnReg) :
    readReg (s.updDl u f) (.fdn v r) = readReg s (.fdn v r) := rfl
@[simp] theorem readReg_updDl_matrix (s : State) (u : Nat) (f : DlUnit → DlUnit) (v i j : Nat) :
    readReg (s.updDl u f) (.matrix v i j) = readReg s (.matrix v i j) := rfl
@[simp] theorem readReg_updDl_line (s : State) (u : Nat) (f : DlUnit → DlUnit) (v j : Nat) (r : LineReg) :
    readReg (s.updDl u f) (.line v j r) = readReg s (.line v j r) := rfl
@[simp] theorem readReg_updDl_bdly (s : State) (u : Nat) (f : DlUnit → DlUnit) (v : Nat) :
    readReg (s.updDl u f) (.bdly v) = readReg s (.bdly v) := rfl
@[simp] theorem readReg_updDl_sect (s : State) (u : Nat) (f : DlUnit → DlUnit) (v sec : Nat) (r : SecReg) :
    readReg (s.updDl u f) (.sect v sec r) = readReg s (.sect v sec r) := rfl
theorem readReg_updDl_dl (s : State) (u : Nat) (f : DlUnit → DlUnit) (v : Nat) (r : DlReg) :
    readReg (s.updDl u f) (.dl v r) =
      if u = v then readAt s.dl v (fun x => (f x).get r) else readReg s (.dl v r) :=
  readAt_modify _ _ _ _ _
theorem dlSample_updDl (s : State) (u : Nat) (f : DlUnit → DlUnit) (v k : Nat) : dlSample (s.updDl u f) v k =
    if u = v then readAt s.dl v (fun l => memRead (f l).buf k) else dlSample s v k := readAt_modify _ _ _ _ _
@[simp] theorem lineSample_updDl (s : State) (u : Nat) (f : DlUnit → DlUnit) (v j k : Nat) :
    lineSample (s.updDl u f) v j k = lineSample s v j k := rfl

/-! ### `State.updFdn` -/

@[simp] theorem State.updFdn_counts (s : State) (u : Nat) (f : FdnUnit → FdnUnit) : (s.updFdn u f).counts = s.counts := by
  simp [State.counts, State.updFdn]
@[simp] theorem sysRead_updFdn (s : State) (u : Nat) (f : FdnUnit → FdnUnit) (q : SysReg) : sysRead (s.updFdn u f) q = sysRead s q := by
  cases q <;> simp [sysRead, State.updFdn]
@[simp] theorem readReg_updFdn_sys (s : State) (u : Nat) (f : FdnUnit → FdnUnit) (r : SysReg) :
    readReg (s.updFdn u f) (.sys r) = readReg s (.sys r) := sysRead_updFdn s u f r
@[simp] theorem readReg_updFdn_bq (s : State) (u : Nat) (f : FdnUnit → FdnUnit) (v : Nat) (r : BqReg) :
    readReg (s.updFdn u f) (.bq v r) = readReg s (.bq v r) := rfl
@[simp] theorem readReg_updFdn_osc (s : State) (u : Nat) (f : FdnUnit → FdnUnit) (v : Nat) (r : OscReg) :
    readReg (s.updFdn u f) (.osc v r) = readReg s (.osc v r) := rfl
@[simp] theorem readReg_updFdn_dl (s : State) (u : Nat) (f : FdnUnit → FdnUnit) (v : Nat) (r : DlReg) :
    readReg (s.updFdn u f) (.dl v r) = readReg s (.dl v r) := rfl
@[simp] theorem readReg_updFdn_bdly (s : State) (u : Nat) (f : FdnUnit → FdnUnit) (v : Nat) :
    readReg (s.updFdn u f) (.bdly v) = readReg s (.bdly v) := rfl
@[simp] theorem readReg_updFdn_sect (s : State) (u : Nat) (f : FdnUnit → FdnUnit) (v sec : Nat) (r : SecReg) :
    readReg (s.updFdn u f) (.sect v sec r) = readReg s (.sect v sec r) := rfl
theorem readReg_updFdn_fdn (s : State) (u : Nat) (f : FdnUnit → FdnUnit) (v : Nat) (r : FdnReg) :
    readReg (s.updFdn u f) (.fdn v r) =
      if u = v then readAt s.fdn v (fun x => (f x).get r) else readReg s (.fdn v r) :=
  readAt_modify _ _ _ _ _
theorem readReg_updFdn_matrix (s : State) (u : Nat) (f : FdnUnit → FdnUnit) (v i j : Nat) :
    readReg (s.updFdn u f) (.matrix v i j) =
      if u = v then readAt s.fdn v (fun x => (f x).m.getD (matrixPlace i j) F.zero) else readReg s (.matrix v i j) :=
  readAt_modify _ _ _ _ _
theorem readReg_updFdn_line (s : State) (u : Nat) (f : FdnUnit → FdnUnit) (v j : Nat) (r : LineReg) :
    readReg (s.updFdn u f) (.line v j r) =
      if u = v then readAt s.fdn v (fun x => readAt (f x).lines j (fun l => l.get r)) else readReg s (.line v j r) :=
  readAt_modify _ _ _ _ _
@[simp] theorem dlSample_updFdn (s : State) (u : Nat) (f : FdnUnit → FdnUnit) (v k : Nat) : dlSample (s.updFdn u f) v k = dlSample s v k := rfl
theorem lineSample_updFdn (s : State) (u : Nat) (f : FdnUnit → FdnUnit) (v j k : Nat) : lineSample (s.updFdn u f) v j k =
    if u = v then readAt s.fdn v (fun q => readAt (f q).lines j (fun l => memRead l.buf k)) else lineSample s v j k :=
  readAt_modify _ _ _ _ _

/-! ### `State.updHb` -/

@[simp] theorem State.updHb_counts (s : State) (u : Nat) (f : HbUnit → HbUnit) : (s.updHb u f).counts = s.counts := by
  simp [State.counts, State.updHb]
@[simp] theorem sysRead_updHb (s : State) (u : Nat) (f : HbUnit → HbUnit) (q : SysReg) : sysRead (s.updHb u f) q = sysRead s q := by
  cases q <;> simp [sysRead, State.updHb]
@[simp] theorem readReg_updHb_sys (s : State) (u : Nat) (f : HbUnit → HbUnit) (r : SysReg) :
    readReg (s.updHb u f) (.sys r) = readReg s (.sys r) := sysRead_updHb s u f r
@[simp] theorem readReg_updHb_bq (s : State) (u : Nat) (f : HbUnit → HbUnit) (v : Nat) (r : BqReg) :
    readReg (s.updHb u f) (.bq v r) = readReg s (.bq v r) := rfl
@[simp] theorem readReg_updHb_osc (s : State) (u : Nat) (f : HbUnit → HbUnit) (v : Nat) (r : OscReg) :
    readReg (s.updHb u f) (.osc v r) = readReg s (.osc v r) := rfl
@[simp] theorem readReg_updHb_dl (s : State) (u : Nat) (f : HbUnit → HbUnit) (v : Nat) (r : DlReg) :
    readReg (s.updHb u f) (.dl v r) = readReg s (.dl v r) := rfl
@[simp] theorem readReg_updHb_fdn (s : State) (u : Nat) (f : HbUnit → HbUnit) (v : Nat) (r : FdnReg) :
    readReg (s.updHb u f) (.fdn v r) = readReg s (.fdn v r) := rfl
@[simp] theorem readReg_updHb_matrix (s : State) (u : Nat) (f : HbUnit → HbUnit) (v i j : Nat) :
    readReg (s.updHb u f) (.matrix v i j) = readReg s (.matrix v i j) := rfl
@[simp] theorem readReg_updHb_line (s : State) (u : Nat) (f : HbUnit → HbUnit) (v j : Nat) (r : LineReg) :
    readReg (s.updHb u f) (.line v j r) = readReg s (.line v j r) := rfl
theorem readReg_updHb_bdly (s : State) (u : Nat) (f : HbUnit → HbUnit) (v : Nat) :
    readReg (s.updHb u f) (.bdly v) =
      if u = v then readAt s.hb v (fun x => (f x).bdly) else readReg s (.bdly v) :=
  readAt_modify _ _ _ _ _
theorem readReg_updHb_sect (s : State) (u : Nat) (f : HbUnit → HbUnit) (v sec : Nat) (r : SecReg) :
    readReg (s.updHb u f) (.sect v sec r) =
      if u = v then readAt s.hb v (fun x => readAt (f x).secs sec (fun y => y.get (hbCoef s.cfg sec) r)) else readReg s (.sect v sec r) :=
  readAt_modify _ _ _ _ _
@[simp] theorem dlSample_updHb (s : State) (u : Nat) (f : HbUnit → HbUnit) (v k : Nat) : dlSample (s.updHb u f) v k = dlSample s v k := rfl
@[simp] theorem lineSample_updHb (s : State) (u : Nat) (f : HbUnit → HbUnit) (v j k : Nat) :
    lineSample (s.updHb u f) v j k = lineSample s v j k := rfl

/-! ### Units that exist -/

theorem bq_of_lt {s : State} {u : Nat} (h : u < s.counts.nBq) : ∃ b, s.bq[u]? = some b := ⟨_, List.getElem?_eq_getElem h⟩
theorem osc_of_lt {s : State} {u : Nat} (h : u < s.counts.nOsc) : ∃ o, s.osc[u]? = some o := ⟨_, List.getElem?_eq_getElem h⟩
theorem dl_of_lt {s : State} {u : Nat} (h : u < s.counts.nDl) : ∃ l, s.dl[u]? = some l := ⟨_, List.getElem?_eq_getElem h⟩
theorem fdn_of_lt {s : State} {u : Nat} (h : u < s.counts.nFdn) : ∃ f, s.fdn[u]? = some f := ⟨_, List.getElem?_eq_getElem h⟩
theorem hb_of_lt {s : State} {u : Nat} (h : u < s.counts.nHb) : ∃ x, s.hb[u]? = some x := ⟨_, List.getElem?_eq_getElem h⟩

theorem readReg_bq {s : State} {u : Nat} {b : BqUnit} (h : s.bq[u]? = some b) (r : BqReg) :
    readReg s (.bq u r) = b.get r := readAt_some h _
theorem readReg_osc {s : State} {u : Nat} {o : OscUnit} (h : s.osc[u]? = some o) (r : OscReg) :
    readReg s (.osc u r) = o.get r := readAt_some h _
theorem readReg_dl {s : State} {u : Nat} {l : DlUnit} (h : s.dl[u]? = some l) (r : DlReg) :
    readReg s (.dl u r) = l.get r := readAt_some h _
theorem readReg_fdn {s : State} {u : Nat} {f : FdnUnit} (h : s.fdn[u]? = some f) (r : FdnReg) :
    readReg s (.fdn u r) = f.get r := readAt_some h _
theorem readReg_line {s : State} {u j : Nat} {f : FdnUnit} {l : FdnLine} (h : s.fdn[u]? = some f) (hl : f.lines[j]? = some l)
    (r : LineReg) : readReg s (.line u j r) = l.get r := (readAt_some h _).trans (readAt_some hl _)
theorem dlSample_of {s : State} {u : Nat} {l : DlUnit} (h : s.dl[u]? = some l) (k : Nat) :
    dlSample s u k = memRead l.buf k := readAt_some h _
theorem lineSample_of {s : State} {u j : Nat} {f : FdnUnit} {l : FdnLine} (h : s.fdn[u]? = some f)
    (hl : f.lines[j]? = some l) (k : Nat) : lineSample s u j k = memRead l.buf k := (readAt_some h _).trans (readAt_some hl _)

/-! ### Frames -/

theorem lookup_reg_cons (r q : Reg) (v : U32) (w : List (Reg × U32)) :
    List.lookup r ((q, v) :: w) = if r = q then some v else w.lookup r := by
  by_cases h : r = q
  · subst h; simp
  · have hb : (r == q) = false := by simpa using h
    simp only [List.lookup, hb, if_neg h]

@[simp] theorem lookup_reg_nil (r : Reg) : List.lookup r ([] : List (Reg × U32)) = none := rfl

@[simp] theorem memSame_refl (s : State) : memSame s s := ⟨fun _ _ => rfl, fun _ _ _ => rfl⟩

theorem memSame_give {s t : State} (h : memSame s t) (r : Response) : memSame s (t.give r) := h

/-- An accepted command that changes no state but the port. -/
theorem answered_same (s : State) (r0 r1 : U32) : answered s (s.give { status := .ok, res0 := r0, res1 := r1 }) r0 r1 :=
  ⟨rfl, rfl, rfl, rfl⟩

theorem answered_updBq (s : State) (u : Nat) (f : BqUnit → BqUnit) (r0 r1 : U32) :
    answered s ((s.updBq u f).give { status := .ok, res0 := r0, res1 := r1 }) r0 r1 :=
  ⟨rfl, rfl, State.updBq_counts s u f, rfl⟩

theorem answered_updOsc (s : State) (u : Nat) (f : OscUnit → OscUnit) (r0 r1 : U32) :
    answered s ((s.updOsc u f).give { status := .ok, res0 := r0, res1 := r1 }) r0 r1 :=
  ⟨rfl, rfl, State.updOsc_counts s u f, rfl⟩

theorem answered_updDl (s : State) (u : Nat) (f : DlUnit → DlUnit) (r0 r1 : U32) :
    answered s ((s.updDl u f).give { status := .ok, res0 := r0, res1 := r1 }) r0 r1 :=
  ⟨rfl, rfl, State.updDl_counts s u f, rfl⟩

theorem answered_updFdn (s : State) (u : Nat) (f : FdnUnit → FdnUnit) (r0 r1 : U32) :
    answered s ((s.updFdn u f).give { status := .ok, res0 := r0, res1 := r1 }) r0 r1 :=
  ⟨rfl, rfl, State.updFdn_counts s u f, rfl⟩

theorem answered_updHb (s : State) (u : Nat) (f : HbUnit → HbUnit) (r0 r1 : U32) :
    answered s ((s.updHb u f).give { status := .ok, res0 := r0, res1 := r1 }) r0 r1 :=
  ⟨rfl, rfl, State.updHb_counts s u f, rfl⟩

/-- The frame of a command that changes registers of one Bq unit and gives a response. -/
theorem regsExcept_updBq {s : State} {u : Nat} {b : BqUnit} (hb : s.bq[u]? = some b) (f : BqUnit → BqUnit)
    {w : List (Reg × U32)} (hw : ∀ r, (w.lookup (.bq u r)).getD (b.get r) = (f b).get r)
    (ho : ∀ r, (∀ q, r ≠ .bq u q) → w.lookup r = none) (rsp : Response) :
    regsExcept s ((s.updBq u f).give rsp) w := by
  intro r
  rw [readReg_give]
  cases r with
  | bq v r =>
    rw [readReg_updBq_bq]
    split
    · subst_vars; rw [readAt_some hb, readReg_bq hb, hw]
    · rw [ho _ (by rintro q h; simp only [Reg.bq.injEq] at h; exact absurd h.1.symm ‹_›)]; rfl
  | _ => rw [ho _ (by simp)]; simp

/-- The frame of a command that changes registers of one Osc unit and gives a response. -/
theorem regsExcept_updOsc {s : State} {u : Nat} {b : OscUnit} (hb : s.osc[u]? = some b) (f : OscUnit → OscUnit)
    {w : List (Reg × U32)} (hw : ∀ r, (w.lookup (.osc u r)).getD (b.get r) = (f b).get r)
    (ho : ∀ r, (∀ q, r ≠ .osc u q) → w.lookup r = none) (rsp : Response) :
    regsExcept s ((s.updOsc u f).give rsp) w := by
  intro r
  rw [readReg_give]
  cases r with
  | osc v r =>
    rw [readReg_updOsc_osc]
    split
    · subst_vars; rw [readAt_some hb, readReg_osc hb, hw]
    · rw [ho _ (by rintro q h; simp only [Reg.osc.injEq] at h; exact absurd h.1.symm ‹_›)]; rfl
  | _ => rw [ho _ (by simp)]; simp

/-- The frame of a command that changes registers of one Dl unit and gives a response. -/
theorem regsExcept_updDl {s : State} {u : Nat} {b : DlUnit} (hb : s.dl[u]? = some b) (f : DlUnit → DlUnit)
    {w : List (Reg × U32)} (hw : ∀ r, (w.lookup (.dl u r)).getD (b.get r) = (f b).get r)
    (ho : ∀ r, (∀ q, r ≠ .dl u q) → w.lookup r = none) (rsp : Response) :
    regsExcept s ((s.updDl u f).give rsp) w := by
  intro r
  rw [readReg_give]
  cases r with
  | dl v r =>
    rw [readReg_updDl_dl]
    split
    · subst_vars; rw [readAt_some hb, readReg_dl hb, hw]
    · rw [ho _ (by rintro q h; simp only [Reg.dl.injEq] at h; exact absurd h.1.symm ‹_›)]; rfl
  | _ => rw [ho _ (by simp)]; simp

end Sys2Proof.Machine
end

