-- ==== Sys2Proof/Laws/Commands.lean ====
section
/-! SUPPORT. What every command can do, said once: it is refused, or it is accepted with one response; and what no command
touches either way. -/

namespace Sys2Proof.Machine

/-- What an accepted command leaves alone before its response is given. -/
structure Kept (s s' : State) : Prop where
  port : s'.port = s.port
  cfg : s'.cfg = s.cfg
  counts : s'.counts = s.counts
  draws : s'.draws = s.draws
  lasterr : s'.sys.lasterr = s.sys.lasterr
  errcnt : s'.sys.errcnt = s.sys.errcnt

/-- The two ways a command ends in a next state. -/
def Ends (s t : State) : Prop :=
  (∃ code, code ≠ .ok ∧ t = refuse code s) ∨
    ∃ s' r0 r1, t = s'.give { status := .ok, res0 := r0, res1 := r1 } ∧ Kept s s'

theorem Ends.refuse {s : State} {code : Status} (h : code ≠ .ok) : Ends s (refuse code s) := .inl ⟨code, h, rfl⟩

theorem Ends.give {s s' : State} (h : Kept s s') (r0 r1 : U32) :
    Ends s (s'.give { status := .ok, res0 := r0, res1 := r1 }) := .inr ⟨s', r0, r1, rfl, h⟩

theorem Kept.updBq (s : State) (u : Nat) (f : BqUnit → BqUnit) : Kept s (s.updBq u f) :=
  ⟨rfl, rfl, State.updBq_counts s u f, rfl, rfl, rfl⟩
theorem Kept.updOsc (s : State) (u : Nat) (f : OscUnit → OscUnit) : Kept s (s.updOsc u f) :=
  ⟨rfl, rfl, State.updOsc_counts s u f, rfl, rfl, rfl⟩
theorem Kept.updDl (s : State) (u : Nat) (f : DlUnit → DlUnit) : Kept s (s.updDl u f) :=
  ⟨rfl, rfl, State.updDl_counts s u f, rfl, rfl, rfl⟩
theorem Kept.updFdn (s : State) (u : Nat) (f : FdnUnit → FdnUnit) : Kept s (s.updFdn u f) :=
  ⟨rfl, rfl, State.updFdn_counts s u f, rfl, rfl, rfl⟩
theorem Kept.updHb (s : State) (u : Nat) (f : HbUnit → HbUnit) : Kept s (s.updHb u f) :=
  ⟨rfl, rfl, State.updHb_counts s u f, rfl, rfl, rfl⟩

theorem Kept.writeReg (s : State) (r : Reg) (v : U32) : Kept s (writeReg s r v) := by
  cases r
  case sys => exact ⟨rfl, rfl, rfl, rfl, rfl, rfl⟩
  case bq => exact Kept.updBq _ _ _
  case osc => exact Kept.updOsc _ _ _
  case dl => exact Kept.updDl _ _ _
  case fdn => exact Kept.updFdn _ _ _
  case matrix => exact Kept.updFdn _ _ _
  case line => exact Kept.updFdn _ _ _
  case bdly => exact Kept.updHb _ _ _
  case sect => exact Kept.updHb _ _ _

theorem rederiveIncs_length (nm : Num) (d : Draw) (fs : F) (v : Nat) (l : List OscUnit) :
    (rederiveIncs nm d fs v l).length = l.length := by
  induction l generalizing v with
  | nil => rfl
  | cons o l ih => simp [rederiveIncs, ih]

theorem rederiveIncs_getElem? (nm : Num) (d : Draw) (fs : F) (l : List OscUnit) : ∀ v u : Nat,
    (rederiveIncs nm d fs v l)[u]? = l[u]?.map (fun o => { o with inc := incOf nm ((v + u) :: d) o.freq fs }) := by
  induction l with
  | nil => intro v u; rfl
  | cons o l ih =>
    intro v u
    cases u with
    | zero => rfl
    | succ u =>
      simp only [rederiveIncs, List.getElem?_cons_succ, ih, Nat.add_assoc, Nat.add_comm 1 u]

/-- A setter ends so. -/
theorem bqSetter_ends {mode : BqMode} {readsFs : Bool} {u : Nat} {f q g : F} {s t : State}
    (h : bqSetter mode readsFs u f q g s = .next t) : Ends s t := by
  simp only [bqSetter, withUnit_eq_next, check_eq_next, respond_eq_next] at h
  rcases h with ⟨_, _, ⟨_, ⟨_, rfl⟩ | ⟨_, rfl⟩⟩ | ⟨_, rfl⟩⟩ | ⟨_, rfl⟩
  · exact .give (.updBq _ _ _) _ _
  all_goals exact .refuse (by decide)

/-- Every command that ends in a next state ends in one of the two ways. -/
theorem exec_ends {i : Instr} {s t : State} (h : exec i s = .next t) : Ends s t := by
  cases i
  case bqSetlp | bqSethp | bqSetbp | bqSetnotch | bqSetloshelf | bqSethishelf | bqSetpeak | bqSetap | bqSetdiff
      | bqSetonepole => exact bqSetter_ends h
  case sysSetsr fs =>
    simp only [exec, execSysSetsr, check_eq_next, respond_eq_next] at h
    rcases h with ⟨_, ⟨_, rfl⟩ | ⟨_, rfl⟩⟩ | ⟨_, rfl⟩
    · refine .give ?_ _ _
      exact ⟨rfl, rfl, by simp [State.counts, rederiveIncs_length], rfl, rfl, rfl⟩
    all_goals exact .refuse (by decide)
  case sysRun | sysSetup | blkBegin | blkEnd =>
    simp only [exec, execSysRun, execSysSetup, execBlkBegin, execBlkEnd, check_eq_next, respond_eq_next] at h
    rcases h with ⟨_, ⟨_, rfl⟩ | ⟨_, rfl⟩⟩ | ⟨_, rfl⟩
    · refine .give ?_ _ _
      exact ⟨rfl, rfl, rfl, rfl, rfl, rfl⟩
    all_goals exact .refuse (by decide)
  case regRd cls unit reg =>
    simp only [exec, execRegRd, withReg_eq_next, respond_eq_next] at h
    rcases h with ⟨_, _, _, rfl⟩ | ⟨_, _, rfl⟩ | ⟨_, rfl⟩
    · refine .give ?_ _ _
      exact ⟨rfl, rfl, rfl, rfl, rfl, rfl⟩
    all_goals exact .refuse (by decide)
  case regWr cls unit reg v =>
    simp only [exec, execRegWr, withReg_eq_next, check_eq_next, respond_eq_next] at h
    rcases h with ⟨_, r, _, ⟨_, ⟨_, ⟨_, rfl⟩ | ⟨_, rfl⟩⟩ | ⟨_, rfl⟩⟩ | ⟨_, rfl⟩⟩ | ⟨_, _, rfl⟩ | ⟨_, rfl⟩
    · exact .give (.writeReg _ _ _) _ _
    all_goals exact .refuse (by decide)
  case bqProc u x =>
    simp only [exec, execBqProc, withUnit_eq_next, respond_eq_next] at h
    rcases h with ⟨_, _, rfl⟩ | ⟨_, rfl⟩
    · exact .give (.updBq _ _ _) _ _
    · exact .refuse (by decide)
  case oscProc u =>
    simp only [exec, execOscProc, withUnit_eq_next, respond_eq_next] at h
    rcases h with ⟨_, _, rfl⟩ | ⟨_, rfl⟩
    · exact .give (.updOsc _ _ _) _ _
    · exact .refuse (by decide)
  case oscSetf u f =>
    simp only [exec, execOscSetf, withUnit_eq_next, check_eq_next, respond_eq_next] at h
    rcases h with ⟨_, _, ⟨_, rfl⟩ | ⟨_, rfl⟩⟩ | ⟨_, rfl⟩
    · exact .give (.updOsc _ _ _) _ _
    all_goals exact .refuse (by decide)
  case dlProc u x =>
    simp only [exec, execDlProc, withUnit_eq_next] at h
    rcases h with ⟨l, _, h⟩ | ⟨_, rfl⟩
    · split at h
      · exact absurd h (by simp)
      · rw [respond_eq_next.1 h]; exact .give (.updDl _ _ _) _ _
    · exact .refuse (by decide)
  case dlResize u d =>
    simp only [exec, execDlResize, withUnit_eq_next, check_eq_next, respond_eq_next] at h
    rcases h with ⟨_, _, ⟨_, ⟨_, ⟨_, rfl⟩ | ⟨_, rfl⟩⟩ | ⟨_, rfl⟩⟩ | ⟨_, rfl⟩⟩ | ⟨_, rfl⟩
    · exact .give (.updDl _ _ _) _ _
    all_goals exact .refuse (by decide)
  case dlSetdelay | dlSetmoddelay =>
    simp only [exec, execDlSetdelay, execDlSetmoddelay, withUnit_eq_next, check_eq_next, respond_eq_next] at h
    rcases h with ⟨_, _, ⟨_, rfl⟩ | ⟨_, rfl⟩⟩ | ⟨_, rfl⟩
    · exact .give (.updDl _ _ _) _ _
    all_goals exact .refuse (by decide)
  case fdnProc u x =>
    simp only [exec, execFdnProc, withUnit_eq_next, respond_eq_next] at h
    rcases h with ⟨_, _, rfl⟩ | ⟨_, rfl⟩
    · exact .give (.updFdn _ _ _) _ _
    · exact .refuse (by decide)
  case fdnResize | fdnSetlen =>
    simp only [exec, execFdnResize, execFdnSetlen, withUnit_eq_next, check_eq_next, respond_eq_next] at h
    rcases h with ⟨_, _, ⟨_, ⟨_, rfl⟩ | ⟨_, rfl⟩⟩ | ⟨_, rfl⟩⟩ | ⟨_, rfl⟩
    · exact .give (.updFdn _ _ _) _ _
    all_goals exact .refuse (by decide)
  case hbProc u x =>
    simp only [exec, execHbProc, withUnit_eq_next, respond_eq_next] at h
    rcases h with ⟨_, _, rfl⟩ | ⟨_, rfl⟩
    · exact .give (.updHb _ _ _) _ _
    · exact .refuse (by decide)
  case hbUp u x =>
    simp only [exec, execHbUp, withUnit_eq_next, respond_eq_next] at h
    rcases h with ⟨_, _, rfl⟩ | ⟨_, rfl⟩
    · exact .give (.updHb _ _ _) _ _
    · exact .refuse (by decide)

end Sys2Proof.Machine
end

