-- ==== Sys2Proof/Laws/Float.lean ====
section
/-! SUPPORT. The fields of a packed pattern, the NaN rule of 40_numerics.md R133 for each operation, what follows for the
conversions, and the operations of a configuration's `Num`. -/

namespace Sys2Proof.Machine

theorem pack_toNat {neg : Bool} {mag : Nat} (h : mag < 2 ^ 31) :
    (pack neg mag).toNat = (if neg then 2 ^ 31 else 0) + mag := by
  unfold pack
  rw [BitVec.toNat_ofNat]
  split <;> omega

theorem expField_pack {neg : Bool} {mag : Nat} (h : mag < 2 ^ 31) : expField (pack neg mag) = mag / 2 ^ 23 := by
  unfold expField
  rw [pack_toNat h]
  split <;> omega

theorem fracField_pack {neg : Bool} {mag : Nat} (h : mag < 2 ^ 31) : fracField (pack neg mag) = mag % 2 ^ 23 := by
  unfold fracField
  rw [pack_toNat h]
  split <;> omega

theorem signBit_eq (v : F) : signBit v = decide (2 ^ 31 ≤ v.toNat) := by
  have := BitVec.msb_eq_decide v
  simpa [BitVec.msb_eq_getLsbD_last, signBit] using this

theorem signBit_pack {neg : Bool} {mag : Nat} (h : mag < 2 ^ 31) : signBit (pack neg mag) = neg := by
  rw [signBit_eq, pack_toNat h]
  cases neg
  · simp; omega
  · simp

/-- A pattern is its sign and its magnitude. -/
theorem pack_signBit (v : F) : pack (signBit v) (v.toNat % 2 ^ 31) = v := by
  apply BitVec.eq_of_toNat_eq
  rw [pack_toNat (Nat.mod_lt _ (by decide)), signBit_eq]
  have := v.isLt
  split <;> rename_i h <;> simp only [decide_eq_true_eq] at h <;> omega

/-- What a drawn NaN is: a NaN with its quiet bit set (40_numerics.md R133). -/
theorem nanOf_toNat_mod (d : Draw) : 0x7FC00000 ≤ (nanOf d).toNat % 2 ^ 31 := by
  unfold nanOf
  generalize Config.nanBits d = b
  have hb := b.isLt
  simp only
  rw [pack_toNat (by omega)]
  split <;> omega

@[simp] theorem isNan_nanOf (d : Draw) : isNan (nanOf d) = true := by
  have h := nanOf_toNat_mod d
  have hlt := (nanOf d).isLt
  unfold isNan expField fracField
  simp only [ne_eq, Bool.and_eq_true, decide_eq_true_eq]
  omega

theorem fadd_nan {a b : F} (h : isNan a = true ∨ isNan b = true) (d : Draw) : fadd d a b = nanOf d := by
  unfold fadd; rcases h with h | h <;> simp [h]

theorem fneg_mod (a : F) : (fneg a).toNat % 2 ^ 31 = a.toNat % 2 ^ 31 := by
  apply Nat.eq_of_testBit_eq
  intro i
  unfold fneg
  rw [Nat.testBit_mod_two_pow, Nat.testBit_mod_two_pow, BitVec.toNat_xor, Nat.testBit_xor]
  by_cases hi : i < 31
  · have h0 : Nat.testBit (0x80000000#32).toNat i = false := by
      interval_cases i <;> decide
    rw [h0]; simp
  · simp [hi]

theorem isNan_fneg (a : F) : isNan (fneg a) = isNan a := by
  have e : ∀ v : F, isNan v = decide (0x7F800000 < v.toNat % 2 ^ 31) := by
    intro v
    have := v.isLt
    unfold isNan expField fracField
    rw [Bool.eq_iff_iff]
    simp only [ne_eq, Bool.and_eq_true, decide_eq_true_eq]
    omega
  rw [e, e, fneg_mod]

theorem fsub_nan {a b : F} (h : isNan a = true ∨ isNan b = true) (d : Draw) : fsub d a b = nanOf d :=
  fadd_nan (by rwa [isNan_fneg]) d

theorem fmul_nan {a b : F} (h : isNan a = true ∨ isNan b = true) (d : Draw) : fmul d a b = nanOf d := by
  unfold fmul; rcases h with h | h <;> simp [h]

theorem fdiv_nan {a b : F} (h : isNan a = true ∨ isNan b = true) (d : Draw) : fdiv d a b = nanOf d := by
  unfold fdiv; rcases h with h | h <;> simp [h]

theorem fsqrt_nan {a : F} (h : isNan a = true) (d : Draw) : fsqrt d a = nanOf d := by simp [fsqrt, h]

theorem ffloor_nan {a : F} (h : isNan a = true) (d : Draw) : ffloor d a = nanOf d := by simp [ffloor, h]

/-- `f2u` of a NaN is 0 (40_numerics.md R137). -/
theorem f2u_nan {v : F} (h : isNan v = true) : f2u v = 0 := by
  unfold isNan at h
  simp only [Bool.and_eq_true, decide_eq_true_eq] at h
  simp [f2u, isFinite, h.1]

/-! ### What is no NaN -/

theorem roundMag_le (num den : Nat) : roundMag num den ≤ infMag := Nat.min_le_right _ _

/-- A pattern is a NaN when its magnitude is above that of an infinity. -/
theorem isNan_eq (v : F) : isNan v = decide (infMag < v.toNat % 2 ^ 31) := by
  have := v.isLt
  unfold isNan expField fracField infMag
  rw [Bool.eq_iff_iff]
  simp only [ne_eq, Bool.and_eq_true, decide_eq_true_eq]
  omega

/-- A pattern is an infinity when its magnitude is that of an infinity. -/
theorem isInf_eq (v : F) : isInf v = decide (v.toNat % 2 ^ 31 = infMag) := by
  have := v.isLt
  unfold isInf expField fracField infMag
  rw [Bool.eq_iff_iff]
  simp only [Bool.and_eq_true, decide_eq_true_eq]
  omega

/-- A pattern is a zero when its magnitude is zero. -/
theorem isZero_eq (v : F) : isZero v = decide (v.toNat % 2 ^ 31 = 0) := by
  have := v.isLt
  unfold isZero expField fracField
  rw [Bool.eq_iff_iff]
  simp only [Bool.and_eq_true, decide_eq_true_eq]
  omega

/-- A pattern is finite when its magnitude is below that of an infinity. -/
theorem isFinite_eq (v : F) : isFinite v = decide (v.toNat % 2 ^ 31 < infMag) := by
  have := v.isLt
  unfold isFinite expField infMag
  rw [Bool.eq_iff_iff]
  simp only [ne_eq, decide_eq_true_eq]
  omega

theorem pack_mod {neg : Bool} {mag : Nat} (h : mag < 2 ^ 31) : (pack neg mag).toNat % 2 ^ 31 = mag := by
  rw [pack_toNat h]; split <;> omega

theorem isNan_pack {neg : Bool} {mag : Nat} (h : mag ≤ infMag) : isNan (pack neg mag) = false := by
  have hlt : mag < 2 ^ 31 := lt_of_le_of_lt h (by decide)
  rw [isNan_eq, pack_mod hlt]
  simpa using h

theorem isInf_pack {neg : Bool} {mag : Nat} (h : mag ≤ infMag) : isInf (pack neg mag) = decide (mag = infMag) := by
  have hlt : mag < 2 ^ 31 := lt_of_le_of_lt h (by decide)
  rw [isInf_eq, pack_mod hlt]

theorem fabs_mod (a : F) : (fabs a).toNat = a.toNat % 2 ^ 31 := by
  unfold fabs
  rw [BitVec.toNat_and, show (0x7FFFFFFF#32).toNat = 2 ^ 31 - 1 from rfl, Nat.and_two_pow_sub_one_eq_mod]

theorem isNan_fabs (a : F) : isNan (fabs a) = isNan a := by
  rw [isNan_eq, isNan_eq, fabs_mod, Nat.mod_mod]

theorem isInf_fneg (a : F) : isInf (fneg a) = isInf a := by
  have h := fneg_mod a
  rw [isInf_eq, isInf_eq, h]

theorem isNan_i2f (i : Int) : isNan (i2f i) = false := isNan_pack (roundMag_le _ _)

theorem isZero_of_isInf {v : F} (h : isInf v = true) : isZero v = false := by
  rw [isInf_eq, decide_eq_true_eq] at h
  rw [isZero_eq, h]
  decide

/-- A product is a NaN only for a NaN operand, or for an infinity times a zero. -/
theorem isNan_fmul {d : Draw} {a b : F} (ha : isNan a = false) (hb : isNan b = false)
    (h : isInf a = true → isZero b = false) (h' : isInf b = true → isZero a = false) : isNan (fmul d a b) = false := by
  have h0 := @isZero_of_isInf a
  have h0' := @isZero_of_isInf b
  unfold fmul
  simp only [ha, hb, Bool.false_or, Bool.false_eq_true, if_false]
  by_cases hi : isInf a = true
  · simp only [hi, Bool.true_or, if_true, h hi, h0 hi, Bool.false_or, Bool.false_eq_true, if_false]
    exact isNan_pack (le_refl _)
  · by_cases hj : isInf b = true
    · simp only [hj, Bool.or_true, if_true, h' hj, h0' hj, Bool.or_false, Bool.false_eq_true, if_false]
      exact isNan_pack (le_refl _)
    · simp only [hi, hj, Bool.or_false, Bool.false_eq_true, if_false]
      exact isNan_pack (roundMag_le _ _)

/-- A sum is a NaN only for a NaN operand, or for two infinities. -/
theorem isNan_fadd {d : Draw} {a b : F} (ha : isNan a = false) (hb : isNan b = false)
    (h : isInf a = false ∨ isInf b = false) : isNan (fadd d a b) = false := by
  unfold fadd
  simp only [ha, hb, Bool.false_or, Bool.false_eq_true, if_false]
  rcases h with h | h
  · simp only [h, Bool.false_eq_true, if_false]
    split
    · exact hb
    · split
      · exact isNan_pack (by decide)
      · exact isNan_pack (roundMag_le _ _)
  · simp only [h, Bool.false_and, Bool.false_eq_true, if_false]
    split
    · exact ha
    · split
      · exact isNan_pack (by decide)
      · exact isNan_pack (roundMag_le _ _)

/-! ### The draw decides nothing but which NaN a NaN is -/

theorem fadd_draw (d d' : Draw) (a b : F) :
    (isNan (fadd d a b) = true ∧ isNan (fadd d' a b) = true) ∨ fadd d a b = fadd d' a b := by
  unfold fadd; repeat' split
  all_goals simp

theorem fsub_draw (d d' : Draw) (a b : F) :
    (isNan (fsub d a b) = true ∧ isNan (fsub d' a b) = true) ∨ fsub d a b = fsub d' a b := fadd_draw d d' a (fneg b)

theorem fmul_draw (d d' : Draw) (a b : F) :
    (isNan (fmul d a b) = true ∧ isNan (fmul d' a b) = true) ∨ fmul d a b = fmul d' a b := by
  unfold fmul; repeat' split
  all_goals simp

theorem fdiv_draw (d d' : Draw) (a b : F) :
    (isNan (fdiv d a b) = true ∧ isNan (fdiv d' a b) = true) ∨ fdiv d a b = fdiv d' a b := by
  unfold fdiv; repeat' split
  all_goals simp

theorem fsqrt_draw (d d' : Draw) (a : F) :
    (isNan (fsqrt d a) = true ∧ isNan (fsqrt d' a) = true) ∨ fsqrt d a = fsqrt d' a := by
  unfold fsqrt; repeat' split
  all_goals simp

theorem ffloor_draw (d d' : Draw) (a : F) :
    (isNan (ffloor d a) = true ∧ isNan (ffloor d' a) = true) ∨ ffloor d a = ffloor d' a := by
  unfold ffloor; repeat' split
  all_goals simp

end Sys2Proof.Machine

namespace Sys2Proof
open Sys2Proof.Machine

/-! ### The operations of a configuration's `Num` -/

variable {nm : Num}

theorem Num.fadd_eq (h : nm.basic = .binary32) : nm.fadd = Machine.fadd := by funext d a b; simp only [Num.fadd, h]
theorem Num.fsub_eq (h : nm.basic = .binary32) : nm.fsub = Machine.fsub := by funext d a b; simp only [Num.fsub, h]
theorem Num.fmul_eq (h : nm.basic = .binary32) : nm.fmul = Machine.fmul := by funext d a b; simp only [Num.fmul, h]
theorem Num.fdiv_eq (h : nm.basic = .binary32) : nm.fdiv = Machine.fdiv := by funext d a b; simp only [Num.fdiv, h]
theorem Num.fsqrt_eq (h : nm.basic = .binary32) : nm.fsqrt = Machine.fsqrt := by funext d a; simp only [Num.fsqrt, h]
theorem Num.fabs_eq (h : nm.basic = .binary32) : nm.fabs = Machine.fabs := by funext a; simp only [Num.fabs, h]
theorem Num.fneg_eq (h : nm.basic = .binary32) : nm.fneg = Machine.fneg := by funext a; simp only [Num.fneg, h]
theorem Num.ffloor_eq (h : nm.basic = .binary32) : nm.ffloor = Machine.ffloor := by funext d a; simp only [Num.ffloor, h]

theorem Num.fadd_draw (nm : Num) (d d' : Draw) (a b : F) :
    (isNan (nm.fadd d a b) = true ∧ isNan (nm.fadd d' a b) = true) ∨ nm.fadd d a b = nm.fadd d' a b := by
  unfold Num.fadd; split
  · exact Machine.fadd_draw d d' a b
  · exact .inr rfl

theorem Num.fsub_draw (nm : Num) (d d' : Draw) (a b : F) :
    (isNan (nm.fsub d a b) = true ∧ isNan (nm.fsub d' a b) = true) ∨ nm.fsub d a b = nm.fsub d' a b := by
  unfold Num.fsub; split
  · exact Machine.fsub_draw d d' a b
  · exact .inr rfl

theorem Num.fmul_draw (nm : Num) (d d' : Draw) (a b : F) :
    (isNan (nm.fmul d a b) = true ∧ isNan (nm.fmul d' a b) = true) ∨ nm.fmul d a b = nm.fmul d' a b := by
  unfold Num.fmul; split
  · exact Machine.fmul_draw d d' a b
  · exact .inr rfl

theorem Num.fdiv_draw (nm : Num) (d d' : Draw) (a b : F) :
    (isNan (nm.fdiv d a b) = true ∧ isNan (nm.fdiv d' a b) = true) ∨ nm.fdiv d a b = nm.fdiv d' a b := by
  unfold Num.fdiv; split
  · exact Machine.fdiv_draw d d' a b
  · exact .inr rfl

end Sys2Proof

namespace Sys2Proof.Machine

/-- A product turned into an integer does not depend on which NaN was drawn. -/
theorem f2u_fmul_draw (nm : Num) (d d' : Draw) (a b : F) : f2u (nm.fmul d a b) = f2u (nm.fmul d' a b) := by
  rcases nm.fmul_draw d d' a b with ⟨h, h'⟩ | h
  · rw [f2u_nan h, f2u_nan h']
  · rw [h]

/-- An increment does not depend on which NaN was drawn. -/
theorem inc_draw (nm : Num) (d d' e e' : Draw) (f fs : F) :
    f2u (nm.fmul d f (nm.fdiv e F.pow32 fs)) = f2u (nm.fmul d' f (nm.fdiv e' F.pow32 fs)) := by
  rcases hb : nm.basic with _ | k
  · rcases nm.fdiv_draw e e' F.pow32 fs with ⟨h, h'⟩ | h
    · rw [Num.fmul_eq hb, fmul_nan (.inr h), fmul_nan (.inr h'), f2u_nan (isNan_nanOf _), f2u_nan (isNan_nanOf _)]
    · rw [h]; exact f2u_fmul_draw nm _ _ _ _
  · simp only [Num.fmul, Num.fdiv, hb]

theorem incOf_draw (nm : Num) (d d' : Draw) (f fs : F) : incOf nm d f fs = incOf nm d' f fs := inc_draw _ _ _ _ _ _ _

end Sys2Proof.Machine
end

