-- ==== Sys2Proof/Laws/PerInstr.lean ====
section
/-! SUPPORT. The family `EncodingMatchesRow`: the word of a command matches the `match` and `mask` of its own row of
spec/opcode_table.json (30_encoding.md R110), one lemma per constructor of `Instr`. -/

namespace Sys2Proof

/-- The word of the command is one of its row: `w & mask = match` (30_encoding.md R110). -/
def Laws.EncodingMatchesRow.Statement (i : Instr) : Prop := encode i &&& maskWord i.opcode = matchWord i.opcode

theorem append_and_append {m n : Nat} (a b : BitVec m) (c d : BitVec n) :
    (a ++ c) &&& (b ++ d) = (a &&& b) ++ (c &&& d) := by
  ext i hi
  simp only [BitVec.getElem_and, BitVec.getElem_append]
  split <;> rfl

theorem wordOf_and (f g : Fields) : wordOf f &&& wordOf g =
    wordOf ⟨f.opc &&& g.opc, f.cls &&& g.cls, f.unit &&& g.unit, f.reg &&& g.reg, f.a &&& g.a, f.b &&& g.b, f.c &&& g.c⟩ := by
  unfold wordOf
  show @Eq (BitVec (8 + 4 + 8 + 12 + 32 + 32 + 32)) (_ &&& _) _
  simp only [append_and_append]

/-- The mask of a row as fields: all ones in OPC and in every unused field (30_encoding.md R110). -/
def maskFields (u : FieldUse) : Fields where
  opc := BitVec.allOnes 8
  cls := if u.cls then 0 else BitVec.allOnes 4
  unit := if u.unit then 0 else BitVec.allOnes 8
  reg := if u.reg then 0 else BitVec.allOnes 12
  a := if u.a then 0 else BitVec.allOnes 32
  b := if u.b then 0 else BitVec.allOnes 32
  c := if u.c then 0 else BitVec.allOnes 32

theorem maskWord_eq (op : Opcode) : maskWord op = wordOf (maskFields (fieldUse op)) := by cases op <;> decide

theorem matchWord_eq (op : Opcode) : matchWord op = wordOf ⟨opcodeByte op, 0, 0, 0, 0, 0, 0⟩ := by cases op <;> decide

namespace Laws.EncodingMatchesRow

theorem sysSetsr (fs : F) : Statement (.sysSetsr fs) := by
  simp [Statement, Instr.opcode, maskWord_eq, matchWord_eq, encode, wordOf_and, operandFields, maskFields, fieldUse, opcodeByte]
theorem sysRun : Statement .sysRun := by
  simp [Statement, Instr.opcode, maskWord_eq, matchWord_eq, encode, wordOf_and, operandFields, maskFields, fieldUse, opcodeByte]
theorem sysSetup : Statement .sysSetup := by
  simp [Statement, Instr.opcode, maskWord_eq, matchWord_eq, encode, wordOf_and, operandFields, maskFields, fieldUse, opcodeByte]
theorem blkBegin : Statement .blkBegin := by
  simp [Statement, Instr.opcode, maskWord_eq, matchWord_eq, encode, wordOf_and, operandFields, maskFields, fieldUse, opcodeByte]
theorem blkEnd : Statement .blkEnd := by
  simp [Statement, Instr.opcode, maskWord_eq, matchWord_eq, encode, wordOf_and, operandFields, maskFields, fieldUse, opcodeByte]
theorem regRd (cls unit reg : Nat) : Statement (.regRd cls unit reg) := by
  simp [Statement, Instr.opcode, maskWord_eq, matchWord_eq, encode, wordOf_and, operandFields, maskFields, fieldUse, opcodeByte]
theorem regWr (cls unit reg : Nat) (value : U32) : Statement (.regWr cls unit reg value) := by
  simp [Statement, Instr.opcode, maskWord_eq, matchWord_eq, encode, wordOf_and, operandFields, maskFields, fieldUse, opcodeByte]
theorem bqProc (unit : Nat) (x : F) : Statement (.bqProc unit x) := by
  simp [Statement, Instr.opcode, maskWord_eq, matchWord_eq, encode, wordOf_and, operandFields, maskFields, fieldUse, opcodeByte]
theorem bqSetlp (unit : Nat) (f q : F) : Statement (.bqSetlp unit f q) := by
  simp [Statement, Instr.opcode, maskWord_eq, matchWord_eq, encode, wordOf_and, operandFields, maskFields, fieldUse, opcodeByte]
theorem bqSethp (unit : Nat) (f q : F) : Statement (.bqSethp unit f q) := by
  simp [Statement, Instr.opcode, maskWord_eq, matchWord_eq, encode, wordOf_and, operandFields, maskFields, fieldUse, opcodeByte]
theorem bqSetbp (unit : Nat) (f q : F) : Statement (.bqSetbp unit f q) := by
  simp [Statement, Instr.opcode, maskWord_eq, matchWord_eq, encode, wordOf_and, operandFields, maskFields, fieldUse, opcodeByte]
theorem bqSetnotch (unit : Nat) (f q : F) : Statement (.bqSetnotch unit f q) := by
  simp [Statement, Instr.opcode, maskWord_eq, matchWord_eq, encode, wordOf_and, operandFields, maskFields, fieldUse, opcodeByte]
theorem bqSetloshelf (unit : Nat) (f q g : F) : Statement (.bqSetloshelf unit f q g) := by
  simp [Statement, Instr.opcode, maskWord_eq, matchWord_eq, encode, wordOf_and, operandFields, maskFields, fieldUse, opcodeByte]
theorem bqSethishelf (unit : Nat) (f q g : F) : Statement (.bqSethishelf unit f q g) := by
  simp [Statement, Instr.opcode, maskWord_eq, matchWord_eq, encode, wordOf_and, operandFields, maskFields, fieldUse, opcodeByte]
theorem bqSetpeak (unit : Nat) (f q g : F) : Statement (.bqSetpeak unit f q g) := by
  simp [Statement, Instr.opcode, maskWord_eq, matchWord_eq, encode, wordOf_and, operandFields, maskFields, fieldUse, opcodeByte]
theorem bqSetap (unit : Nat) (f q : F) : Statement (.bqSetap unit f q) := by
  simp [Statement, Instr.opcode, maskWord_eq, matchWord_eq, encode, wordOf_and, operandFields, maskFields, fieldUse, opcodeByte]
theorem bqSetdiff (unit : Nat) : Statement (.bqSetdiff unit) := by
  simp [Statement, Instr.opcode, maskWord_eq, matchWord_eq, encode, wordOf_and, operandFields, maskFields, fieldUse, opcodeByte]
theorem bqSetonepole (unit : Nat) (f : F) : Statement (.bqSetonepole unit f) := by
  simp [Statement, Instr.opcode, maskWord_eq, matchWord_eq, encode, wordOf_and, operandFields, maskFields, fieldUse, opcodeByte]
theorem oscProc (unit : Nat) : Statement (.oscProc unit) := by
  simp [Statement, Instr.opcode, maskWord_eq, matchWord_eq, encode, wordOf_and, operandFields, maskFields, fieldUse, opcodeByte]
theorem oscSetf (unit : Nat) (f : F) : Statement (.oscSetf unit f) := by
  simp [Statement, Instr.opcode, maskWord_eq, matchWord_eq, encode, wordOf_and, operandFields, maskFields, fieldUse, opcodeByte]
theorem dlProc (unit : Nat) (x : F) : Statement (.dlProc unit x) := by
  simp [Statement, Instr.opcode, maskWord_eq, matchWord_eq, encode, wordOf_and, operandFields, maskFields, fieldUse, opcodeByte]
theorem dlResize (unit : Nat) (duration : F) : Statement (.dlResize unit duration) := by
  simp [Statement, Instr.opcode, maskWord_eq, matchWord_eq, encode, wordOf_and, operandFields, maskFields, fieldUse, opcodeByte]
theorem dlSetdelay (unit : Nat) (delay : F) : Statement (.dlSetdelay unit delay) := by
  simp [Statement, Instr.opcode, maskWord_eq, matchWord_eq, encode, wordOf_and, operandFields, maskFields, fieldUse, opcodeByte]
theorem dlSetmoddelay (unit : Nat) (delay : F) : Statement (.dlSetmoddelay unit delay) := by
  simp [Statement, Instr.opcode, maskWord_eq, matchWord_eq, encode, wordOf_and, operandFields, maskFields, fieldUse, opcodeByte]
theorem fdnProc (unit : Nat) (x : F) : Statement (.fdnProc unit x) := by
  simp [Statement, Instr.opcode, maskWord_eq, matchWord_eq, encode, wordOf_and, operandFields, maskFields, fieldUse, opcodeByte]
theorem fdnResize (unit : Nat) (n : U32) : Statement (.fdnResize unit n) := by
  simp [Statement, Instr.opcode, maskWord_eq, matchWord_eq, encode, wordOf_and, operandFields, maskFields, fieldUse, opcodeByte]
theorem fdnSetlen (unit : Nat) (longest : F) : Statement (.fdnSetlen unit longest) := by
  simp [Statement, Instr.opcode, maskWord_eq, matchWord_eq, encode, wordOf_and, operandFields, maskFields, fieldUse, opcodeByte]
theorem hbProc (unit : Nat) (x : F) : Statement (.hbProc unit x) := by
  simp [Statement, Instr.opcode, maskWord_eq, matchWord_eq, encode, wordOf_and, operandFields, maskFields, fieldUse, opcodeByte]
theorem hbUp (unit : Nat) (x : F) : Statement (.hbUp unit x) := by
  simp [Statement, Instr.opcode, maskWord_eq, matchWord_eq, encode, wordOf_and, operandFields, maskFields, fieldUse, opcodeByte]

end Laws.EncodingMatchesRow

end Sys2Proof
end

