-- ==== Sys2Proof/Tests/Slice0.lean ====
section
/-! SUPPORT. Our own checks: the well-formedness smoke, one written-out word per command, one-step runs against the spec's
vectors, and for every statement with hypotheses a state and operands that meet them. Expected values are those of
95_test_vectors.md and of the examples in the rules, never the model's own answers. -/

namespace Sys2Proof.Tests
-- One declaration after the other: kernel evaluations side by side would each want a thread.
set_option Elab.async false
open Sys2Proof Sys2Proof.Machine

/-! ### A small block -/

/-- Two units of each class, delay lines of at most 8 samples, FDN lines of 4 samples. -/
def tinyCfg : Cfg := { Cfg.suggested with dlMaxLog2 := 3, fdnLineLog2 := 2 }

/-- The spec's arithmetic. -/
def num : Sys2Proof.Num := { basic := .binary32, transcendental := 0 }

/-- Two units of each class. -/
def tinyCounts : UnitCounts := { nBq := 2, nOsc := 2, nDl := 2, nFdn := 2, nHb := 2 }

/-- The small block with given SYS registers, everything else at reset. -/
def block (r : SysRegs) : State := { State.resetOf tinyCounts tinyCfg with sys := r }

/-- SETUP, no sample rate. -/
def quiet : State := block SysRegs.reset
/-- SETUP, 32768 Hz. -/
def rated : State := block { SysRegs.reset with fs := 0x47000000#32 }
/-- RUN outside a block. -/
def running : State := block { SysRegs.reset with fs := 0x47000000#32, mode := 1 }
/-- RUN inside a block. -/
def inside : State := block { SysRegs.reset with fs := 0x47000000#32, mode := 1, inblk := 1 }

/-- A state with inputs at its port. -/
def withInputs (s : State) (l : List PortInput) : State := { s with port := { s.port with inputs := l } }

/-- A state with a register set by hand. -/
def setting (s : State) (r : Reg) (v : U32) : State := writeReg s r v

/-- The next state of an outcome, the given state where there is none. -/
def nextOf (s : State) : Out → State
  | .next t => t
  | _ => s

/-- Does the command end in a next state? -/
def goesOn : Out → Bool
  | .next _ => true
  | _ => false

/-- The state after a command. -/
def after (i : Instr) (s : State) : State := nextOf s (exec i s)

/-- The status code and the results of the last response. -/
def last (s : State) : Option (BitVec 8 × U32 × U32) :=
  s.port.outputs.head?.map (fun r => (statusCode r.status, r.res0, r.res1))

/-! ### Well-formedness refuses what does not fit a field -/

theorem test_wf_class_too_large : (Instr.regRd 16 0 0).wellFormed = false := by decide
theorem test_wf_unit_too_large : (Instr.bqProc 256 F.one).wellFormed = false := by decide
theorem test_wf_register_too_large : (Instr.regWr 1 0 4096 0).wellFormed = false := by decide
theorem test_wf_largest_operands : (Instr.regWr 15 255 4095 0xFFFFFFFF#32).wellFormed = true := by decide
theorem test_cfg_suggested_ok : Cfg.suggested.ok = true ∧ UnitCounts.suggested.ok = true := by decide
theorem test_cfg_size_too_large :
    { Cfg.suggested with dlMaxLog2 := 32 }.ok = false ∧ { UnitCounts.suggested with nHb := 257 }.ok = false := by decide

/-! ### One word per command: vector V10 of 95_test_vectors.md -/

theorem test_decode_sys :
    decode 0x01000000472C44000000000000000000#128 = .command (.sysSetsr 0x472C4400#32) ∧
    decode 0x02000000000000000000000000000000#128 = .command .sysRun ∧
    decode 0x03000000000000000000000000000000#128 = .command .sysSetup ∧
    decode 0x04000000000000000000000000000000#128 = .command .blkBegin ∧
    decode 0x05000000000000000000000000000000#128 = .command .blkEnd := by decide
theorem test_decode_reg :
    decode 0x06201000000000000000000000000000#128 = .command (.regRd 2 1 0) ∧
    decode 0x073030073F0000000000000000000000#128 = .command (.regWr 3 3 7 0x3F000000#32) := by decide
theorem test_decode_bq :
    decode 0x10007000BF8000000000000000000000#128 = .command (.bqProc 7 0xBF800000#32) ∧
    decode 0x11000000447A00003F3504F300000000#128 = .command (.bqSetlp 0 0x447A0000#32 0x3F3504F3#32) ∧
    decode 0x12001000434800003F00000000000000#128 = .command (.bqSethp 1 0x43480000#32 0x3F000000#32) ∧
    decode 0x1300200043DC00004080000000000000#128 = .command (.bqSetbp 2 0x43DC0000#32 0x40800000#32) ∧
    decode 0x14003000427000004100000000000000#128 = .command (.bqSetnotch 3 0x42700000#32 0x41000000#32) := by decide
theorem test_decode_bq_gain :
    decode 0x15004000437A00003F00000040000000#128 = .command (.bqSetloshelf 4 0x437A0000#32 0x3F000000#32 0x40000000#32) ∧
    decode 0x16005000457A00003F0000003F000000#128 = .command (.bqSethishelf 5 0x457A0000#32 0x3F000000#32 0x3F000000#32) ∧
    decode 0x17006000447A00003F80000040800000#128 = .command (.bqSetpeak 6 0x447A0000#32 0x3F800000#32 0x40800000#32) := by decide
theorem test_decode_bq_others :
    decode 0x1800700043FA00003F00000000000000#128 = .command (.bqSetap 7 0x43FA0000#32 0x3F000000#32) ∧
    decode 0x19002000000000000000000000000000#128 = .command (.bqSetdiff 2) ∧
    decode 0x1A00100042C800000000000000000000#128 = .command (.bqSetonepole 1 0x42C80000#32) := by decide
theorem test_decode_osc :
    decode 0x20003000000000000000000000000000#128 = .command (.oscProc 3) ∧
    decode 0x2100300043DC00000000000000000000#128 = .command (.oscSetf 3 0x43DC0000#32) := by decide
theorem test_decode_dl :
    decode 0x300020003E8000000000000000000000#128 = .command (.dlProc 2 0x3E800000#32) ∧
    decode 0x310000003F8000000000000000000000#128 = .command (.dlResize 0 0x3F800000#32) ∧
    decode 0x320000003F0000000000000000000000#128 = .command (.dlSetdelay 0 0x3F000000#32) ∧
    decode 0x330000003C23D70A0000000000000000#128 = .command (.dlSetmoddelay 0 0x3C23D70A#32) := by decide
theorem test_decode_fdn :
    decode 0x400000003F8000000000000000000000#128 = .command (.fdnProc 0 0x3F800000#32) ∧
    decode 0x41000000000000080000000000000000#128 = .command (.fdnResize 0 8#32) ∧
    decode 0x420000003D4CCCCD0000000000000000#128 = .command (.fdnSetlen 0 0x3D4CCCCD#32) := by decide
theorem test_decode_hb :
    decode 0x500010003F8000000000000000000000#128 = .command (.hbProc 1 0x3F800000#32) ∧
    decode 0x51000000BF0000000000000000000000#128 = .command (.hbUp 0 0xBF000000#32) := by decide
/-- Vector V11: words that are no command. -/
theorem test_decode_illegal :
    decode 0x00000000000000000000000000000000#128 = .illegal .undefinedOpcode ∧
    decode 0x1B000000000000000000000000000000#128 = .illegal .undefinedOpcode ∧
    decode 0x60000000000000000000000000000000#128 = .illegal .undefinedOpcode ∧
    decode 0x02000000000000000000000000000001#128 = .illegal .unusedFieldNotZero ∧
    decode 0x101000003F8000000000000000000000#128 = .illegal .unusedFieldNotZero ∧
    decode 0x30000001000000000000000000000000#128 = .illegal .unusedFieldNotZero := by decide

/-! ### Arithmetic: vectors V20 and V21 -/

theorem test_f2u_vectors :
    f2u 0x407F5C29#32 = 3 ∧ f2u 0xBFC00000#32 = 0xFFFFFFFF#32 ∧ f2u 0x4F7FFFFF#32 = 0xFFFFFF00#32 ∧
    f2u 0x50400002#32 = 0x800#32 ∧ f2u 0x7F800000#32 = 0 := by decide +kernel
theorem test_i2f_vectors :
    i2f 16777217 = 0x4B800000#32 ∧ i2f 16777219 = 0x4B800002#32 ∧ i2f (-2147483648) = 0xCF000000#32 := by decide +kernel
theorem test_float_vectors :
    num.fadd [] 0x80000000#32 0 = 0 ∧ num.fadd [] 0x80000000#32 0x80000000#32 = 0x80000000#32 ∧
    num.fmul [] 0 F.negOne = 0x80000000#32 ∧ num.fdiv [] F.one 0x40400000#32 = 0x3EAAAAAB#32 ∧
    num.fdiv [] F.one 0 = 0x7F800000#32 ∧ num.fmul [] 0x00800000#32 F.half = 0x00400000#32 ∧
    num.ffloor [] 0xC0200000#32 = 0xC0400000#32 := by decide +kernel
theorem test_clog2_vectors :
    clog2 0x3F800001#32 = 1 ∧ clog2 0x41000000#32 = 3 ∧ clog2 0x41000001#32 = 4 ∧ clog2 0x47800000#32 = 16 := by
  decide +kernel

/-! ### One step of each command -/

/-- 46_system.md R281, example. -/
theorem test_setsr : readReg (after (.sysSetsr 0x473B8000#32) quiet) (.sys .fs) = 0x473B8000#32 := by decide +kernel
/-- Vector V22 row 3. -/
theorem test_setsr_zero_refused : last (after (.sysSetsr 0) quiet) = some (6, 0, 0) := by decide +kernel
/-- 46_system.md R282, example; vector V22 row 2. -/
theorem test_run : readReg (after .sysRun rated) (.sys .mode) = 1 ∧ last (after .sysRun quiet) = some (6, 0, 0) := by
  decide +kernel
/-- 46_system.md R283, example; vector V22 row 17. -/
theorem test_setup :
    readReg (after .sysSetup running) (.sys .mode) = 0 ∧ last (after .sysSetup inside) = some (5, 0, 0) := by decide +kernel
/-- 46_system.md R285, example; vector V22 row 7. -/
theorem test_blk_begin :
    readReg (after .blkBegin running) (.sys .inblk) = 1 ∧ last (after .blkBegin rated) = some (4, 0, 0) := by decide +kernel
/-- 46_system.md R286, example; vector V22 row 14. -/
theorem test_blk_end :
    readReg (after .blkEnd inside) (.sys .inblk) = 0 ∧ last (after .blkEnd running) = some (5, 0, 0) := by decide +kernel
/-- Vector V23 rows 1 and 3. -/
theorem test_reg_rd :
    last (after (.regRd 1 0 0) quiet) = some (0, 0x3F800000#32, 0) ∧ last (after (.regRd 1 0 9) quiet) = some (3, 0, 0) := by
  decide +kernel
/-- Vector V23 rows 4 and 11. -/
theorem test_reg_wr :
    readReg (after (.regWr 1 0 7 0x7FC01234#32) quiet) (.bq 0 .y1) = 0x7FC01234#32 ∧
    last (after (.regWr 3 0 0 3#32) quiet) = some (6, 0, 0) := by decide +kernel
/-- Vector V30 row 2: the identity does not keep the sign of zero. -/
theorem test_bq_proc_signed_zero : last (after (.bqProc 0 0x80000000#32) quiet) = some (0, 0, 0) := by decide +kernel
/-- 41_biquad.md R161, example. -/
theorem test_bq_proc :
    let s := setting (setting (setting (setting (setting quiet (.bq 1 .a0) 0x3F000000#32) (.bq 1 .a1) 0x3E800000#32)
      (.bq 1 .a2) 0x3E000000#32) (.bq 1 .b1) 0xBF000000#32) (.bq 1 .b2) 0x3E800000#32
    let t := after (.bqProc 1 F.one) s
    last t = some (0, 0x3F000000#32, 0) ∧ readReg t (.bq 1 .x1) = F.one ∧ readReg t (.bq 1 .y1) = 0x3F000000#32 := by
  decide +kernel
/-- Vector V33 with its own `cs` and `sn` in the place of the free functions. -/
theorem test_lowpass_formula :
    designLp num [] (angleFrom num [] 0xB33BBD2E#32 0x3F800000#32 F.half) =
      { a0 := 0x3E800000#32, a1 := 0x3F000000#32, a2 := 0x3E800000#32, b1 := 0x333BBD2E#32, b2 := 0 } := by decide +kernel
/-- Vector V34: highpass, bandpass, notch and allpass with the vector's own `cs` and `sn`. -/
theorem test_formulas_without_gain :
    let i := angleFrom num [] 0x3F7DCF55#32 0x3E05A8A9#32 0x3F3504F3#32
    (designHp num [] i).a1 = 0xBFE95DBD#32 ∧ (designBp num [] i).a2 = 0xBDAD0CDF#32 ∧ (designNotch num [] i).a0 = 0x3F6A5E63#32 ∧
      (designAp num [] i).a2 = 0x3F800000#32 := by decide +kernel
/-- Vector V34: low shelf. -/
theorem test_loshelf_formula :
    designLoshelf num [] (angleFrom num [] 0x3F7DCF55#32 0x3E05A8A9#32 0x3F3504F3#32) F.two =
      { a0 := 0x3F842EC5#32, a1 := 0xBFEB6203#32, a2 := 0x3F5427CB#32, b1 := 0xBFEC1A2B#32, b2 := 0x3F5B14FF#32 } := by
  decide +kernel
/-- Vector V34: high shelf. -/
theorem test_hishelf_formula :
    designHishelf num [] (angleFrom num [] 0x3F7DCF55#32 0x3E05A8A9#32 0x3F3504F3#32) F.two =
      { a0 := 0x3FF7E63A#32, a1 := 0xC064A195#32, a2 := 0x3FD42648#32, b1 := 0xBFE3EF40#32, b2 := 0x3F4D7131#32 } := by
  decide +kernel
/-- Vector V34: peak. -/
theorem test_peak_formula :
    designPeak num [] (angleFrom num [] 0x3F7DCF55#32 0x3E05A8A9#32 0x3F3504F3#32) F.two =
      { a0 := 0x3F87D786#32, a1 := 0xBFEE42A1#32, a2 := 0x3F50F2DB#32, b1 := 0xBFEE42A1#32, b2 := 0x3F60A1E7#32 } := by
  decide +kernel
/-- Vector V34: one-pole, from the pole the vector gives. -/
theorem test_onepole_formula : onepoleFrom num [] 0x3F60971C#32 =
    { a0 := 0x3DFB4720#32, a1 := 0, a2 := 0, b1 := 0xBF60971C#32, b2 := 0 } := by decide +kernel
/-- Vector V35: every setter that reads the rate is refused without one. -/
theorem test_setters_need_rate :
    ∀ i ∈ [Instr.bqSetlp 0 F.one F.one, .bqSethp 0 F.one F.one, .bqSetbp 0 F.one F.one, .bqSetnotch 0 F.one F.one,
      .bqSetloshelf 0 F.one F.one F.one, .bqSethishelf 0 F.one F.one F.one, .bqSetpeak 0 F.one F.one F.one,
      .bqSetap 0 F.one F.one, .bqSetonepole 0 F.one], last (after i quiet) = some (6, 0, 0) := by decide +kernel
/-- Vector V32. -/
theorem test_setdiff :
    readReg (after (.bqSetdiff 1) quiet) (.bq 1 .a1) = 0xBF800000#32 ∧ last (after (.bqSetdiff 0) inside) = some (5, 0, 0) := by
  decide +kernel
/-- Vector V40, first two rows. -/
theorem test_osc_setf :
    readReg (after (.oscSetf 0 0x45800000#32) rated) (.osc 0 .inc) = 0x20000000#32 ∧
    readReg (after (.oscSetf 0 0xC5800000#32) rated) (.osc 0 .inc) = 0xE0000000#32 := by decide +kernel
/-- 42_oscillator.md R193, example; vector V42 row 0 for the sine. -/
theorem test_osc_proc :
    last (after (.oscProc 0) (setting (after (.oscSetf 0 0x46000000#32) rated) (.osc 0 .wave) 1)) =
      some (0, 0x3F800000#32, 0) ∧
    last (after (.oscProc 0) (after (.oscSetf 0 0x45800000#32) rated)) = some (0, 0x3F400000#32, 0) := by decide +kernel
/-- Vector V41. -/
theorem test_fold_vectors :
    fold num [] 0xFFFFFFFF#32 = 0 ∧ fold num [] 0x40000001#32 = F.one ∧ fold num [] 0xBFFFFFFF#32 = F.negOne ∧
    fold num [] 0x12345678#32 = 0x3E91A2B4#32 ∧ parabola num [] 0x3E91A2B4#32 = 0x3EF9D88C#32 := by decide +kernel
/-- 43_delay.md R212, example (a line of 8 samples), and a length above the memory. -/
theorem test_dl_resize :
    readReg (after (.dlResize 0 0x39800000#32) rated) (.dl 0 .log2len) = 3 ∧
    last (after (.dlResize 0 0x39A00000#32) rated) = some (6, 0, 0) := by decide +kernel
/-- 43_delay.md R213, example. -/
theorem test_dl_setdelay : readReg (after (.dlSetdelay 0 0x38C00000#32) rated) (.dl 0 .fixdly) = 3 := by decide +kernel
/-- 43_delay.md R214, example. -/
theorem test_dl_setmoddelay : readReg (after (.dlSetmoddelay 0 0x38A00000#32) rated) (.dl 0 .moddly) = 0x40200000#32 := by
  decide +kernel
/-- 43_delay.md R216, example. -/
theorem test_dl_proc :
    let s := setting (after (.dlResize 0 0x39800000#32) rated) (.dl 0 .fixdly) 3
    let t := after (.dlProc 0 F.one) s
    last t = some (0, 0, 0) ∧ dlSample t 0 0 = F.one ∧ readReg t (.dl 0 .widx) = 1 := by decide +kernel
/-- 43_delay.md R218: a line of one sample returns its input. -/
theorem test_dl_proc_reset : last (after (.dlProc 1 0x40490FDB#32) quiet) = some (0, 0x40490FDB#32, 0) := by decide +kernel
/-- 44_fdn.md R242, example. -/
theorem test_fdn_resize :
    let t := after (.fdnResize 0 2#32) quiet
    readReg t (.fdn 0 .n) = 2 ∧ readReg t (.matrix 0 0 0) = 0 ∧ readReg t (.matrix 0 0 1) = F.negOne ∧
      readReg t (.line 0 1 .da0) = F.one := by decide +kernel
/-- Vector V46: the default matrix for three lines. -/
theorem test_householder_three :
    matrixEntry .householder num [] 3 0 0 = 0x3EAAAAAA#32 ∧ matrixEntry .householder num [] 3 0 1 = 0xBF2AAAAB#32 := by
  decide +kernel
/-- Vector V46: 17 lines are refused. -/
theorem test_fdn_resize_too_many : last (after (.fdnResize 0 17#32) quiet) = some (6, 0, 0) := by decide +kernel
/-- 44_fdn.md R244, example. -/
theorem test_fdn_setlen :
    let t := after (.fdnSetlen 0 0x39800000#32) (after (.fdnResize 0 4#32) rated)
    readReg t (.line 0 0 .ldly) = 0x41000000#32 ∧ readReg t (.line 0 1 .ldly) = 0x40C00000#32 ∧
      readReg t (.line 0 2 .ldly) = 0x40900000#32 ∧ readReg t (.line 0 3 .ldly) = 0x40580000#32 := by decide +kernel
/-- 44_fdn.md R246, corner case: no lines. -/
theorem test_fdn_proc_no_lines : last (after (.fdnProc 0 F.one) quiet) = some (0, 0, 0) := by decide +kernel
/-- Vector V44 row 2: the third command on the network of 44_fdn.md R248. -/
theorem test_fdn_proc :
    let s := setting (setting (setting (after (.fdnResize 0 2#32) quiet) (.fdn 0 .fb) F.half) (.line 0 0 .ldly) F.one)
      (.line 0 1 .ldly) F.two
    let t := after (.fdnProc 0 0) (after (.fdnProc 0 0) (after (.fdnProc 0 F.one) s))
    (t.port.outputs.head?.map (fun r => r.res0)) = some 0x3F000000#32 ∧ readReg t (.line 0 1 .lineout) = 0x3F000000#32 ∧
      readReg t (.fdn 0 .outOdd) = 0x3F000000#32 ∧ readReg t (.fdn 0 .outEven) = 0 := by decide +kernel
/-- Vector V50 row 0. -/
theorem test_hb_proc :
    let t := after (.hbProc 0 F.one) quiet
    last t = some (0, 0x3CB26732#32, 0) ∧ readReg t (.bdly 0) = 0x3E7283B7#32 := by decide +kernel
/-- 45_halfband.md R266, example, with the values of vector V50 rows 0 and 1. -/
theorem test_hb_up : last (after (.hbUp 0 F.one) quiet) = some (0, 0x3CB26732#32, 0x3DF283B7#32) := by decide +kernel

/-! ### States and operands that meet the hypotheses of the statements

One theorem per statement that has hypotheses, named after it: each clause at a boundary of its range. -/

/-- The small block is sound with any legal SYS registers that agree with silent oscillators. -/
theorem sound_block {r : SysRegs} (h1 : flagsOk r) (h2 : rateOk r) (h3 : errorsOk r) (h4 : oscOk num r.fs OscUnit.reset) :
    Sound (block r) where
  cfg := show tinyCfg.ok = true by decide
  counts := show tinyCounts.ok = true by decide
  flags := h1
  rate := h2
  errors := h3
  osc := fun o ho => by rw [show o = OscUnit.reset from List.eq_of_mem_replicate (by exact ho)]; exact h4
  dl := fun l hl => by
    rw [show l = DlUnit.reset from List.eq_of_mem_replicate (by exact hl)]
    change dlOk 3 DlUnit.reset; unfold dlOk; decide
  fdn := fun f hf => by
    rw [show f = FdnUnit.reset from List.eq_of_mem_replicate (by exact hf)]
    refine ⟨show (0#32).toNat ≤ 16 by decide, List.length_replicate, List.length_replicate, fun l hl => ?_⟩
    rw [show l = FdnLine.fresh from List.eq_of_mem_replicate (by exact hl)]
    change lineOk 2 FdnLine.fresh; unfold lineOk; decide
  hb := fun h hh => by
    rw [show h = HbUnit.reset 2 from List.eq_of_mem_replicate (by exact hh)]
    change hbOk tinyCfg (HbUnit.reset 2); unfold hbOk; decide

theorem sound_quiet : Sound quiet :=
  sound_block (by unfold flagsOk; decide) (by unfold rateOk; decide +kernel) (by unfold errorsOk; decide)
    ⟨by decide, .inl (by decide)⟩

theorem osc_silent : oscOk num 0x47000000#32 OscUnit.reset := ⟨by decide, .inr ⟨[], by decide +kernel⟩⟩

theorem sound_rated : Sound rated :=
  sound_block (by unfold flagsOk; decide) (by unfold rateOk; decide +kernel) (by unfold errorsOk; decide) osc_silent
theorem sound_running : Sound running :=
  sound_block (by unfold flagsOk; decide) (by unfold rateOk; decide +kernel) (by unfold errorsOk; decide) osc_silent
theorem sound_inside : Sound inside :=
  sound_block (by unfold flagsOk; decide) (by unfold rateOk; decide +kernel) (by unfold errorsOk; decide) osc_silent

/-- Soundness does not look at the port. -/
theorem sound_withInputs {s : State} (h : Sound s) (l : List PortInput) : Sound (withInputs s l) :=
  ⟨h.cfg, h.counts, h.flags, h.rate, h.errors, h.osc, h.dl, h.fdn, h.hb⟩

/-- A word at the port of a state. -/
def facing (s : State) (i : Instr) : State := withInputs s [.command (encode i)]

theorem test_witness_DecodeOfEncode :
    (Instr.regWr 15 255 4095 0xFFFFFFFF#32).wellFormed = true ∧ (Instr.hbUp 0 0).wellFormed = true := by decide
theorem test_witness_EncodeOfDecode : decode 0x510FF000BF0000000000000000000000#128 = .command (.hbUp 255 0xBF000000#32) := by
  decide
theorem test_witness_EveryWordOneCommandOrIllegal :
    (∀ op, (fieldsOf 0).opc ≠ opcodeByte op) ∧
    (fieldsOf 0x02000000000000000000000000000001#128).opc = opcodeByte .sysRun ∧
    unusedZero (fieldUse .sysRun) (fieldsOf 0x02000000000000000000000000000001#128) = false :=
  ⟨fun op => by cases op <;> decide, by decide, by decide⟩
theorem test_witness_IllegalWordsRefused :
    (withInputs quiet [.command 0]).port.inputs = .command 0 :: [] ∧ (∀ op, (fieldsOf 0).opc ≠ opcodeByte op) ∧
    (∀ op, (fieldsOf 0x52000000000000000000000000000000#128).opc ≠ opcodeByte op) ∧
    (fieldsOf 0x51000000000000000000000000000001#128).opc = opcodeByte .hbUp ∧
    unusedZero (fieldUse .hbUp) (fieldsOf 0x51000000000000000000000000000001#128) = false :=
  ⟨rfl, fun op => by cases op <;> decide, fun op => by cases op <;> decide, by decide, by decide⟩
theorem test_witness_StepRunsTheDecodedCommand :
    (facing quiet .sysRun).port.inputs = .command (encode .sysRun) :: [] ∧ decode (encode .sysRun) = .command .sysRun ∧
    decodeTableWord 128 0x0610000B000000000000000000000000 = some (.regRd 1 0 11) := by decide
theorem test_witness_IdleAndResetSteps :
    quiet.port.inputs = [] ∧ (withInputs running [.reset]).port.inputs = .reset :: [] := by decide
theorem test_witness_OneResponsePerCommand :
    (∃ t, step (facing running .blkBegin) = .next t) ∧ (∃ t, step (withInputs running [.reset]) = .next t) :=
  ⟨⟨_, rfl⟩, ⟨_, rfl⟩⟩
theorem test_witness_ResponseFormat :
    (∃ t r, step (facing running .blkBegin) = .next t ∧ t.port.outputs = r :: (facing running .blkBegin).port.outputs ∧
      statusCode r.status = 0) ∧
    (∃ t r, step (facing inside .blkBegin) = .next t ∧ t.port.outputs = r :: (facing inside .blkBegin).port.outputs ∧
      statusCode r.status ≠ 0) ∧
    decode (encode .blkBegin) = .command .blkBegin ∧
    Opcode.blkBegin ≠ .hbUp ∧ Opcode.blkBegin ∉ [Opcode.regRd, .bqProc, .oscProc, .dlProc, .fdnProc, .hbProc, .hbUp] :=
  ⟨⟨_, _, rfl, rfl, by decide⟩, ⟨_, _, rfl, rfl, by decide⟩, by decide, by decide, by decide⟩
theorem test_witness_RunAnswersEveryCommand :
    Sound (withInputs running [.command (encode .blkBegin), .reset, .command 0]) ∧
    commandCount (withInputs running [.command (encode .blkBegin), .reset, .command 0]).port.inputs = 2 :=
  ⟨sound_withInputs sound_running _, by decide⟩
theorem test_witness_ResetValues :
    1 < tinyCounts.nBq ∧ 1 < tinyCounts.nOsc ∧ 1 < tinyCounts.nDl ∧ 1 < tinyCounts.nFdn ∧ 1 < tinyCounts.nHb ∧
    3 < 2 * tinyCfg.hbNsec ∧ BqReg.y2 ≠ .a0 ∧ DlReg.apY1 ≠ .gFf ∧ FdnReg.outOdd ≠ .ratio ∧ SecReg.sy2 ≠ .coef ∧
    1 < tinyCfg.hbNsec ∧ ¬ 2 < tinyCfg.hbNsec := by decide
theorem test_witness_ResetIsSound :
    (UnitCounts.mk 256 0 256 0 256).ok = true ∧
    { Cfg.suggested with dlMaxLog2 := 31, fdnLineLog2 := 0, fdnNCap := 0, hbNsec := 1, hbCoefA := [0], hbCoefB := [0] }.ok =
      true := by decide
theorem test_witness_StepKeepsInvariant :
    Sound (facing running .blkBegin) ∧ (∃ t, step (facing running .blkBegin) = .next t) ∧ Sound (facing quiet .sysRun) ∧
    (∃ t, step (facing quiet .sysRun) = .next t) ∧ Sound (withInputs inside [.reset]) ∧
    (∃ t, step (withInputs inside [.reset]) = .next t) :=
  ⟨sound_withInputs sound_running _, ⟨_, rfl⟩, sound_withInputs sound_quiet _, ⟨_, rfl⟩, sound_withInputs sound_inside _, ⟨_, rfl⟩⟩
theorem test_witness_SoundStatesNeverStop : Sound (facing inside (.dlProc 1 0)) := sound_withInputs sound_inside _
theorem test_witness_ConfigurationIsFixed : ∃ t, step (facing quiet .sysRun) = .next t := ⟨_, rfl⟩
theorem test_witness_ResetStateDriven :
    1 < tinyCounts.nBq ∧ isFinite F.one = true ∧ isFinite 0x80000000#32 = true ∧ isFinite 0x7F7FFFFF#32 = true ∧
    tinyCfg.num.basic = .binary32 ∧ 1 < tinyCounts.nOsc ∧ tinyCfg.sine = .parabola ∧ 1 < tinyCounts.nDl ∧ 1 < tinyCounts.nFdn := by decide
theorem test_witness_RefusalEffect :
    (facing inside .blkBegin).port.inputs = .command (encode .blkBegin) :: [] ∧ Reg.sys .errcnt ≠ .sys .fs ∧
    (∃ t r, step (facing inside .blkBegin) = .next t ∧ t.port.outputs = r :: (facing inside .blkBegin).port.outputs ∧
      r.status ≠ .ok) ∧
    (∃ t r, step (facing running .blkBegin) = .next t ∧ t.port.outputs = r :: (facing running .blkBegin).port.outputs ∧
      r.status = .ok) :=
  ⟨rfl, by decide, ⟨_, _, rfl, rfl, by decide⟩, ⟨_, _, rfl, rfl, by decide⟩⟩
theorem test_witness_GatingTable :
    (∀ s ∈ [rated, running, inside], flagsOk s.sys) ∧
    (∃ t r, exec .blkBegin rated = .next t ∧ t.port.outputs = r :: rated.port.outputs ∧
      gate Instr.blkBegin.opcode (controlState rated) = some .errMode) ∧
    (∃ t r, exec .blkBegin running = .next t ∧ t.port.outputs = r :: running.port.outputs ∧
      gate Instr.blkBegin.opcode (controlState running) = none) ∧
    (∃ t r, exec .blkBegin inside = .next t ∧ t.port.outputs = r :: inside.port.outputs ∧
      gate Instr.blkBegin.opcode (controlState inside) = some .errInblk) :=
  ⟨by unfold flagsOk; decide, ⟨_, _, rfl, rfl, by decide⟩, ⟨_, _, rfl, rfl, by decide⟩, ⟨_, _, rfl, rfl, by decide⟩⟩

/-- The causes of a refusal, one at a time, each the first that applies. -/
theorem test_witness_FirstCauseIsReported :
    Sound (withInputs quiet [.command 0]) ∧ decode 0 = .illegal .undefinedOpcode ∧
    decode (encode (.dlProc 2 0)) = .command (.dlProc 2 0) ∧ Sound (facing quiet (.dlProc 2 0)) ∧
    causeUnit quiet (.dlProc 2 0) ∧ causeUnit quiet (.regRd 6 0 0) ∧ causeUnit quiet (.regRd 0 1 0) ∧
    causeReg quiet (.regRd 0 0 15) ∧ causeReg quiet (.regWr 0 0 2 0) ∧ ¬ causeReg quiet (.regRd 0 0 14) ∧
    causeMode running (.dlResize 0 0) ∧ causeMode quiet .blkEnd ∧ causeInblk inside (.bqSetdiff 0) ∧
    causeInblk running .blkEnd ∧ causeConfig quiet .sysRun ∧ causeConfig quiet (.fdnResize 0 17#32) ∧
    ¬ causeConfig quiet (.fdnResize 0 16#32) := by
  refine ⟨sound_withInputs sound_quiet _, by decide, by decide, sound_withInputs sound_quiet _, ?_⟩
  refine ⟨by simp [causeUnit, targetOf, classCount]; decide, by simp [causeUnit, targetOf], by simp [causeUnit, targetOf], ?_⟩
  refine ⟨show regAt quiet 0 0 15 = none by decide, .inr ⟨.sys .fs, by decide, rfl⟩,
    show ¬ regAt quiet 0 0 14 = none by decide, ?_⟩
  refine ⟨.inl (by decide), .inr (by decide), .inl (by decide), .inr (by decide), .inl (by decide +kernel), .inr ?_, ?_⟩
  · exact show quiet.cfg.fdnNCap < (17#32).toNat by decide
  · rintro (⟨h, _⟩ | h)
    · exact absurd h (by decide)
    · exact absurd (show quiet.cfg.fdnNCap < (16#32).toNat from h) (by decide)
theorem test_witness_FirstCauseIsReported_unit :
    firstCause ((facing quiet (.dlProc 2 0)).taking []) (.dlProc 2 0) (some .errUnit) :=
  .inl ⟨by simp [causeUnit, targetOf, classCount]; decide, rfl⟩
theorem test_witness_FirstCauseIsReported_none :
    Sound (facing rated .sysRun) ∧ decode (encode .sysRun) = .command .sysRun ∧
    firstCause ((facing rated .sysRun).taking []) .sysRun none := by
  refine ⟨sound_withInputs sound_rated _, by decide, ?_⟩
  refine .inr ⟨by simp [causeUnit, targetOf], .inr ⟨by simp [causeReg], .inr ⟨?_, .inr ⟨?_, .inr ⟨?_, rfl⟩⟩⟩⟩⟩
  · rintro (⟨_, h⟩ | ⟨h, _⟩) <;> exact absurd h (by decide)
  · rintro (⟨_, h⟩ | ⟨h, _⟩) <;> exact absurd h (by decide)
  · rintro (⟨_, h⟩ | h)
    · exact absurd h (by decide +kernel)
    · exact h
theorem test_witness_FlagsWrittenByFourCommands :
    (∃ t, exec .sysRun rated = .next t ∧ t.sys.mode ≠ rated.sys.mode) ∧
    (∃ t, exec .blkBegin running = .next t ∧ t.sys.inblk ≠ running.sys.inblk) :=
  ⟨⟨_, rfl, by decide⟩, ⟨_, rfl, by decide⟩⟩
theorem test_witness_BqCoefficientWriters :
    ∃ t, exec (.bqSetdiff 1) running = .next t ∧ BqReg.a1 ∈ [BqReg.a0, .a1, .a2, .b1, .b2] ∧
      readReg t (.bq 1 .a1) ≠ readReg running (.bq 1 .a1) := ⟨_, rfl, by decide, by decide⟩
theorem test_witness_BqHistoryWriters :
    ∃ t, exec (.bqProc 1 F.one) inside = .next t ∧ BqReg.x1 ∈ [BqReg.x1, .x2, .y1, .y2] ∧
      readReg t (.bq 1 .x1) ≠ readReg inside (.bq 1 .x1) := ⟨_, rfl, by decide, by decide +kernel⟩
theorem test_witness_OscIncrementAndPhaseWriters :
    (∃ t, exec (.oscSetf 1 0x46000000#32) rated = .next t ∧ readReg t (.osc 1 .inc) ≠ readReg rated (.osc 1 .inc)) ∧
    (∃ t, exec (.oscProc 1) (after (.oscSetf 1 0x46000000#32) rated) = .next t ∧
      readReg t (.osc 1 .phase) ≠ readReg (after (.oscSetf 1 0x46000000#32) rated) (.osc 1 .phase)) := by
  have h (i : Instr) (s : State) (hg : goesOn (exec i s) = true) : exec i s = .next (after i s) := by
    unfold after; revert hg; cases exec i s <;> simp [goesOn, nextOf]
  exact ⟨⟨_, h _ _ (by decide +kernel), by decide +kernel⟩, ⟨_, h _ _ (by decide +kernel), by decide +kernel⟩⟩
theorem test_witness_MemoriesReachedOnlyBy :
    (∃ t, exec (.dlProc 1 F.one) quiet = .next t ∧ dlSample t 1 0 ≠ dlSample quiet 1 0) ∧
    (∃ t, exec (.fdnProc 1 F.one) (after (.fdnResize 1 1#32) quiet) = .next t ∧
      lineSample t 1 0 0 ≠ lineSample (after (.fdnResize 1 1#32) quiet) 1 0 0) := by
  have h (i : Instr) (s : State) (hg : goesOn (exec i s) = true) : exec i s = .next (after i s) := by
    unfold after; revert hg; cases exec i s <;> simp [goesOn, nextOf]
  exact ⟨⟨_, h _ _ (by decide +kernel), by decide +kernel⟩, ⟨_, h _ _ (by decide +kernel), by decide +kernel⟩⟩
theorem test_witness_RegisterNumbering :
    Sound quiet ∧ unitExists quiet 5 1 = true ∧ regAt quiet 5 1 0x134 = some (.sect 1 3 .sy2) ∧
    regTriple (.sect 1 3 .sy2) = (5, 1, 0x134) ∧ inRange quiet (.sect 1 3 .sy2) ∧
    (SysReg.version, 0x00E) ∈ [(SysReg.hbNsec, 0x00D), (.version, 0x00E)] ∧
    (DlReg.apY1, 0x00A, Access.rw) ∈ [(DlReg.apX1, 0x009, Access.rw), (.apY1, 0x00A, .rw)] :=
  ⟨sound_quiet, by decide, by decide, by decide, show 3 < 2 * quiet.cfg.hbNsec by decide, by decide, by decide⟩
theorem test_witness_RegRdResult :
    unitExists quiet 6 0 = false ∧ unitExists quiet 0 1 = false ∧ unitExists quiet 1 2 = false ∧
    unitExists quiet 1 1 = true ∧ regAt quiet 1 1 9 = none ∧ regAt quiet 1 1 8 = some (.bq 1 .y2) := by decide
theorem test_witness_RegWrResult :
    Sound rated ∧ Sound inside ∧ unitExists inside 6 0 = false ∧ unitExists rated 2 1 = true ∧ regAt rated 2 1 4 = none ∧
    regAt rated 2 1 1 = some (.osc 1 .inc) ∧ accessOf (.osc 1 .inc) = .ro ∧
    regAt rated 2 1 3 = some (.osc 1 .wave) ∧ accessOf (.osc 1 .wave) = .rwEnum 1 ∧ 1 < (2#32).toNat ∧ (1#32).toNat ≤ 1 ∧
    regAt rated 2 1 0 = some (.osc 1 .phase) ∧ accessOf (.osc 1 .phase) = .rw ∧
    readReg rated (.sys .inblk) ≠ 1 ∧ readReg inside (.sys .inblk) = 1 ∧
    regAt inside 2 1 0 = some (.osc 1 .phase) ∧ unitExists inside 2 1 = true :=
  ⟨sound_rated, sound_inside, by decide⟩
theorem test_witness_RegWrIdempotent :
    ∃ t, exec (.regWr 2 1 0 0xFFFFFFFF#32) quiet = .next t ∧
      t.port.outputs = { status := .ok, res0 := 0, res1 := 0 } :: quiet.port.outputs := ⟨_, rfl, rfl⟩
theorem test_witness_SysSetsrResult :
    readReg running (.sys .mode) ≠ 0 ∧ readReg quiet (.sys .mode) = 0 ∧ isNan 0x7F800001#32 = true ∧
    isInf 0x7F800000#32 = true ∧ flt F.zero 0x80000000#32 = false ∧ flt F.zero 0x80000001#32 = false ∧
    isNan 0x00000001#32 = false ∧ isInf 0x00000001#32 = false ∧ flt F.zero 0x00000001#32 = true ∧
    flt F.zero 0x7F7FFFFF#32 = true := by decide +kernel
theorem test_witness_FlagCommandsResult :
    readReg running (.sys .mode) ≠ 0 ∧ readReg running (.sys .mode) = 1 ∧ readReg running (.sys .inblk) = 0 ∧
    readReg quiet (.sys .mode) = 0 ∧ feq (readReg quiet (.sys .fs)) F.zero = true ∧ readReg quiet (.sys .mode) ≠ 1 ∧
    feq (readReg rated (.sys .fs)) F.zero = false ∧ readReg rated (.sys .mode) = 0 ∧
    readReg inside (.sys .mode) = 1 ∧ readReg inside (.sys .inblk) = 1 := by decide +kernel
theorem test_witness_BqProcResult : quiet.counts.nBq ≤ 2 ∧ 1 < quiet.counts.nBq := by decide
theorem test_witness_BqIdentity :
    1 < quiet.counts.nBq ∧ quiet.cfg.num.basic = .binary32 ∧ isFinite 0x7F7FFFFF#32 = true ∧ (0x7F7FFFFF#32 : F) ≠ 0x80000000#32 ∧
    readReg quiet (.bq 1 .a0) = F.one ∧
    (∀ r, r ∈ [BqReg.a1, .a2, .b1, .b2] → readReg quiet (.bq 1 r) = F.zero) ∧
    (∀ r, r ∈ [BqReg.x1, .x2, .y1, .y2] → isFinite (readReg quiet (.bq 1 r)) = true) := by decide
theorem test_witness_BqSetterFrame :
    (Instr.bqSetlp 1 F.one F.two, BqMode.lp, F.two, F.zero, rated.sys.fs) ∈
      [(Instr.bqSetlp 1 F.one F.two, BqMode.lp, F.two, F.zero, rated.sys.fs),
        (.bqSethp 1 F.one F.two, .hp, F.two, F.zero, rated.sys.fs)] ∧
    rated.counts.nBq ≤ 2 ∧ 1 < rated.counts.nBq ∧ readReg inside (.sys .inblk) = 1 ∧ 1 < inside.counts.nBq ∧
    readReg quiet (.sys .inblk) ≠ 1 ∧ feq quiet.sys.fs F.zero = true ∧ 1 < quiet.counts.nBq ∧
    readReg rated (.sys .inblk) ≠ 1 ∧ feq rated.sys.fs F.zero = false := by decide +kernel
theorem test_witness_BqFormulasWithoutGain :
    1 < rated.counts.nBq ∧ readReg rated (.sys .inblk) ≠ 1 ∧ feq rated.sys.fs F.zero = false ∧ rated.cfg.design = .rbj ∧
    Opcode.bqSetap ∈ [Opcode.bqSetlp, .bqSethp, .bqSetbp, .bqSetnotch, .bqSetap] := by decide +kernel
theorem test_witness_BqFormulasWithGain :
    1 < running.counts.nBq ∧ readReg running (.sys .inblk) ≠ 1 ∧ feq running.sys.fs F.zero = false ∧
    running.cfg.design = .rbj ∧ Opcode.bqSetpeak ∈ [Opcode.bqSetloshelf, .bqSethishelf, .bqSetpeak] := by decide +kernel
theorem test_witness_BqDifferentiatorAndOnePole :
    1 < rated.counts.nBq ∧ readReg rated (.sys .inblk) ≠ 1 ∧ rated.cfg.design = .rbj ∧
    feq rated.sys.fs F.zero = false := by decide +kernel
theorem test_witness_OscSetfResult :
    quiet.counts.nOsc ≤ 2 ∧ 1 < quiet.counts.nOsc ∧ feq quiet.sys.fs F.zero = true ∧ 1 < rated.counts.nOsc ∧
    feq rated.sys.fs F.zero = false ∧ rated.cfg.num.basic = .binary32 ∧ isNan 0x7FC00000#32 = true := by decide +kernel
theorem test_witness_OscProcResult :
    quiet.counts.nOsc ≤ 2 ∧ 1 < quiet.counts.nOsc ∧ readReg quiet (.osc 1 .wave) = 0 ∧ quiet.cfg.sine = .parabola ∧
    readReg (setting quiet (.osc 1 .wave) 1) (.osc 1 .wave) ≠ 0 ∧
    ({ tinyCfg with sine := .other 1 } : Cfg).sine = .other 1 := by decide
theorem test_witness_FoldRange : num.basic = .binary32 := rfl
theorem test_witness_PhaseLaw :
    1 < quiet.counts.nOsc ∧ 1 < 256 ∧ (withInputs quiet (List.replicate 3 (.command (encode (.oscProc 1))))).port.inputs =
      List.replicate 3 (.command (encode (.oscProc 1))) := by decide
theorem test_witness_DlResizeResult :
    quiet.counts.nDl ≤ 2 ∧ 1 < running.counts.nDl ∧ readReg running (.sys .mode) = 1 ∧
    readReg quiet (.sys .mode) ≠ 1 ∧ feq quiet.sys.fs F.zero = true ∧ readReg rated (.sys .mode) ≠ 1 ∧
    feq rated.sys.fs F.zero = false ∧
    flt (num.fmul [] 0x80000001#32 rated.sys.fs) F.zero = true ∧
    flt (pow2 rated.cfg.dlMaxLog2) (num.fmul [] 0x39800001#32 rated.sys.fs) = true ∧
    isNan (num.fmul [] 0x39800000#32 rated.sys.fs) = false ∧ flt (num.fmul [] 0x39800000#32 rated.sys.fs) F.zero = false ∧
    flt (pow2 rated.cfg.dlMaxLog2) (num.fmul [] 0x39800000#32 rated.sys.fs) = false ∧
    isNan (num.fmul [] 0x80000000#32 rated.sys.fs) = false ∧ flt (num.fmul [] 0x80000000#32 rated.sys.fs) F.zero = false := by
  decide +kernel
theorem test_witness_DlResizeResult_nan : isNan (num.fmul [] 0x7FC00000#32 rated.sys.fs) = true := by
  rw [Num.fmul_eq rfl, fmul_nan (.inl (by decide))]; exact isNan_nanOf _
theorem test_witness_DlDelaySettersResult :
    quiet.counts.nDl ≤ 2 ∧ 1 < quiet.counts.nDl ∧ feq quiet.sys.fs F.zero = true ∧ 1 < rated.counts.nDl ∧
    feq rated.sys.fs F.zero = false := by decide +kernel

/-- A line at full length, of a kind. -/
def fullLine (k : U32) : State := setting (setting rated (.dl 1 .log2len) 3) (.dl 1 .kind) k

theorem test_witness_DlProcResult :
    quiet.counts.nDl ≤ 2 ∧ 1 < (fullLine 0).counts.nDl ∧ (readReg (fullLine 0) (.dl 1 .log2len)).toNat ≤ 3 ∧
    (fullLine 0).cfg.dlMaxLog2 = 3 ∧ readReg (fullLine 0) (.dl 1 .kind) = 0 ∧ readReg (fullLine 1) (.dl 1 .kind) = 1 ∧
    readReg (fullLine 2) (.dl 1 .kind) ≠ 0 ∧ readReg (fullLine 2) (.dl 1 .kind) ≠ 1 :=
  ⟨by decide, by decide, by decide, rfl, by decide, by decide, by decide, by decide⟩
theorem test_witness_DlProcOutsideMemoryFaults :
    let s := setting quiet (.dl 1 .log2len) 4
    1 < s.counts.nDl ∧ s.cfg.dlMaxLog2 < (readReg s (.dl 1 .log2len)).toNat := by decide
theorem test_witness_SampleDelayRoundTrip :
    Sound (withInputs quiet ([F.one, F.two].map (fun x => .command (encode (.dlProc 1 x))))) ∧ 1 < quiet.counts.nDl ∧ 1 < 256 ∧
    readReg quiet (.dl 1 .kind) = 0 ∧ readReg quiet (.dl 1 .fixdly) = 0 ∧ readReg quiet (.dl 1 .widx) = 0 ∧
    (0#32).toNat < 2 ^ (readReg quiet (.dl 1 .log2len)).toNat ∧ (∀ k, dlSample quiet 1 k = F.zero) :=
  ⟨sound_withInputs sound_quiet _, by decide, by decide, by decide, by decide, by decide, by decide, fun _ => rfl⟩
theorem test_witness_RingIndexArithmetic : 0 ≤ 31 ∧ 31 ≤ 31 := by decide
theorem test_witness_FdnResizeResult :
    Sound quiet ∧ Sound running ∧ quiet.counts.nFdn ≤ 2 ∧ 1 < running.counts.nFdn ∧ readReg running (.sys .mode) = 1 ∧
    1 < quiet.counts.nFdn ∧ readReg quiet (.sys .mode) ≠ 1 ∧ quiet.cfg.fdnNCap < (17#32).toNat ∧
    (16#32).toNat ≤ quiet.cfg.fdnNCap ∧ (0#32).toNat ≤ quiet.cfg.fdnNCap :=
  ⟨sound_quiet, sound_running, by decide⟩
theorem test_witness_HouseholderValues : 1 ≤ 1 ∧ 1 ≤ 16 ∧ 16 ≤ 16 ∧ num.basic = .binary32 := by decide
theorem test_witness_FdnSetlenResult :
    Sound quiet ∧ Sound inside ∧ Sound rated ∧ quiet.counts.nFdn ≤ 2 ∧ 1 < inside.counts.nFdn ∧
    readReg inside (.sys .inblk) = 1 ∧ 1 < quiet.counts.nFdn ∧ readReg quiet (.sys .inblk) ≠ 1 ∧
    feq quiet.sys.fs F.zero = true ∧ 1 < rated.counts.nFdn ∧ readReg rated (.sys .inblk) ≠ 1 ∧
    feq rated.sys.fs F.zero = false :=
  ⟨sound_quiet, sound_inside, sound_rated, by decide +kernel⟩
theorem test_witness_FdnProcResult : Sound running ∧ running.counts.nFdn ≤ 2 ∧ 1 < running.counts.nFdn :=
  ⟨sound_running, by decide⟩
theorem test_witness_HbProcResult :
    quiet.counts.nHb ≤ 2 ∧ quiet.hb[1]? = some (HbUnit.reset 2) ∧ hbOk quiet.cfg (HbUnit.reset 2) :=
  ⟨by decide, by decide, show (HbUnit.reset 2).secs.length = 2 * quiet.cfg.hbNsec by decide⟩
theorem test_witness_HbUpResult :
    inside.counts.nHb ≤ 2 ∧ inside.hb[1]? = some (HbUnit.reset 2) ∧ hbOk inside.cfg (HbUnit.reset 2) :=
  ⟨by decide, by decide, show (HbUnit.reset 2).secs.length = 2 * inside.cfg.hbNsec by decide⟩
theorem test_witness_NanAndInfinityRules :
    num.basic = .binary32 ∧ isNan 0x7F800001#32 = true ∧ isInf 0x7F800000#32 = true ∧ isInf 0xFF800000#32 = true ∧
    signBit 0x7F800000#32 ≠ signBit 0xFF800000#32 ∧ signBit 0x7F800000#32 = false ∧ isZero 0x80000000#32 = true ∧
    flt 0x80000001#32 F.zero = true ∧ isFinite 0x00000001#32 = true ∧ isNan 0x00000001#32 = false ∧
    isZero 0x00000001#32 = false := by decide +kernel
theorem test_witness_FloatToUnsigned :
    isNan 0xFFFFFFFF#32 = true ∧ isInf 0xFF800000#32 = true ∧ isFinite 0xFF7FFFFF#32 = true := by decide
theorem test_witness_LeastPowerOfTwo :
    isFinite 0x7F7FFFFF#32 = true ∧ 0 ≤ signedUnits 0x7F7FFFFF#32 ∧ isFinite 0x80000000#32 = true ∧
    0 ≤ signedUnits 0x80000000#32 ∧ flt F.one F.one = false ∧ flt F.one 0x3F800001#32 = true := by decide +kernel
theorem test_witness_RoundingToNearestEven :
    0 < 1 ∧ roundMag ((2 ^ 25 - 1) * 2 ^ 252) 1 = infMag ∧ roundMag ((2 ^ 25 - 1) * 2 ^ 252 - 1) 1 = infMag - 1 ∧
    roundMag 1 2 < infMag ∧ roundMag 3 2 = 2 := by decide +kernel
theorem test_witness_PseudoCommands :
    Sound quiet ∧ Sound inside ∧
    (Pseudo.bqClear 1, 1, [(Reg.bq 1 .x1, F.zero), (.bq 1 .x2, F.zero), (.bq 1 .y1, F.zero), (.bq 1 .y2, F.zero)]) ∈
      [(Pseudo.bqClear 1, 1, [(Reg.bq 1 .x1, F.zero), (.bq 1 .x2, F.zero), (.bq 1 .y1, F.zero), (.bq 1 .y2, F.zero)]),
        (.oscSetphase 1 0, 2, [(.osc 1 .phase, 0)])] ∧
    classCount quiet 1 ≤ 2 ∧ 1 < classCount quiet 1 ∧ 1 < classCount quiet 5 ∧ 1 < classCount inside 1 ∧
    inRange quiet (.bq 1 .x1) ∧ inRange quiet (.sect 1 3 .sy2) ∧ ¬ inRange quiet (.line 1 0 .da0) ∧
    readReg inside (.sys .inblk) = 1 ∧ readReg quiet (.sys .inblk) ≠ 1 ∧
    (1#32).toNat ≤ 1 ∧ ¬ (2#32).toNat ≤ 1 ∧ (2#32).toNat ≤ 2 ∧ ¬ (3#32).toNat ≤ 2 := by
  refine ⟨sound_quiet, sound_inside, by decide, by decide, by decide, by decide, by decide, trivial, ?_, ?_, by decide⟩
  · exact show 3 < 2 * quiet.cfg.hbNsec by decide
  · exact show ¬ 0 < fdnLineCount quiet 1 by decide
/-- R112 on a state with lines in use: FDN.SETDAMP of the last line is in range, of the line behind it is not. -/
theorem test_witness_PseudoCommands_line :
    let s := after (.fdnResize 1 2#32) quiet
    inRange s (.line 1 1 .da0) ∧ ¬ inRange s (.line 1 2 .da0) ∧
    last (nextOf s (execPseudo (.fdnSetdamp 1 2 F.one 0 0 0 0) s)) = some (3, 0, 0) := by
  refine ⟨show 1 < fdnLineCount _ 1 by decide, show ¬ 2 < fdnLineCount _ 1 by decide, by decide +kernel⟩
theorem test_witness_FiniteArithmeticRoundsOnce :
    num.basic = .binary32 ∧ isFinite 0xFF7FFFFF#32 = true ∧ isFinite 0x80000000#32 = true ∧
    signedUnits 0x80000000#32 = 0 ∧ 0 ≤ signedUnits 0x7F7FFFFF#32 ∧ signedUnits 0x00000001#32 = 1 ∧
    (-2 ^ 31 : Int) ≤ -2 ^ 31 ∧ (-2 ^ 31 : Int) < 2 ^ 31 := by decide +kernel

end Sys2Proof.Tests
end

/-! SUPPORT. One step of the block by what stands first at its port: the three things a step can do, and what each leaves of the
port, the configuration and the unit counts. -/

namespace Sys2Proof.Machine

/-! ### The step by the first input -/

theorem step_of_nil {s : State} (h : s.port.inputs = []) : step s = .next s := by simp only [step, h]

theorem step_of_reset {s : State} {rest : List PortInput} (h : s.port.inputs = .reset :: rest) :
    step s = .next (s.taking rest).resetPin.counted := by simp only [step, h]

theorem step_of_command {s : State} {w : CommandWord} {rest : List PortInput} (h : s.port.inputs = .command w :: rest) :
    step s = countedOut (perform w (s.taking rest)) := by simp only [step, h]

theorem perform_of_command {w : CommandWord} {i : Instr} (h : decode w = .command i) (s : State) :
    perform w s = exec i s := by simp only [perform, h]

theorem perform_of_illegal {w : CommandWord} {why : IllegalReason} (h : decode w = .illegal why) (s : State) :
    perform w s = refused .errOpcode s := by simp only [perform, h]

@[simp] theorem countedOut_next (s : State) : countedOut (.next s) = .next s.counted := rfl

theorem countedOut_eq_next {o : Out} {t : State} : countedOut o = .next t ↔ ∃ t', o = .next t' ∧ t = t'.counted := by
  cases o <;> simp [countedOut, eq_comm]

/-- A table word that decodes is a port word that decodes (log 17). -/
theorem decode_tableWord_of_decodeTableWord {nbits w : Nat} {i : Instr} (h : decodeTableWord nbits w = some i) :
    decode (tableWord nbits w) = .command i := by
  unfold decodeTableWord at h
  split at h
  · next j hj => rw [hj, Option.some.inj h]
  · cases h

/-- Taking off what was just presented gives the state back (log 2). -/
@[simp] theorem State.taking_presented (s : State) (w : CommandWord) :
    (s.presented w).taking s.port.inputs = s := rfl

/-! ### What a command and a step can do -/

@[simp] theorem refuse_counts (code : Status) (s : State) : (refuse code s).counts = s.counts := rfl

@[simp] theorem State.resetPin_counts (s : State) : s.resetPin.counts = s.counts := by simp [State.counts]

/-- Either way a command ends, it gives one response and keeps configuration and unit counts. -/
theorem Ends.frame {s t : State} (h : Ends s t) :
    (∃ r, t.port = { s.port with outputs := r :: s.port.outputs }) ∧ t.cfg = s.cfg ∧ t.counts = s.counts := by
  rcases h with ⟨code, _, rfl⟩ | ⟨s', r0, r1, rfl, kept⟩
  · exact ⟨⟨_, refuse_port code s⟩, refuse_cfg code s, refuse_counts code s⟩
  · exact ⟨⟨_, by rw [State.give_port, kept.port]⟩, kept.cfg, kept.counts⟩

/-- A word performed ends in one of the two ways of a command; an illegal one in the refusal (30_encoding.md R107). -/
theorem perform_ends {w : CommandWord} {s t : State} (h : perform w s = .next t) : Ends s t := by
  cases hd : decode w with
  | command i => exact exec_ends (perform_of_command hd s ▸ h)
  | illegal why =>
    rw [perform_of_illegal hd] at h
    rw [refused_next h]
    exact .refuse (by decide)

/-- The three things a step that answers a next state can have done: waited, reset the block, or performed a word. -/
theorem step_next_cases {s t : State} (h : step s = .next t) :
    (s.port.inputs = [] ∧ t = s) ∨
    (∃ rest, s.port.inputs = .reset :: rest ∧ t = (s.taking rest).resetPin.counted) ∨
    (∃ w rest t', s.port.inputs = .command w :: rest ∧ Ends (s.taking rest) t' ∧ t = t'.counted) := by
  cases hin : s.port.inputs with
  | nil =>
    rw [step_of_nil hin, Host.Outcome.next.injEq] at h
    exact .inl ⟨rfl, h.symm⟩
  | cons x rest =>
    cases x with
    | reset =>
      rw [step_of_reset hin, Host.Outcome.next.injEq] at h
      exact .inr (.inl ⟨rest, rfl, h.symm⟩)
    | command w =>
      rw [step_of_command hin] at h
      obtain ⟨t', hp, rfl⟩ := countedOut_eq_next.1 h
      exact .inr (.inr ⟨w, rest, t', rfl, perform_ends hp, rfl⟩)

/-! ### The statements on one step -/

/-- Settles O7, from the equations of `step` and `perform`; a word just presented is taken off again. -/
theorem stepRunsTheDecodedCommand : Obligations.StepRunsTheDecodedCommand := by
  have run_decoded : ∀ s w rest i, s.port.inputs = .command w :: rest → decode w = .command i →
      step s = countedOut (exec i (s.taking rest)) := by
    intro s w rest i hin hd
    rw [step_of_command hin, perform_of_command hd]
  refine ⟨run_decoded, fun s nbits w i hd => ?_, countedOut_next⟩
  have hin : (s.withFetchWord nbits w).port.inputs = .command (tableWord nbits w) :: s.port.inputs := rfl
  rw [run_decoded _ _ _ i hin (decode_tableWord_of_decodeTableWord hd), State.withFetchWord, State.taking_presented]

/-- Settles O9, by the three things a step can do: only the performed word gives a response, and it gives one. -/
theorem oneResponsePerCommand : Obligations.OneResponsePerCommand := by
  intro s t h
  rcases step_next_cases h with ⟨hin, rfl⟩ | ⟨rest, hin, rfl⟩ | ⟨w, rest, t', hin, hends, rfl⟩
  · simp [hin]
  · simp [hin]
  · obtain ⟨⟨r, hport⟩, -, -⟩ := hends.frame
    simp [hin, hport]

/-- Settles O16, by the three things a step can do. -/
theorem configurationIsFixed : Obligations.ConfigurationIsFixed := by
  intro s t h
  rcases step_next_cases h with ⟨-, rfl⟩ | ⟨rest, -, rfl⟩ | ⟨w, rest, t', -, hends, rfl⟩
  · exact ⟨rfl, rfl⟩
  · exact ⟨rfl, by simp⟩
  · obtain ⟨-, hcfg, hcounts⟩ := hends.frame
    exact ⟨hcfg, hcounts⟩

end Sys2Proof.Machine

/-! SUPPORT. The invariant of each kind of unit (`oscOk`, `dlOk`, `fdnOk`, `hbOk`) under everything a command does to a unit. -/

namespace Sys2Proof.Machine

/-! ### OSC units -/

/-- An oscillator written by REG.WR: only PHASE and a legal WAVE can be (10_state.md R30). -/
theorem oscOk.put {nm : Num} {fs : F} {o : OscUnit} (h : oscOk nm fs o) {u : Nat} {r : OscReg} {v : U32}
    (hw : writable (accessOf (.osc u r)) = true) (hv : valueLegal (accessOf (.osc u r)) v = true) :
    oscOk nm fs (o.put r v) := by
  cases r with
  | phase => exact h
  | wave => exact ⟨of_decide_eq_true hv, h.2⟩
  | inc | freq => exact absurd hw (by simp [writable, accessOf])

theorem oscOk.withPhase {nm : Num} {fs : F} {o : OscUnit} (h : oscOk nm fs o) (p : U32) :
    oscOk nm fs { o with phase := p } := h

/-- A frequency set together with its increment (42_oscillator.md R192). -/
theorem oscOk.withFreq {nm : Num} {fs : F} {o : OscUnit} (h : oscOk nm fs o) (d : Draw) (f : F) :
    oscOk nm fs { o with freq := f, inc := incOf nm d f fs } := by
  obtain ⟨hwave, -⟩ := h
  exact ⟨hwave, .inr ⟨d, rfl⟩⟩

/-- Rederived increments are the ones of the new sample rate (46_system.md R281). -/
theorem oscOk_of_mem_rederiveIncs {nm : Num} {d : Draw} {fs fs' : F} {l : List OscUnit} (h : ∀ o ∈ l, oscOk nm fs o)
    (v : Nat) :
    ∀ o ∈ rederiveIncs nm d fs' v l, oscOk nm fs' o := by
  induction l generalizing v with
  | nil => simp [rederiveIncs]
  | cons o l ih =>
    intro o' ho'
    rcases List.mem_cons.1 ho' with rfl | ho'
    · exact ⟨(h o (by simp)).1, .inr ⟨v :: d, rfl⟩⟩
    · exact ih (fun x hx => h x (by simp [hx])) (v + 1) o' ho'

/-! ### DL units -/

theorem magUnits_pow2 {e : Nat} (h : e ≤ 31) : magUnits (pow2 e) = 2 ^ e * oneUnits := by
  have hlt : (127 + e) * 2 ^ 23 < 2 ^ 31 := by omega
  have hexp : expField (pow2 e) = 127 + e := by rw [pow2, expField_pack hlt]; omega
  have hfrac : fracField (pow2 e) = 0 := by rw [pow2, fracField_pack hlt]; omega
  rw [magUnits, hexp, hfrac, if_neg (by omega), oneUnits, Nat.add_zero, ← pow_add, ← pow_add]
  congr 1
  omega

theorem signedUnits_pow2 {e : Nat} (h : e ≤ 31) : signedUnits (pow2 e) = ((2 ^ e * oneUnits : Nat) : Int) := by
  have hlt : (127 + e) * 2 ^ 23 < 2 ^ 31 := by omega
  have hsign : signBit (pow2 e) = false := signBit_pack hlt
  rw [signedUnits, hsign, magUnits_pow2 h]
  rfl

theorem magUnits_of_signedUnits_nonneg {v : F} (h : 0 ≤ signedUnits v) : (magUnits v : Int) = signedUnits v := by
  unfold signedUnits at h ⊢
  split at h
  · rw [if_pos ‹_›]; omega
  · rw [if_neg ‹_›]

/-- A length DL.RESIZE takes is at most that of the whole memory (43_delay.md R212). -/
theorem magUnits_le_of_lengthOk {e : Nat} (he : e ≤ 31) {p : F} (h : lengthOk e p = true) :
    magUnits p ≤ 2 ^ e * oneUnits := by
  have hpow : isNan (pow2 e) = false := isNan_pack (by unfold infMag; omega)
  have hzero : isNan F.zero = false ∧ signedUnits F.zero = 0 := by decide
  simp only [lengthOk, flt, Bool.and_eq_true, Bool.not_eq_true', hpow, hzero.1] at h
  obtain ⟨⟨hnan, hneg⟩, hlong⟩ := h
  simp only [hnan, hzero.2, signedUnits_pow2 he, Bool.not_false, Bool.true_and, decide_eq_false_iff_not, not_lt] at hneg hlong
  have := magUnits_of_signedUnits_nonneg hneg
  omega

/-- A quotient rounded up is at most what bounds the number in whole divisors. -/
theorem roundUp_div_le {m k one : Nat} (hone : 0 < one) (h : m ≤ k * one) : (m + (one - 1)) / one ≤ k := by
  rw [← Nat.lt_succ_iff, Nat.div_lt_iff_lt_mul hone, Nat.succ_mul]
  omega

/-- The least exponent of a power of two at or above `up` is at most that of any such power. -/
theorem leastExponent_le {up e : Nat} (h : up ≤ 2 ^ e) : (if up ≤ 1 then 0 else Nat.log2 (up - 1) + 1) ≤ e := by
  split
  · exact Nat.zero_le e
  · exact (Nat.log2_lt (by omega)).2 (by omega)

theorem oneUnits_pos : 0 < oneUnits := Nat.two_pow_pos 149

theorem clog2_eq (p : F) : clog2 p =
    if (magUnits p + (oneUnits - 1)) / oneUnits ≤ 1 then 0
    else Nat.log2 ((magUnits p + (oneUnits - 1)) / oneUnits - 1) + 1 := rfl

/-- The exponent DL.RESIZE takes reaches no further than the memory (40_numerics.md R144). -/
theorem clog2_le {p : F} {e : Nat} (h : magUnits p ≤ 2 ^ e * oneUnits) : clog2 p ≤ e := by
  rw [clog2_eq]
  exact leastExponent_le (roundUp_div_le oneUnits_pos h)

theorem dlOk.resized {m e : Nat} (hm : m ≤ 31) (he : e ≤ m) {l : DlUnit} (h : dlOk m l) : dlOk m (l.resized e) := by
  obtain ⟨hkind, -⟩ := h
  refine ⟨hkind, ?_, Memory.wf_nil, memFits_nil _⟩
  show (BitVec.ofNat 32 e).toNat ≤ m
  rw [BitVec.toNat_ofNat]
  omega

theorem dlOk.withFixdly {m : Nat} {l : DlUnit} (h : dlOk m l) (v : U32) : dlOk m { l with fixdly := v } := h

theorem dlOk.withModdly {m : Nat} {l : DlUnit} (h : dlOk m l) (v : F) : dlOk m { l with moddly := v } := h

/-- A delay line written by REG.WR: neither the length nor the memory can be, and KIND takes legal values only (10_state.md
R33). -/
theorem dlOk.put {m : Nat} {l : DlUnit} (h : dlOk m l) {u : Nat} {r : DlReg} {v : U32}
    (hw : writable (accessOf (.dl u r)) = true) (hv : valueLegal (accessOf (.dl u r)) v = true) : dlOk m (l.put r v) := by
  cases r with
  | kind => exact ⟨of_decide_eq_true hv, h.2⟩
  | log2len | widx => exact absurd hw (by simp [writable, accessOf])
  | fixdly | moddly | gDry | gFf | gFb | fixout | apX1 | apY1 => exact h

/-- A sample processed keeps kind and length, and its one write to the memory is at the write index (43_delay.md R216). -/
theorem DlUnit.proc_frame (nm : Num) (d : Draw) (l : DlUnit) (x : F) :
    (l.proc nm d x).1.kind = l.kind ∧ (l.proc nm d x).1.log2len = l.log2len ∧
      (l.proc nm d x).1.buf = memWrite l.buf (ringIndex l.log2len.toNat l.widx 0) (l.lineIn nm (0 :: d) x) := by
  simp only [DlUnit.proc]
  split
  · exact ⟨rfl, rfl, rfl⟩
  · split <;> exact ⟨rfl, rfl, rfl⟩

theorem dlOk.proc {m : Nat} (hm : m ≤ 31) {l : DlUnit} (h : dlOk m l) (nm : Num) (d : Draw) (x : F) :
    dlOk m (l.proc nm d x).1 := by
  obtain ⟨hkind, hlen, hwf, hfits⟩ := h
  obtain ⟨ekind, elen, ebuf⟩ := l.proc_frame nm d x
  rw [dlOk, ekind, elen, ebuf]
  exact ⟨hkind, hlen, Memory.wf_memWrite hwf _ _, memFits_memWrite hfits (ringIndex_lt (by omega) _ _) _⟩

/-! ### FDN units -/

theorem lineOk_fresh (m : Nat) : lineOk m FdnLine.fresh := ⟨Memory.wf_nil, memFits_nil m⟩

theorem lineOk.put {m : Nat} {l : FdnLine} (h : lineOk m l) (r : LineReg) (v : U32) : lineOk m (l.put r v) := by
  cases r <;> exact h

theorem lineOk.proc {m : Nat} (hm : m ≤ 31) {l : FdnLine} (h : lineOk m l) (nm : Num) (d : Draw) (fb inp : F) :
    lineOk m (l.proc nm d m fb inp) :=
  ⟨Memory.wf_memWrite h.1 _ _, memFits_memWrite h.2 (ringIndex_lt (by omega) _ _) _⟩

theorem procLines_length (nm : Num) (d : Draw) (m : Nat) (fb x : F) (mat outs : List F) (j : Nat) (l : List FdnLine) :
    (procLines nm d m fb x mat outs j l).length = l.length := by
  induction l generalizing j with
  | nil => rfl
  | cons a l ih => simp [procLines, ih]

theorem lineOk_of_mem_procLines {m : Nat} (hm : m ≤ 31) {l : List FdnLine} (h : ∀ a ∈ l, lineOk m a) (nm : Num) (d : Draw)
    (fb x : F) (mat outs : List F) (j : Nat) : ∀ a ∈ procLines nm d m fb x mat outs j l, lineOk m a := by
  induction l generalizing j with
  | nil => simp [procLines]
  | cons b l ih =>
    intro a ha
    rcases List.mem_cons.1 ha with rfl | ha
    · exact (h b (by simp)).proc hm _ _ _ _
    · exact ih (fun y hy => h y (by simp [hy])) (j + 1) a ha

theorem setLengths_length (nm : Num) (d : Draw) (ratio : F) (j : Nat) (t : F) (l : List FdnLine) :
    (setLengths nm d ratio j t l).length = l.length := by
  induction l generalizing j t with
  | nil => rfl
  | cons a l ih => simp [setLengths, ih]

theorem lineOk_of_mem_setLengths {m : Nat} {l : List FdnLine} (h : ∀ a ∈ l, lineOk m a) (nm : Num) (d : Draw) (ratio : F)
    (j : Nat) (t : F) : ∀ a ∈ setLengths nm d ratio j t l, lineOk m a := by
  induction l generalizing j t with
  | nil => simp [setLengths]
  | cons b l ih =>
    intro a ha
    rcases List.mem_cons.1 ha with rfl | ha
    · exact h b (by simp)
    · exact ih (fun y hy => h y (by simp [hy])) _ _ a ha

/-- The lines of a unit with the first `k` replaced by as many sound ones are 16 sound lines. -/
theorem lines_replaced {m k : Nat} {new old : List FdnLine} (hlen : old.length = 16) (hold : ∀ a ∈ old, lineOk m a)
    (hnewlen : new.length = (old.take k).length) (hnew : ∀ a ∈ new, lineOk m a) :
    (new ++ old.drop k).length = 16 ∧ ∀ a ∈ new ++ old.drop k, lineOk m a := by
  refine ⟨?_, fun a ha => ?_⟩
  · rw [List.length_append, hnewlen, ← List.length_append, List.take_append_drop, hlen]
  · rcases List.mem_append.1 ha with ha | ha
    · exact hnew a ha
    · exact hold a (List.mem_of_mem_drop ha)

section
variable {c : Cfg} {f : FdnUnit}

theorem fdnOk.put (h : fdnOk c f) {u : Nat} {r : FdnReg} (hw : writable (accessOf (.fdn u r)) = true) (v : U32) :
    fdnOk c (f.put r v) := by
  cases r with
  | fb | ratio => exact h
  | n | outEven | outOdd => exact absurd hw (by simp [writable, accessOf])

theorem fdnOk.setMatrix (h : fdnOk c f) (k : Nat) (v : F) : fdnOk c { f with m := f.m.set k v } := by
  obtain ⟨hn, hlines, hm, hok⟩ := h
  exact ⟨hn, hlines, by simpa using hm, hok⟩

theorem fdnOk.putLine (h : fdnOk c f) (j : Nat) (r : LineReg) (v : U32) :
    fdnOk c { f with lines := f.lines.modify j (fun l => l.put r v) } := by
  obtain ⟨hn, hlines, hm, hok⟩ := h
  exact ⟨hn, by simpa using hlines, hm,
    forall_mem_modify hok fun l hl => (hok l (List.mem_of_getElem? hl)).put r v⟩

/-- An FDN unit resized within the line count of the configuration (44_fdn.md R242). -/
theorem fdnOk.resized (hcap : c.fdnNCap ≤ 16) (h : fdnOk c f) {n : U32} (hn : n.toNat ≤ c.fdnNCap) (nm : Num) (d : Draw) :
    fdnOk c (f.resized c.matrix nm d n) := by
  obtain ⟨-, hlines, -, hok⟩ := h
  have hnew : (List.replicate n.toNat FdnLine.fresh).length = (f.lines.take n.toNat).length := by
    rw [List.length_replicate, List.length_take]
    omega
  obtain ⟨hlen, hmem⟩ := lines_replaced hlines hok hnew fun a ha => List.eq_of_mem_replicate ha ▸ lineOk_fresh _
  exact ⟨hn, hlen, by simp [FdnUnit.resized, loadMatrix], hmem⟩

/-- An FDN unit whose lines in use are replaced by as many sound ones. -/
theorem fdnOk.withUsedLines (h : fdnOk c f) {new : List FdnLine} (hlen : new.length = (f.lines.take f.n.toNat).length)
    (hnew : ∀ a ∈ new, lineOk c.fdnLineLog2 a) : fdnOk c { f with lines := new ++ f.lines.drop f.n.toNat } := by
  obtain ⟨hn, hlines, hm, hok⟩ := h
  obtain ⟨hlen, hmem⟩ := lines_replaced hlines hok hlen hnew
  exact ⟨hn, hlen, hm, hmem⟩

theorem fdnOk.lineOk_of_mem_used (h : fdnOk c f) : ∀ a ∈ f.lines.take f.n.toNat, lineOk c.fdnLineLog2 a := by
  obtain ⟨-, -, -, hok⟩ := h
  exact fun a ha => hok a (List.mem_of_mem_take ha)

theorem fdnOk.proc (hm : c.fdnLineLog2 ≤ 31) (h : fdnOk c f) (nm : Num) (d : Draw) (x : F) :
    fdnOk c (f.proc nm d c.fdnLineLog2 x).1 :=
  h.withUsedLines (procLines_length _ _ _ _ _ _ _ _ _) (lineOk_of_mem_procLines hm h.lineOk_of_mem_used _ _ _ _ _ _ _)

theorem fdnOk.setLengths (h : fdnOk c f) (nm : Num) (d : Draw) (t : F) :
    fdnOk c { f with lines := setLengths nm d f.ratio 0 t (f.lines.take f.n.toNat) ++ f.lines.drop f.n.toNat } :=
  h.withUsedLines (setLengths_length _ _ _ _ _ _) (lineOk_of_mem_setLengths h.lineOk_of_mem_used _ _ _ _ _)

end

/-! ### HB units -/

theorem cascade_length (c : Cfg) (d : Draw) (sec : Nat) (l : List HbSection) (v : F) :
    (cascade c d sec l v).1.length = l.length := by
  induction l generalizing sec v with
  | nil => rfl
  | cons h l ih => simp [cascade, ih]

theorem hbOk.step {c : Cfg} {h : HbUnit} (hok : hbOk c h) (d : Draw) (v : F) : hbOk c (h.step c d v).1 := by
  unfold hbOk at hok ⊢
  rw [← hok]
  show (_ ++ _ : List HbSection).length = _
  rw [List.length_append, cascade_length, cascade_length, ← List.length_append, List.take_append_drop]

end Sys2Proof.Machine

/-! SUPPORT. The invariant `Sound` under every update of the state, and the outcome every command, every step and every run has
from a sound state: a next state, and that one sound. -/

namespace Sys2Proof.Machine

/-! ### What the invariant says of the sizes -/

theorem Sound.dlMaxLog2_le {s : State} (h : Sound s) : s.cfg.dlMaxLog2 ≤ 31 := by
  have := h.cfg
  simp only [Cfg.ok, Bool.and_eq_true, decide_eq_true_eq] at this
  omega

theorem Sound.fdnLineLog2_le {s : State} (h : Sound s) : s.cfg.fdnLineLog2 ≤ 31 := by
  have := h.cfg
  simp only [Cfg.ok, Bool.and_eq_true, decide_eq_true_eq] at this
  omega

theorem Sound.fdnNCap_le {s : State} (h : Sound s) : s.cfg.fdnNCap ≤ 16 := by
  have := h.cfg
  simp only [Cfg.ok, Bool.and_eq_true, decide_eq_true_eq] at this
  omega

/-! ### The state after reset -/

theorem lineOk_fdnUnit_reset (m : Nat) : ∀ a ∈ FdnUnit.reset.lines, lineOk m a :=
  fun _ ha => List.eq_of_mem_replicate ha ▸ lineOk_fresh m

/-- The block of a legal configuration is sound after reset (70_reset_and_hazards.md R341). -/
theorem sound_resetOf {n : UnitCounts} {c : Cfg} (hn : n.ok = true) (hc : c.ok = true) : Sound (State.resetOf n c) where
  cfg := hc
  counts := by simpa [State.counts, State.resetOf] using hn
  flags := ⟨.inl rfl, .inl rfl, fun h : SysRegs.reset.inblk = 1 => absurd h (by decide)⟩
  rate := ⟨.inl rfl, fun h : SysRegs.reset.mode = 1 => absurd h (by decide)⟩
  errors := ⟨Nat.zero_le 6, iff_of_true rfl rfl⟩
  osc := fun _ ho => List.eq_of_mem_replicate ho ▸ ⟨Nat.zero_le 1, .inl ⟨rfl, rfl, rfl⟩⟩
  dl := fun _ hl => List.eq_of_mem_replicate hl ▸ ⟨Nat.zero_le 2, Nat.zero_le _, Memory.wf_nil, memFits_nil _⟩
  fdn := fun _ hf => List.eq_of_mem_replicate hf ▸
    ⟨Nat.zero_le _, List.length_replicate, List.length_replicate, lineOk_fdnUnit_reset _⟩
  hb := fun _ hh => List.eq_of_mem_replicate hh ▸ List.length_replicate

/-! ### The updates of the state -/

section
variable {s : State}

/-- Neither the port nor the model's count of inputs is part of the invariant. -/
theorem Sound.withPort (h : Sound s) (p : Port) (n : Nat) : Sound { s with port := p, draws := n } :=
  ⟨h.cfg, h.counts, h.flags, h.rate, h.errors, h.osc, h.dl, h.fdn, h.hb⟩

theorem Sound.give (h : Sound s) (r : Response) : Sound (s.give r) := h.withPort _ _

theorem Sound.taking (h : Sound s) (rest : List PortInput) : Sound (s.taking rest) := h.withPort _ _

theorem Sound.counted (h : Sound s) : Sound s.counted := h.withPort _ _

theorem Sound.resetPin (h : Sound s) : Sound s.resetPin := (sound_resetOf h.counts h.cfg).withPort _ _

/-- The flags and the sample rate written, the error registers kept. -/
theorem Sound.withFlags (h : Sound s) (mode inblk : U32)
    (hf : flagsOk { s.sys with mode := mode, inblk := inblk }) (hr : mode = 1 → sampleRateOk s.sys.fs = true) :
    Sound { s with sys := { s.sys with mode := mode, inblk := inblk } } :=
  ⟨h.cfg, h.counts, hf, ⟨h.rate.1, hr⟩, h.errors, h.osc, h.dl, h.fdn, h.hb⟩

/-- A sample rate SYS.SETSR takes, with the increments rederived from it (46_system.md R281). -/
theorem Sound.withSampleRate (h : Sound s) {fs : F} (hfs : sampleRateOk fs = true) (d : Draw) :
    Sound { s with sys := { s.sys with fs := fs }, osc := rederiveIncs s.cfg.num d fs 0 s.osc } where
  cfg := h.cfg
  counts := by simpa [State.counts, rederiveIncs_length] using h.counts
  flags := h.flags
  rate := ⟨.inr hfs, fun _ => hfs⟩
  errors := h.errors
  osc := oscOk_of_mem_rederiveIncs h.osc 0
  dl := h.dl
  fdn := h.fdn
  hb := h.hb

theorem errorsOk_refuse (code : Status) (hcode : code ≠ .ok) : errorsOk (refuse code s).sys := by
  refine ⟨?_, iff_of_false (lasterrOf_ne_zero hcode) (errcntNext_ne_zero _)⟩
  show (lasterrOf code).toNat ≤ 6
  rw [lasterrOf_toNat]
  cases code <;> decide

theorem Sound.refuse (h : Sound s) {code : Status} (hcode : code ≠ .ok) : Sound (refuse code s) :=
  ⟨h.cfg, h.counts, h.flags, h.rate, errorsOk_refuse code hcode, h.osc, h.dl, h.fdn, h.hb⟩

theorem Sound.updBq (h : Sound s) (u : Nat) (f : BqUnit → BqUnit) : Sound (s.updBq u f) where
  cfg := h.cfg
  counts := by rw [State.updBq_counts]; exact h.counts
  flags := h.flags
  rate := h.rate
  errors := h.errors
  osc := h.osc
  dl := h.dl
  fdn := h.fdn
  hb := h.hb

theorem Sound.updOsc (h : Sound s) {u : Nat} {f : OscUnit → OscUnit}
    (hf : ∀ o, oscOk s.cfg.num s.sys.fs o → oscOk s.cfg.num s.sys.fs (f o)) : Sound (s.updOsc u f) where
  cfg := h.cfg
  counts := by rw [State.updOsc_counts]; exact h.counts
  flags := h.flags
  rate := h.rate
  errors := h.errors
  osc := forall_mem_modify h.osc fun o ho => hf o (h.osc o (List.mem_of_getElem? ho))
  dl := h.dl
  fdn := h.fdn
  hb := h.hb

theorem Sound.updDl (h : Sound s) {u : Nat} {f : DlUnit → DlUnit}
    (hf : ∀ l, dlOk s.cfg.dlMaxLog2 l → dlOk s.cfg.dlMaxLog2 (f l)) : Sound (s.updDl u f) where
  cfg := h.cfg
  counts := by rw [State.updDl_counts]; exact h.counts
  flags := h.flags
  rate := h.rate
  errors := h.errors
  osc := h.osc
  dl := forall_mem_modify h.dl fun l hl => hf l (h.dl l (List.mem_of_getElem? hl))
  fdn := h.fdn
  hb := h.hb

theorem Sound.updFdn (h : Sound s) {u : Nat} {f : FdnUnit → FdnUnit}
    (hf : ∀ x, fdnOk s.cfg x → fdnOk s.cfg (f x)) : Sound (s.updFdn u f) where
  cfg := h.cfg
  counts := by rw [State.updFdn_counts]; exact h.counts
  flags := h.flags
  rate := h.rate
  errors := h.errors
  osc := h.osc
  dl := h.dl
  fdn := forall_mem_modify h.fdn fun x hx => hf x (h.fdn x (List.mem_of_getElem? hx))
  hb := h.hb

theorem Sound.updHb (h : Sound s) {u : Nat} {f : HbUnit → HbUnit}
    (hf : ∀ x, hbOk s.cfg x → hbOk s.cfg (f x)) : Sound (s.updHb u f) where
  cfg := h.cfg
  counts := by rw [State.updHb_counts]; exact h.counts
  flags := h.flags
  rate := h.rate
  errors := h.errors
  osc := h.osc
  dl := h.dl
  fdn := h.fdn
  hb := forall_mem_modify h.hb fun x hx => hf x (h.hb x (List.mem_of_getElem? hx))

/-- A register that REG.WR may write takes a legal value (46_system.md R291). -/
theorem Sound.writeReg (h : Sound s) {r : Reg} {v : U32} (hw : writable (accessOf r) = true)
    (hv : valueLegal (accessOf r) v = true) : Sound (writeReg s r v) := by
  cases r with
  | sys r => exact h
  | bq u r => exact h.updBq _ _
  | osc u r => exact h.updOsc fun o ho => ho.put hw hv
  | dl u r => exact h.updDl fun l hl => hl.put hw hv
  | fdn u r => exact h.updFdn fun f hf => hf.put hw v
  | matrix u i j => exact h.updFdn fun f hf => hf.setMatrix _ v
  | line u j r => exact h.updFdn fun f hf => hf.putLine j r v
  | bdly u => exact h.updHb fun x hx => hx
  | sect u sec r => exact h.updHb fun x hx => by simpa [hbOk] using hx

end

/-! ### Outcomes that are sound next states -/

/-- The outcome is a next state, and that state is sound. -/
def SoundOut (o : Out) : Prop := ∃ t, o = .next t ∧ Sound t

theorem SoundOut.next {s : State} (h : Sound s) : SoundOut (.next s) := ⟨s, rfl, h⟩

theorem SoundOut.respond {s : State} (h : Sound s) (r0 r1 : U32) : SoundOut (respond r0 r1 s) := .next (h.give _)

theorem SoundOut.refused {s : State} (h : Sound s) {code : Status} (hcode : code ≠ .ok) : SoundOut (refused code s) :=
  .next (h.refuse hcode)

theorem SoundOut.countedOut {o : Out} (h : SoundOut o) : SoundOut (countedOut o) := by
  obtain ⟨t, rfl, ht⟩ := h
  exact .next ht.counted

section
variable {s : State}

theorem Sound.check (h : Sound s) {good : Bool} {code : Status} {go : Out} (hcode : code ≠ .ok)
    (hgo : good = true → SoundOut go) : SoundOut (check good code s go) := by
  cases good with
  | true => exact hgo rfl
  | false => exact .refused h hcode

theorem Sound.withUnit (h : Sound s) {α : Type} {units : List α} {u : Nat} {go : α → Out}
    (hgo : ∀ x, units[u]? = some x → SoundOut (go x)) : SoundOut (withUnit units u s go) := by
  rcases withUnit_cases (rfl : Machine.withUnit units u s go = _) with ⟨x, hx, e⟩ | ⟨-, e⟩
  · exact e ▸ hgo x hx
  · exact e ▸ .refused h (by decide)

theorem Sound.withReg (h : Sound s) {cls unit reg : Nat} {go : Reg → Out} (hgo : ∀ r, SoundOut (go r)) :
    SoundOut (withReg s cls unit reg go) := by
  rcases withReg_cases (rfl : Machine.withReg s cls unit reg go = _) with ⟨-, r, -, e⟩ | ⟨-, -, e⟩ | ⟨-, e⟩
  · exact e ▸ hgo r
  · exact e ▸ .refused h (by decide)
  · exact e ▸ .refused h (by decide)

/-! ### The commands, family by family -/

theorem bqSetter_soundOut (h : Sound s) (mode : BqMode) (readsFs : Bool) (u : Nat) (f q g : F) :
    SoundOut (bqSetter mode readsFs u f q g s) :=
  h.withUnit fun _ _ => h.check (by decide) fun _ => h.check (by decide) fun _ => .respond (h.updBq _ _) _ _

/-- The sample rate is one SYS.SETSR took, once it is not `+0.0` (10_state.md R24). -/
theorem Sound.sampleRateOk_of_fsConfigured (h : Sound s) (hfs : fsConfigured s = true) : sampleRateOk s.sys.fs = true := by
  obtain ⟨hzero | hok, -⟩ := h.rate
  · rw [fsConfigured, hzero] at hfs
    exact absurd hfs (by decide)
  · exact hok

theorem execSysSetsr_soundOut (h : Sound s) (fs : F) : SoundOut (execSysSetsr fs s) :=
  h.check (by decide) fun _ => h.check (by decide) fun hfs => .respond (h.withSampleRate hfs _) _ _

theorem execSysRun_soundOut (h : Sound s) : SoundOut (execSysRun s) :=
  h.check (by decide) fun _ => h.check (by decide) fun hfs => by
    obtain ⟨-, hinblk, -⟩ := h.flags
    exact .respond (h.withFlags 1 _ ⟨.inr rfl, hinblk, fun _ => rfl⟩ fun _ => h.sampleRateOk_of_fsConfigured hfs) _ _

theorem execSysSetup_soundOut (h : Sound s) : SoundOut (execSysSetup s) :=
  h.check (by decide) fun _ => h.check (by decide) fun hblk => by
    obtain ⟨-, hinblk, -⟩ := h.flags
    have hout : s.sys.inblk ≠ 1 := by simpa [inBlock] using hblk
    exact .respond (h.withFlags 0 _ ⟨.inl rfl, hinblk, fun e => absurd e hout⟩ fun e => absurd e (by decide)) _ _

theorem execBlkBegin_soundOut (h : Sound s) : SoundOut (execBlkBegin s) :=
  h.check (by decide) fun hrun => h.check (by decide) fun _ => by
    have hmode : s.sys.mode = 1 := of_decide_eq_true hrun
    obtain ⟨-, hrate⟩ := h.rate
    exact .respond (h.withFlags _ 1 ⟨.inr hmode, .inr rfl, fun _ => hmode⟩ hrate) _ _

theorem execBlkEnd_soundOut (h : Sound s) : SoundOut (execBlkEnd s) :=
  h.check (by decide) fun hrun => h.check (by decide) fun _ => by
    have hmode : s.sys.mode = 1 := of_decide_eq_true hrun
    obtain ⟨-, hrate⟩ := h.rate
    exact .respond (h.withFlags _ 0 ⟨.inr hmode, .inl rfl, fun _ => hmode⟩ hrate) _ _

theorem execRegRd_soundOut (h : Sound s) (cls unit reg : Nat) : SoundOut (execRegRd cls unit reg s) :=
  h.withReg fun _ => .respond h _ _

theorem execRegWr_soundOut (h : Sound s) (cls unit reg : Nat) (v : U32) : SoundOut (execRegWr cls unit reg v s) :=
  h.withReg fun _ => h.check (by decide) fun hw => h.check (by decide) fun _ => h.check (by decide) fun hv =>
    .respond (h.writeReg hw hv) _ _

theorem execBqProc_soundOut (h : Sound s) (u : Nat) (x : F) : SoundOut (execBqProc u x s) :=
  h.withUnit fun _ _ => .respond (h.updBq _ _) _ _

theorem execOscProc_soundOut (h : Sound s) (u : Nat) : SoundOut (execOscProc u s) :=
  h.withUnit fun _ _ => .respond (h.updOsc fun _ ho => ho.withPhase _) _ _

theorem execOscSetf_soundOut (h : Sound s) (u : Nat) (f : F) : SoundOut (execOscSetf u f s) :=
  h.withUnit fun _ _ => h.check (by decide) fun _ => .respond (h.updOsc fun _ ho => ho.withFreq _ _) _ _

/-- DL.PROC: the unit's length fits its memory, so the model's fault is out of reach (log 15). -/
theorem execDlProc_soundOut (h : Sound s) (u : Nat) (x : F) : SoundOut (execDlProc u x s) :=
  h.withUnit fun l hl => by
    obtain ⟨-, hlen, -⟩ := h.dl l (List.mem_of_getElem? hl)
    rw [if_neg (Nat.not_lt.2 hlen)]
    exact .respond (h.updDl fun _ _ => dlOk.proc h.dlMaxLog2_le (h.dl l (List.mem_of_getElem? hl)) _ _ _) _ _

theorem execDlResize_soundOut (h : Sound s) (u : Nat) (d : F) : SoundOut (execDlResize u d s) :=
  h.withUnit fun _ _ => h.check (by decide) fun _ => h.check (by decide) fun _ => h.check (by decide) fun hlen => by
    have hm := h.dlMaxLog2_le
    exact .respond (h.updDl fun _ hl => hl.resized hm (clog2_le (magUnits_le_of_lengthOk hm hlen))) _ _

theorem execDlSetdelay_soundOut (h : Sound s) (u : Nat) (d : F) : SoundOut (execDlSetdelay u d s) :=
  h.withUnit fun _ _ => h.check (by decide) fun _ => .respond (h.updDl fun _ hl => hl.withFixdly _) _ _

theorem execDlSetmoddelay_soundOut (h : Sound s) (u : Nat) (d : F) : SoundOut (execDlSetmoddelay u d s) :=
  h.withUnit fun _ _ => h.check (by decide) fun _ => .respond (h.updDl fun _ hl => hl.withModdly _) _ _

theorem execFdnProc_soundOut (h : Sound s) (u : Nat) (x : F) : SoundOut (execFdnProc u x s) :=
  h.withUnit fun f hf =>
    .respond (h.updFdn fun _ _ => (h.fdn f (List.mem_of_getElem? hf)).proc h.fdnLineLog2_le _ _ _) _ _

theorem execFdnResize_soundOut (h : Sound s) (u : Nat) (n : U32) : SoundOut (execFdnResize u n s) :=
  h.withUnit fun _ _ => h.check (by decide) fun _ => h.check (by decide) fun hn =>
    .respond (h.updFdn fun _ hf => hf.resized h.fdnNCap_le (of_decide_eq_true hn) _ _) _ _

theorem execFdnSetlen_soundOut (h : Sound s) (u : Nat) (longest : F) : SoundOut (execFdnSetlen u longest s) :=
  h.withUnit fun _ _ => h.check (by decide) fun _ => h.check (by decide) fun _ =>
    .respond (h.updFdn fun _ hf => hf.setLengths _ _ _) _ _

theorem execHbProc_soundOut (h : Sound s) (u : Nat) (x : F) : SoundOut (execHbProc u x s) :=
  h.withUnit fun b hb => .respond (h.updHb fun _ _ => hbOk.step (h.hb b (List.mem_of_getElem? hb)) _ _) _ _

theorem execHbUp_soundOut (h : Sound s) (u : Nat) (x : F) : SoundOut (execHbUp u x s) :=
  h.withUnit fun b hb =>
    .respond (h.updHb fun _ _ => hbOk.step (hbOk.step (h.hb b (List.mem_of_getElem? hb)) _ _) _ _) _ _

/-! ### Every command, every step -/

/-- From a sound state every command ends in a sound next state (60_exceptions.md R301). -/
theorem exec_soundOut (h : Sound s) (i : Instr) : SoundOut (exec i s) := by
  cases i with
  | sysSetsr fs => exact execSysSetsr_soundOut h fs
  | sysRun => exact execSysRun_soundOut h
  | sysSetup => exact execSysSetup_soundOut h
  | blkBegin => exact execBlkBegin_soundOut h
  | blkEnd => exact execBlkEnd_soundOut h
  | regRd cls u reg => exact execRegRd_soundOut h cls u reg
  | regWr cls u reg v => exact execRegWr_soundOut h cls u reg v
  | bqProc u x => exact execBqProc_soundOut h u x
  | bqSetlp | bqSethp | bqSetbp | bqSetnotch | bqSetloshelf | bqSethishelf | bqSetpeak | bqSetap | bqSetdiff
  | bqSetonepole => exact bqSetter_soundOut h _ _ _ _ _ _
  | oscProc u => exact execOscProc_soundOut h u
  | oscSetf u f => exact execOscSetf_soundOut h u f
  | dlProc u x => exact execDlProc_soundOut h u x
  | dlResize u d => exact execDlResize_soundOut h u d
  | dlSetdelay u d => exact execDlSetdelay_soundOut h u d
  | dlSetmoddelay u d => exact execDlSetmoddelay_soundOut h u d
  | fdnProc u x => exact execFdnProc_soundOut h u x
  | fdnResize u n => exact execFdnResize_soundOut h u n
  | fdnSetlen u t => exact execFdnSetlen_soundOut h u t
  | hbProc u x => exact execHbProc_soundOut h u x
  | hbUp u x => exact execHbUp_soundOut h u x

theorem perform_soundOut (h : Sound s) (w : CommandWord) : SoundOut (perform w s) := by
  cases hd : decode w with
  | command i => exact perform_of_command hd s ▸ exec_soundOut h i
  | illegal why => exact perform_of_illegal hd s ▸ .refused h (by decide)

/-- From a sound state every step ends in a sound next state (46_system.md R287, 60_exceptions.md R301). -/
theorem step_soundOut (h : Sound s) : SoundOut (step s) := by
  cases hin : s.port.inputs with
  | nil => exact step_of_nil hin ▸ .next h
  | cons x rest =>
    cases x with
    | reset => exact step_of_reset hin ▸ .next (h.taking rest).resetPin.counted
    | command w => exact step_of_command hin ▸ (perform_soundOut (h.taking rest) w).countedOut

end

end Sys2Proof.Machine

/-! SUPPORT. Runs of the block from a sound state: they never stop, and each input is taken and answered in its turn. -/

namespace Sys2Proof.Machine

theorem core_run_succ {s t : State} (h : step s = .next t) (k : Nat) : core.run (k + 1) s = core.run k t := by
  have hcore : core.step s = .next t := h
  simp only [Host.Core.run, hcore]

/-- A run of any length from a sound state ends in a sound next state (60_exceptions.md R301). -/
theorem run_soundOut {s : State} (h : Sound s) (k : Nat) : SoundOut (core.run k s) := by
  induction k generalizing s with
  | zero => exact .next h
  | succ k ih =>
    obtain ⟨t, hstep, ht⟩ := step_soundOut h
    exact core_run_succ hstep k ▸ ih ht

/-- A step takes the first input off the port and gives as many responses as it takes command words (00_scope.md R8). -/
theorem step_answers {s t : State} {x : PortInput} {rest : List PortInput} (hin : s.port.inputs = x :: rest)
    (h : step s = .next t) : t.port.inputs = rest ∧
      ∃ rs, t.port.outputs = rs ++ s.port.outputs ∧ rs.length + commandCount rest = commandCount (x :: rest) := by
  obtain ⟨on_command, on_reset⟩ := oneResponsePerCommand s t h
  cases x with
  | command w =>
    obtain ⟨hrest, r, hout⟩ := on_command w rest hin
    exact ⟨hrest, [r], hout, Nat.add_comm 1 _⟩
  | reset =>
    have hport := on_reset rest hin
    exact ⟨by rw [hport], [], by rw [hport]; rfl, Nat.zero_add _⟩

/-- A run as long as the inputs takes them all and answers every command word among them (00_scope.md R8, R9). -/
theorem run_inputs_answers {l : List PortInput} {s : State} (h : Sound s) (hin : s.port.inputs = l) :
    ∃ t rs, core.run l.length s = .next t ∧ t.port.inputs = [] ∧ t.port.outputs = rs ++ s.port.outputs ∧
      rs.length = commandCount l := by
  induction l generalizing s with
  | nil => exact ⟨s, [], rfl, hin, rfl, rfl⟩
  | cons x rest ih =>
    obtain ⟨s', hstep, hs'⟩ := step_soundOut h
    obtain ⟨hrest, rs₁, hout₁, hlen₁⟩ := step_answers hin hstep
    obtain ⟨t, rs₂, hrun, hnone, hout₂, hlen₂⟩ := ih hs' hrest
    refine ⟨t, rs₂ ++ rs₁, ?_, hnone, ?_, ?_⟩
    · rw [List.length_cons, core_run_succ hstep, hrun]
    · rw [hout₂, hout₁, List.append_assoc]
    · rw [List.length_append, hlen₂, Nat.add_comm, hlen₁]

/-- Settles O11: a sound state steps to a sound state, by induction on the length of the run and on the inputs. -/
theorem runAnswersEveryCommand : Obligations.RunAnswersEveryCommand :=
  fun _ h => ⟨run_soundOut h, run_inputs_answers h rfl⟩

end Sys2Proof.Machine

/-! SUPPORT. What every accepted command writes, said once as the relation `Written`; from it, which commands can change a given
register or delay memory (10_state.md R25, R28, R29, R31, R32, R34, R41). -/

namespace Sys2Proof.Machine

/-! ### What an accepted command writes -/

/-- `Written i s s'`: accepted from `s`, command `i` makes `s'` of it before its response is given. Where no statement on writers
turns on the values (a unit's new coefficients, a memory after its own PROC or RESIZE), they are not fixed. -/
inductive Written : Instr → State → State → Prop
  | sysSetsr {s : State} (fs : F) : Written (.sysSetsr fs) s
      { s with sys := { s.sys with fs := fs }, osc := rederiveIncs s.cfg.num s.draw fs 0 s.osc }
  | sysRun {s : State} : Written .sysRun s { s with sys := { s.sys with mode := 1 } }
  | sysSetup {s : State} : Written .sysSetup s { s with sys := { s.sys with mode := 0 } }
  | blkBegin {s : State} : Written .blkBegin s { s with sys := { s.sys with inblk := 1 } }
  | blkEnd {s : State} : Written .blkEnd s { s with sys := { s.sys with inblk := 0 } }
  | regRd {s : State} (cls u reg : Nat) : Written (.regRd cls u reg) s s
  | regWr {s : State} (cls u reg : Nat) (v : U32) {r : Reg} (hr : regAt s cls u reg = some r)
      (hw : writable (accessOf r) = true) (hout : s.sys.inblk ≠ 1) : Written (.regWr cls u reg v) s (writeReg s r v)
  | bqProc {s : State} (u : Nat) (x y : F) : Written (.bqProc u x) s (s.updBq u (fun b => b.advance x y))
  | bqSetter {i : Instr} {s : State} (hi : i.opcode ∈ bqSetters) (hout : s.sys.inblk ≠ 1) (u : Nat) (c : BqCoeffs) :
      Written i s (s.updBq u (fun b => b.withCoeffs c))
  | oscProc {s : State} {u : Nat} {o : OscUnit} (ho : s.osc[u]? = some o) : Written (.oscProc u) s
      (s.updOsc u (fun o' => { o' with phase := o.phase + o.inc }))
  | oscSetf {s : State} (u : Nat) (f : F) : Written (.oscSetf u f) s
      (s.updOsc u (fun o => { o with freq := f, inc := incOf s.cfg.num s.draw f s.sys.fs }))
  | dlProc {s : State} (u : Nat) (x : F) (f : DlUnit → DlUnit) : Written (.dlProc u x) s (s.updDl u f)
  | dlResize {s : State} (u : Nat) (d : F) (f : DlUnit → DlUnit) : Written (.dlResize u d) s (s.updDl u f)
  | dlSetdelay {s : State} (u : Nat) (d : F) (v : U32) : Written (.dlSetdelay u d) s
      (s.updDl u (fun l => { l with fixdly := v }))
  | dlSetmoddelay {s : State} (u : Nat) (d v : F) : Written (.dlSetmoddelay u d) s
      (s.updDl u (fun l => { l with moddly := v }))
  | fdnProc {s : State} (u : Nat) (x : F) (f : FdnUnit → FdnUnit) : Written (.fdnProc u x) s (s.updFdn u f)
  | fdnResize {s : State} (u : Nat) (n : U32) (f : FdnUnit → FdnUnit) : Written (.fdnResize u n) s (s.updFdn u f)
  | fdnSetlen {s : State} (u : Nat) (longest : F) (nm : Num) (d : Draw) (t : F) : Written (.fdnSetlen u longest) s
      (s.updFdn u (fun f =>
        { f with lines := setLengths nm d f.ratio 0 t (f.lines.take f.n.toNat) ++ f.lines.drop f.n.toNat }))
  | hbProc {s : State} (u : Nat) (x : F) (f : HbUnit → HbUnit) : Written (.hbProc u x) s (s.updHb u f)
  | hbUp {s : State} (u : Nat) (x : F) (f : HbUnit → HbUnit) : Written (.hbUp u x) s (s.updHb u f)

/-- Where the outcome is a next state, that is the refused `s`, or a state of `W` with a response given. -/
def RefusesOr (W : State → Prop) (s : State) (o : Out) : Prop :=
  ∀ t, o = .next t → (∃ code, t = refuse code s) ∨ ∃ s' r, W s' ∧ t = s'.give r

section
variable {W : State → Prop} {s : State}

theorem RefusesOr.respond {s' : State} (h : W s') (r0 r1 : U32) : RefusesOr W s (respond r0 r1 s') :=
  fun _ ht => .inr ⟨s', _, h, respond_next ht⟩

theorem RefusesOr.refused (code : Status) : RefusesOr W s (refused code s) := fun _ ht => .inl ⟨code, refused_next ht⟩

theorem RefusesOr.fault (f : Fault) : RefusesOr W s (.fault f) := fun _ ht => by cases ht

theorem RefusesOr.check {good : Bool} {code : Status} {go : Out} (hgo : good = true → RefusesOr W s go) :
    RefusesOr W s (check good code s go) := by
  cases good with
  | true => exact hgo rfl
  | false => exact .refused code

theorem RefusesOr.withUnit {α : Type} {units : List α} {u : Nat} {go : α → Out}
    (hgo : ∀ x, units[u]? = some x → RefusesOr W s (go x)) : RefusesOr W s (withUnit units u s go) := by
  rcases withUnit_cases (rfl : Machine.withUnit units u s go = _) with ⟨x, hx, e⟩ | ⟨-, e⟩
  · exact e ▸ hgo x hx
  · exact e ▸ .refused _

theorem RefusesOr.withReg {cls unit reg : Nat} {go : Reg → Out}
    (hgo : ∀ r, regAt s cls unit reg = some r → RefusesOr W s (go r)) : RefusesOr W s (withReg s cls unit reg go) := by
  rcases withReg_cases (rfl : Machine.withReg s cls unit reg go = _) with ⟨-, r, hr, e⟩ | ⟨-, -, e⟩ | ⟨-, e⟩
  · exact e ▸ hgo r hr
  · exact e ▸ .refused _
  · exact e ▸ .refused _

end

theorem inblk_ne_one_of_not_inBlock {s : State} (h : (!inBlock s) = true) : s.sys.inblk ≠ 1 := by
  simpa [inBlock] using h

theorem bqSetter_refusesOr {i : Instr} (hi : i.opcode ∈ bqSetters) (mode : BqMode) (readsFs : Bool) (u : Nat) (f q g : F)
    (s : State) : RefusesOr (Written i s) s (bqSetter mode readsFs u f q g s) :=
  .withUnit fun _ _ => .check fun hout => .check fun _ =>
    .respond (.bqSetter hi (inblk_ne_one_of_not_inBlock hout) _ _) _ _

/-- Every command that ends in a next state is refused, or writes what `Written` says and answers. -/
theorem exec_refusesOr (i : Instr) (s : State) : RefusesOr (Written i s) s (exec i s) := by
  cases i with
  | sysSetsr fs => exact .check fun _ => .check fun _ => .respond (.sysSetsr fs) _ _
  | sysRun => exact .check fun _ => .check fun _ => .respond .sysRun _ _
  | sysSetup => exact .check fun _ => .check fun _ => .respond .sysSetup _ _
  | blkBegin => exact .check fun _ => .check fun _ => .respond .blkBegin _ _
  | blkEnd => exact .check fun _ => .check fun _ => .respond .blkEnd _ _
  | regRd cls u reg => exact .withReg fun _ _ => .respond (.regRd cls u reg) _ _
  | regWr cls u reg v =>
    exact .withReg fun _ hr => .check fun hw => .check fun hout => .check fun _ =>
      .respond (.regWr cls u reg v hr hw (inblk_ne_one_of_not_inBlock hout)) _ _
  | bqProc u x => exact .withUnit fun _ _ => .respond (.bqProc u x _) _ _
  | bqSetlp | bqSethp | bqSetbp | bqSetnotch | bqSetloshelf | bqSethishelf | bqSetpeak | bqSetap | bqSetdiff
  | bqSetonepole => exact bqSetter_refusesOr (by simp [Instr.opcode, bqSetters]) _ _ _ _ _ _ s
  | oscProc u => exact .withUnit fun _ ho => .respond (.oscProc ho) _ _
  | oscSetf u f => exact .withUnit fun _ _ => .check fun _ => .respond (.oscSetf u f) _ _
  | dlProc u x =>
    refine .withUnit fun l _ => ?_
    split
    · exact .fault _
    · exact .respond (.dlProc u x _) _ _
  | dlResize u d =>
    exact .withUnit fun _ _ => .check fun _ => .check fun _ => .check fun _ => .respond (.dlResize u d _) _ _
  | dlSetdelay u d => exact .withUnit fun _ _ => .check fun _ => .respond (.dlSetdelay u d _) _ _
  | dlSetmoddelay u d => exact .withUnit fun _ _ => .check fun _ => .respond (.dlSetmoddelay u d _) _ _
  | fdnProc u x => exact .withUnit fun _ _ => .respond (.fdnProc u x _) _ _
  | fdnResize u n => exact .withUnit fun _ _ => .check fun _ => .check fun _ => .respond (.fdnResize u n _) _ _
  | fdnSetlen u t => exact .withUnit fun _ _ => .check fun _ => .check fun _ => .respond (.fdnSetlen u t _ _ _) _ _
  | hbProc u x => exact .withUnit fun _ _ => .respond (.hbProc u x _) _ _
  | hbUp u x => exact .withUnit fun _ _ => .respond (.hbUp u x _) _ _

/-- A command that changes what a refusal leaves alone was accepted (60_exceptions.md R302). -/
theorem written_of_changed {i : Instr} {s t : State} {α : Type} (view : State → α)
    (hrefuse : ∀ code, view (refuse code s) = view s) (h : exec i s = .next t) (hne : view t ≠ view s) :
    ∃ s' r, Written i s s' ∧ t = s'.give r := by
  rcases exec_refusesOr i s t h with ⟨code, rfl⟩ | hw
  · exact absurd (hrefuse code) hne
  · exact hw

/-! ### What the parts of a unit keep -/

@[simp] theorem writeReg_sys (s : State) (r : Reg) (v : U32) : (writeReg s r v).sys = s.sys := by cases r <;> rfl

/-- A sample processed keeps the coefficients (10_state.md R28). -/
theorem BqUnit.get_advance {r : BqReg} (hr : r ∈ [BqReg.a0, .a1, .a2, .b1, .b2]) (b : BqUnit) (x y : F) :
    (b.advance x y).get r = b.get r := by
  simp only [List.mem_cons, List.not_mem_nil, or_false] at hr
  rcases hr with rfl | rfl | rfl | rfl | rfl <;> rfl

/-- No setter writes the history (10_state.md R29). -/
theorem BqUnit.get_withCoeffs {r : BqReg} (hr : r ∈ [BqReg.x1, .x2, .y1, .y2]) (b : BqUnit) (c : BqCoeffs) :
    (b.withCoeffs c).get r = b.get r := by
  simp only [List.mem_cons, List.not_mem_nil, or_false] at hr
  rcases hr with rfl | rfl | rfl | rfl <;> rfl

/-- INC cannot be written by REG.WR (10_state.md R30). -/
theorem OscUnit.inc_put {v : Nat} {r : OscReg} (hw : writable (accessOf (.osc v r)) = true) (o : OscUnit) (x : U32) :
    (o.put r x).inc = o.inc := by
  cases r with
  | inc => exact absurd hw (by simp [writable, accessOf])
  | phase | freq | wave => rfl

@[simp] theorem DlUnit.put_buf (l : DlUnit) (r : DlReg) (v : U32) : (l.put r v).buf = l.buf := by cases r <;> rfl

@[simp] theorem FdnUnit.put_lines (f : FdnUnit) (r : FdnReg) (v : U32) : (f.put r v).lines = f.lines := by cases r <;> rfl

@[simp] theorem FdnLine.put_buf (l : FdnLine) (r : LineReg) (v : U32) : (l.put r v).buf = l.buf := by cases r <;> rfl

/-- FDN.SETLEN keeps the memory of every line (44_fdn.md R244). -/
theorem setLengths_map_buf (nm : Num) (d : Draw) (ratio : F) (j : Nat) (t : F) (l : List FdnLine) :
    (setLengths nm d ratio j t l).map (fun a => a.buf) = l.map (fun a => a.buf) := by
  induction l generalizing j t with
  | nil => rfl
  | cons a l ih => simp [setLengths, ih]

theorem readAt_map {α β : Type} (l : List α) (j : Nat) (g : α → β) (f : β → U32) :
    readAt (l.map g) j f = readAt l j (fun x => f (g x)) := by
  cases hj : l[j]? <;> simp [readAt, hj]

/-- Lines with the same memories read the same samples. -/
theorem readAt_buf_congr {l l' : List FdnLine} (h : l'.map (fun a => a.buf) = l.map (fun a => a.buf)) (j k : Nat) :
    readAt l' j (fun a => memRead a.buf k) = readAt l j (fun a => memRead a.buf k) := by
  rw [← readAt_map l' j (fun a => a.buf) (fun m => memRead m k), h, readAt_map]

/-- An update of one unit that keeps what is read leaves every read as it was. -/
theorem readAt_modify_keeps {α : Type} {f : α → α} {g : α → U32} (h : ∀ x, g (f x) = g x) (l : List α) (u v : Nat) :
    readAt (l.modify u f) v g = readAt l v g := by
  rw [readAt_modify]
  simp only [h, ite_self]

/-! ### What REG.WR leaves alone -/

/-- REG.WR of a register that may be written keeps every INC (10_state.md R31). -/
theorem readReg_writeReg_inc {s : State} {r : Reg} (hw : writable (accessOf r) = true) (v : U32) (u : Nat) :
    readReg (writeReg s r v) (.osc u .inc) = readReg s (.osc u .inc) := by
  cases r with
  | osc w q => exact readAt_modify_keeps (fun o => OscUnit.inc_put hw o v) _ _ _
  | sys | bq | dl | fdn | matrix | line | bdly | sect => rfl

/-- Delay memories are not in the register space (20_memory.md R70). -/
theorem dlSample_writeReg (s : State) (r : Reg) (v : U32) (u k : Nat) :
    dlSample (writeReg s r v) u k = dlSample s u k := by
  cases r with
  | dl w q => exact readAt_modify_keeps (fun l => by rw [DlUnit.put_buf]) _ _ _
  | sys | bq | osc | fdn | matrix | line | bdly | sect => rfl

/-- Line memories are not in the register space (20_memory.md R70). -/
theorem lineSample_writeReg (s : State) (r : Reg) (v : U32) (u j k : Nat) :
    lineSample (writeReg s r v) u j k = lineSample s u j k := by
  cases r with
  | fdn w q => exact readAt_modify_keeps (fun f => by rw [FdnUnit.put_lines]) _ _ _
  | matrix w a b => exact readAt_modify_keeps (fun _ => by rfl) _ _ _
  | line w a q =>
    exact readAt_modify_keeps (fun f => readAt_modify_keeps (fun l => by rw [FdnLine.put_buf]) _ _ _) _ _ _
  | sys | bq | osc | dl | bdly | sect => rfl

/-! ### SYS and BQ registers -/

section
variable {i : Instr} {s s' : State}

theorem Written.mode_writer (h : Written i s s') (hne : s'.sys.mode ≠ s.sys.mode) : i = .sysRun ∨ i = .sysSetup := by
  cases h with
  | sysRun => exact .inl rfl
  | sysSetup => exact .inr rfl
  | regWr => exact absurd (by rw [writeReg_sys]) hne
  | _ => exact absurd rfl hne

theorem Written.inblk_writer (h : Written i s s') (hne : s'.sys.inblk ≠ s.sys.inblk) : i = .blkBegin ∨ i = .blkEnd := by
  cases h with
  | blkBegin => exact .inl rfl
  | blkEnd => exact .inr rfl
  | regWr => exact absurd (by rw [writeReg_sys]) hne
  | _ => exact absurd rfl hne

theorem Written.coefficient_writer (h : Written i s s') {u : Nat} {r : BqReg} (hr : r ∈ [BqReg.a0, .a1, .a2, .b1, .b2])
    (hne : readReg s' (.bq u r) ≠ readReg s (.bq u r)) :
    (i.opcode ∈ bqSetters ∨ i.opcode = .regWr) ∧ s.sys.inblk ≠ 1 := by
  cases h with
  | bqSetter hi hout => exact ⟨.inl hi, hout⟩
  | regWr _ _ _ _ _ _ hout => exact ⟨.inr rfl, hout⟩
  | bqProc w x y => exact absurd (readAt_modify_keeps (fun b => b.get_advance hr x y) _ _ _) hne
  | _ => exact absurd rfl hne

theorem Written.history_writer (h : Written i s s') {u : Nat} {r : BqReg} (hr : r ∈ [BqReg.x1, .x2, .y1, .y2])
    (hne : readReg s' (.bq u r) ≠ readReg s (.bq u r)) : i.opcode = .bqProc ∨ i.opcode = .regWr := by
  cases h with
  | bqProc => exact .inl rfl
  | regWr => exact .inr rfl
  | bqSetter _ _ w c => exact absurd (readAt_modify_keeps (fun b => b.get_withCoeffs hr c) _ _ _) hne
  | _ => exact absurd rfl hne

end

/-- Settles O21: a refusal leaves both flags, and of what an accepted command writes only four change one. -/
theorem flagsWrittenByFourCommands : Obligations.FlagsWrittenByFourCommands := by
  intro i s t h
  constructor <;> intro hne
  · obtain ⟨s', r, hw, rfl⟩ := written_of_changed (fun s => s.sys.mode) (fun _ => rfl) h hne
    exact hw.mode_writer hne
  · obtain ⟨s', r, hw, rfl⟩ := written_of_changed (fun s => s.sys.inblk) (fun _ => rfl) h hne
    exact hw.inblk_writer hne

/-- Settles O22: BQ.PROC keeps the coefficients, and the setters and REG.WR are accepted outside a block only. -/
theorem bqCoefficientWriters : Obligations.BqCoefficientWriters := by
  intro i s t u r h hr hne
  obtain ⟨s', rsp, hw, rfl⟩ := written_of_changed (fun s => readReg s (.bq u r)) (fun _ => rfl) h hne
  exact hw.coefficient_writer hr hne

/-- Settles O23: no setter writes the history. -/
theorem bqHistoryWriters : Obligations.BqHistoryWriters := by
  intro i s t u r h hr hne
  obtain ⟨s', rsp, hw, rfl⟩ := written_of_changed (fun s => readReg s (.bq u r)) (fun _ => rfl) h hne
  exact hw.history_writer hr hne

/-! ### OSC registers -/

section
variable {s : State} {u : Nat}

/-- After OSC.SETF a changed INC is that of the unit it names, for the frequency given (42_oscillator.md R192). -/
theorem inc_of_oscSetf {w : Nat} {f : F} {d : Draw} {fs : F} {s' : State}
    (hs' : s' = s.updOsc w (fun o => { o with freq := f, inc := incOf s.cfg.num d f fs }))
    (hne : readReg s' (.osc u .inc) ≠ readReg s (.osc u .inc)) (e : Draw) :
    readReg s' (.osc u .inc) = incOf s.cfg.num e (readReg s' (.osc u .freq)) fs := by
  subst hs'
  rw [readReg_updOsc_osc] at hne ⊢
  split at hne
  · cases hu : s.osc[u]? with
    | none => exact absurd (by rw [readAt_none hu, readReg, readAt_none hu]) hne
    | some o =>
      subst w
      rw [if_pos rfl, readReg_updOsc_osc, if_pos rfl, readAt_some hu, readAt_some hu]
      exact incOf_draw _ _ _ _ _
  · exact absurd rfl hne

/-- After SYS.SETSR every INC that changed is that of its unit's FREQ and the new sample rate (46_system.md R281). -/
theorem inc_of_rederiveIncs {fs : F} {d : Draw} {s' : State} (hs' : s'.osc = rederiveIncs s.cfg.num d fs 0 s.osc)
    (hne : readReg s' (.osc u .inc) ≠ readReg s (.osc u .inc)) (e : Draw) :
    readReg s' (.osc u .inc) = incOf s.cfg.num e (readReg s' (.osc u .freq)) fs := by
  have hget := rederiveIncs_getElem? s.cfg.num d fs s.osc 0 u
  rw [← hs'] at hget
  cases hu : s.osc[u]? with
  | none =>
    rw [hu, Option.map_none] at hget
    exact absurd (by rw [readReg, readReg, readAt_none hget, readAt_none hu]) hne
  | some o =>
    rw [hu, Option.map_some] at hget
    rw [readReg_osc hget, readReg_osc hget]
    exact incOf_draw _ _ _ _ _

/-- After OSC.PROC a changed PHASE is that of the unit it names, advanced by INC (42_oscillator.md R193). -/
theorem phase_of_oscProc {w : Nat} {o : OscUnit} (ho : s.osc[w]? = some o)
    (hne : readReg (s.updOsc w (fun o' => { o' with phase := o.phase + o.inc })) (.osc u .phase) ≠
      readReg s (.osc u .phase)) :
    w = u ∧ readReg (s.updOsc w (fun o' => { o' with phase := o.phase + o.inc })) (.osc u .phase) =
      readReg s (.osc u .phase) + readReg s (.osc u .inc) := by
  rw [readReg_updOsc_osc] at hne ⊢
  by_cases hwu : w = u
  · subst hwu
    rw [if_pos rfl, readAt_some ho, readReg_osc ho, readReg_osc ho]
    exact ⟨rfl, rfl⟩
  · exact absurd (if_neg hwu) hne

variable {i : Instr} {s' : State}

theorem Written.inc_writer (h : Written i s s') (hne : readReg s' (.osc u .inc) ≠ readReg s (.osc u .inc)) :
    (i.opcode = .oscSetf ∨ i.opcode = .sysSetsr) ∧
      ∀ d, readReg s' (.osc u .inc) = incOf s.cfg.num d (readReg s' (.osc u .freq)) (readReg s' (.sys .fs)) := by
  cases h with
  | oscSetf w f => exact ⟨.inl rfl, inc_of_oscSetf rfl hne⟩
  | sysSetsr fs => exact ⟨.inr rfl, inc_of_rederiveIncs rfl hne⟩
  | oscProc => exact absurd (readAt_modify_keeps (fun _ => by rfl) _ _ _) hne
  | regWr _ _ _ v _ hw => exact absurd (readReg_writeReg_inc hw v u) hne
  | _ => exact absurd rfl hne

theorem Written.phase_writer (h : Written i s s') (hne : readReg s' (.osc u .phase) ≠ readReg s (.osc u .phase)) :
    i.opcode = .regWr ∨
      (i = .oscProc u ∧ readReg s' (.osc u .phase) = readReg s (.osc u .phase) + readReg s (.osc u .inc)) := by
  cases h with
  | regWr => exact .inl rfl
  | oscProc ho =>
    obtain ⟨rfl, hphase⟩ := phase_of_oscProc ho hne
    exact .inr ⟨rfl, hphase⟩
  | oscSetf => exact absurd (readAt_modify_keeps (fun _ => by rfl) _ _ _) hne
  | sysSetsr fs =>
    have hget := rederiveIncs_getElem? s.cfg.num s.draw fs s.osc 0 u
    refine absurd ?_ hne
    simp only [readReg, readAt, hget]
    cases s.osc[u]? <;> rfl
  | _ => exact absurd rfl hne

end

/-- Settles O24: REG.WR cannot write INC, and an increment does not depend on the draw. -/
theorem oscIncrementAndPhaseWriters : Obligations.OscIncrementAndPhaseWriters := by
  intro i s t u h
  constructor <;> intro hne
  · obtain ⟨s', rsp, hw, rfl⟩ := written_of_changed (fun s => readReg s (.osc u .inc)) (fun _ => rfl) h hne
    exact hw.inc_writer hne
  · obtain ⟨s', rsp, hw, rfl⟩ := written_of_changed (fun s => readReg s (.osc u .phase)) (fun _ => rfl) h hne
    exact hw.phase_writer hne

/-! ### Delay memories -/

section
variable {i : Instr} {s s' : State} {u k : Nat}

/-- A sample that an update of one DL unit changed is one of that unit. -/
theorem eq_of_dlSample_updDl_ne {w : Nat} {f : DlUnit → DlUnit} (hne : dlSample (s.updDl w f) u k ≠ dlSample s u k) :
    w = u := by
  by_contra hwu
  exact hne (by rw [dlSample_updDl, if_neg hwu])

/-- A sample that an update of one FDN unit changed is one of that unit. -/
theorem eq_of_lineSample_updFdn_ne {w j : Nat} {f : FdnUnit → FdnUnit}
    (hne : lineSample (s.updFdn w f) u j k ≠ lineSample s u j k) : w = u := by
  by_contra hwu
  exact hne (by rw [lineSample_updFdn, if_neg hwu])

theorem Written.dlSample_writer (h : Written i s s') (hne : dlSample s' u k ≠ dlSample s u k) :
    (∃ x, i = .dlProc u x) ∨ ∃ d, i = .dlResize u d := by
  cases h with
  | dlProc w x f => exact .inl ⟨x, by rw [eq_of_dlSample_updDl_ne hne]⟩
  | dlResize w d f => exact .inr ⟨d, by rw [eq_of_dlSample_updDl_ne hne]⟩
  | dlSetdelay | dlSetmoddelay => exact absurd (readAt_modify_keeps (fun _ => by rfl) _ _ _) hne
  | regWr => exact absurd (dlSample_writeReg _ _ _ _ _) hne
  | _ => exact absurd rfl hne

/-- The lines FDN.SETLEN leaves have the memories they had (44_fdn.md R244). -/
theorem setLengths_used_map_buf (nm : Num) (d : Draw) (t : F) (f : FdnUnit) :
    (setLengths nm d f.ratio 0 t (f.lines.take f.n.toNat) ++ f.lines.drop f.n.toNat).map (fun a => a.buf) =
      f.lines.map (fun a => a.buf) := by
  rw [List.map_append, setLengths_map_buf, ← List.map_append, List.take_append_drop]

theorem Written.lineSample_writer (h : Written i s s') {j : Nat} (hne : lineSample s' u j k ≠ lineSample s u j k) :
    (∃ x, i = .fdnProc u x) ∨ ∃ n, i = .fdnResize u n := by
  cases h with
  | fdnProc w x f => exact .inl ⟨x, by rw [eq_of_lineSample_updFdn_ne hne]⟩
  | fdnResize w n f => exact .inr ⟨n, by rw [eq_of_lineSample_updFdn_ne hne]⟩
  | fdnSetlen w longest nm d t =>
    exact absurd (readAt_modify_keeps (fun f => readAt_buf_congr (setLengths_used_map_buf nm d t f) _ _) _ _ _) hne
  | regWr => exact absurd (lineSample_writeReg _ _ _ _ _ _) hne
  | _ => exact absurd rfl hne

end

/-- Settles O25: setters and REG.WR keep every memory, and PROC and RESIZE reach their own unit's only. -/
theorem memoriesReachedOnlyBy : Obligations.MemoriesReachedOnlyBy := by
  intro i s t h
  constructor
  · intro u k hne
    obtain ⟨s', rsp, hw, rfl⟩ := written_of_changed (fun s => dlSample s u k) (fun _ => rfl) h hne
    exact hw.dlSample_writer hne
  · intro u j k hne
    obtain ⟨s', rsp, hw, rfl⟩ := written_of_changed (fun s => lineSample s u j k) (fun _ => rfl) h hne
    exact hw.lineSample_writer hne

/-- Settles O45: the unit check passes, and the length check in front of the meaning faults (log 15). -/
theorem dlProcOutsideMemoryFaults : Obligations.DlProcOutsideMemoryFaults := by
  intro s u x hu hlong
  obtain ⟨l, hl⟩ := dl_of_lt hu
  rw [readReg_dl hl] at hlong
  exact (withUnit_some hl s _).trans (if_pos hlong)

end Sys2Proof.Machine

/-! SUPPORT. What every register and memory of the reset state reads, for every configuration (10_state.md R47), and
that a defined register has its indices in range. -/

namespace Sys2Proof.Machine

/-! ### Defined registers -/

section
variable {s : State}

theorem inRange_of_fdnRegAt {u reg : Nat} {r : Reg} (h : fdnRegAt s u reg = some r) : inRange s r := by
  simp only [fdnRegAt] at h
  split at h
  · obtain ⟨q, -, rfl⟩ := Option.map_eq_some_iff.1 h
    trivial
  · split at h
    · obtain ⟨hij, e⟩ := Option.ite_none_right_eq_some.1 h
      rw [← Option.some.inj e]
      exact hij
    · split at h
      · obtain ⟨hj, e⟩ := Option.ite_none_right_eq_some.1 h
        obtain ⟨q, -, rfl⟩ := Option.map_eq_some_iff.1 e
        exact hj
      · cases h

theorem inRange_of_hbRegAt {u reg : Nat} {r : Reg} (h : hbRegAt s u reg = some r) : inRange s r := by
  simp only [hbRegAt] at h
  split at h
  · rw [← Option.some.inj h]
    trivial
  · split at h
    · obtain ⟨hsec, e⟩ := Option.ite_none_right_eq_some.1 h
      obtain ⟨q, -, rfl⟩ := Option.map_eq_some_iff.1 e
      exact hsec
    · cases h

/-- A register number names a register only while its indices are in range (10_state.md R39, R40, R44). -/
theorem inRange_of_regAt {cls unit reg : Nat} {r : Reg} (h : regAt s cls unit reg = some r) : inRange s r := by
  simp only [regAt] at h
  split at h
  case h_5 => exact inRange_of_fdnRegAt h
  case h_6 => exact inRange_of_hbRegAt h
  case h_7 => cases h
  all_goals
    obtain ⟨q, -, rfl⟩ := Option.map_eq_some_iff.1 h
    trivial

theorem DefinedReg.inRange {r : Reg} (h : DefinedReg s r) : inRange s r := by
  obtain ⟨cls, unit, reg, -, hreg⟩ := h
  exact inRange_of_regAt hreg

end

/-! ### The reset state -/

/-- In a list of equal units every unit reads the same. -/
theorem readAt_replicate {α : Type} {n u : Nat} (h : u < n) (x : α) (f : α → U32) :
    readAt (List.replicate n x) u f = f x := readAt_some (List.getElem?_replicate_of_lt h) f

/-- What reads 0 of every unit of a list reads 0 of a missing one too. -/
theorem readAt_replicate_of_eq_zero {α : Type} {x : α} {f : α → U32} (h : f x = 0) (n u : Nat) :
    readAt (List.replicate n x) u f = 0 := by
  rcases Nat.lt_or_ge u n with hu | hu
  · rw [readAt_replicate hu, h]
  · exact readAt_none (List.getElem?_eq_none (by rwa [List.length_replicate])) f

section
variable (n : UnitCounts) (c : Cfg)

@[simp] theorem State.resetOf_counts : (State.resetOf n c).counts = n := by simp [State.counts, State.resetOf]

/-- No unit of the reset state has lines (10_state.md R38). -/
theorem fdnLineCount_resetOf (u : Nat) : fdnLineCount (State.resetOf n c) u = 0 := by
  unfold fdnLineCount
  split
  next f hf => rw [List.eq_of_mem_replicate (List.mem_of_getElem? hf)]; rfl
  next => rfl

theorem lineSample_resetOf (u j k : Nat) : lineSample (State.resetOf n c) u j k = F.zero := by
  refine readAt_replicate_of_eq_zero ?_ _ _
  exact readAt_replicate_of_eq_zero (by rfl) _ _

theorem dlSample_resetOf (u k : Nat) : dlSample (State.resetOf n c) u k = F.zero :=
  readAt_replicate_of_eq_zero (by rfl) _ _

theorem not_definedReg_matrix_resetOf (u i j : Nat) : ¬ DefinedReg (State.resetOf n c) (.matrix u i j) := fun h =>
  Nat.not_lt_zero i (fdnLineCount_resetOf n c u ▸ h.inRange.1)

theorem not_definedReg_line_resetOf (u j : Nat) (r : LineReg) : ¬ DefinedReg (State.resetOf n c) (.line u j r) := fun h =>
  Nat.not_lt_zero j (fdnLineCount_resetOf n c u ▸ h.inRange)

variable {n} {u : Nat}

theorem readReg_resetOf_bq (hu : u < n.nBq) (r : BqReg) :
    readReg (State.resetOf n c) (.bq u r) = BqUnit.reset.get r := readAt_replicate hu _ _

theorem readReg_resetOf_osc (hu : u < n.nOsc) (r : OscReg) :
    readReg (State.resetOf n c) (.osc u r) = OscUnit.reset.get r := readAt_replicate hu _ _

theorem readReg_resetOf_dl (hu : u < n.nDl) (r : DlReg) :
    readReg (State.resetOf n c) (.dl u r) = DlUnit.reset.get r := readAt_replicate hu _ _

theorem readReg_resetOf_fdn (hu : u < n.nFdn) (r : FdnReg) :
    readReg (State.resetOf n c) (.fdn u r) = FdnUnit.reset.get r := readAt_replicate hu _ _

theorem readReg_resetOf_bdly (hu : u < n.nHb) : readReg (State.resetOf n c) (.bdly u) = F.zero := readAt_replicate hu _ _

theorem readReg_resetOf_sect (hu : u < n.nHb) {sec : Nat} (hsec : sec < 2 * c.hbNsec) (r : SecReg) :
    readReg (State.resetOf n c) (.sect u sec r) = HbSection.reset.get (hbCoef c sec) r :=
  (readAt_replicate hu _ _).trans (readAt_replicate hsec _ _)

end

theorem BqUnit.get_reset {r : BqReg} (h : r ≠ .a0) : BqUnit.reset.get r = F.zero := by
  cases r with
  | a0 => exact absurd rfl h
  | _ => rfl

theorem OscUnit.get_reset (r : OscReg) : OscUnit.reset.get r = 0 := by cases r <;> rfl

theorem DlUnit.get_reset {r : DlReg} (h : r ≠ .gFf) : DlUnit.reset.get r = 0 := by
  cases r with
  | gFf => exact absurd rfl h
  | _ => rfl

theorem FdnUnit.get_reset {r : FdnReg} (h : r ≠ .ratio) : FdnUnit.reset.get r = 0 := by
  cases r with
  | ratio => exact absurd rfl h
  | _ => rfl

theorem HbSection.get_reset {r : SecReg} (h : r ≠ .coef) (coef : F) : HbSection.reset.get coef r = F.zero := by
  cases r with
  | coef => exact absurd rfl h
  | _ => rfl

/-- The unit counts of the reset state read what the configuration gives (10_state.md R24; log 5). -/
theorem readReg_resetOf_counts (n : UnitCounts) (c : Cfg) :
    readReg (State.resetOf n c) (.sys .nBq) = BitVec.ofNat 32 n.nBq ∧
    readReg (State.resetOf n c) (.sys .nOsc) = BitVec.ofNat 32 n.nOsc ∧
    readReg (State.resetOf n c) (.sys .nDl) = BitVec.ofNat 32 n.nDl ∧
    readReg (State.resetOf n c) (.sys .nFdn) = BitVec.ofNat 32 n.nFdn ∧
    readReg (State.resetOf n c) (.sys .nHb) = BitVec.ofNat 32 n.nHb := by
  simp [readReg, sysRead, State.resetOf]

/-- Settles O12, unit by unit: every list of the reset state is made of one reset unit. -/
theorem resetValues : Obligations.ResetValues := by
  intro n c
  obtain ⟨hbq, hosc, hdl, hfdn, hhb⟩ := readReg_resetOf_counts n c
  refine ⟨rfl, rfl, rfl, rfl, rfl, hbq, hosc, hdl, hfdn, hhb, rfl, rfl, rfl, rfl, rfl, ?bq, ?osc, ?dl, ?fdn, ?noLines, ?hb⟩
  case bq =>
    intro u hu
    exact ⟨readReg_resetOf_bq c hu _, fun r hr => (readReg_resetOf_bq c hu r).trans (BqUnit.get_reset hr)⟩
  case osc =>
    intro u hu r
    exact (readReg_resetOf_osc c hu r).trans (OscUnit.get_reset r)
  case dl =>
    intro u hu
    exact ⟨readReg_resetOf_dl c hu _, fun r hr => (readReg_resetOf_dl c hu r).trans (DlUnit.get_reset hr),
      dlSample_resetOf n c u⟩
  case fdn =>
    intro u hu
    exact ⟨readReg_resetOf_fdn c hu _, fun r hr => (readReg_resetOf_fdn c hu r).trans (FdnUnit.get_reset hr),
      lineSample_resetOf n c u⟩
  case noLines =>
    intro u i j r
    exact ⟨not_definedReg_matrix_resetOf n c u i j, not_definedReg_line_resetOf n c u j r⟩
  case hb =>
    intro u hu
    exact ⟨readReg_resetOf_bdly c hu, fun sec hsec =>
      ⟨fun r hr => (readReg_resetOf_sect c hu hsec r).trans (HbSection.get_reset hr _), readReg_resetOf_sect c hu hsec _⟩⟩

end Sys2Proof.Machine

/-! SUPPORT. The register space and the rings of 20_memory.md: a register number and its register name each other (R71), a REG.WR
given again writes nothing more (R78), and the arithmetic of a masked index (R74, R75). -/

namespace Sys2Proof.Machine

/-! ### Register numbers -/

section
variable {α : Type} [DecidableEq α]

/-- In a table that lists every name once, a name stands at its own number and nowhere else. -/
theorem getElem?_eq_some_iff_idxOf_eq {l : List α} (hnd : l.Nodup) (hall : ∀ q, q ∈ l) {k : Nat} {q : α} :
    l[k]? = some q ↔ l.idxOf q = k := by
  constructor
  · intro h
    obtain ⟨hk, rfl⟩ := List.getElem?_eq_some_iff.1 h
    exact hnd.idxOf_getElem k hk
  · rintro rfl
    exact List.getElem?_idxOf (hall q)

theorem idxOf_eq_of_mem_zipIdx {l : List α} (hnd : l.Nodup) {q : α} {k : Nat} (h : (q, k) ∈ l.zipIdx) :
    l.idxOf q = k := by
  obtain ⟨hk, rfl⟩ := List.getElem?_eq_some_iff.1 (List.mk_mem_zipIdx_iff_getElem?.1 h)
  exact hnd.idxOf_getElem k hk

/-- A row (name, number, access class) of a table gives the name its number, and so the triple made of it, and its class. -/
theorem triple_and_access_of_mem_rows {l : List α} (hnd : l.Nodup) (triple : Nat → Nat × Nat × Nat) (access : α → Access)
    {q : α} {k : Nat} {acc : Access} (h : (q, k, acc) ∈ l.zipIdx.map fun p => (p.1, p.2, access p.1)) :
    triple (l.idxOf q) = triple k ∧ access q = acc := by
  obtain ⟨⟨q', k'⟩, hp, e⟩ := List.mem_map.1 h
  obtain ⟨rfl, rfl, rfl⟩ : q' = q ∧ k' = k ∧ access q' = acc := by simpa using e
  exact ⟨congrArg triple (idxOf_eq_of_mem_zipIdx hnd hp), rfl⟩

end

theorem sysRegs_getElem? {k : Nat} {q : SysReg} : sysRegs[k]? = some q ↔ sysRegs.idxOf q = k :=
  getElem?_eq_some_iff_idxOf_eq (by decide) (by intro q; cases q <;> decide)

theorem bqRegs_getElem? {k : Nat} {q : BqReg} : bqRegs[k]? = some q ↔ bqRegs.idxOf q = k :=
  getElem?_eq_some_iff_idxOf_eq (by decide) (by intro q; cases q <;> decide)

theorem oscRegs_getElem? {k : Nat} {q : OscReg} : oscRegs[k]? = some q ↔ oscRegs.idxOf q = k :=
  getElem?_eq_some_iff_idxOf_eq (by decide) (by intro q; cases q <;> decide)

theorem dlRegs_getElem? {k : Nat} {q : DlReg} : dlRegs[k]? = some q ↔ dlRegs.idxOf q = k :=
  getElem?_eq_some_iff_idxOf_eq (by decide) (by intro q; cases q <;> decide)

theorem fdnRegs_getElem? {k : Nat} {q : FdnReg} : fdnRegs[k]? = some q ↔ fdnRegs.idxOf q = k :=
  getElem?_eq_some_iff_idxOf_eq (by decide) (by intro q; cases q <;> decide)

theorem lineRegs_getElem? {k : Nat} {q : LineReg} : lineRegs[k]? = some q ↔ lineRegs.idxOf q = k :=
  getElem?_eq_some_iff_idxOf_eq (by decide) (by intro q; cases q <;> decide)

theorem secRegs_getElem? {k : Nat} {q : SecReg} : secRegs[k]? = some q ↔ secRegs.idxOf q = k :=
  getElem?_eq_some_iff_idxOf_eq (by decide) (by intro q; cases q <;> decide)

theorem fdnRegs_idxOf_lt (q : FdnReg) : fdnRegs.idxOf q < 5 := by cases q <;> decide

theorem lineRegs_idxOf_lt (q : LineReg) : lineRegs.idxOf q < 12 := by cases q <;> decide

theorem secRegs_idxOf_lt (q : SecReg) : secRegs.idxOf q < 5 := by cases q <;> decide

/-- Quotient and remainder by which a number in a block of 16-register rows is taken apart (10_state.md R39, R40, R44). -/
theorem row_sub_div_mod (base i : Nat) {k : Nat} (hk : k < 16) :
    (base + 16 * i + k - base) / 16 = i ∧ (base + 16 * i + k - base) % 16 = k := by omega

section
variable {s : State}

/-- The count an FDN unit of a sound state has is at most 16 (10_state.md R37). -/
theorem Sound.fdnLineCount_le (h : Sound s) (u : Nat) : fdnLineCount s u ≤ 16 := by
  unfold fdnLineCount
  split
  next f hf => exact (h.fdn f (List.mem_of_getElem? hf)).1.trans h.fdnNCap_le
  next => exact Nat.zero_le _

theorem fdnRegAt_fdn (s : State) (u : Nat) (q : FdnReg) : fdnRegAt s u (fdnRegs.idxOf q) = some (.fdn u q) := by
  have hq := fdnRegs_idxOf_lt q
  have hlow : fdnRegs.idxOf q < 0x100 := by omega
  simp only [fdnRegAt, if_pos hlow, fdnRegs_getElem?.2 rfl, Option.map_some]

theorem fdnRegAt_matrix {u i j : Nat} (h : inRange s (.matrix u i j)) (hn : fdnLineCount s u ≤ 16) :
    fdnRegAt s u (0x100 + 16 * i + j) = some (.matrix u i j) := by
  obtain ⟨hi, hj⟩ : i < fdnLineCount s u ∧ j < fdnLineCount s u := h
  obtain ⟨hdiv, hmod⟩ := row_sub_div_mod 0x100 i (show j < 16 by omega)
  have hnotLow : ¬ 0x100 + 16 * i + j < 0x100 := by omega
  have hmatrix : 0x100 + 16 * i + j < 0x200 := by omega
  simp only [fdnRegAt, if_neg hnotLow, if_pos hmatrix, hdiv, hmod, if_pos (And.intro hi hj)]

theorem fdnRegAt_line {u j : Nat} {q : LineReg} (h : inRange s (.line u j q)) (hn : fdnLineCount s u ≤ 16) :
    fdnRegAt s u (0x200 + 16 * j + lineRegs.idxOf q) = some (.line u j q) := by
  have hj : j < fdnLineCount s u := h
  have hq := lineRegs_idxOf_lt q
  obtain ⟨hdiv, hmod⟩ := row_sub_div_mod 0x200 j (show lineRegs.idxOf q < 16 by omega)
  have hnotLow : ¬ 0x200 + 16 * j + lineRegs.idxOf q < 0x100 := by omega
  have hnotMatrix : ¬ 0x200 + 16 * j + lineRegs.idxOf q < 0x200 := by omega
  have hline : 0x200 + 16 * j + lineRegs.idxOf q < 0x300 := by omega
  simp only [fdnRegAt, if_neg hnotLow, if_neg hnotMatrix, if_pos hline, hdiv, hmod, if_pos hj, lineRegs_getElem?.2 rfl,
    Option.map_some]

theorem hbRegAt_sect {u sec : Nat} {q : SecReg} (h : inRange s (.sect u sec q)) :
    hbRegAt s u (0x100 + 16 * sec + secRegs.idxOf q) = some (.sect u sec q) := by
  have hsec : sec < 2 * s.cfg.hbNsec := h
  have hq := secRegs_idxOf_lt q
  obtain ⟨hdiv, hmod⟩ := row_sub_div_mod 0x100 sec (show secRegs.idxOf q < 16 by omega)
  have hne : 0x100 + 16 * sec + secRegs.idxOf q ≠ 0 := by omega
  have hhigh : 0x100 ≤ 0x100 + 16 * sec + secRegs.idxOf q := by omega
  simp only [hbRegAt, if_neg hne, if_pos hhigh, hdiv, hmod, if_pos hsec, secRegs_getElem?.2 rfl, Option.map_some]

/-- The triple of a register whose indices are in range finds it (20_memory.md R71). -/
theorem Sound.regAt_regTriple (h : Sound s) {r : Reg} (hr : inRange s r) {cls unit reg : Nat}
    (ht : regTriple r = (cls, unit, reg)) : regAt s cls unit reg = some r := by
  cases r with
  | sys q => cases ht; exact congrArg (Option.map _) (sysRegs_getElem?.2 rfl)
  | bq u q => cases ht; exact congrArg (Option.map _) (bqRegs_getElem?.2 rfl)
  | osc u q => cases ht; exact congrArg (Option.map _) (oscRegs_getElem?.2 rfl)
  | dl u q => cases ht; exact congrArg (Option.map _) (dlRegs_getElem?.2 rfl)
  | fdn u q => cases ht; exact fdnRegAt_fdn s unit q
  | matrix u i j => cases ht; exact fdnRegAt_matrix hr (h.fdnLineCount_le unit)
  | line u j q => cases ht; exact fdnRegAt_line hr (h.fdnLineCount_le unit)
  | bdly u => cases ht; rfl
  | sect u sec q => cases ht; exact hbRegAt_sect hr

theorem regTriple_of_fdnRegAt {u reg : Nat} {r : Reg} (h : fdnRegAt s u reg = some r) : regTriple r = (4, u, reg) := by
  simp only [fdnRegAt] at h
  split at h
  · obtain ⟨q, hq, rfl⟩ := Option.map_eq_some_iff.1 h
    rw [regTriple, fdnRegs_getElem?.1 hq]
  · split at h
    · obtain ⟨-, e⟩ := Option.ite_none_right_eq_some.1 h
      rw [← Option.some.inj e, regTriple, Prod.mk.injEq, Prod.mk.injEq]
      exact ⟨rfl, rfl, by omega⟩
    · split at h
      · obtain ⟨-, e⟩ := Option.ite_none_right_eq_some.1 h
        obtain ⟨q, hq, rfl⟩ := Option.map_eq_some_iff.1 e
        rw [regTriple, lineRegs_getElem?.1 hq, Prod.mk.injEq, Prod.mk.injEq]
        exact ⟨rfl, rfl, by omega⟩
      · cases h

theorem regTriple_of_hbRegAt {u reg : Nat} {r : Reg} (h : hbRegAt s u reg = some r) : regTriple r = (5, u, reg) := by
  simp only [hbRegAt] at h
  split at h
  next hreg => rw [← Option.some.inj h, hreg, regTriple]
  next =>
    split at h
    · obtain ⟨-, e⟩ := Option.ite_none_right_eq_some.1 h
      obtain ⟨q, hq, rfl⟩ := Option.map_eq_some_iff.1 e
      rw [regTriple, secRegs_getElem?.1 hq, Prod.mk.injEq, Prod.mk.injEq]
      exact ⟨rfl, rfl, by omega⟩
    · cases h

/-- The register a number names in a unit that exists has that triple (20_memory.md R71); SYS has the unit 0 only. -/
theorem regTriple_of_regAt {cls unit reg : Nat} {r : Reg} (hu : unitExists s cls unit = true)
    (h : regAt s cls unit reg = some r) : regTriple r = (cls, unit, reg) := by
  simp only [regAt] at h
  split at h
  case h_1 =>
    obtain ⟨q, hq, rfl⟩ := Option.map_eq_some_iff.1 h
    rw [regTriple, sysRegs_getElem?.1 hq, show unit = 0 from of_decide_eq_true hu]
  case h_2 =>
    obtain ⟨q, hq, rfl⟩ := Option.map_eq_some_iff.1 h
    rw [regTriple, bqRegs_getElem?.1 hq]
  case h_3 =>
    obtain ⟨q, hq, rfl⟩ := Option.map_eq_some_iff.1 h
    rw [regTriple, oscRegs_getElem?.1 hq]
  case h_4 =>
    obtain ⟨q, hq, rfl⟩ := Option.map_eq_some_iff.1 h
    rw [regTriple, dlRegs_getElem?.1 hq]
  case h_5 => exact regTriple_of_fdnRegAt h
  case h_6 => exact regTriple_of_hbRegAt h
  case h_7 => cases h

theorem Sound.regAt_eq_some_iff (h : Sound s) {cls unit reg : Nat} {r : Reg} (hu : unitExists s cls unit = true) :
    regAt s cls unit reg = some r ↔ regTriple r = (cls, unit, reg) ∧ inRange s r :=
  ⟨fun hr => ⟨regTriple_of_regAt hu hr, inRange_of_regAt hr⟩, fun ⟨ht, hr⟩ => h.regAt_regTriple hr ht⟩

end

/-- Settles O26: each table of the statement is the list of its registers in the order of their numbers. -/
theorem registerNumbering : Obligations.RegisterNumbering := by
  refine ⟨fun s cls unit reg r h hu => h.regAt_eq_some_iff hu, ?sys, fun u =>
    ⟨?bq, ?osc, ?dl, ?fdn, fun i j => ⟨rfl, rfl⟩, ?line, ⟨rfl, rfl⟩, ?sect⟩⟩
  case sys =>
    intro r k h
    rw [regTriple, idxOf_eq_of_mem_zipIdx (l := sysRegs) (by decide) h]
    exact ⟨rfl, rfl⟩
  case bq =>
    intro r k h
    rw [regTriple, idxOf_eq_of_mem_zipIdx (l := bqRegs) (by decide) h]
    exact ⟨rfl, rfl⟩
  case osc =>
    intro r k acc h
    exact triple_and_access_of_mem_rows (l := oscRegs) (by decide) (fun k => (2, u, k)) (fun q => accessOf (.osc u q)) h
  case dl =>
    intro r k acc h
    exact triple_and_access_of_mem_rows (l := dlRegs) (by decide) (fun k => (3, u, k)) (fun q => accessOf (.dl u q)) h
  case fdn =>
    intro r k acc h
    exact triple_and_access_of_mem_rows (l := fdnRegs) (by decide) (fun k => (4, u, k)) (fun q => accessOf (.fdn u q)) h
  case line =>
    intro j r k acc h
    exact triple_and_access_of_mem_rows (l := lineRegs) (by decide) (fun k => (4, u, 0x200 + 16 * j + k))
      (fun q => accessOf (.line u j q)) h
  case sect =>
    intro sec r k acc h
    exact triple_and_access_of_mem_rows (l := secRegs) (by decide) (fun k => (5, u, 0x100 + 16 * sec + k))
      (fun q => accessOf (.sect u sec q)) h

/-! ### A register written twice -/

theorem BqUnit.put_put (b : BqUnit) (r : BqReg) (v w : F) : (b.put r v).put r w = b.put r w := by cases r <;> rfl

theorem OscUnit.put_put (o : OscUnit) (r : OscReg) (v w : U32) : (o.put r v).put r w = o.put r w := by cases r <;> rfl

theorem DlUnit.put_put (l : DlUnit) (r : DlReg) (v w : U32) : (l.put r v).put r w = l.put r w := by cases r <;> rfl

theorem FdnUnit.put_put (f : FdnUnit) (r : FdnReg) (v w : U32) : (f.put r v).put r w = f.put r w := by cases r <;> rfl

theorem FdnLine.put_put (l : FdnLine) (r : LineReg) (v w : U32) : (l.put r v).put r w = l.put r w := by cases r <;> rfl

theorem HbSection.put_put (h : HbSection) (r : SecReg) (v w : F) : (h.put r v).put r w = h.put r w := by cases r <;> rfl

/-- Of two updates of one place only the second is left where it covers what the first did. -/
theorem modify_modify_of_comp {α : Type} {f g : α → α} (h : ∀ x, g (f x) = g x) (l : List α) (u : Nat) :
    (l.modify u f).modify u g = l.modify u g := by
  rw [List.modify_modify_eq]
  exact congrArg (l.modify u) (funext h)

section
variable (s : State) (u : Nat)

theorem State.updBq_updBq {f g : BqUnit → BqUnit} (h : ∀ x, g (f x) = g x) :
    (s.updBq u f).updBq u g = s.updBq u g := by simp only [State.updBq, modify_modify_of_comp h]

theorem State.updOsc_updOsc {f g : OscUnit → OscUnit} (h : ∀ x, g (f x) = g x) :
    (s.updOsc u f).updOsc u g = s.updOsc u g := by simp only [State.updOsc, modify_modify_of_comp h]

theorem State.updDl_updDl {f g : DlUnit → DlUnit} (h : ∀ x, g (f x) = g x) :
    (s.updDl u f).updDl u g = s.updDl u g := by simp only [State.updDl, modify_modify_of_comp h]

theorem State.updFdn_updFdn {f g : FdnUnit → FdnUnit} (h : ∀ x, g (f x) = g x) :
    (s.updFdn u f).updFdn u g = s.updFdn u g := by simp only [State.updFdn, modify_modify_of_comp h]

theorem State.updHb_updHb {f g : HbUnit → HbUnit} (h : ∀ x, g (f x) = g x) :
    (s.updHb u f).updHb u g = s.updHb u g := by simp only [State.updHb, modify_modify_of_comp h]

end

/-- Of two writes of one register only the second is left. -/
theorem writeReg_writeReg (s : State) (r : Reg) (v w : U32) : writeReg (writeReg s r v) r w = writeReg s r w := by
  cases r with
  | sys q => rfl
  | bq u q => exact s.updBq_updBq u fun b => b.put_put q v w
  | osc u q => exact s.updOsc_updOsc u fun o => o.put_put q v w
  | dl u q => exact s.updDl_updDl u fun l => l.put_put q v w
  | fdn u q => exact s.updFdn_updFdn u fun f => f.put_put q v w
  | matrix u i j => exact s.updFdn_updFdn u fun f => by rw [List.set_set]
  | line u j q => exact s.updFdn_updFdn u fun f => by rw [modify_modify_of_comp fun l => l.put_put q v w]
  | bdly u => exact s.updHb_updHb u fun _ => rfl
  | sect u sec q => exact s.updHb_updHb u fun h => by rw [modify_modify_of_comp fun x => x.put_put q v w]

theorem writeReg_give (s : State) (rsp : Response) (r : Reg) (v : U32) :
    writeReg (s.give rsp) r v = (writeReg s r v).give rsp := by cases r <;> rfl

/-! ### What the register checks depend on -/

section
variable {s t : State}

theorem unitExists_congr (h : t.counts = s.counts) (cls unit : Nat) : unitExists t cls unit = unitExists s cls unit := by
  simp only [State.counts, UnitCounts.mk.injEq] at h
  obtain ⟨hbq, hosc, hdl, hfdn, hhb⟩ := h
  simp only [unitExists, hbq, hosc, hdl, hfdn, hhb]

@[simp] theorem unitExists_give (s : State) (rsp : Response) (cls unit : Nat) :
    unitExists (s.give rsp) cls unit = unitExists s cls unit := unitExists_congr (s.give_counts rsp) cls unit

@[simp] theorem inBlock_give (s : State) (rsp : Response) : inBlock (s.give rsp) = inBlock s := rfl

@[simp] theorem inBlock_writeReg (s : State) (r : Reg) (v : U32) : inBlock (writeReg s r v) = inBlock s := by
  rw [inBlock, writeReg_sys, inBlock]

@[simp] theorem unitExists_writeReg (s : State) (r : Reg) (v : U32) (cls unit : Nat) :
    unitExists (writeReg s r v) cls unit = unitExists s cls unit := unitExists_congr (Kept.writeReg s r v).counts cls unit

/-- Which numbers are defined depends on the configuration and on the `N` registers alone (10_state.md R39, R40, R44). -/
theorem regAt_congr (hcfg : t.cfg = s.cfg) (hn : ∀ u, fdnLineCount t u = fdnLineCount s u) (cls unit reg : Nat) :
    regAt t cls unit reg = regAt s cls unit reg := by
  simp only [regAt, fdnRegAt, hbRegAt, hcfg, hn]

@[simp] theorem regAt_give (s : State) (rsp : Response) (cls unit reg : Nat) :
    regAt (s.give rsp) cls unit reg = regAt s cls unit reg := regAt_congr (s.give_cfg rsp) (fun _ => rfl) cls unit reg

theorem fdnLineCount_eq_readReg (s : State) (u : Nat) : fdnLineCount s u = (readReg s (.fdn u .n)).toNat := by
  simp only [fdnLineCount, readReg, readAt]
  cases s.fdn[u]? <;> rfl

/-- N cannot be written by REG.WR (10_state.md R38). -/
theorem FdnUnit.n_put {u : Nat} {r : FdnReg} (hw : writable (accessOf (.fdn u r)) = true) (f : FdnUnit) (v : U32) :
    (f.put r v).n = f.n := by
  cases r with
  | n => exact absurd hw (by simp [writable, accessOf])
  | fb | ratio | outEven | outOdd => rfl

theorem readReg_writeReg_n {r : Reg} (hw : writable (accessOf r) = true) (v : U32) (u : Nat) :
    readReg (writeReg s r v) (.fdn u .n) = readReg s (.fdn u .n) := by
  cases r with
  | fdn w q => exact readAt_modify_keeps (fun f => FdnUnit.n_put hw f v) _ _ _
  | matrix | line => exact readAt_modify_keeps (fun _ => by rfl) _ _ _
  | sys | bq | osc | dl | bdly | sect => rfl

/-- A register write leaves every register triple naming what it named. -/
theorem regAt_writeReg {r : Reg} (hw : writable (accessOf r) = true) (v : U32) (cls unit reg : Nat) :
    regAt (writeReg s r v) cls unit reg = regAt s cls unit reg :=
  regAt_congr (Kept.writeReg s r v).cfg
    (fun u => by rw [fdnLineCount_eq_readReg, fdnLineCount_eq_readReg, readReg_writeReg_n hw]) cls unit reg

/-! ### REG.WR accepted -/

/-- An accepted REG.WR passed every check, and wrote the register its triple names (46_system.md R291). -/
theorem regWr_accepted {cls unit reg : Nat} {v : U32} {r0 r1 : U32} (h : exec (.regWr cls unit reg v) s = .next t)
    (hok : t.port.outputs = { status := .ok, res0 := r0, res1 := r1 } :: s.port.outputs) :
    ∃ r, unitExists s cls unit = true ∧ regAt s cls unit reg = some r ∧ writable (accessOf r) = true ∧
      inBlock s = false ∧ valueLegal (accessOf r) v = true ∧
      t = (writeReg s r v).give { status := .ok, res0 := 0, res1 := 0 } := by
  have hnot : ∀ code, code ≠ .ok → t ≠ refuse code s := by
    rintro code hcode rfl
    simp only [refuse_port, List.cons.injEq, Response.mk.injEq] at hok
    exact hcode hok.1.1
  simp only [exec, execRegWr, withReg_eq_next, check_eq_next, respond_eq_next] at h
  rcases h with ⟨hu, r, hr, ⟨hw, ⟨hb, ⟨hv, ht⟩ | ⟨-, ht⟩⟩ | ⟨-, ht⟩⟩ | ⟨-, ht⟩⟩ | ⟨-, -, ht⟩ | ⟨-, ht⟩
  · exact ⟨r, hu, hr, hw, by simpa using hb, hv, ht⟩
  all_goals exact absurd ht (hnot _ (by decide))

theorem exec_regWr_of_checks {cls unit reg : Nat} {v : U32} {r : Reg} (hu : unitExists s cls unit = true)
    (hr : regAt s cls unit reg = some r) (hw : writable (accessOf r) = true) (hb : inBlock s = false)
    (hv : valueLegal (accessOf r) v = true) :
    exec (.regWr cls unit reg v) s = .next ((writeReg s r v).give { status := .ok, res0 := 0, res1 := 0 }) := by
  simp only [exec, execRegWr, withReg_some hu hr, check_of hw, hb, check_of hv, Bool.not_false, check_true, respond_eq]

end

/-- Settles O29: what the first write left passes the same checks, and the second write is the first. -/
theorem regWrIdempotent : Obligations.RegWrIdempotent := by
  intro s t cls unit reg v h hok
  obtain ⟨r, hu, hr, hw, hb, hv, rfl⟩ := regWr_accepted h hok
  rw [exec_regWr_of_checks (r := r) (by simpa using hu) (by rwa [regAt_give, regAt_writeReg hw]) hw (by simpa using hb) hv,
    writeReg_give, writeReg_writeReg]

/-! ### Ring indices -/

/-- A delay and the delay modulo the length are as far behind WIDX in the ring (20_memory.md R74). -/
theorem ringIndex_mod_length {log2 : Nat} (h : log2 ≤ 32) (w d : U32) :
    ringIndex log2 w d = ringIndex log2 w (BitVec.ofNat 32 (d.toNat % 2 ^ log2)) := by
  have hdvd : 2 ^ log2 ∣ 2 ^ 32 := Nat.pow_dvd_pow 2 h
  have hd : d.toNat < 2 ^ 32 := d.isLt
  have hle : d.toNat % 2 ^ log2 ≤ d.toNat := Nat.mod_le _ _
  have hsplit : 2 ^ log2 * (d.toNat / 2 ^ log2) + d.toNat % 2 ^ log2 = d.toNat := Nat.div_add_mod _ _
  have hbehind : 2 ^ 32 - d.toNat % 2 ^ log2 + w.toNat =
      2 ^ 32 - d.toNat + w.toNat + 2 ^ log2 * (d.toNat / 2 ^ log2) := by omega
  rw [ringIndex_eq_mod h, ringIndex_eq_mod h, BitVec.toNat_sub, BitVec.toNat_sub, BitVec.toNat_ofNat,
    Nat.mod_eq_of_lt (hle.trans_lt hd), Nat.mod_mod_of_dvd _ hdvd, Nat.mod_mod_of_dvd _ hdvd, hbehind,
    Nat.add_mul_mod_self_left]

/-- The length divides 2^32, so the wrap of WIDX falls on the wrap of the ring (20_memory.md R75). -/
theorem ringIndex_succ {log2 : Nat} (h : log2 ≤ 32) (w : U32) :
    ringIndex log2 (w + 1) 0 = (ringIndex log2 w 0 + 1) % 2 ^ log2 := by
  have hzero (x : U32) : x - 0 = x := BitVec.sub_zero x
  have hone : (1 : U32).toNat = 1 := rfl
  rw [ringIndex_eq_mod h, ringIndex_eq_mod h, hzero, hzero, BitVec.toNat_add, hone,
    Nat.mod_mod_of_dvd _ (Nat.pow_dvd_pow 2 h), Nat.mod_add_mod]

/-- Settles O47: the length of a ring divides 2^32. -/
theorem ringIndexArithmetic : Obligations.RingIndexArithmetic := by
  intro log2 w d h
  have h32 : log2 ≤ 32 := by omega
  exact ⟨ringIndex_lt h32 w d, ringIndex_mod_length h32 w d, ringIndex_succ h32 w⟩

end Sys2Proof.Machine

/-! SUPPORT. Command words and their fields, the opcode map, and `decode` as the row a word matches (30_encoding.md R100, R101,
R107 to R110). -/

namespace Sys2Proof

/-! ### The fields of a word -/

/-- A word made of fields has these fields (30_encoding.md R100). -/
@[simp] theorem fieldsOf_wordOf (f : Fields) : fieldsOf (wordOf f) = f := by
  obtain ⟨opc, cls, unit, reg, a, b, c⟩ := f
  simp only [fieldsOf, wordOf, Fields.mk.injEq]
  refine ⟨?opc, ?_, ?_, ?_, ?_, ?_, BitVec.extractLsb'_append_eq_right⟩
  case opc =>
    iterate 6 rw [BitVec.extractLsb'_append_eq_of_le (by decide)]
    exact BitVec.extractLsb'_eq_self
  all_goals
    repeat rw [BitVec.extractLsb'_append_eq_of_le (by decide)]
    exact BitVec.extractLsb'_append_eq_right

/-- The fields of a word hold every bit of it (30_encoding.md R100). -/
@[simp] theorem wordOf_fieldsOf (w : CommandWord) : wordOf (fieldsOf w) = w := by
  unfold wordOf fieldsOf
  iterate 6 rw [BitVec.extractLsb'_append_extractLsb'_eq_extractLsb' (by rfl)]
  exact BitVec.extractLsb'_eq_self

theorem wordOf_inj {f g : Fields} : wordOf f = wordOf g ↔ f = g :=
  ⟨fun h => by rw [← fieldsOf_wordOf f, h, fieldsOf_wordOf], congrArg wordOf⟩

/-! ### The opcode map -/

@[simp] theorem opcodeAt_opcodeByte (op : Opcode) : opcodeAt (opcodeByte op) = some op := by cases op <;> rfl

/-- The opcode map and the OPC values are inverse to each other (30_encoding.md R108). -/
theorem opcodeAt_eq_some_iff {b : BitVec 8} {op : Opcode} : opcodeAt b = some op ↔ b = opcodeByte op := by
  constructor
  · intro h
    unfold opcodeAt at h
    split at h
    case h_30 => cases h
    all_goals
      cases h
      exact BitVec.eq_of_toNat_eq ‹_›
  · rintro rfl
    exact opcodeAt_opcodeByte op

theorem opcodeAt_eq_none_iff {b : BitVec 8} : opcodeAt b = none ↔ ∀ op, b ≠ opcodeByte op := by
  simp only [Option.eq_none_iff_forall_ne_some, ne_eq, opcodeAt_eq_some_iff]

theorem opcodeByte_injective : Function.Injective opcodeByte := fun a b h => by
  rw [← Option.some_inj, ← opcodeAt_opcodeByte a, h, opcodeAt_opcodeByte]

/-! ### A command and its fields -/

theorem unusedZero_iff {u : FieldUse} {f : Fields} : unusedZero u f = true ↔
    (u.cls = true ∨ f.cls = 0) ∧ (u.unit = true ∨ f.unit = 0) ∧ (u.reg = true ∨ f.reg = 0) ∧
      (u.a = true ∨ f.a = 0) ∧ (u.b = true ∨ f.b = 0) ∧ (u.c = true ∨ f.c = 0) := by
  simp only [unusedZero, Bool.and_eq_true, Bool.or_eq_true, decide_eq_true_eq, and_assoc]

@[simp] theorem operandFields_opc (i : Instr) : (operandFields i).opc = opcodeByte i.opcode := by cases i <;> rfl

/-- A command is written with zero in every field it does not use (30_encoding.md R101). -/
theorem unusedZero_operandFields (i : Instr) : unusedZero (fieldUse i.opcode) (operandFields i) = true := by
  cases i <;> simp [unusedZero_iff, fieldUse, operandFields, Instr.opcode]

@[simp] theorem opcode_instrOf (op : Opcode) (f : Fields) : (instrOf op f).opcode = op := by cases op <;> rfl

@[simp] theorem unitFits_toNat (x : BitVec 8) : unitFits x.toNat = true := decide_eq_true x.isLt
@[simp] theorem clsFits_toNat (x : BitVec 4) : clsFits x.toNat = true := decide_eq_true x.isLt
@[simp] theorem regFits_toNat (x : BitVec 12) : regFits x.toNat = true := decide_eq_true x.isLt

/-- What is read from the fields of a word fits them (30_encoding.md R100). -/
theorem wellFormed_instrOf (op : Opcode) (f : Fields) : (instrOf op f).wellFormed = true := by
  cases op <;> simp [instrOf, Instr.wellFormed]

theorem toNat_ofNat_of_clsFits {cls : Nat} (h : clsFits cls = true) : (BitVec.ofNat 4 cls).toNat = cls :=
  Nat.mod_eq_of_lt (of_decide_eq_true h)

theorem toNat_ofNat_of_unitFits {unit : Nat} (h : unitFits unit = true) : (BitVec.ofNat 8 unit).toNat = unit :=
  Nat.mod_eq_of_lt (of_decide_eq_true h)

theorem toNat_ofNat_of_regFits {reg : Nat} (h : regFits reg = true) : (BitVec.ofNat 12 reg).toNat = reg :=
  Nat.mod_eq_of_lt (of_decide_eq_true h)

/-- Numbers that fit their fields are read back from them as they were written (30_encoding.md R100). -/
theorem instrOf_operandFields {i : Instr} (h : i.wellFormed = true) : instrOf i.opcode (operandFields i) = i := by
  cases i with
  | sysSetsr | sysRun | sysSetup | blkBegin | blkEnd => rfl
  | regRd | regWr =>
    simp only [Instr.wellFormed, Bool.and_eq_true] at h
    obtain ⟨⟨hcls, hunit⟩, hreg⟩ := h
    simp only [Instr.opcode, operandFields, instrOf, toNat_ofNat_of_clsFits hcls, toNat_ofNat_of_unitFits hunit,
      toNat_ofNat_of_regFits hreg]
  | _ => simp only [Instr.opcode, operandFields, instrOf, toNat_ofNat_of_unitFits h]

/-- Fields of which the unused ones are zero are the fields of the command they make (30_encoding.md R101, R108). -/
theorem operandFields_instrOf {op : Opcode} {f : Fields} (hopc : f.opc = opcodeByte op)
    (hzero : unusedZero (fieldUse op) f = true) : operandFields (instrOf op f) = f := by
  obtain ⟨opc, cls, unit, reg, a, b, c⟩ := f
  rw [unusedZero_iff] at hzero
  cases op <;> simp_all [fieldUse, instrOf, operandFields]

/-! ### Decoding -/

theorem decode_of_undefined {w : CommandWord} (h : opcodeAt (fieldsOf w).opc = none) :
    decode w = .illegal .undefinedOpcode := by simp only [decode, h]

theorem decode_of_defined {w : CommandWord} {op : Opcode} (h : (fieldsOf w).opc = opcodeByte op) : decode w =
    if unusedZero (fieldUse op) (fieldsOf w) then .command (instrOf op (fieldsOf w)) else .illegal .unusedFieldNotZero := by
  simp only [decode, h, opcodeAt_opcodeByte]

/-- The three things decoding can say, each with when it does (30_encoding.md R109). -/
theorem decode_cases (w : CommandWord) :
    ((∀ op, (fieldsOf w).opc ≠ opcodeByte op) ∧ decode w = .illegal .undefinedOpcode) ∨
    (∃ op, (fieldsOf w).opc = opcodeByte op ∧ unusedZero (fieldUse op) (fieldsOf w) = false ∧
      decode w = .illegal .unusedFieldNotZero) ∨
    (∃ op, (fieldsOf w).opc = opcodeByte op ∧ unusedZero (fieldUse op) (fieldsOf w) = true ∧
      decode w = .command (instrOf op (fieldsOf w))) := by
  cases hop : opcodeAt (fieldsOf w).opc with
  | none => exact .inl ⟨opcodeAt_eq_none_iff.1 hop, decode_of_undefined hop⟩
  | some op =>
    have hopc := opcodeAt_eq_some_iff.1 hop
    cases hzero : unusedZero (fieldUse op) (fieldsOf w) with
    | false => exact .inr (.inl ⟨op, hopc, hzero, by rw [decode_of_defined hopc, hzero]; rfl⟩)
    | true => exact .inr (.inr ⟨op, hopc, hzero, by rw [decode_of_defined hopc, hzero]; rfl⟩)

theorem decode_eq_undefinedOpcode_iff {w : CommandWord} :
    decode w = .illegal .undefinedOpcode ↔ ∀ op, (fieldsOf w).opc ≠ opcodeByte op := by
  refine ⟨fun h => ?_, fun h => decode_of_undefined (opcodeAt_eq_none_iff.2 h)⟩
  rcases decode_cases w with ⟨hopc, -⟩ | ⟨op, -, -, hd⟩ | ⟨op, -, -, hd⟩
  · exact hopc
  · exact absurd (h.symm.trans hd) (by simp)
  · exact absurd (h.symm.trans hd) (by simp)

theorem decode_eq_unusedFieldNotZero_iff {w : CommandWord} : decode w = .illegal .unusedFieldNotZero ↔
    ∃ op, (fieldsOf w).opc = opcodeByte op ∧ unusedZero (fieldUse op) (fieldsOf w) = false := by
  constructor
  · intro h
    rcases decode_cases w with ⟨-, hd⟩ | ⟨op, hopc, hzero, -⟩ | ⟨op, -, -, hd⟩
    · exact absurd (h.symm.trans hd) (by simp)
    · exact ⟨op, hopc, hzero⟩
    · exact absurd (h.symm.trans hd) (by simp)
  · rintro ⟨op, hopc, hzero⟩
    rw [decode_of_defined hopc, hzero]
    rfl

theorem decode_eq_command_iff {w : CommandWord} {i : Instr} : decode w = .command i ↔
    ∃ op, (fieldsOf w).opc = opcodeByte op ∧ unusedZero (fieldUse op) (fieldsOf w) = true ∧
      instrOf op (fieldsOf w) = i := by
  constructor
  · intro h
    rcases decode_cases w with ⟨-, hd⟩ | ⟨op, -, -, hd⟩ | ⟨op, hopc, hzero, hd⟩
    · exact absurd (h.symm.trans hd) (by simp)
    · exact absurd (h.symm.trans hd) (by simp)
    · exact ⟨op, hopc, hzero, Decoded.command.inj (hd.symm.trans h)⟩
  · rintro ⟨op, hopc, hzero, rfl⟩
    rw [decode_of_defined hopc, hzero]
    rfl

/-- Settles O2: the word of a command has the fields it was written with, and these make the command again. -/
theorem decodeOfEncode : Obligations.DecodeOfEncode := by
  intro i h
  refine decode_eq_command_iff.2 ⟨i.opcode, ?_⟩
  rw [encode, fieldsOf_wordOf]
  exact ⟨operandFields_opc i, unusedZero_operandFields i, instrOf_operandFields h⟩

/-- Settles O3: the fields of a word that decodes are those its command is written with, and they hold every bit of it. -/
theorem encodeOfDecode : Obligations.EncodeOfDecode := by
  intro w i h
  obtain ⟨op, hopc, hzero, rfl⟩ := decode_eq_command_iff.1 h
  refine ⟨?_, wellFormed_instrOf op _⟩
  rw [encode, operandFields_instrOf hopc hzero, wordOf_fieldsOf]

/-! ### The match and mask words -/

/-- A field under its part of the mask is zero iff it is used or zero (30_encoding.md R110). -/
theorem and_mask_eq_zero_iff {n : Nat} (used : Bool) (x : BitVec n) :
    (x &&& if used then 0 else BitVec.allOnes n) = 0 ↔ used = true ∨ x = 0 := by cases used <;> simp

/-- A word matches a row iff it has the row's OPC and zero in every field the row does not use (30_encoding.md R110). -/
theorem and_maskWord_eq_matchWord_iff {w : CommandWord} {op : Opcode} : w &&& maskWord op = matchWord op ↔
    (fieldsOf w).opc = opcodeByte op ∧ unusedZero (fieldUse op) (fieldsOf w) = true := by
  conv_lhs => rw [← wordOf_fieldsOf w, maskWord_eq, matchWord_eq, wordOf_and, wordOf_inj]
  simp only [maskFields, Fields.mk.injEq, and_mask_eq_zero_iff, BitVec.and_allOnes, unusedZero_iff]

theorem matches_opcode_of_decode {w : CommandWord} {i : Instr} (h : decode w = .command i) :
    w &&& maskWord i.opcode = matchWord i.opcode := by
  obtain ⟨op, hopc, hzero, rfl⟩ := decode_eq_command_iff.1 h
  rw [opcode_instrOf]
  exact and_maskWord_eq_matchWord_iff.2 ⟨hopc, hzero⟩

/-- No word matches two rows: they have different OPC values (30_encoding.md R109). -/
theorem row_unique {w : CommandWord} {op op' : Opcode} (h : w &&& maskWord op = matchWord op)
    (h' : w &&& maskWord op' = matchWord op') : op = op' := by
  obtain ⟨hopc, -⟩ := and_maskWord_eq_matchWord_iff.1 h
  obtain ⟨hopc', -⟩ := and_maskWord_eq_matchWord_iff.1 h'
  exact opcodeByte_injective (hopc.symm.trans hopc')

theorem exists_decode_iff_matches {w : CommandWord} {op : Opcode} :
    (∃ i, decode w = .command i ∧ i.opcode = op) ↔ w &&& maskWord op = matchWord op := by
  constructor
  · rintro ⟨i, hd, rfl⟩
    exact matches_opcode_of_decode hd
  · intro h
    obtain ⟨hopc, hzero⟩ := and_maskWord_eq_matchWord_iff.1 h
    exact ⟨_, decode_eq_command_iff.2 ⟨op, hopc, hzero, rfl⟩, opcode_instrOf op _⟩

/-- Settles O4: `match` and `mask` are made of fields, and a word matches a row field by field. -/
theorem decodeIsTableMatch : Obligations.DecodeIsTableMatch :=
  ⟨matchWord_eq, maskWord_eq, fun _ _ => exists_decode_iff_matches⟩

/-- Settles O5: a command matches its own row and no second one, and a word that matches a row is a command. -/
theorem everyWordOneCommandOrIllegal : Obligations.EveryWordOneCommandOrIllegal := by
  intro w
  refine ⟨?_, decode_eq_undefinedOpcode_iff, decode_eq_unusedFieldNotZero_iff⟩
  cases hd : decode w with
  | command i =>
    refine .inl ⟨i, rfl, fun op => ⟨fun h => row_unique h (matches_opcode_of_decode hd), ?_⟩⟩
    rintro rfl
    exact matches_opcode_of_decode hd
  | illegal why =>
    refine .inr ⟨⟨why, rfl⟩, fun op h => ?_⟩
    obtain ⟨i, hi, -⟩ := exists_decode_iff_matches.2 h
    exact absurd (hd.symm.trans hi) (by simp)

/-- Settles O1: each word is taken apart as R113 writes it. -/
theorem workedWordsDecode : Obligations.WorkedWordsDecode := by
  refine ⟨?_, ?_, ?_, ?_, ?_, ?_, ?_, ?_, ?_⟩ <;> decide

end Sys2Proof

/-! SUPPORT. What an illegal word and every command answer at the port: the fields of the response word, and which commands have
results (30_encoding.md R101, R104, R107, R108). -/

namespace Sys2Proof.Machine

/-! ### Illegal words -/

theorem step_of_illegal {s : State} {w : CommandWord} {rest : List PortInput} {why : IllegalReason}
    (hin : s.port.inputs = .command w :: rest) (hd : decode w = .illegal why) :
    step s = .next (refuse .errOpcode (s.taking rest)).counted := by
  rw [step_of_command hin, perform_of_illegal hd, refused_eq, countedOut_next]

/-- Settles O6: both kinds of illegal word are refused alike, and the 29 OPC values lie in groups 0 to 5. -/
theorem illegalWordsRefused : Obligations.IllegalWordsRefused := by
  refine ⟨fun s w rest hin h => ?_, fun op => ?_, by decide⟩
  · rcases h with hundefined | hunused
    · exact step_of_illegal hin (decode_eq_undefinedOpcode_iff.2 hundefined)
    · exact step_of_illegal hin (decode_eq_unusedFieldNotZero_iff.2 hunused)
  · cases op <;> decide

/-! ### The response word -/

/-- The response word has the fields it is made of (30_encoding.md R104). -/
theorem responseWord_fields (r : Response) :
    (responseWord r).extractLsb' 88 8 = statusCode r.status ∧ (responseWord r).extractLsb' 64 24 = 0 ∧
      (responseWord r).extractLsb' 32 32 = r.res0 ∧ (responseWord r).extractLsb' 0 32 = r.res1 := by
  unfold responseWord
  refine ⟨?status, ?zero, ?res0, BitVec.extractLsb'_append_eq_right⟩
  case status =>
    iterate 3 rw [BitVec.extractLsb'_append_eq_of_le (by decide)]
    exact BitVec.extractLsb'_eq_self
  case zero =>
    iterate 2 rw [BitVec.extractLsb'_append_eq_of_le (by decide)]
    exact BitVec.extractLsb'_append_eq_right
  case res0 =>
    rw [BitVec.extractLsb'_append_eq_of_le (by decide)]
    exact BitVec.extractLsb'_append_eq_right

theorem statusCode_ne_zero_iff {code : Status} : statusCode code ≠ 0 ↔ code ≠ .ok := by cases code <;> decide

/-! ### The results of a command -/

/-- The commands with a first result (30_encoding.md R108). -/
def resultCommands : List Opcode := [.regRd, .bqProc, .oscProc, .dlProc, .fdnProc, .hbProc, .hbUp]

/-- A response a command of an opcode may give: zeros with a status other than OK, and a result only where the command has one
(30_encoding.md R104, R108). -/
structure ResponseFits (op : Opcode) (r : Response) : Prop where
  refusal : r.status ≠ .ok → r.res0 = 0 ∧ r.res1 = 0
  second : op ≠ .hbUp → r.res1 = 0
  first : op ∉ resultCommands → r.res0 = 0

/-- Where the outcome is a next state, the response given last is one of `P`. -/
def Answers (P : Response → Prop) (o : Out) : Prop :=
  ∀ t, o = .next t → ∃ r before, t.port.outputs = r :: before ∧ P r

section
variable {P : Response → Prop} {s : State}

theorem Answers.refused {code : Status} (h : P { status := code, res0 := 0, res1 := 0 }) : Answers P (refused code s) :=
  fun _ ht => ⟨_, s.port.outputs, by rw [refused_next ht, refuse_port], h⟩

theorem Answers.respond {r0 r1 : U32} (h : P { status := .ok, res0 := r0, res1 := r1 }) : Answers P (respond r0 r1 s) :=
  fun _ ht => ⟨_, s.port.outputs, by rw [respond_next ht, State.give_port], h⟩

theorem Answers.fault (f : Fault) : Answers P (.fault f) := fun _ ht => by cases ht

theorem Answers.mono {Q : Response → Prop} {o : Out} (h : Answers P o) (hPQ : ∀ r, P r → Q r) :
    Answers Q o := fun t ht => by
  obtain ⟨r, before, hout, hr⟩ := h t ht
  exact ⟨r, before, hout, hPQ r hr⟩

end

/-- A refusal fits every command. -/
theorem ResponseFits.refused (op : Opcode) (code : Status) : ResponseFits op { status := code, res0 := 0, res1 := 0 } :=
  ⟨fun _ => ⟨rfl, rfl⟩, fun _ => rfl, fun _ => rfl⟩

/-- OK without results fits every command. -/
theorem ResponseFits.noResult (op : Opcode) : ResponseFits op { status := .ok, res0 := 0, res1 := 0 } := .refused op .ok

theorem ResponseFits.oneResult {op : Opcode} (h : op ∈ resultCommands) (r0 : U32) :
    ResponseFits op { status := .ok, res0 := r0, res1 := 0 } :=
  ⟨fun hne => absurd rfl hne, fun _ => rfl, fun hno => absurd h hno⟩

theorem ResponseFits.twoResults (r0 r1 : U32) : ResponseFits .hbUp { status := .ok, res0 := r0, res1 := r1 } :=
  ⟨fun hne => absurd rfl hne, fun hne => absurd rfl hne, fun hno => absurd (by decide) hno⟩

section
variable {op : Opcode} {s : State}

theorem answers_check {good : Bool} {code : Status} {go : Out} (hgo : Answers (ResponseFits op) go) :
    Answers (ResponseFits op) (check good code s go) := by
  cases good with
  | true => exact hgo
  | false => exact .refused (.refused op code)

theorem answers_withUnit {α : Type} {units : List α} {u : Nat} {go : α → Out}
    (hgo : ∀ x, Answers (ResponseFits op) (go x)) :
    Answers (ResponseFits op) (withUnit units u s go) := by
  rcases withUnit_cases (rfl : withUnit units u s go = _) with ⟨x, -, e⟩ | ⟨-, e⟩
  · exact e ▸ hgo x
  · exact e ▸ .refused (.refused op _)

theorem answers_withReg {cls unit reg : Nat} {go : Reg → Out} (hgo : ∀ r, Answers (ResponseFits op) (go r)) :
    Answers (ResponseFits op) (withReg s cls unit reg go) := by
  rcases withReg_cases (rfl : withReg s cls unit reg go = _) with ⟨-, r, -, e⟩ | ⟨-, -, e⟩ | ⟨-, e⟩
  · exact e ▸ hgo r
  · exact e ▸ .refused (.refused op _)
  · exact e ▸ .refused (.refused op _)

theorem answers_noResult {s' : State} : Answers (ResponseFits op) (respond 0 0 s') := .respond (.noResult op)

theorem answers_oneResult (h : op ∈ resultCommands) (r0 : U32) {s' : State} :
    Answers (ResponseFits op) (respond r0 0 s') := .respond (.oneResult h r0)

end

/-- Every command gives a response that fits it (30_encoding.md R104, R108). -/
theorem exec_answers (i : Instr) (s : State) : Answers (ResponseFits i.opcode) (exec i s) := by
  cases i with
  | sysSetsr | sysRun | sysSetup | blkBegin | blkEnd => exact answers_check (answers_check answers_noResult)
  | regRd => exact answers_withReg fun _ => answers_oneResult (by simp [Instr.opcode, resultCommands]) _
  | regWr => exact answers_withReg fun _ => answers_check (answers_check (answers_check answers_noResult))
  | bqSetlp | bqSethp | bqSetbp | bqSetnotch | bqSetloshelf | bqSethishelf | bqSetpeak | bqSetap | bqSetdiff | bqSetonepole
  | fdnResize | fdnSetlen => exact answers_withUnit fun _ => answers_check (answers_check answers_noResult)
  | oscSetf | dlSetdelay | dlSetmoddelay => exact answers_withUnit fun _ => answers_check answers_noResult
  | dlResize => exact answers_withUnit fun _ => answers_check (answers_check (answers_check answers_noResult))
  | bqProc | oscProc | fdnProc | hbProc =>
    exact answers_withUnit fun _ => answers_oneResult (by simp [Instr.opcode, resultCommands]) _
  | dlProc =>
    refine answers_withUnit fun l => ?_
    split
    · exact .fault _
    · exact answers_oneResult (by simp [Instr.opcode, resultCommands]) _
  | hbUp => exact answers_withUnit fun _ => .respond (.twoResults _ _)

/-- A response the block may give for a word: zeros with a status other than OK, and what its command, if it is one, may give
(30_encoding.md R104). -/
def WordResponse (w : CommandWord) (r : Response) : Prop :=
  (r.status ≠ .ok → r.res0 = 0 ∧ r.res1 = 0) ∧ ∀ i, decode w = .command i → ResponseFits i.opcode r

theorem perform_answers (w : CommandWord) (s : State) : Answers (WordResponse w) (perform w s) := by
  cases hd : decode w with
  | command i =>
    rw [perform_of_command hd]
    refine (exec_answers i s).mono fun r hr => ⟨hr.refusal, fun j hj => ?_⟩
    exact Decoded.command.inj (hd.symm.trans hj) ▸ hr
  | illegal why =>
    rw [perform_of_illegal hd]
    exact .refused ⟨fun _ => ⟨rfl, rfl⟩, fun i _ => .refused i.opcode _⟩

theorem step_wordResponse {s t : State} {w : CommandWord} {rest : List PortInput} {r : Response}
    (hin : s.port.inputs = .command w :: rest) (hstep : step s = .next t) (hout : t.port.outputs = r :: s.port.outputs) :
    WordResponse w r := by
  rw [step_of_command hin] at hstep
  obtain ⟨t', hperform, rfl⟩ := countedOut_eq_next.1 hstep
  obtain ⟨r', before, hr', hword⟩ := perform_answers w _ _ hperform
  rw [State.counted_port, hr', List.cons.injEq] at hout
  exact hout.1 ▸ hword

/-- Settles O10: the response word is taken apart as it was put together, and every command gives a response that fits it. -/
theorem responseFormat : Obligations.ResponseFormat := by
  refine ⟨responseWord_fields, fun s t w rest r hin hstep hout => ?_⟩
  obtain ⟨hrefusal, hcommand⟩ := step_wordResponse hin hstep hout
  refine ⟨fun hcode => hrefusal (statusCode_ne_zero_iff.1 hcode), fun i hd => ?_⟩
  exact ⟨(hcommand i hd).second, (hcommand i hd).first⟩

end Sys2Proof.Machine

/-! SUPPORT. One register written by REG.WR: what every register reads after it, and by which check it is refused (20_memory.md
R70, R71; 46_system.md R291). -/

namespace Sys2Proof.Machine

/-! ### What a unit's registers read after one is written -/

theorem BqUnit.get_put (b : BqUnit) (r q : BqReg) (v : F) : (b.put r v).get q = if q = r then v else b.get q := by
  cases r <;> cases q <;> rfl

theorem OscUnit.get_put (o : OscUnit) (r q : OscReg) (v : U32) : (o.put r v).get q = if q = r then v else o.get q := by
  cases r <;> cases q <;> rfl

theorem DlUnit.get_put (l : DlUnit) (r q : DlReg) (v : U32) : (l.put r v).get q = if q = r then v else l.get q := by
  cases r <;> cases q <;> rfl

theorem FdnUnit.get_put (f : FdnUnit) (r q : FdnReg) (v : U32) : (f.put r v).get q = if q = r then v else f.get q := by
  cases r <;> cases q <;> rfl

theorem FdnLine.get_put (l : FdnLine) (r q : LineReg) (v : U32) : (l.put r v).get q = if q = r then v else l.get q := by
  cases r <;> cases q <;> rfl

/-- The coefficient of a section is a constant of the configuration (10_state.md R43). -/
theorem HbSection.get_put (h : HbSection) {r : SecReg} (hr : r ≠ .coef) (q : SecReg) (v coef : F) :
    (h.put r v).get coef q = if q = r then v else h.get coef q := by
  cases r with
  | coef => exact absurd rfl hr
  | sx1 | sx2 | sy1 | sy2 => cases q <;> rfl

@[simp] theorem FdnUnit.put_m (f : FdnUnit) (r : FdnReg) (v : U32) : (f.put r v).m = f.m := by cases r <;> rfl

theorem FdnUnit.get_withLines (f : FdnUnit) (lines : List FdnLine) (q : FdnReg) :
    { f with lines := lines }.get q = f.get q := by cases q <;> rfl

/-- An update of one unit leaves a read as it was, if of that unit it keeps what is read. -/
theorem readAt_modify_of_keeps {α : Type} {f : α → α} {g : α → U32} {u v : Nat} (h : u = v → ∀ x, g (f x) = g x)
    (l : List α) :
    readAt (l.modify u f) v g = readAt l v g := by
  by_cases huv : u = v
  · exact readAt_modify_keeps (h huv) l u v
  · exact readAt_modify_other l (Ne.symm huv) f g

theorem readAt_modify_of_lt {α : Type} {l : List α} {u : Nat} (hu : u < l.length) {f : α → α} {g : α → U32} {y : U32}
    (h : ∀ x, l[u]? = some x → g (f x) = y) : readAt (l.modify u f) u g = y := by
  rw [readAt_modify_same, readAt_some (List.getElem?_eq_getElem hu)]
  exact h _ (List.getElem?_eq_getElem hu)

theorem sect_ne_coef_of_writable {u sec : Nat} {r : SecReg} (hw : writable (accessOf (.sect u sec r)) = true) : r ≠ .coef := by
  rintro rfl
  exact absurd hw (by simp [accessOf, writable])

/-! ### What every register reads after one is written -/

section
variable {s : State} {r q : Reg}

/-- REG.WR writes no register but the one it names (46_system.md R291). A matrix entry is left out here: names of entries with
indices out of range share a place with others. -/
theorem readReg_writeReg_of_ne (hw : writable (accessOf r) = true) (hmatrix : ∀ u i j, r ≠ .matrix u i j) (hne : q ≠ r)
    (v : U32) : readReg (writeReg s r v) q = readReg s q := by
  cases r with
  | sys r => rfl
  | bq u r =>
    cases q with
    | bq w q => exact readAt_modify_of_keeps (fun huw b => by rw [b.get_put, if_neg fun e => hne (by rw [huw, e])]) _
    | _ => simp [writeReg]
  | osc u r =>
    cases q with
    | osc w q => exact readAt_modify_of_keeps (fun huw o => by rw [o.get_put, if_neg fun e => hne (by rw [huw, e])]) _
    | _ => simp [writeReg]
  | dl u r =>
    cases q with
    | dl w q => exact readAt_modify_of_keeps (fun huw l => by rw [l.get_put, if_neg fun e => hne (by rw [huw, e])]) _
    | _ => simp [writeReg]
  | fdn u r =>
    cases q with
    | fdn w q => exact readAt_modify_of_keeps (fun huw f => by rw [f.get_put, if_neg fun e => hne (by rw [huw, e])]) _
    | matrix => exact readAt_modify_keeps (fun f => by rw [FdnUnit.put_m]) _ _ _
    | line => exact readAt_modify_keeps (fun f => by rw [FdnUnit.put_lines]) _ _ _
    | _ => simp [writeReg]
  | matrix u i j => exact absurd rfl (hmatrix u i j)
  | line u j r =>
    cases q with
    | fdn w q => exact readAt_modify_keeps (fun f => f.get_withLines _ q) _ _ _
    | matrix => exact readAt_modify_keeps (fun _ => by rfl) _ _ _
    | line w k q =>
      refine readAt_modify_of_keeps (fun huw f => ?_) _
      exact readAt_modify_of_keeps (fun hjk l => by rw [l.get_put, if_neg fun e => hne (by rw [huw, hjk, e])]) _
    | _ => simp [writeReg]
  | bdly u =>
    cases q with
    | bdly w => exact readAt_modify_of_keeps (fun huw => absurd (by rw [huw]) hne) _
    | sect => exact readAt_modify_keeps (fun _ => by rfl) _ _ _
    | _ => simp [writeReg]
  | sect u sec r =>
    have hr := sect_ne_coef_of_writable hw
    cases q with
    | bdly => exact readAt_modify_keeps (fun _ => by rfl) _ _ _
    | sect w k q =>
      refine readAt_modify_of_keeps (fun huw h => ?_) _
      exact readAt_modify_of_keeps (fun hjk x => by rw [x.get_put hr, if_neg fun e => hne (by rw [huw, hjk, e])]) _
    | _ => simp [writeReg]

theorem matrixPlace_lt {i j n : Nat} (hn : n ≤ 16) (hi : i < n) (hj : j < n) : matrixPlace i j < 256 := by
  unfold matrixPlace
  omega

/-- A register REG.WR may write reads what was written (46_system.md R291). -/
theorem readReg_writeReg_same (h : Sound s) (hw : writable (accessOf r) = true)
    (hu : unitExists s (regTriple r).1 (regTriple r).2.1 = true) (hr : inRange s r) (v : U32) :
    readReg (writeReg s r v) r = v := by
  cases r with
  | sys r => exact absurd hw (by simp [accessOf, writable])
  | bq u r =>
    refine readAt_modify_of_lt (of_decide_eq_true hu) fun b _ => ?_
    rw [b.get_put, if_pos rfl]
  | osc u r =>
    refine readAt_modify_of_lt (of_decide_eq_true hu) fun o _ => ?_
    rw [o.get_put, if_pos rfl]
  | dl u r =>
    refine readAt_modify_of_lt (of_decide_eq_true hu) fun l _ => ?_
    rw [l.get_put, if_pos rfl]
  | fdn u r =>
    refine readAt_modify_of_lt (of_decide_eq_true hu) fun f _ => ?_
    rw [f.get_put, if_pos rfl]
  | matrix u i j =>
    refine readAt_modify_of_lt (of_decide_eq_true hu) fun f hf => ?_
    obtain ⟨hn, -, hm, -⟩ := h.fdn f (List.mem_of_getElem? hf)
    obtain ⟨hi, hj⟩ : i < fdnLineCount s u ∧ j < fdnLineCount s u := hr
    have hplace : matrixPlace i j < f.m.length := hm ▸ matrixPlace_lt (h.fdnLineCount_le u) hi hj
    simp [List.getD_eq_getElem?_getD, hplace]
  | line u j r =>
    refine readAt_modify_of_lt (of_decide_eq_true hu) fun f hf => ?_
    obtain ⟨-, hlines, -, -⟩ := h.fdn f (List.mem_of_getElem? hf)
    have hj : j < fdnLineCount s u := hr
    have hle := h.fdnLineCount_le u
    exact readAt_modify_of_lt (by omega) fun l _ => by rw [l.get_put, if_pos rfl]
  | bdly u => exact readAt_modify_of_lt (of_decide_eq_true hu) fun _ _ => rfl
  | sect u sec r =>
    refine readAt_modify_of_lt (of_decide_eq_true hu) fun x hx => ?_
    have hlen : x.secs.length = 2 * s.cfg.hbNsec := h.hb x (List.mem_of_getElem? hx)
    have hsec : sec < 2 * s.cfg.hbNsec := hr
    exact readAt_modify_of_lt (by omega) fun y _ => by rw [y.get_put (sect_ne_coef_of_writable hw), if_pos rfl]

/-! ### REG.WR of a register by its name -/

theorem fdnRegAt_line_eq_none {u j : Nat} (hj : fdnLineCount s u ≤ j) (q : LineReg) :
    fdnRegAt s u (0x200 + 16 * j + lineRegs.idxOf q) = none := by
  have hq := lineRegs_idxOf_lt q
  obtain ⟨hdiv, -⟩ := row_sub_div_mod 0x200 j (show lineRegs.idxOf q < 16 by omega)
  have hnotLow : ¬ 0x200 + 16 * j + lineRegs.idxOf q < 0x100 := by omega
  have hnotMatrix : ¬ 0x200 + 16 * j + lineRegs.idxOf q < 0x200 := by omega
  simp only [fdnRegAt, if_neg hnotLow, if_neg hnotMatrix, hdiv, if_neg (Nat.not_lt.2 hj), ite_self]

theorem hbRegAt_sect_eq_none {u sec : Nat} (hsec : 2 * s.cfg.hbNsec ≤ sec) (q : SecReg) :
    hbRegAt s u (0x100 + 16 * sec + secRegs.idxOf q) = none := by
  have hq := secRegs_idxOf_lt q
  obtain ⟨hdiv, -⟩ := row_sub_div_mod 0x100 sec (show secRegs.idxOf q < 16 by omega)
  have hne : 0x100 + 16 * sec + secRegs.idxOf q ≠ 0 := by omega
  simp only [hbRegAt, if_neg hne, hdiv, if_neg (Nat.not_lt.2 hsec), ite_self]

/-- The line and section registers with indices out of range have no number that is defined (20_memory.md R71). -/
theorem regAt_regTriple_eq_none (hmatrix : ∀ u i j, r ≠ .matrix u i j) (hr : ¬ inRange s r) :
    regAt s (regTriple r).1 (regTriple r).2.1 (regTriple r).2.2 = none := by
  cases r with
  | matrix u i j => exact absurd rfl (hmatrix u i j)
  | line u j q => exact fdnRegAt_line_eq_none (Nat.not_lt.1 hr) q
  | sect u sec q => exact hbRegAt_sect_eq_none (Nat.not_lt.1 hr) q
  | sys | bq | osc | dl | fdn | bdly => exact absurd trivial hr

/-- A REG.WR of a register by its name passes every check (46_system.md R291). -/
structure RegWrPasses (s : State) (r : Reg) (v : U32) : Prop where
  unit : unitExists s (regTriple r).1 (regTriple r).2.1 = true
  range : inRange s r
  mayWrite : writable (accessOf r) = true
  outside : inBlock s = false
  legal : valueLegal (accessOf r) v = true

/-- In a sound state REG.WR finds a register whose indices are in range, and checks the rest (46_system.md R291). -/
theorem exec_regWrOf_of_inRange (h : Sound s) (hu : unitExists s (regTriple r).1 (regTriple r).2.1 = true)
    (hr : inRange s r) (v : U32) : exec (regWrOf r v) s =
      check (writable (accessOf r)) .errReg s (check (!inBlock s) .errInblk s
        (check (valueLegal (accessOf r) v) .errConfig s (respond 0 0 (writeReg s r v)))) :=
  withReg_some hu (h.regAt_regTriple hr rfl) _

theorem exec_regWrOf_of_passes (h : Sound s) {v : U32} (hp : RegWrPasses s r v) : exec (regWrOf r v) s =
    .next ((writeReg s r v).give { status := .ok, res0 := 0, res1 := 0 }) := by
  rw [exec_regWrOf_of_inRange h hp.unit hp.range, hp.mayWrite, hp.outside, hp.legal]
  rfl

theorem exec_regWrOf_errUnit (hu : unitExists s (regTriple r).1 (regTriple r).2.1 = false) (v : U32) :
    exec (regWrOf r v) s = .next (refuse .errUnit s) := check_not hu _ _ _

theorem exec_regWrOf_errReg (hu : unitExists s (regTriple r).1 (regTriple r).2.1 = true)
    (hmatrix : ∀ u i j, r ≠ .matrix u i j) (hr : ¬ inRange s r) (v : U32) :
    exec (regWrOf r v) s = .next (refuse .errReg s) := by
  simp only [regWrOf, exec, execRegWr, withReg, hu, check_true, regAt_regTriple_eq_none hmatrix hr, refused_eq]

theorem exec_regWrOf_errInblk (h : Sound s) (hu : unitExists s (regTriple r).1 (regTriple r).2.1 = true)
    (hr : inRange s r) (hw : writable (accessOf r) = true) (hin : inBlock s = true) (v : U32) :
    exec (regWrOf r v) s = .next (refuse .errInblk s) := by
  rw [exec_regWrOf_of_inRange h hu hr, hw, hin]
  rfl

theorem exec_regWrOf_errConfig (h : Sound s) (hu : unitExists s (regTriple r).1 (regTriple r).2.1 = true)
    (hr : inRange s r) (hw : writable (accessOf r) = true) (hout : inBlock s = false) {v : U32}
    (hv : valueLegal (accessOf r) v = false) : exec (regWrOf r v) s = .next (refuse .errConfig s) := by
  rw [exec_regWrOf_of_inRange h hu hr, hw, hout, hv]
  rfl

/-- Which indices are in range depends on the configuration and on the `N` registers alone (10_state.md R39, R40, R44). -/
theorem inRange_congr {t : State} (hcfg : t.cfg = s.cfg) (hn : ∀ u, fdnLineCount t u = fdnLineCount s u) :
    inRange t r ↔ inRange s r := by cases r <;> simp only [inRange, hcfg, hn]

theorem fdnLineCount_writeReg (hw : writable (accessOf r) = true) (v : U32) (u : Nat) :
    fdnLineCount (writeReg s r v) u = fdnLineCount s u := by
  rw [fdnLineCount_eq_readReg, fdnLineCount_eq_readReg, readReg_writeReg_n hw]

/-- One register write and its response leave the checks of another as they were. -/
theorem RegWrPasses.after (hp : RegWrPasses s r v) (hw : writable (accessOf q) = true) (x : U32) (rsp : Response) :
    RegWrPasses ((writeReg s q x).give rsp) r v where
  unit := by simpa using hp.unit
  range := (inRange_congr (Kept.writeReg s q x).cfg (fdnLineCount_writeReg hw x)).2 hp.range
  mayWrite := hp.mayWrite
  outside := by simpa using hp.outside
  legal := hp.legal

end

theorem memSame_writeReg (s : State) (r : Reg) (v : U32) : memSame s (writeReg s r v) :=
  ⟨dlSample_writeReg s r v, lineSample_writeReg s r v⟩

theorem memSame.trans {s t w : State} (h : memSame s t) (h' : memSame t w) : memSame s w := by
  obtain ⟨hdl, hlines⟩ := h
  obtain ⟨hdl', hlines'⟩ := h'
  exact ⟨fun u i => (hdl' u i).trans (hdl u i), fun u j i => (hlines' u j i).trans (hlines u j i)⟩

end Sys2Proof.Machine

/-! SUPPORT. Lists of REG.WR performed in order, and the eleven pseudo-commands as such lists (30_encoding.md R112). -/

namespace Sys2Proof.Machine

/-! ### Lists of REG.WR -/

theorem execUntilRefused_cons_refused {i : Instr} {s : State} {code : Status} (hcode : code ≠ .ok)
    (h : exec i s = .next (refuse code s)) (rest : List Instr) :
    execUntilRefused (i :: rest) s = .next (refuse code s) := by
  have hlast : lastStatus (refuse code s) ≠ some .ok := fun e => hcode (Option.some.inj e)
  simp only [execUntilRefused, h, if_neg hlast]

theorem execUntilRefused_cons_ok {i : Instr} {s s' : State} {r0 r1 : U32}
    (h : exec i s = .next (s'.give { status := .ok, res0 := r0, res1 := r1 })) (rest : List Instr) :
    execUntilRefused (i :: rest) s = execUntilRefused rest (s'.give { status := .ok, res0 := r0, res1 := r1 }) := by
  have hlast : lastStatus (s'.give { status := .ok, res0 := r0, res1 := r1 }) = some .ok := rfl
  simp only [execUntilRefused, h, if_pos hlast]

/-- The REG.WR commands that write registers by name. -/
def regWrs (ws : List (Reg × U32)) : List Instr := ws.map fun x => regWrOf x.1 x.2

/-- The next state of writes that all pass: they and nothing else are written, and each is answered with OK. -/
def WritesDone (s t : State) (ws : List (Reg × U32)) : Prop :=
  regsExcept s t ws ∧ memSame s t ∧
    t.port = { s.port with
      outputs := List.replicate ws.length { status := .ok, res0 := 0, res1 := 0 } ++ s.port.outputs }

/-- One write in front of others to other registers. -/
theorem WritesDone.cons {s t : State} {r : Reg} {v : U32} {ws : List (Reg × U32)} (h : Sound s) (hp : RegWrPasses s r v)
    (hmatrix : ∀ u i j, r ≠ .matrix u i j) (hfresh : r ∉ ws.map Prod.fst)
    (hdone : WritesDone ((writeReg s r v).give { status := .ok, res0 := 0, res1 := 0 }) t ws) :
    WritesDone s t ((r, v) :: ws) := by
  obtain ⟨hregs, hmem, hport⟩ := hdone
  refine ⟨fun q => ?_, (memSame_writeReg s r v).trans hmem, ?_⟩
  · rw [hregs q, readReg_give, lookup_reg_cons]
    by_cases hq : q = r
    · subst hq
      have hnone : ws.lookup q = none := List.lookup_eq_none_iff.2 fun x hx =>
        bne_iff_ne.2 fun e => hfresh (List.mem_map.2 ⟨x, hx, e.symm⟩)
      rw [hnone, if_pos rfl]
      exact readReg_writeReg_same h hp.mayWrite hp.unit hp.range v
    · rw [if_neg hq, readReg_writeReg_of_ne hp.mayWrite hmatrix hq]
  · rw [hport, State.give_port, (Kept.writeReg s r v).port, List.length_cons, List.replicate_succ', List.append_assoc]
    rfl

/-- Writes of different registers that pass every check are all done, in order. -/
theorem exists_execUntilRefused_regWrs {ws : List (Reg × U32)} (hnodup : (ws.map Prod.fst).Nodup)
    (hmatrix : ∀ x ∈ ws, ∀ u i j, x.1 ≠ .matrix u i j) {s : State} (h : Sound s)
    (hp : ∀ x ∈ ws, RegWrPasses s x.1 x.2) :
    ∃ t, execUntilRefused (regWrs ws) s = .next t ∧ WritesDone s t ws := by
  induction ws generalizing s with
  | nil => exact ⟨s, rfl, fun _ => rfl, memSame_refl s, rfl⟩
  | cons x ws ih =>
    obtain ⟨r, v⟩ := x
    obtain ⟨hfresh, hnodup⟩ := List.nodup_cons.1 hnodup
    obtain ⟨hr, hmatrix⟩ := List.forall_mem_cons.1 hmatrix
    obtain ⟨hrv, hp⟩ := List.forall_mem_cons.1 hp
    obtain ⟨t, hexec, hdone⟩ := ih hnodup hmatrix ((h.writeReg hrv.mayWrite hrv.legal).give _)
      fun y hy => (hp y hy).after hrv.mayWrite v _
    exact ⟨t, (execUntilRefused_cons_ok (exec_regWrOf_of_passes h hrv) (regWrs ws)).trans hexec, hdone.cons h hrv hr hfresh⟩

/-! ### The pseudo-commands -/

/-- The class of the unit a pseudo-command writes. -/
def Pseudo.cls : Pseudo → Nat
  | .bqSetcoef .. | .bqClear _ => 1
  | .oscSetphase .. | .oscSetwave .. => 2
  | .dlSetkind .. | .dlSetmix .. | .dlSetfixed .. => 3
  | .fdnSetfb .. | .fdnSetratio .. | .fdnSetdamp .. => 4
  | .hbClear _ => 5

/-- The unit a pseudo-command writes. -/
def Pseudo.unit : Pseudo → Nat
  | .bqSetcoef u .. | .bqClear u | .oscSetphase u _ | .oscSetwave u _ | .dlSetkind u _ | .dlSetmix u .. | .dlSetfixed u _
  | .fdnSetfb u _ | .fdnSetratio u _ | .fdnSetdamp u .. | .hbClear u => u

/-- The registers of a section that HB.CLEAR writes, with their values. -/
def clearedSection (u sec : Nat) : List (Reg × U32) :=
  [(.sect u sec .sx1, F.zero), (.sect u sec .sx2, F.zero), (.sect u sec .sy1, F.zero), (.sect u sec .sy2, F.zero)]

/-- The registers a pseudo-command writes, with their values, in a block with `nsec` half-band sections a cascade. -/
def Pseudo.writes (nsec : Nat) : Pseudo → List (Reg × U32)
  | .bqSetcoef u a0 a1 a2 b1 b2 => [(.bq u .a0, a0), (.bq u .a1, a1), (.bq u .a2, a2), (.bq u .b1, b1), (.bq u .b2, b2)]
  | .bqClear u => [(.bq u .x1, F.zero), (.bq u .x2, F.zero), (.bq u .y1, F.zero), (.bq u .y2, F.zero)]
  | .oscSetphase u p => [(.osc u .phase, p)]
  | .oscSetwave u w => [(.osc u .wave, w)]
  | .dlSetkind u k => [(.dl u .kind, k)]
  | .dlSetmix u dry ff fb => [(.dl u .gDry, dry), (.dl u .gFf, ff), (.dl u .gFb, fb)]
  | .dlSetfixed u n => [(.dl u .fixdly, n)]
  | .fdnSetfb u g => [(.fdn u .fb, g)]
  | .fdnSetratio u r => [(.fdn u .ratio, r)]
  | .fdnSetdamp u j a0 a1 a2 b1 b2 =>
    [(.line u j .da0, a0), (.line u j .da1, a1), (.line u j .da2, a2), (.line u j .db1, b1), (.line u j .db2, b2)]
  | .hbClear u => (.bdly u, F.zero) :: (List.range (2 * nsec)).flatMap (clearedSection u)

/-- The line a pseudo-command names, if it names one, is in use. -/
def Pseudo.reached (s : State) : Pseudo → Prop
  | .fdnSetdamp u j .. => j < fdnLineCount s u
  | _ => True

/-- The value a pseudo-command gives an RW-enum register, if it gives one, is legal (10_state.md R22). -/
def Pseudo.legal : Pseudo → Prop
  | .oscSetwave _ w => w.toNat ≤ 1
  | .dlSetkind _ k => k.toNat ≤ 2
  | _ => True

/-- The expansion of a pseudo-command is the list of its writes (30_encoding.md R112). -/
theorem expand_eq_regWrs (nsec : Nat) (p : Pseudo) : expand nsec p = regWrs (p.writes nsec) := by
  cases p with
  | hbClear u => simp only [expand, Pseudo.writes, regWrs, List.map_cons, List.map_flatMap]; rfl
  | _ => rfl

theorem exists_writes_eq_cons (nsec : Nat) (p : Pseudo) : ∃ x rest, p.writes nsec = x :: rest := by
  cases p <;> exact ⟨_, _, rfl⟩

/-- What holds of the writes to BDLY and to every section holds of the writes of HB.CLEAR. -/
theorem forall_mem_writes_hbClear {nsec u : Nat} {P : Reg × U32 → Prop} (hbdly : P (.bdly u, F.zero))
    (hsect : ∀ sec, sec < 2 * nsec → ∀ r, r ≠ .coef → P (.sect u sec r, F.zero)) :
    ∀ x ∈ (Pseudo.hbClear u).writes nsec, P x := by
  refine List.forall_mem_cons.2 ⟨hbdly, fun x hx => ?_⟩
  obtain ⟨sec, hsec, hx⟩ := List.mem_flatMap.1 hx
  have hall : ∀ y ∈ clearedSection u sec, P y := by
    simp [clearedSection, hsect sec (List.mem_range.1 hsec)]
  exact hall x hx

/-- A pseudo-command writes registers of its own unit, which REG.WR may write, and no matrix entry. -/
theorem shape_of_mem_writes (nsec : Nat) (p : Pseudo) : ∀ x ∈ p.writes nsec,
    ((regTriple x.1).1 = p.cls ∧ (regTriple x.1).2.1 = p.unit) ∧ writable (accessOf x.1) = true ∧
      ∀ u i j, x.1 ≠ .matrix u i j := by
  cases p with
  | hbClear u =>
    refine forall_mem_writes_hbClear ⟨⟨rfl, rfl⟩, rfl, by simp⟩ fun sec _ r hr => ⟨⟨rfl, rfl⟩, ?_, by simp⟩
    cases r with
    | coef => exact absurd rfl hr
    | sx1 | sx2 | sy1 | sy2 => rfl
  | _ => simp [Pseudo.writes, regTriple, Pseudo.cls, Pseudo.unit, accessOf, writable]

/-- The registers a pseudo-command writes are in range together (10_state.md R40, R44). -/
theorem inRange_iff_of_mem_writes (s : State) (p : Pseudo) :
    ∀ x ∈ p.writes s.cfg.hbNsec, (inRange s x.1 ↔ p.reached s) := by
  cases p with
  | hbClear u => exact forall_mem_writes_hbClear Iff.rfl fun sec hsec r _ => iff_of_true hsec trivial
  | _ => simp [Pseudo.writes, inRange, Pseudo.reached]

/-- The values a pseudo-command gives are legal together (10_state.md R22). -/
theorem valueLegal_iff_of_mem_writes (nsec : Nat) (p : Pseudo) :
    ∀ x ∈ p.writes nsec, (valueLegal (accessOf x.1) x.2 = true ↔ p.legal) := by
  cases p with
  | hbClear u =>
    refine forall_mem_writes_hbClear (iff_of_true rfl trivial) fun sec _ r _ => iff_of_true ?_ trivial
    cases r <;> rfl
  | _ => simp [Pseudo.writes, accessOf, valueLegal, Pseudo.legal]

/-- A pseudo-command writes no register twice. -/
theorem nodup_writes (nsec : Nat) (p : Pseudo) : ((p.writes nsec).map Prod.fst).Nodup := by
  cases p with
  | hbClear u =>
    rw [Pseudo.writes, List.map_cons, List.map_flatMap, List.nodup_cons, List.nodup_flatMap]
    refine ⟨by simp [clearedSection], fun sec _ => by simp [clearedSection], ?_⟩
    refine (List.nodup_range (n := 2 * nsec)).imp fun {a b} hab => ?_
    simp [clearedSection, List.disjoint_left, hab]
  | _ => simp [Pseudo.writes]

theorem unitExists_cls_iff (s : State) (p : Pseudo) :
    unitExists s p.cls p.unit = true ↔ p.unit < classCount s p.cls := by
  cases p <;> exact decide_eq_true_iff

section
variable {s : State} {p : Pseudo}

/-- Where every write of a pseudo-command would be refused alike, the pseudo-command is refused so (log 16). -/
theorem execPseudo_of_refused {code : Status} (hcode : code ≠ .ok)
    (h : ∀ x ∈ p.writes s.cfg.hbNsec, exec (regWrOf x.1 x.2) s = .next (refuse code s)) :
    execPseudo p s = .next (refuse code s) := by
  obtain ⟨x, rest, hw⟩ := exists_writes_eq_cons s.cfg.hbNsec p
  rw [execPseudo, expand_eq_regWrs, hw]
  exact execUntilRefused_cons_refused hcode (h x (by simp [hw])) _

theorem unitExists_of_mem_writes {x : Reg × U32} (hx : x ∈ p.writes s.cfg.hbNsec) :
    unitExists s (regTriple x.1).1 (regTriple x.1).2.1 = unitExists s p.cls p.unit := by
  obtain ⟨⟨hcls, hunit⟩, -⟩ := shape_of_mem_writes s.cfg.hbNsec p x hx
  rw [hcls, hunit]

theorem execPseudo_errUnit (hu : unitExists s p.cls p.unit = false) : execPseudo p s = .next (refuse .errUnit s) :=
  execPseudo_of_refused (by decide) fun x hx => exec_regWrOf_errUnit ((unitExists_of_mem_writes hx).trans hu) x.2

theorem execPseudo_errReg (hu : unitExists s p.cls p.unit = true) (hr : ¬ p.reached s) :
    execPseudo p s = .next (refuse .errReg s) :=
  execPseudo_of_refused (by decide) fun x hx => by
    obtain ⟨-, -, hmatrix⟩ := shape_of_mem_writes s.cfg.hbNsec p x hx
    exact exec_regWrOf_errReg ((unitExists_of_mem_writes hx).trans hu) hmatrix
      (mt (inRange_iff_of_mem_writes s p x hx).1 hr) x.2

theorem execPseudo_errInblk (h : Sound s) (hu : unitExists s p.cls p.unit = true) (hr : p.reached s)
    (hin : inBlock s = true) : execPseudo p s = .next (refuse .errInblk s) :=
  execPseudo_of_refused (by decide) fun x hx => by
    obtain ⟨-, hw, -⟩ := shape_of_mem_writes s.cfg.hbNsec p x hx
    exact exec_regWrOf_errInblk h ((unitExists_of_mem_writes hx).trans hu) ((inRange_iff_of_mem_writes s p x hx).2 hr) hw
      hin x.2

theorem execPseudo_errConfig (h : Sound s) (hu : unitExists s p.cls p.unit = true) (hr : p.reached s)
    (hout : inBlock s = false) (hv : ¬ p.legal) : execPseudo p s = .next (refuse .errConfig s) :=
  execPseudo_of_refused (by decide) fun x hx => by
    obtain ⟨-, hw, -⟩ := shape_of_mem_writes s.cfg.hbNsec p x hx
    exact exec_regWrOf_errConfig h ((unitExists_of_mem_writes hx).trans hu) ((inRange_iff_of_mem_writes s p x hx).2 hr) hw
      hout (Bool.eq_false_iff.2 (mt (valueLegal_iff_of_mem_writes _ p x hx).1 hv))

theorem exists_execPseudo_done (h : Sound s) (hu : unitExists s p.cls p.unit = true) (hr : p.reached s)
    (hout : inBlock s = false) (hv : p.legal) :
    ∃ t, execPseudo p s = .next t ∧ WritesDone s t (p.writes s.cfg.hbNsec) := by
  have hshape := shape_of_mem_writes s.cfg.hbNsec p
  rw [execPseudo, expand_eq_regWrs]
  have hmatrix : ∀ x ∈ p.writes s.cfg.hbNsec, ∀ u i j, x.1 ≠ .matrix u i j := fun x hx => by
    obtain ⟨-, -, hx⟩ := hshape x hx
    exact hx
  refine exists_execUntilRefused_regWrs (nodup_writes _ p) hmatrix h fun x hx => ?_
  obtain ⟨-, hw, -⟩ := hshape x hx
  exact ⟨(unitExists_of_mem_writes hx).trans hu, (inRange_iff_of_mem_writes s p x hx).2 hr, hw, hout,
    (valueLegal_iff_of_mem_writes _ p x hx).2 hv⟩

theorem forall_inRange_writes_iff : (∀ x ∈ p.writes s.cfg.hbNsec, inRange s x.1) ↔ p.reached s := by
  refine ⟨fun hall => ?_, fun hr x hx => (inRange_iff_of_mem_writes s p x hx).2 hr⟩
  obtain ⟨x, rest, hw⟩ := exists_writes_eq_cons s.cfg.hbNsec p
  have hx : x ∈ p.writes s.cfg.hbNsec := by simp [hw]
  exact (inRange_iff_of_mem_writes s p x hx).1 (hall x hx)

theorem inBlock_iff_readReg : inBlock s = true ↔ readReg s (.sys .inblk) = 1 := decide_eq_true_iff

end

/-- Settles O58: a row of the statement is the class, the unit and the writes of its pseudo-command, whose writes pass or fail
each check together. -/
theorem pseudoCommands : Obligations.PseudoCommands := by
  intro s u j a0 a1 a2 b1 b2 p cls ws h hrow reached legal
  obtain ⟨rfl, rfl, rfl, hlegal⟩ :
      ws = p.writes s.cfg.hbNsec ∧ cls = p.cls ∧ u = p.unit ∧ (legal ↔ p.legal) := by
    simp only [List.mem_cons, Prod.mk.injEq, List.not_mem_nil, or_false] at hrow
    rcases hrow with ⟨rfl, rfl, rfl⟩ | ⟨rfl, rfl, rfl⟩ | ⟨rfl, rfl, rfl⟩ | ⟨rfl, rfl, rfl⟩ | ⟨rfl, rfl, rfl⟩ |
      ⟨rfl, rfl, rfl⟩ | ⟨rfl, rfl, rfl⟩ | ⟨rfl, rfl, rfl⟩ | ⟨rfl, rfl, rfl⟩ | ⟨rfl, rfl, rfl⟩ | ⟨rfl, rfl, rfl⟩ <;>
      exact ⟨rfl, rfl, rfl, by simp [legal, Pseudo.legal]⟩
  have hreached : reached ↔ p.reached s := forall_inRange_writes_iff
  rw [hreached, hlegal, ne_eq, ← inBlock_iff_readReg, ← unitExists_cls_iff, Bool.not_eq_true]
  refine ⟨fun hu => execPseudo_errUnit ?_, execPseudo_errReg, execPseudo_errInblk h, execPseudo_errConfig h,
    exists_execPseudo_done h⟩
  exact Bool.eq_false_iff.2 (mt (unitExists_cls_iff s p).1 (Nat.not_lt.2 hu))

end Sys2Proof.Machine

/-! SUPPORT. The one rounding of 40_numerics.md R132, R133: the magnitude a pattern stands for, what it is for a pattern to
be the rounding of a real magnitude, and that `roundMag` gives that pattern. -/

namespace Sys2Proof.Machine

/-! ### The magnitude of a pattern -/

/-- The magnitude, in units of 2^-149, that a magnitude pattern stands for. -/
def unitsOfMag (m : Nat) : Nat := if m / 2 ^ 23 = 0 then m else (2 ^ 23 + m % 2 ^ 23) * 2 ^ (m / 2 ^ 23 - 1)

theorem magUnits_eq (v : F) : magUnits v = unitsOfMag (v.toNat % 2 ^ 31) := by
  have hexp : expField v = v.toNat % 2 ^ 31 / 2 ^ 23 := by unfold expField; omega
  have hfrac : fracField v = v.toNat % 2 ^ 31 % 2 ^ 23 := by unfold fracField; omega
  unfold magUnits unitsOfMag
  rw [hexp, hfrac]
  split
  · omega
  · rfl

theorem magUnits_pack {neg : Bool} {mag : Nat} (h : mag < 2 ^ 31) : magUnits (pack neg mag) = unitsOfMag mag := by
  rw [magUnits_eq, pack_mod h]

@[simp] theorem unitsOfMag_zero : unitsOfMag 0 = 0 := rfl

/-- The pattern `q + s * 2^23` of a significand `q` at the step `2^s`; the significand 2^24 carries into the exponent. -/
theorem unitsOfMag_significand {q s : Nat} (hq : q ≤ 2 ^ 24) (hs : s = 0 ∨ 2 ^ 23 ≤ q) :
    unitsOfMag (q + s * 2 ^ 23) = q * 2 ^ s := by
  unfold unitsOfMag
  rcases Nat.lt_or_ge q (2 ^ 23) with hlow | hhigh
  · obtain rfl : s = 0 := by omega
    rw [if_pos (by omega), pow_zero]
    omega
  · rcases Nat.lt_or_ge q (2 ^ 24) with hlt | hge
    · have hexp : (q + s * 2 ^ 23) / 2 ^ 23 = s + 1 := by omega
      have hfrac : 2 ^ 23 + (q + s * 2 ^ 23) % 2 ^ 23 = q := by omega
      rw [hexp, hfrac, if_neg (Nat.succ_ne_zero s), Nat.add_sub_cancel]
    · obtain rfl : q = 2 ^ 24 := by omega
      have hexp : (2 ^ 24 + s * 2 ^ 23) / 2 ^ 23 = s + 1 + 1 := by omega
      have hfrac : (2 ^ 24 + s * 2 ^ 23) % 2 ^ 23 = 0 := by omega
      rw [hexp, hfrac, if_neg (Nat.succ_ne_zero _), Nat.add_sub_cancel, pow_succ]
      ring

/-- Every pattern has a significand below 2^24, at or above 2^23 but for the least step. -/
theorem exists_significand (m : Nat) : ∃ q s, q < 2 ^ 24 ∧ (s = 0 ∨ 2 ^ 23 ≤ q) ∧ m = q + s * 2 ^ 23 :=
  ⟨m - (m / 2 ^ 23 - 1) * 2 ^ 23, m / 2 ^ 23 - 1, by omega, by omega, by omega⟩

theorem unitsOfMag_strictMono : StrictMono unitsOfMag := by
  refine strictMono_nat_of_lt_succ fun m => ?_
  obtain ⟨q, s, hq, hs, rfl⟩ := exists_significand m
  rw [Nat.add_right_comm, unitsOfMag_significand hq.le hs, unitsOfMag_significand hq (by omega)]
  exact Nat.mul_lt_mul_of_pos_right (Nat.lt_succ_self q) (Nat.two_pow_pos s)

/-- Patterns off the grid of step `2^s` lie below the magnitudes that have this step. -/
theorem unitsOfMag_on_grid_or_lt (m s : Nat) : 2 ^ s ∣ unitsOfMag m ∨ unitsOfMag m < 2 ^ 23 * 2 ^ s := by
  obtain ⟨q, e, hq, he, rfl⟩ := exists_significand m
  rw [unitsOfMag_significand hq.le he]
  rcases Nat.lt_or_ge e s with hlt | hge
  · right
    calc q * 2 ^ e < 2 ^ 24 * 2 ^ e := Nat.mul_lt_mul_of_pos_right hq (Nat.two_pow_pos e)
      _ = 2 ^ 23 * 2 ^ (e + 1) := by rw [pow_succ]; ring
      _ ≤ 2 ^ 23 * 2 ^ s := Nat.mul_le_mul_left _ (Nat.pow_le_pow_right (by decide) hlt)
  · exact .inl (Dvd.dvd.mul_left (pow_dvd_pow 2 hge) q)

/-! ### The rounding of a real magnitude -/

/-- The magnitude pattern `m` is the real magnitude `x` (in units of 2^-149) rounded to nearest, ties to even, with infinity
from half a step above the largest finite value on. -/
structure RoundsMag (x : ℝ) (m : Nat) : Prop where
  le_infMag : m ≤ infMag
  eq_infMag_iff : m = infMag ↔ 2 ^ 277 - 2 ^ 252 ≤ x
  nearest : m < infMag → ∀ k, |x - unitsOfMag m| ≤ |x - unitsOfMag k|
  even_of_tie : m < infMag → ∀ k, |x - unitsOfMag m| = |x - unitsOfMag k| → k ≠ m → m % 2 = 0

/-- No multiple of the step is nearer to `x` than one within half a step, and only a tie lets another be as near. -/
theorem abs_sub_grid {x D : ℝ} (hD : 0 < D) {q j : Int} (hne : j ≠ q) (hclose : |x - q * D| ≤ D / 2) :
    D / 2 ≤ |x - j * D| := by
  have hstep : D ≤ |(q - j : ℝ) * D| := by
    rw [abs_mul, abs_of_pos hD]
    have h1 : (1 : ℝ) ≤ |(q - j : ℝ)| := by
      exact_mod_cast Int.one_le_abs (sub_ne_zero.2 hne.symm)
    nlinarith
  have htri : |(q - j : ℝ) * D| ≤ |x - j * D| + |x - q * D| := by
    rw [show (q - j : ℝ) * D = (x - j * D) - (x - q * D) by ring]
    exact abs_sub _ _
  linarith

section
variable {x : ℝ} {q s : Nat}

/-- A significand within half a step of a magnitude that has this step is one of that step, or the carry out of it. -/
theorem significand_of_close (hlow : s = 0 ∨ 2 ^ 23 * 2 ^ s ≤ x) (hhigh : x < 2 ^ 24 * 2 ^ s)
    (hclose : |x - q * 2 ^ s| ≤ 2 ^ s / 2) : q ≤ 2 ^ 24 ∧ (s = 0 ∨ 2 ^ 23 ≤ q) := by
  have hD : (0 : ℝ) < 2 ^ s := by positivity
  obtain ⟨habove, hbelow⟩ := abs_le.1 hclose
  constructor
  · have : (q : ℝ) < 2 ^ 24 + 1 := by nlinarith
    exact Nat.lt_succ_iff.1 (by exact_mod_cast this)
  · refine hlow.imp_right fun h => ?_
    have : (2 : ℝ) ^ 23 < q + 1 := by nlinarith
    exact Nat.lt_succ_iff.1 (by exact_mod_cast this)

/-- Every other pattern is half a step away, or lies below the magnitudes of this step and is farther away. -/
theorem half_step_le_or_lt (hlow : s = 0 ∨ 2 ^ 23 * 2 ^ s ≤ x) (hq : q ≤ 2 ^ 24) (hs : s = 0 ∨ 2 ^ 23 ≤ q)
    (hclose : |x - q * 2 ^ s| ≤ 2 ^ s / 2) {k : Nat} (hk : k ≠ q + s * 2 ^ 23) :
    2 ^ s / 2 ≤ |x - unitsOfMag k| ∨ |x - q * 2 ^ s| < |x - unitsOfMag k| := by
  have hD : (0 : ℝ) < 2 ^ s := by positivity
  have hne : unitsOfMag k ≠ q * 2 ^ s := unitsOfMag_significand hq hs ▸ unitsOfMag_strictMono.injective.ne hk
  by_cases hgrid : 2 ^ s ∣ unitsOfMag k
  · obtain ⟨j, hj⟩ := hgrid
    rw [mul_comm] at hj
    have hjq : (j : Int) ≠ q := fun h => hne (by rw [hj, Int.ofNat.inj h])
    have hj' : (unitsOfMag k : ℝ) = ((j : Int) : ℝ) * 2 ^ s := by rw [hj]; push_cast; rfl
    rw [hj']
    exact .inl (abs_sub_grid hD hjq (by exact_mod_cast hclose))
  · have hs0 : s ≠ 0 := fun h => hgrid (by rw [h, pow_zero]; exact one_dvd _)
    have hx : 2 ^ 23 * 2 ^ s ≤ x := hlow.resolve_left hs0
    have hk' : (unitsOfMag k : ℝ) < 2 ^ 23 * 2 ^ s := by
      exact_mod_cast (unitsOfMag_on_grid_or_lt k s).resolve_left hgrid
    rw [abs_of_nonneg (by linarith : 0 ≤ x - unitsOfMag k)]
    by_cases hq23 : q = 2 ^ 23
    · right
      rw [hq23]; push_cast
      rw [abs_of_nonneg (by linarith)]
      linarith
    · left
      have hleast := abs_sub_grid (q := q) (j := 2 ^ 23) hD (by exact_mod_cast Ne.symm hq23) (by exact_mod_cast hclose)
      push_cast at hleast
      rw [abs_of_nonneg (by linarith)] at hleast
      linarith

/-- The overflow threshold in units of half the last step. -/
theorem two_pow_277_sub : (2 : ℝ) ^ 277 - 2 ^ 252 = (2 ^ 25 - 1) * 2 ^ 252 := by
  rw [sub_mul, ← pow_add, one_mul]

/-- The pattern of a significand within half a step overflows exactly from half a step above the largest finite value on. -/
theorem infMag_le_significand_iff (hlow : s = 0 ∨ 2 ^ 23 * 2 ^ s ≤ x) (hhigh : x < 2 ^ 24 * 2 ^ s)
    (hclose : |x - q * 2 ^ s| ≤ 2 ^ s / 2) (htie : |x - q * 2 ^ s| = 2 ^ s / 2 → q % 2 = 0) :
    infMag ≤ q + s * 2 ^ 23 ↔ 2 ^ 277 - 2 ^ 252 ≤ x := by
  obtain ⟨hq, hs⟩ := significand_of_close hlow hhigh hclose
  rw [two_pow_277_sub]
  rcases lt_trichotomy s 253 with hlt | rfl | hgt
  · have hpow : (2 : ℝ) ^ s ≤ 2 ^ 252 := pow_le_pow_right₀ (by norm_num) (by omega)
    unfold infMag
    exact iff_of_false (by omega) (by rw [not_le]; linarith)
  · obtain ⟨habove, hbelow⟩ := abs_le.1 hclose
    have hcarry : infMag ≤ q + 253 * 2 ^ 23 ↔ 2 ^ 24 ≤ q := by unfold infMag; omega
    rw [hcarry]
    constructor
    · intro h
      have h' : (2 : ℝ) ^ 24 ≤ q := by exact_mod_cast h
      linarith
    · intro h
      by_contra hlt
      have hlt' : (q : ℝ) + 1 ≤ 2 ^ 24 := by exact_mod_cast Nat.not_le.1 hlt
      have hlast : (q : ℝ) + 1 = 2 ^ 24 := by linarith
      have hodd : q + 1 = 2 ^ 24 := by exact_mod_cast hlast
      have heven := htie (by rw [abs_of_nonneg (by linarith)]; linarith)
      omega
  · have hpow : (2 : ℝ) ^ 254 ≤ 2 ^ s := pow_le_pow_right₀ (by norm_num) hgt
    have hx := hlow.resolve_left (by omega)
    unfold infMag
    exact iff_of_true (by omega) (by linarith)

/-- A significand within half a step of a magnitude that has this step, even at a tie, gives the rounding of the magnitude. -/
theorem roundsMag_of_close (hlow : s = 0 ∨ 2 ^ 23 * 2 ^ s ≤ x) (hhigh : x < 2 ^ 24 * 2 ^ s)
    (hclose : |x - q * 2 ^ s| ≤ 2 ^ s / 2) (htie : |x - q * 2 ^ s| = 2 ^ s / 2 → q % 2 = 0) :
    RoundsMag x (min (q + s * 2 ^ 23) infMag) := by
  obtain ⟨hq, hs⟩ := significand_of_close hlow hhigh hclose
  have hunits : (unitsOfMag (q + s * 2 ^ 23) : ℝ) = q * 2 ^ s := by
    rw [unitsOfMag_significand hq hs]; push_cast; rfl
  have hother := fun k => half_step_le_or_lt (k := k) hlow hq hs hclose
  have hover := infMag_le_significand_iff hlow hhigh hclose htie
  have hmin : min (q + s * 2 ^ 23) infMag < infMag → min (q + s * 2 ^ 23) infMag = q + s * 2 ^ 23 := by omega
  refine ⟨Nat.min_le_right _ _, min_eq_right_iff.trans hover, fun hlt k => ?_, fun hlt k heq hk => ?_⟩
  · rw [hmin hlt, hunits]
    by_cases hk : k = q + s * 2 ^ 23
    · rw [hk, hunits]
    · exact (hother k hk).elim hclose.trans le_of_lt
  · rw [hmin hlt] at hk ⊢
    rw [hmin hlt, hunits] at heq
    rcases hother k hk with hfar | hfar
    · have := htie (le_antisymm hclose (heq ▸ hfar))
      omega
    · exact absurd heq hfar.ne

end

end Sys2Proof.Machine

namespace Sys2Proof.Machine

/-! ### `roundMag` is the rounding -/

/-- `rneDiv` is within half of the quotient, and even at a tie (40_numerics.md R132). -/
theorem rneDiv_close {den : Nat} (hden : 0 < den) (num : Nat) :
    2 * |(num : Int) - rneDiv num den * den| ≤ den ∧
      (2 * |(num : Int) - rneDiv num den * den| = den → rneDiv num den % 2 = 0) := by
  have hdiv := Nat.div_add_mod num den
  have hmod := Nat.mod_lt num hden
  unfold rneDiv
  generalize num / den = q, num % den = r at *
  have hdown : (num : Int) - q * den = r := by rw [← hdiv]; push_cast; ring
  have hup : (num : Int) - (q + 1 : Nat) * den = r - den := by rw [← hdiv]; push_cast; ring
  dsimp only
  split
  · rw [hdown, abs_of_nonneg (by omega)]; omega
  · rw [hup, abs_of_nonpos (by omega)]; omega

/-- The shift of `roundMag` is that of the step between neighbours at `t` units. -/
theorem shift_spec (t : Nat) :
    (Nat.log2 t - 23 = 0 ∨ 2 ^ 23 * 2 ^ (Nat.log2 t - 23) ≤ t) ∧ t < 2 ^ 24 * 2 ^ (Nat.log2 t - 23) := by
  constructor
  · refine or_iff_not_imp_left.2 fun h => ?_
    rw [← pow_add, Nat.add_sub_cancel' (by omega)]
    exact Nat.log2_self_le fun h0 => h (by rw [h0, Nat.log2_zero])
  · rw [← pow_add]
    exact Nat.lt_log2_self.trans_le (Nat.pow_le_pow_right (by decide) (by omega))

/-- `roundMag num den` is the rounding of every magnitude with the whole part of `num / den` to which its significand is
within half a step, and even at a tie. -/
theorem roundsMag_roundMag_of_close {x : ℝ} {num den s q : Nat} (hs : Nat.log2 (num / den) - 23 = s)
    (hq : rneDiv num (den * 2 ^ s) = q) (hlow : ((num / den : Nat) : ℝ) ≤ x) (hhigh : x < (num / den : Nat) + 1)
    (hclose : |x - q * 2 ^ s| ≤ 2 ^ s / 2) (htie : |x - q * 2 ^ s| = 2 ^ s / 2 → q % 2 = 0) :
    RoundsMag x (roundMag num den) := by
  obtain ⟨hleast, hmost⟩ := shift_spec (num / den)
  rw [hs] at hleast hmost
  have hround : roundMag num den = min (q + s * 2 ^ 23) infMag := by simp only [roundMag, hs, hq]
  rw [hround]
  refine roundsMag_of_close (hleast.imp_right fun h => ?_) ?_ hclose htie
  · exact le_trans (by exact_mod_cast h) hlow
  · exact hhigh.trans_le (by exact_mod_cast hmost)

/-- `roundMag num den` is the rounding of `num / den` (40_numerics.md R132, R133). -/
theorem roundsMag_roundMag {den : Nat} (hden : 0 < den) (num : Nat) : RoundsMag (num / den) (roundMag num den) := by
  have hden' : (0 : ℝ) < den := by exact_mod_cast hden
  generalize hs : Nat.log2 (num / den) - 23 = s
  obtain ⟨hclose, htie⟩ := rneDiv_close (Nat.mul_pos hden (Nat.two_pow_pos s)) num
  generalize hq : rneDiv num (den * 2 ^ s) = q at hclose htie
  have hdist : |(num / den : ℝ) - q * 2 ^ s| = |(num : ℝ) - q * (den * 2 ^ s)| / den := by
    rw [← abs_of_pos hden', ← abs_div, abs_of_pos hden']
    congr 1
    field_simp
  refine roundsMag_roundMag_of_close hs hq Nat.cast_div_le ?_ ?_ ?_
  · rw [div_lt_iff₀ hden']
    exact_mod_cast Nat.lt_mul_of_div_lt (Nat.lt_succ_self _) hden
  · rw [hdist, div_le_iff₀ hden']
    have : (2 : ℝ) * |(num : ℝ) - q * (den * 2 ^ s)| ≤ den * 2 ^ s := by exact_mod_cast hclose
    linarith
  · rw [hdist, div_eq_iff hden'.ne']
    intro h
    have : (2 : ℝ) * |(num : ℝ) - q * (den * 2 ^ s)| = den * 2 ^ s := by linarith
    exact htie (by exact_mod_cast this)

theorem magUnits_ofNat {m : Nat} (h : m < infMag) : magUnits (BitVec.ofNat 32 m) = unitsOfMag m := by
  rw [magUnits_eq, BitVec.toNat_ofNat]
  unfold infMag at h
  congr 1
  omega

/-- The distance of O57 in whole numbers is the real distance times the denominator. -/
theorem natAbs_sub_magUnits {num den m : Nat} (hden : 0 < den) (hm : m < infMag) :
    (((num : Int) - (magUnits (BitVec.ofNat 32 m) : Int) * (den : Int)).natAbs : ℝ) =
      |(num / den : ℝ) - unitsOfMag m| * den := by
  have hden' : (0 : ℝ) < den := by exact_mod_cast hden
  rw [magUnits_ofNat hm, Nat.cast_natAbs, Int.cast_abs, ← abs_of_pos hden', ← abs_mul, abs_of_pos hden', sub_mul,
    div_mul_cancel₀ _ hden'.ne']
  push_cast
  rfl

/-- Settles O57: it is `RoundsMag` of the quotient, with both sides multiplied by the denominator. -/
theorem roundingToNearestEven : Obligations.RoundingToNearestEven := by
  intro num den hden
  have hden' : (0 : ℝ) < den := by exact_mod_cast hden
  obtain ⟨-, hover, hnearest, heven⟩ := roundsMag_roundMag hden num
  constructor
  · rw [hover, two_pow_277_sub, le_div_iff₀ hden', ← Nat.cast_le (α := ℝ)]
    norm_num
  · intro hlt m hm
    dsimp only
    constructor
    · rw [← Nat.cast_le (α := ℝ), natAbs_sub_magUnits hden hlt, natAbs_sub_magUnits hden hm]
      exact mul_le_mul_of_nonneg_right (hnearest hlt m) hden'.le
    · intro heq
      rw [← Nat.cast_inj (R := ℝ), natAbs_sub_magUnits hden hlt, natAbs_sub_magUnits hden hm] at heq
      exact heven hlt m (mul_right_cancel₀ hden'.ne' heq)

end Sys2Proof.Machine

/-! SUPPORT. A pattern as its sign and its magnitude, and the rules of 40_numerics.md R132, R133 on NaN operands, infinities
and zeros for each operation. -/

namespace Sys2Proof.Machine

/-! ### Patterns by kind -/

theorem isFinite_iff {v : F} : isFinite v = true ↔ isNan v = false ∧ isInf v = false := by
  rw [isFinite_eq, isNan_eq, isInf_eq]
  simp only [decide_eq_true_eq, decide_eq_false_iff_not]
  omega

theorem isNan_of_isInf {v : F} (h : isInf v = true) : isNan v = false := by
  rw [isInf_eq, decide_eq_true_eq] at h
  rw [isNan_eq, h]
  decide

theorem isFinite_of_isZero {v : F} (h : isZero v = true) : isFinite v = true := by
  rw [isZero_eq, decide_eq_true_eq] at h
  rw [isFinite_eq, h]
  decide

/-- A zero is its sign. -/
theorem pack_signBit_zero {v : F} (h : isZero v = true) : pack (signBit v) 0 = v := by
  rw [isZero_eq, decide_eq_true_eq] at h
  rw [← h, pack_signBit]

theorem infMag_lt : infMag < 2 ^ 31 := by decide

theorem signBit_fneg (a : F) : signBit (fneg a) = !signBit a := by simp [signBit, fneg]

theorem signBit_fabs (a : F) : signBit (fabs a) = false := by simp [signBit, fabs]

theorem setWidth_fneg (a : F) : (fneg a).setWidth 31 = a.setWidth 31 := by
  apply BitVec.eq_of_toNat_eq
  rw [BitVec.toNat_setWidth, BitVec.toNat_setWidth, fneg_mod]

theorem setWidth_fabs (a : F) : (fabs a).setWidth 31 = a.setWidth 31 := by
  apply BitVec.eq_of_toNat_eq
  rw [BitVec.toNat_setWidth, BitVec.toNat_setWidth, fabs_mod, Nat.mod_mod]

theorem isFinite_fneg (a : F) : isFinite (fneg a) = isFinite a := by rw [isFinite_eq, isFinite_eq, fneg_mod]

theorem magUnits_fneg (a : F) : magUnits (fneg a) = magUnits a := by rw [magUnits_eq, magUnits_eq, fneg_mod]

theorem signedUnits_fneg (a : F) : signedUnits (fneg a) = -signedUnits a := by
  unfold signedUnits
  rw [signBit_fneg, magUnits_fneg]
  cases signBit a <;> simp

/-- A drawn NaN is a quiet NaN (40_numerics.md R133). -/
theorem quiet_nanOf (d : Draw) : isNan (nanOf d) = true ∧ (nanOf d).getLsbD 22 = true := by
  refine ⟨isNan_nanOf d, ?_⟩
  have h := nanOf_toNat_mod d
  rw [BitVec.getLsbD, Nat.testBit_eq_decide_div_mod_eq]
  simp only [decide_eq_true_eq]
  omega

theorem magUnits_eq_zero_iff {v : F} : magUnits v = 0 ↔ isZero v = true := by
  rw [magUnits_eq, isZero_eq, decide_eq_true_eq, ← unitsOfMag_zero]
  exact unitsOfMag_strictMono.injective.eq_iff

theorem natAbs_signedUnits (v : F) : (signedUnits v).natAbs = magUnits v := by
  unfold signedUnits; split <;> simp

theorem signedUnits_eq_zero_iff {v : F} : signedUnits v = 0 ↔ isZero v = true := by
  rw [← Int.natAbs_eq_zero, natAbs_signedUnits, magUnits_eq_zero_iff]

/-- The sign of a number that is no zero is its sign bit. -/
theorem signBit_iff_signedUnits_neg {v : F} (h : isZero v = false) : signBit v = true ↔ signedUnits v < 0 := by
  have hpos : magUnits v ≠ 0 := mt magUnits_eq_zero_iff.1 (by simp [h])
  unfold signedUnits
  split
  · next hs => exact iff_of_true hs (by omega)
  · next hs => exact iff_of_false hs (by omega)

/-- A number below zero is no zero and has its sign bit set. -/
theorem signBit_of_signedUnits_neg {v : F} (h : signedUnits v < 0) : isZero v = false ∧ signBit v = true := by
  have hz : isZero v = false := Bool.eq_false_iff.2 fun hz => h.ne (signedUnits_eq_zero_iff.2 hz)
  exact ⟨hz, (signBit_iff_signedUnits_neg hz).2 h⟩

/-! ### The operations on an infinity or a zero -/

section
variable {a b : F} (d : Draw)

theorem fadd_inf_left (ha : isInf a = true) (hb : isNan b = false) (hs : isInf b = true → signBit a = signBit b) :
    fadd d a b = a := by
  have hs' : (isInf b && signBit a != signBit b) = false := by
    cases hi : isInf b
    · rfl
    · simp [hs hi]
  simp [fadd, isNan_of_isInf ha, hb, ha, hs']

theorem fadd_inf_opposite (ha : isInf a = true) (hb : isInf b = true) (hs : signBit a ≠ signBit b) :
    fadd d a b = nanOf d := by
  simp [fadd, isNan_of_isInf ha, isNan_of_isInf hb, ha, hb, hs]

theorem fadd_inf_right (ha : isFinite a = true) (hb : isInf b = true) : fadd d a b = b := by
  obtain ⟨hnan, hinf⟩ := isFinite_iff.1 ha
  simp [fadd, hnan, hinf, isNan_of_isInf hb, hb]

theorem fmul_inf (h : isInf a = true ∨ isInf b = true) (ha : isNan a = false) (hb : isNan b = false)
    (hza : isZero a = false) (hzb : isZero b = false) : fmul d a b = pack (signBit a != signBit b) infMag := by
  have h' : (isInf a || isInf b) = true := by simpa using h
  simp [fmul, ha, hb, hza, hzb, h']

theorem fmul_inf_zero (h : isInf a = true ∧ isZero b = true ∨ isZero a = true ∧ isInf b = true) :
    fmul d a b = nanOf d := by
  rcases h with ⟨h, hz⟩ | ⟨hz, h⟩ <;> simp [fmul, h, hz]

theorem fdiv_inf_inf (ha : isInf a = true) (hb : isInf b = true) : fdiv d a b = nanOf d := by simp [fdiv, ha, hb]

theorem fdiv_inf_left (ha : isInf a = true) (hb : isFinite b = true) :
    fdiv d a b = pack (signBit a != signBit b) infMag := by
  obtain ⟨hnan, hinf⟩ := isFinite_iff.1 hb
  simp [fdiv, isNan_of_isInf ha, ha, hnan, hinf]

theorem fdiv_inf_right (ha : isFinite a = true) (hb : isInf b = true) :
    fdiv d a b = pack (signBit a != signBit b) 0 := by
  obtain ⟨hnan, hinf⟩ := isFinite_iff.1 ha
  simp [fdiv, isNan_of_isInf hb, hb, hnan, hinf]

theorem fdiv_zero_zero (ha : isZero a = true) (hb : isZero b = true) : fdiv d a b = nanOf d := by
  obtain ⟨-, hinfa⟩ := isFinite_iff.1 (isFinite_of_isZero ha)
  obtain ⟨-, hinfb⟩ := isFinite_iff.1 (isFinite_of_isZero hb)
  simp [fdiv, hinfa, hinfb, ha, hb]

theorem fdiv_by_zero (ha : isFinite a = true) (hza : isZero a = false) (hb : isZero b = true) :
    fdiv d a b = pack (signBit a != signBit b) infMag := by
  obtain ⟨hnana, hinfa⟩ := isFinite_iff.1 ha
  obtain ⟨hnanb, hinfb⟩ := isFinite_iff.1 (isFinite_of_isZero hb)
  simp [fdiv, hnana, hinfa, hnanb, hinfb, hza, hb]

theorem fsqrt_neg (h : signedUnits a < 0) : fsqrt d a = nanOf d := by
  obtain ⟨hz, hs⟩ := signBit_of_signedUnits_neg h
  simp [fsqrt, hz, hs]

theorem fsqrt_zero (h : isZero a = true) : fsqrt d a = a := by
  obtain ⟨hnan, -⟩ := isFinite_iff.1 (isFinite_of_isZero h)
  simp [fsqrt, hnan, h]

theorem fsqrt_inf (ha : isInf a = true) (hs : signBit a = false) : fsqrt d a = a := by
  simp [fsqrt, isNan_of_isInf ha, isZero_of_isInf ha, hs, ha]

theorem ffloor_inf (ha : isInf a = true) : ffloor d a = a := by simp [ffloor, isNan_of_isInf ha, ha]

end

/-- A packed infinity is an infinity of the sign given. -/
theorem infinity_pack (neg : Bool) : isInf (pack neg infMag) = true ∧ signBit (pack neg infMag) = neg :=
  ⟨by rw [isInf_pack le_rfl, decide_eq_true rfl], signBit_pack infMag_lt⟩

/-- A packed zero is a zero of the sign given. -/
theorem zero_pack (neg : Bool) : isZero (pack neg 0) = true ∧ signBit (pack neg 0) = neg :=
  ⟨by rw [isZero_eq, pack_mod (by decide), decide_eq_true rfl], signBit_pack (by decide)⟩

/-- Settles O54, operation by operation. -/
theorem nanAndInfinityRules : Obligations.NanAndInfinityRules := by
  intro nm d a b hnm
  simp only [Num.fadd_eq hnm, Num.fsub_eq hnm, Num.fmul_eq hnm, Num.fdiv_eq hnm, Num.fsqrt_eq hnm, Num.fabs_eq hnm,
    Num.fneg_eq hnm, Num.ffloor_eq hnm]
  refine ⟨fun h => ?nan, fun h => ?nan_unary, fun ha hb hs => ?opposite, fun ha hb hs => ?alike, fun ha hb => ?add,
    fun ha hb => ?mul_zero, fun ha hb hz => ?mul, fun ha hb => ?inf_div_inf, fun ha hb => ?div,
    fun ha hb => ?zero_div_zero, fun ha hz hb => ?by_zero, fun h => ?sqrt_neg, fun ha => ?unary,
    setWidth_fabs a, signBit_fabs a, setWidth_fneg a, signBit_fneg a⟩
  case nan =>
    rw [fadd_nan h, fsub_nan h, fmul_nan h, fdiv_nan h]
    exact ⟨quiet_nanOf d, quiet_nanOf d, quiet_nanOf d, quiet_nanOf d⟩
  case nan_unary =>
    rw [fsqrt_nan h, ffloor_nan h]
    exact ⟨quiet_nanOf d, quiet_nanOf d⟩
  case opposite =>
    rw [fadd_inf_opposite d ha hb hs]
    refine ⟨quiet_nanOf d, fadd_inf_left d ha ?_ fun _ => ?_⟩
    · rw [isNan_fneg, isNan_of_isInf hb]
    · rw [signBit_fneg]; exact Bool.eq_not.2 hs
  case alike =>
    rw [fadd_inf_left d ha (isNan_of_isInf hb) fun _ => hs, fsub,
      fadd_inf_opposite d ha (by rw [isInf_fneg, hb]) (by rw [signBit_fneg, hs]; exact (Bool.not_ne_self _).symm)]
    exact ⟨quiet_nanOf d, rfl⟩
  case add =>
    obtain ⟨hnan, hinf⟩ := isFinite_iff.1 hb
    exact ⟨fadd_inf_left d ha hnan (by simp [hinf]), fadd_inf_right d hb ha,
      fadd_inf_left d ha (by rw [isNan_fneg, hnan]) (by simp [isInf_fneg, hinf]),
      fadd_inf_right d hb (by rw [isInf_fneg, ha])⟩
  case mul_zero =>
    rw [fmul_inf_zero d (.inl ⟨ha, hb⟩), fmul_inf_zero d (.inr ⟨hb, ha⟩)]
    exact ⟨quiet_nanOf d, quiet_nanOf d⟩
  case mul =>
    have hnan := isNan_of_isInf ha
    have hza := isZero_of_isInf ha
    rw [fmul_inf d (.inl ha) hnan hb hza hz, fmul_inf d (.inr ha) hb hnan hz hza, bne_comm (a := signBit b)]
    obtain ⟨hinf, hsign⟩ := infinity_pack (signBit a != signBit b)
    exact ⟨hinf, hsign, rfl⟩
  case inf_div_inf => exact fdiv_inf_inf d ha hb ▸ quiet_nanOf d
  case div =>
    rw [fdiv_inf_left d ha hb, fdiv_inf_right d hb ha, bne_comm (a := signBit b)]
    obtain ⟨hinf, hsign⟩ := infinity_pack (signBit a != signBit b)
    exact ⟨hinf, hsign, zero_pack _⟩
  case zero_div_zero => exact fdiv_zero_zero d ha hb ▸ quiet_nanOf d
  case by_zero => exact fdiv_by_zero d ha hz hb ▸ infinity_pack _
  case sqrt_neg =>
    simp only [flt, Bool.and_eq_true, decide_eq_true_eq] at h
    exact fsqrt_neg d h.2 ▸ quiet_nanOf d
  case unary => exact ⟨fsqrt_inf d ha, ffloor_inf d ha⟩

end Sys2Proof.Machine

/-! SUPPORT. The conversion to an unsigned integer and the length exponent of 40_numerics.md R137, R144. -/

namespace Sys2Proof.Machine

theorem oneUnits_eq : oneUnits = 2 ^ 149 := rfl

theorem cast_oneUnits : (oneUnits : Int) = 2 ^ 149 := rfl

/-- `f2u` of what is not finite is 0. -/
theorem f2u_of_not_finite {v : F} (h : isFinite v = false) : f2u v = 0 := by simp [f2u, h]

theorem toNat_f2u {v : F} (h : isFinite v = true) :
    ((f2u v).toNat : Int) = (signedUnits v).tdiv (2 ^ 149) % 2 ^ 32 := by
  rw [f2u, if_pos h, cast_oneUnits, BitVec.toNat_ofInt, Int.toNat_of_nonneg (Int.emod_nonneg _ (by decide))]
  rfl

/-- Settles O55, from the definition of `f2u` on finite and other patterns. -/
theorem floatToUnsigned : Obligations.FloatToUnsigned := by
  refine ⟨fun v h => f2u_of_not_finite (Bool.eq_false_iff.2 fun hf => ?_), fun v => toNat_f2u, by decide +kernel⟩
  obtain ⟨hnan, hinf⟩ := isFinite_iff.1 hf
  rcases h with h | h
  · rw [h] at hnan; cases hnan
  · rw [h] at hinf; cases hinf

/-- A number is at most the power of two at its least exponent. -/
theorem le_two_pow_leastExponent (up : Nat) : up ≤ 2 ^ (if up ≤ 1 then 0 else Nat.log2 (up - 1) + 1) := by
  split
  · next h => exact h
  · have := Nat.lt_log2_self (n := up - 1)
    omega

/-- `2^clog2` reaches the value (40_numerics.md R144). -/
theorem magUnits_le_two_pow_clog2 (p : F) : magUnits p ≤ 2 ^ clog2 p * oneUnits := by
  have hup := le_two_pow_leastExponent ((magUnits p + (oneUnits - 1)) / oneUnits)
  rw [← clog2_eq, Nat.div_le_iff_le_mul_add_pred oneUnits_pos, Nat.mul_comm] at hup
  omega

/-- Settles O56: `2^clog2` reaches the value, and `clog2` is at most any exponent that does. -/
theorem leastPowerOfTwo : Obligations.LeastPowerOfTwo := by
  intro p hfin hnonneg
  have hreach : ∀ e : Nat, signedUnits p ≤ 2 ^ e * 2 ^ 149 ↔ magUnits p ≤ 2 ^ e * oneUnits := fun e => by
    rw [← magUnits_of_signedUnits_nonneg hnonneg, ← cast_oneUnits]
    exact_mod_cast Iff.rfl
  refine ⟨(hreach _).2 (magUnits_le_two_pow_clog2 p), fun e h => clog2_le ((hreach e).1 h), fun hone => ?_⟩
  have hnan : isNan p = false := (isFinite_iff.1 hfin).1
  have hnan1 : isNan F.one = false := by decide
  have hunits1 : signedUnits F.one = 2 ^ 149 := by decide +kernel
  have hle : signedUnits p ≤ 2 ^ 149 := by simpa [flt, hnan, hnan1, hunits1] using hone
  exact Nat.le_zero.1 (clog2_le ((hreach 0).1 (by omega)))

end Sys2Proof.Machine

/-! SUPPORT. Each operation of 40_numerics.md R132, R136 on finite operands is the rounding of the exact real result
(`RoundsTo`); `ffloor` is exact. -/

namespace Sys2Proof.Machine

/-! ### From a rounded magnitude to a rounded value -/

theorem signedUnits_pack {neg : Bool} {m : Nat} (h : m < 2 ^ 31) :
    signedUnits (pack neg m) = if neg then -(unitsOfMag m : Int) else unitsOfMag m := by
  rw [signedUnits, signBit_pack h, magUnits_pack h]

theorem abs_signedUnits (v : F) : |(signedUnits v : ℝ)| = magUnits v := by
  rw [← Int.cast_abs, Int.abs_eq_natAbs, natAbs_signedUnits, Int.cast_natCast]

theorem RoundsMag.unitsOfMag_of_zero {m : Nat} (h : RoundsMag 0 m) : unitsOfMag m = 0 := by
  have hlt : m < infMag := by
    refine lt_of_le_of_ne h.le_infMag fun heq => ?_
    have := h.eq_infMag_iff.1 heq
    rw [two_pow_277_sub] at this
    linarith
  simpa using h.nearest hlt 0

section
variable {x : ℝ} {neg : Bool} {m : Nat}

/-- With the sign of `x`, a magnitude is as far from `x` as from the magnitude of `x`. -/
theorem abs_sub_signedUnits_pack (hm : m < 2 ^ 31) (hs : x ≠ 0 → (neg = true ↔ x < 0))
    (hzero : x = 0 → unitsOfMag m = 0) :
    |x - signedUnits (pack neg m)| = |(|x|) - unitsOfMag m| := by
  rw [signedUnits_pack hm]
  by_cases hx : x = 0
  · simp [hx, hzero hx]
  · by_cases hneg : x < 0
    · rw [if_pos ((hs hx).2 hneg), abs_of_neg hneg, ← abs_neg]
      congr 1; push_cast; ring
    · rw [if_neg (mt (hs hx).1 hneg), abs_of_nonneg (not_lt.1 hneg)]
      rfl

/-- A value and its opposite are equally far from `x` only where one of the two is zero. -/
theorem eq_zero_of_abs_sub_eq_abs_add {y : ℝ} (h : |x - y| = |x + y|) : x = 0 ∨ y = 0 := by
  rcases abs_eq_abs.1 h with h | h
  · right; linarith
  · left; linarith

/-- Two values of one magnitude that differ are not equally far from `x`. -/
theorem magnitude_ne_of_tie {v w : F} (hzero : x = 0 → signedUnits v = 0)
    (htie : |x - signedUnits v| = |x - signedUnits w|) (hne : signedUnits w ≠ signedUnits v) :
    magUnits w ≠ magUnits v := by
  intro hmag
  rw [← natAbs_signedUnits, ← natAbs_signedUnits] at hmag
  have hopp := (Int.natAbs_eq_natAbs_iff.1 hmag).resolve_left hne
  rw [hopp, Int.cast_neg, sub_neg_eq_add] at htie
  have hv : signedUnits v = 0 := (eq_zero_of_abs_sub_eq_abs_add htie).elim hzero Int.cast_eq_zero.1
  exact hne (by rw [hopp, hv, neg_zero])

/-- The rounded magnitude with the sign of the exact value is the exact value rounded. -/
theorem roundsTo_pack (h : RoundsMag |x| m) (hs : x ≠ 0 → (neg = true ↔ x < 0)) : RoundsTo (pack neg m) x := by
  have hm : m < 2 ^ 31 := h.le_infMag.trans_lt infMag_lt
  have hzero : x = 0 → unitsOfMag m = 0 := fun hx => RoundsMag.unitsOfMag_of_zero (by simpa [hx] using h)
  have hdist := abs_sub_signedUnits_pack hm hs hzero
  refine ⟨isNan_pack h.le_infMag, ?_, fun hx => by rw [signBit_pack hm, hs hx], fun hinf w _ => ?_⟩
  · rw [isInf_pack h.le_infMag, decide_eq_true_iff, h.eq_infMag_iff]
  · rw [isInf_pack h.le_infMag, decide_eq_false_iff_not] at hinf
    have hlt : m < infMag := lt_of_le_of_ne h.le_infMag hinf
    have hnear := h.nearest hlt (w.toNat % 2 ^ 31)
    have hrev : |(|x|) - unitsOfMag (w.toNat % 2 ^ 31)| ≤ |x - signedUnits w| := by
      rw [← magUnits_eq, ← abs_signedUnits]; exact abs_abs_sub_abs_le _ _
    refine ⟨hdist ▸ hnear.trans hrev, fun htie hne => ?_⟩
    have hmag : w.toNat % 2 ^ 31 ≠ m := fun hwm => by
      refine magnitude_ne_of_tie (fun hx => ?_) htie hne (by rw [magUnits_pack hm, magUnits_eq, hwm])
      rw [← Int.natAbs_eq_zero, natAbs_signedUnits, magUnits_pack hm, hzero hx]
    have heven := h.even_of_tie hlt _ (le_antisymm hnear (by rw [← hdist, htie]; exact hrev)) hmag
    rw [pack_toNat hm]
    split <;> omega

/-- What an operation packs is the exact value rounded, when `num / den` is its magnitude and `neg` its sign. -/
theorem roundsTo_pack_roundMag {num den : Nat} (hden : 0 < den) (hx : |x| = num / den)
    (hs : x ≠ 0 → (neg = true ↔ x < 0)) : RoundsTo (pack neg (roundMag num den)) x :=
  roundsTo_pack (hx ▸ roundsMag_roundMag hden num) hs

theorem roundsTo_pack_zero (neg : Bool) : RoundsTo (pack neg 0) 0 := by
  have h : RoundsTo (pack neg (roundMag 0 1)) 0 := roundsTo_pack_roundMag Nat.one_pos (by simp) (fun h => absurd rfl h)
  exact h

end

/-! ### Sums -/

section
variable {a b : F} (d : Draw)

/-- An integer number of units rounds to what `fadd` and `i2f` pack. -/
theorem roundsTo_int (k : Int) : RoundsTo (pack (decide (k < 0)) (roundMag k.natAbs 1)) k := by
  refine roundsTo_pack_roundMag Nat.one_pos ?_ fun _ => ?_
  · rw [Nat.cast_natAbs, Int.cast_abs, Nat.cast_one, div_one]
  · rw [decide_eq_true_iff, Int.cast_lt_zero]

theorem fadd_finite (ha : isFinite a = true) (hb : isFinite b = true) : fadd d a b =
    if signedUnits a + signedUnits b = 0 then pack (signBit a && signBit b) 0
    else pack (decide (signedUnits a + signedUnits b < 0)) (roundMag (signedUnits a + signedUnits b).natAbs 1) := by
  obtain ⟨hnana, hinfa⟩ := isFinite_iff.1 ha
  obtain ⟨hnanb, hinfb⟩ := isFinite_iff.1 hb
  simp [fadd, hnana, hinfa, hnanb, hinfb]

theorem roundsTo_fadd (ha : isFinite a = true) (hb : isFinite b = true) :
    RoundsTo (fadd d a b) (signedUnits a + signedUnits b) := by
  rw [fadd_finite d ha hb, ← Int.cast_add]
  split
  · next h => rw [h, Int.cast_zero]; exact roundsTo_pack_zero _
  · exact roundsTo_int _

theorem pack_zero (neg : Bool) : pack neg 0 = if neg then 0x80000000#32 else F.zero := by cases neg <;> rfl

theorem fadd_eq_zero (ha : isFinite a = true) (hb : isFinite b = true) (h : (signedUnits a + signedUnits b : ℝ) = 0) :
    fadd d a b = if signBit a && signBit b then 0x80000000#32 else F.zero := by
  rw [fadd_finite d ha hb, if_pos (by exact_mod_cast h), pack_zero]

theorem roundsTo_fsub (ha : isFinite a = true) (hb : isFinite b = true) :
    RoundsTo (fsub d a b) (signedUnits a - signedUnits b) := by
  have h := roundsTo_fadd d ha ((isFinite_fneg b).trans hb)
  rwa [signedUnits_fneg, Int.cast_neg, ← sub_eq_add_neg] at h

theorem fsub_eq_zero (ha : isFinite a = true) (hb : isFinite b = true) (h : (signedUnits a - signedUnits b : ℝ) = 0) :
    fsub d a b = if signBit a && !signBit b then 0x80000000#32 else F.zero := by
  have h' := fadd_eq_zero d ha ((isFinite_fneg b).trans hb) (by rwa [signedUnits_fneg, Int.cast_neg, ← sub_eq_add_neg])
  rwa [signBit_fneg] at h'

/-! ### Products and quotients -/

theorem cast_oneUnits_real : (oneUnits : ℝ) = 2 ^ 149 := by rw [oneUnits_eq, Nat.cast_pow, Nat.cast_ofNat]

theorem signBit_iff_cast_neg {v : F} (hv : (signedUnits v : ℝ) ≠ 0) : signBit v = true ↔ (signedUnits v : ℝ) < 0 := by
  rw [Int.cast_lt_zero]
  refine signBit_iff_signedUnits_neg (Bool.eq_false_iff.2 fun hz => hv ?_)
  rw [signedUnits_eq_zero_iff.2 hz, Int.cast_zero]

theorem signBit_iff_cast_pos {v : F} (hv : (signedUnits v : ℝ) ≠ 0) : signBit v = false ↔ 0 < (signedUnits v : ℝ) := by
  rw [← Bool.not_eq_true, signBit_iff_cast_neg hv, not_lt, lt_iff_le_and_ne, and_iff_left hv.symm]

/-- The sign of a product or a quotient of two numbers that are no zeros. -/
theorem signBit_bne_iff (ha : (signedUnits a : ℝ) ≠ 0) (hb : (signedUnits b : ℝ) ≠ 0) :
    (signBit a != signBit b) = true ↔ (signedUnits a * signedUnits b : ℝ) < 0 := by
  rw [mul_neg_iff, ← signBit_iff_cast_neg ha, ← signBit_iff_cast_neg hb, ← signBit_iff_cast_pos ha,
    ← signBit_iff_cast_pos hb]
  cases signBit a <;> cases signBit b <;> simp

theorem fmul_finite (ha : isFinite a = true) (hb : isFinite b = true) :
    fmul d a b = pack (signBit a != signBit b) (roundMag (magUnits a * magUnits b) oneUnits) := by
  obtain ⟨hnana, hinfa⟩ := isFinite_iff.1 ha
  obtain ⟨hnanb, hinfb⟩ := isFinite_iff.1 hb
  simp [fmul, hnana, hinfa, hnanb, hinfb]

theorem signBit_pack_roundMag (neg : Bool) (num den : Nat) : signBit (pack neg (roundMag num den)) = neg :=
  signBit_pack ((roundMag_le num den).trans_lt infMag_lt)

theorem roundsTo_fmul (ha : isFinite a = true) (hb : isFinite b = true) :
    RoundsTo (fmul d a b) (signedUnits a * signedUnits b / 2 ^ 149) := by
  rw [fmul_finite d ha hb]
  refine roundsTo_pack_roundMag oneUnits_pos ?_ fun hx => ?_
  · rw [abs_div, abs_mul, abs_signedUnits, abs_signedUnits, cast_oneUnits_real, Nat.cast_mul,
      abs_of_pos (by positivity : (0 : ℝ) < 2 ^ 149)]
  · obtain ⟨hxa, hxb⟩ := mul_ne_zero_iff.1 (div_ne_zero_iff.1 hx).1
    rw [signBit_bne_iff hxa hxb, div_lt_iff₀ (by positivity), zero_mul]

theorem fdiv_finite (ha : isFinite a = true) (hb : isFinite b = true) (hz : isZero b = false) :
    fdiv d a b = pack (signBit a != signBit b) (roundMag (magUnits a * oneUnits) (magUnits b)) := by
  obtain ⟨hnana, hinfa⟩ := isFinite_iff.1 ha
  obtain ⟨hnanb, hinfb⟩ := isFinite_iff.1 hb
  simp [fdiv, hnana, hinfa, hnanb, hinfb, hz]

theorem roundsTo_fdiv (ha : isFinite a = true) (hb : isFinite b = true) (hz : isZero b = false) :
    RoundsTo (fdiv d a b) (signedUnits a * 2 ^ 149 / signedUnits b) := by
  rw [fdiv_finite d ha hb hz]
  refine roundsTo_pack_roundMag (Nat.pos_of_ne_zero (mt magUnits_eq_zero_iff.1 (by simp [hz]))) ?_ fun hx => ?_
  · rw [abs_div, abs_mul, abs_signedUnits, abs_signedUnits, Nat.cast_mul, cast_oneUnits_real,
      abs_of_pos (by positivity : (0 : ℝ) < 2 ^ 149)]
  · obtain ⟨hxa, hxb⟩ := div_ne_zero_iff.1 hx
    rw [signBit_bne_iff (left_ne_zero_of_mul hxa) hxb, mul_neg_iff, ← div_neg_iff, mul_div_right_comm,
      ← lt_div_iff₀ (by positivity), zero_div]

end

end Sys2Proof.Machine

/-! SUPPORT. The square root and the floor of 40_numerics.md R132: the whole part of the root with its half unit rounds as
the root does, and a floor is a magnitude some pattern stands for. -/

namespace Sys2Proof.Machine

/-! ### The square root -/

/-- `isqrt` is the whole part of the root. -/
theorem isqrt_spec {fuel n : Nat} (h : n < 4 ^ fuel) :
    isqrt fuel n * isqrt fuel n ≤ n ∧ n < (isqrt fuel n + 1) * (isqrt fuel n + 1) := by
  induction fuel generalizing n with
  | zero => simp only [isqrt]; omega
  | succ fuel ih =>
    obtain ⟨hle, hlt⟩ := ih (n := n / 4) (by omega)
    simp only [isqrt]
    generalize isqrt fuel (n / 4) = r at hle hlt
    have hle' : 2 * r * (2 * r) ≤ n := by nlinarith [Nat.div_mul_le_self n 4]
    have hlt' : n < (2 * r + 1 + 1) * (2 * r + 1 + 1) := by
      have : n / 4 + 1 ≤ (r + 1) * (r + 1) := hlt
      nlinarith [Nat.lt_mul_of_div_lt (Nat.lt_succ_self (n / 4)) (by decide : 0 < 4)]
    split
    · next h1 => exact ⟨h1, hlt'⟩
    · next h1 => exact ⟨hle', Nat.not_le.1 h1⟩

/-- The significand of a root put half a unit above its whole part `r` is within half a step of all of `r` to `r + 1`. -/
theorem significand_window {r q e : Nat}
    (hclose : 2 * |((2 * r + 1 : Nat) : Int) - q * (2 * 2 ^ (e + 1) : Nat)| ≤ (2 * 2 ^ (e + 1) : Nat)) :
    (r : Int) + 1 ≤ q * 2 ^ (e + 1) + 2 ^ e ∧ (q * 2 ^ (e + 1) : Int) ≤ r + 2 ^ e := by
  push_cast at hclose
  have hgrid : (q : Int) * 2 ^ (e + 1) = 2 * (q * 2 ^ e) := by ring
  have hgrid' : (q : Int) * (2 * 2 ^ (e + 1)) = 4 * (q * 2 ^ e) := by ring
  have hstep : (2 : Int) ^ (e + 1) = 2 * 2 ^ e := pow_succ' 2 e
  rw [hgrid', hstep] at hclose
  rw [hgrid]
  have := abs_le.1 (by omega : |(2 * (r : Int) + 1) - 4 * (q * 2 ^ e)| ≤ 2 * 2 ^ e)
  omega

/-- An inexact root rounds as half a unit above its whole part does, where the step between neighbours is above one unit. -/
theorem roundsMag_between {x : ℝ} {r : Nat} (hlow : (r : ℝ) < x) (hhigh : x < r + 1) (hbig : 2 ^ 24 ≤ r) :
    RoundsMag x (roundMag (2 * r + 1) 2) := by
  have hdiv : (2 * r + 1) / 2 = r := by omega
  obtain ⟨e, he⟩ : ∃ e, Nat.log2 r - 23 = e + 1 := by
    have := (Nat.le_log2 (by omega)).2 hbig
    exact Nat.exists_eq_succ_of_ne_zero (by omega)
  obtain ⟨hclose, -⟩ := rneDiv_close (den := 2 * 2 ^ (e + 1)) (by positivity) (2 * r + 1)
  generalize hq : rneDiv (2 * r + 1) (2 * 2 ^ (e + 1)) = q at hclose
  obtain ⟨hup, hdown⟩ := significand_window hclose
  have hstrict : |x - q * 2 ^ (e + 1)| < 2 ^ (e + 1) / 2 := by
    have hup' : (r : ℝ) + 1 ≤ q * 2 ^ (e + 1) + 2 ^ e := by exact_mod_cast hup
    have hdown' : (q * 2 ^ (e + 1) : ℝ) ≤ r + 2 ^ e := by exact_mod_cast hdown
    rw [pow_succ, mul_div_cancel_right₀ _ (two_ne_zero), ← pow_succ, abs_lt]
    constructor <;> linarith
  exact roundsMag_roundMag_of_close (by rw [hdiv, he]) hq (by rw [hdiv]; exact hlow.le)
    (by rw [hdiv]; exact hhigh) hstrict.le fun h => absurd h hstrict.ne

/-- The rounding of a square root from its whole part. -/
theorem roundsMag_sqrt {n r : Nat} (hle : r * r ≤ n) (hlt : n < (r + 1) * (r + 1)) (hbig : 2 ^ 24 ≤ r) :
    RoundsMag (Real.sqrt n) (roundMag (2 * r + (if r * r = n then 0 else 1)) 2) := by
  split
  · next h =>
    have hexact : Real.sqrt n = ((2 * r + 0 : Nat) : ℝ) / (2 : Nat) := by
      rw [← h, Nat.cast_mul, Real.sqrt_mul_self (Nat.cast_nonneg r)]
      push_cast; ring
    exact hexact ▸ roundsMag_roundMag two_pos _
  · next h =>
    refine roundsMag_between (Real.lt_sqrt_of_sq_lt ?_) ?_ hbig
    · rw [sq]; exact_mod_cast lt_of_le_of_ne hle h
    · rw [Real.sqrt_lt' (by positivity), sq]; exact_mod_cast hlt

theorem unitsOfMag_infMag : unitsOfMag infMag = 2 ^ 23 * 2 ^ 254 := by decide

theorem magUnits_lt_of_finite {v : F} (h : isFinite v = true) : magUnits v < 2 ^ 23 * 2 ^ 254 := by
  rw [isFinite_eq, decide_eq_true_iff] at h
  rw [magUnits_eq, ← unitsOfMag_infMag]
  exact unitsOfMag_strictMono h

/-- The square root of every finite number above zero has its whole part found by `isqrt`, and that has more than 24 bits. -/
theorem isqrt_units {m r : Nat} (hpos : 0 < m) (hlt : m < 2 ^ 23 * 2 ^ 254) (hr : isqrt 220 (m * oneUnits) = r) :
    r * r ≤ m * oneUnits ∧ m * oneUnits < (r + 1) * (r + 1) ∧ 2 ^ 24 ≤ r := by
  have hfuel : m * oneUnits < 4 ^ 220 := by
    calc m * oneUnits < 2 ^ 23 * 2 ^ 254 * 2 ^ 149 := Nat.mul_lt_mul_of_pos_right hlt oneUnits_pos
      _ ≤ 4 ^ 220 := by decide
  obtain ⟨hle, hlt'⟩ := isqrt_spec hfuel
  rw [hr] at hle hlt'
  refine ⟨hle, hlt', ?_⟩
  by_contra hsmall
  have hsq := Nat.mul_self_le_mul_self (Nat.not_le.1 hsmall)
  have hunits : 2 ^ 149 ≤ m * oneUnits := Nat.le_mul_of_pos_left _ hpos
  exact absurd (hunits.trans_lt (hlt'.trans_le hsq)) (by decide)

theorem fsqrt_pos {a : F} {r : Nat} (d : Draw) (ha : isFinite a = true) (hz : isZero a = false) (hs : signBit a = false)
    (hr : isqrt 220 (magUnits a * oneUnits) = r) :
    fsqrt d a = pack false (roundMag (2 * r + (if r * r = magUnits a * oneUnits then 0 else 1)) 2) := by
  obtain ⟨hnan, hinf⟩ := isFinite_iff.1 ha
  simp [fsqrt, hnan, hinf, hz, hs, hr]

theorem roundsTo_fsqrt {a : F} (d : Draw) (ha : isFinite a = true) (hnonneg : (0 : ℝ) ≤ signedUnits a) :
    RoundsTo (fsqrt d a) (Real.sqrt (signedUnits a * 2 ^ 149)) := by
  by_cases hz : isZero a = true
  · rw [fsqrt_zero d hz, signedUnits_eq_zero_iff.2 hz, Int.cast_zero, zero_mul, Real.sqrt_zero, ← pack_signBit_zero hz]
    exact roundsTo_pack_zero _
  · have hz' : isZero a = false := Bool.eq_false_iff.2 hz
    have hs : signBit a = false :=
      Bool.eq_false_iff.2 fun h => not_lt.2 hnonneg (Int.cast_lt_zero.2 ((signBit_iff_signedUnits_neg hz').1 h))
    have hpos : 0 < magUnits a := Nat.pos_of_ne_zero (mt magUnits_eq_zero_iff.1 hz)
    obtain ⟨hle, hlt, hbig⟩ := isqrt_units hpos (magUnits_lt_of_finite ha) rfl
    have hradicand : (signedUnits a * 2 ^ 149 : ℝ) = (magUnits a * oneUnits : Nat) := by
      rw [Nat.cast_mul, cast_oneUnits_real, ← abs_signedUnits, abs_of_nonneg hnonneg]
    rw [fsqrt_pos d ha hz' hs rfl, hradicand]
    refine roundsTo_pack ?_ fun _ => ?_
    · rw [abs_of_nonneg (Real.sqrt_nonneg _)]
      exact roundsMag_sqrt hle hlt hbig
    · exact iff_of_false (by decide) (not_lt.2 (Real.sqrt_nonneg _))

/-! ### The floor -/

/-- A magnitude on the grid of its own step is that of a pattern. -/
theorem exists_unitsOfMag_eq {n : Nat} (h : 2 ^ (Nat.log2 n - 23) ∣ n) : ∃ m, unitsOfMag m = n := by
  obtain ⟨hlow, hhigh⟩ := shift_spec n
  generalize Nat.log2 n - 23 = s at h hlow hhigh
  obtain ⟨q, rfl⟩ := h
  rw [Nat.mul_comm (2 ^ s) q] at hlow hhigh ⊢
  refine ⟨q + s * 2 ^ 23, unitsOfMag_significand (Nat.lt_of_mul_lt_mul_right hhigh).le (hlow.imp_right fun h => ?_)⟩
  exact Nat.le_of_mul_le_mul_right h (Nat.two_pow_pos s)

/-- The largest finite magnitude. -/
theorem unitsOfMag_pred_infMag : unitsOfMag (infMag - 1) = (2 ^ 24 - 1) * 2 ^ 253 := by decide

/-- A pattern's magnitude rounds to the pattern. -/
theorem roundMag_unitsOfMag {m : Nat} (hm : m < infMag) : roundMag (unitsOfMag m) 1 = m := by
  obtain ⟨hle, hover, hnearest, -⟩ := roundsMag_roundMag Nat.one_pos (unitsOfMag m)
  rw [Nat.cast_one, div_one] at hover hnearest
  have hlt : roundMag (unitsOfMag m) 1 < infMag := by
    refine lt_of_le_of_ne hle fun h => ?_
    have hbig := hover.1 h
    have hmax : unitsOfMag m ≤ (2 ^ 24 - 1) * 2 ^ 253 :=
      unitsOfMag_pred_infMag ▸ unitsOfMag_strictMono.monotone (Nat.le_pred_of_lt hm)
    have hmax' : (unitsOfMag m : ℝ) ≤ (2 ^ 24 - 1) * 2 ^ 253 := by
      calc (unitsOfMag m : ℝ) ≤ ((2 ^ 24 - 1) * 2 ^ 253 : Nat) := Nat.cast_le.2 hmax
        _ = _ := by norm_num
    rw [two_pow_277_sub] at hbig
    linarith
  have hzero := hnearest hlt m
  rw [sub_self, abs_zero] at hzero
  have heq := sub_eq_zero.1 (abs_nonpos_iff.1 hzero)
  exact (unitsOfMag_strictMono.injective (Nat.cast_injective heq)).symm

/-- The whole part of a finite number, rounded down, is a finite magnitude. -/
theorem exists_unitsOfMag_floor {a : F} (ha : isFinite a = true) :
    ∃ m, m < infMag ∧ unitsOfMag m = ((signedUnits a).fdiv oneUnits).natAbs * oneUnits := by
  have hmag : (signedUnits a).natAbs = unitsOfMag (a.toNat % 2 ^ 31) := by rw [natAbs_signedUnits, magUnits_eq]
  have hlt : a.toNat % 2 ^ 31 < infMag := by rwa [isFinite_eq, decide_eq_true_iff] at ha
  rw [Int.fdiv_eq_ediv_of_nonneg _ (Int.natCast_nonneg _), cast_oneUnits, oneUnits_eq]
  rcases unitsOfMag_on_grid_or_lt (a.toNat % 2 ^ 31) 149 with hgrid | hsmall
  · exact ⟨_, hlt, by omega⟩
  · rw [← hmag] at hsmall
    have hfloor : (signedUnits a / 2 ^ 149).natAbs ≤ 2 ^ 23 := by omega
    generalize (signedUnits a / 2 ^ 149).natAbs = j at hfloor
    have hle : j * 2 ^ 149 ≤ 2 ^ 23 * 2 ^ 149 := Nat.mul_le_mul_right _ hfloor
    have hlog : Nat.log2 (j * 2 ^ 149) - 23 ≤ 149 := by
      by_cases hj : j * 2 ^ 149 = 0
      · rw [hj]; decide
      · have := (Nat.log2_lt (k := 173) hj).2 (by omega)
        omega
    obtain ⟨m, hm⟩ := exists_unitsOfMag_eq ((pow_dvd_pow 2 hlog).trans (Nat.dvd_mul_left _ j))
    refine ⟨m, unitsOfMag_strictMono.lt_iff_lt.1 ?_, hm⟩
    rw [hm, unitsOfMag_infMag]
    exact hle.trans_lt (by decide)

/-- The floor of a finite number is finite and the whole part of it, rounded down, exactly (40_numerics.md R132). -/
theorem ffloor_spec {a : F} (d : Draw) (ha : isFinite a = true) : isFinite (ffloor d a) = true ∧
    signedUnits (ffloor d a) = signedUnits a / 2 ^ 149 * 2 ^ 149 := by
  obtain ⟨hnan, hinf⟩ := isFinite_iff.1 ha
  obtain ⟨m, hm, hunits⟩ := exists_unitsOfMag_floor ha
  have hpack : ffloor d a = pack (signBit a) m := by
    simp only [ffloor, hnan, hinf, Bool.false_eq_true, if_false, ← hunits, roundMag_unitsOfMag hm]
  rw [Int.fdiv_eq_ediv_of_nonneg _ (Int.natCast_nonneg _), cast_oneUnits, oneUnits_eq] at hunits
  rw [hpack, isFinite_eq, pack_mod (hm.trans infMag_lt), signedUnits_pack (hm.trans infMag_lt), hunits]
  refine ⟨decide_eq_true hm, ?_⟩
  have hsign : if signBit a then signedUnits a ≤ 0 else 0 ≤ signedUnits a := by
    unfold signedUnits; split <;> omega
  split <;> rename_i hs
  · rw [if_pos hs] at hsign; omega
  · rw [if_neg hs] at hsign; omega

theorem ffloor_zero {a : F} (d : Draw) (h : isZero a = true) : ffloor d a = a := by
  obtain ⟨hnan, hinf⟩ := isFinite_iff.1 (isFinite_of_isZero h)
  have hround : roundMag 0 1 = 0 := by decide
  simp [ffloor, hnan, hinf, signedUnits_eq_zero_iff.2 h, hround, pack_signBit_zero h]

/-! ### The conversions, and every operation -/

theorem roundsTo_i2f (i : Int) : RoundsTo (i2f i) (i * 2 ^ 149) := by
  have h := roundsTo_int (i * oneUnits)
  rw [Int.natAbs_mul, Int.natAbs_natCast, Int.cast_mul, Int.cast_natCast, cast_oneUnits_real] at h
  have hsign : (i * (oneUnits : Int) < 0) = (i < 0) := propext (by rw [cast_oneUnits]; omega)
  rw [i2f]
  simpa only [hsign] using h

/-- Settles O59, operation by operation. -/
theorem finiteArithmeticRoundsOnce : Obligations.FiniteArithmeticRoundsOnce := by
  refine ⟨fun nm d a b hnm ha hb => ?_, fun i _ _ => roundsTo_i2f i, fun n => ?_, by decide, by decide⟩
  · have hzero : ∀ {v : F}, (signedUnits v : ℝ) = 0 ↔ isZero v = true := by simp [signedUnits_eq_zero_iff]
    simp only [Num.fadd_eq hnm, Num.fsub_eq hnm, Num.fmul_eq hnm, Num.fdiv_eq hnm, Num.fsqrt_eq hnm, Num.ffloor_eq hnm]
    obtain ⟨hfinite, hfloor⟩ := ffloor_spec d ha
    refine ⟨roundsTo_fadd d ha hb, fadd_eq_zero d ha hb, roundsTo_fsub d ha hb, fsub_eq_zero d ha hb,
      roundsTo_fmul d ha hb, ?sign_mul, fun hy => ?quotient, roundsTo_fsqrt d ha,
      fun hx => ⟨fsqrt_zero d (hzero.1 hx), ffloor_zero d (hzero.1 hx)⟩, hfinite, ?whole, ?below, ?above⟩
    case sign_mul => rw [fmul_finite d ha hb, signBit_pack_roundMag]
    case quotient =>
      have hz : isZero b = false := Bool.eq_false_iff.2 (mt hzero.2 hy)
      exact ⟨roundsTo_fdiv d ha hb hz, by rw [fdiv_finite d ha hb hz, signBit_pack_roundMag]⟩
    case whole => exact hfloor ▸ Dvd.intro_left _ rfl
    case below => omega
    case above => omega
  · exact_mod_cast roundsTo_i2f n.toNat

end Sys2Proof.Machine

/-! SUPPORT. Runs of OSC.PROC (42_oscillator.md R193, R194): the waveform is no NaN that would have to be drawn, one command
advances the phase by one increment, and a run of them by as many. -/

namespace Sys2Proof.Machine

/-! ### The waveform does not depend on the draw -/

/-- A result that is no NaN is the same for every draw. -/
theorem eq_of_draw {x y : F} (h : (isNan x = true ∧ isNan y = true) ∨ x = y) (hx : isNan x = false) : x = y :=
  h.resolve_left fun hnan => by rw [hx] at hnan; exact Bool.false_ne_true hnan.1

theorem isNan_fmul_pow31Inv (d : Draw) (i : Int) : isNan (fmul d (i2f i) F.pow31Inv) = false :=
  isNan_fmul (isNan_i2f i) (by decide) (fun _ => by decide) fun h => absurd h (by decide)

theorem isNan_two_mul (d : Draw) {x : F} (hx : isNan x = false) : isNan (fmul d F.two x) = false :=
  isNan_fmul (by decide) hx (fun h => absurd h (by decide)) fun _ => by decide

/-- A finite number less a number is no NaN. -/
theorem isNan_fsub_of_finite (d : Draw) {c x : F} (hc : isFinite c = true) (hx : isNan x = false) :
    isNan (fsub d c x) = false := by
  obtain ⟨hnan, hinf⟩ := isFinite_iff.1 hc
  exact isNan_fadd hnan (by rw [isNan_fneg, hx]) (.inl hinf)

theorem isZero_fabs (a : F) : isZero (fabs a) = isZero a := by rw [isZero_eq, isZero_eq, fabs_mod, Nat.mod_mod]

theorem isInf_fabs (a : F) : isInf (fabs a) = isInf a := by rw [isInf_eq, isInf_eq, fabs_mod, Nat.mod_mod]

theorem fsub_two_inf (d : Draw) {t : F} (ht : isInf t = true) : isInf (fsub d F.two (fabs t)) = true := by
  have hinf : isInf (fneg (fabs t)) = true := by rw [isInf_fneg, isInf_fabs, ht]
  rw [fsub, fadd_inf_right d (by decide) hinf, hinf]

theorem fsub_two_zero (d : Draw) {t : F} (ht : isZero t = true) : isInf (fsub d F.two (fabs t)) = false := by
  have hzero : fabs t = F.zero := by
    have h := pack_signBit_zero ((isZero_fabs t).trans ht)
    rw [signBit_fabs] at h
    exact h.symm
  have hvalue : fsub d F.two F.zero = F.two := by rfl
  rw [hzero, hvalue]
  decide

theorem isNan_parabola (d e : Draw) {t : F} (ht : isNan t = false) : isNan (fmul d t (fsub e F.two (fabs t))) = false :=
  isNan_fmul ht (isNan_fsub_of_finite e (by decide) (by rwa [isNan_fabs])) (fun h => isZero_of_isInf (fsub_two_inf e h))
    fun h => Bool.eq_false_iff.2 fun hz => by rw [fsub_two_zero e hz] at h; cases h

theorem isNan_fold {nm : Num} (hnm : nm.basic = .binary32) (d : Draw) (p : U32) : isNan (fold nm d p) = false := by
  simp only [fold, Num.fmul_eq hnm, Num.fsub_eq hnm, Num.fabs_eq hnm]
  exact isNan_fsub_of_finite _ (by decide) (isNan_two_mul _ (by rw [isNan_fabs]; exact isNan_fmul_pow31Inv _ _))

theorem fold_draw (nm : Num) (d d' : Draw) (p : U32) : fold nm d p = fold nm d' p := by
  cases hnm : nm.basic with
  | binary32 =>
    refine eq_of_draw ?_ (isNan_fold hnm d p)
    have hph := eq_of_draw (nm.fmul_draw (0 :: d) (0 :: d') (i2f (signedReading (p - 0x40000000#32))) F.pow31Inv)
      (by rw [Num.fmul_eq hnm]; exact isNan_fmul_pow31Inv _ _)
    have hdouble := eq_of_draw (nm.fmul_draw (1 :: d) (1 :: d') F.two
        (nm.fabs (nm.fmul (0 :: d') (i2f (signedReading (p - 0x40000000#32))) F.pow31Inv)))
      (by
        rw [Num.fmul_eq hnm, Num.fabs_eq hnm]
        exact isNan_two_mul _ (by rw [isNan_fabs]; exact isNan_fmul_pow31Inv _ _))
    simp only [fold]
    rw [hph, hdouble]
    exact nm.fsub_draw _ _ _ _
  | other k => simp only [fold, Num.fmul, Num.fsub, Num.fabs, hnm]

theorem parabola_draw (nm : Num) (d d' : Draw) {t : F} (ht : nm.basic = .binary32 → isNan t = false) :
    parabola nm d t = parabola nm d' t := by
  cases hnm : nm.basic with
  | binary32 =>
    have hsub := eq_of_draw (nm.fsub_draw (0 :: d) (0 :: d') F.two (nm.fabs t)) (by
      rw [Num.fsub_eq hnm, Num.fabs_eq hnm]
      exact isNan_fsub_of_finite _ (by decide) (by rw [isNan_fabs, ht hnm]))
    simp only [parabola]
    rw [hsub]
    refine eq_of_draw (nm.fmul_draw _ _ _ _) ?_
    rw [Num.fmul_eq hnm, Num.fsub_eq hnm, Num.fabs_eq hnm]
    exact isNan_parabola _ _ (ht hnm)
  | other k => simp only [parabola, Num.fmul, Num.fsub, Num.fabs, hnm]

/-- The waveform of a phase is the same for every draw (42_oscillator.md R193, R195, R196). -/
theorem waveOut_fold_draw (c : SineChoice) (nm : Num) (d d' e e' : Draw) (wave p : U32) :
    waveOut c nm d wave (fold nm e p) = waveOut c nm d' wave (fold nm e' p) := by
  rw [fold_draw nm e e']
  unfold waveOut
  split
  · cases c with
    | parabola => exact parabola_draw nm d d' fun hnm => isNan_fold hnm e' p
    | other k => rfl
  · rfl

/-! ### One OSC.PROC and a run of them -/

/-- The answer of OSC.PROC with the phase of its unit `k` increments on, its NaN bits drawn at no place in particular. -/
def waveAfter (s : State) (u k : Nat) : Response where
  status := .ok
  res0 := waveOut s.cfg.sine s.cfg.num [] (readReg s (.osc u .wave))
    (fold s.cfg.num [] (readReg s (.osc u .phase) + BitVec.ofNat 32 k * readReg s (.osc u .inc)))
  res1 := 0

/-- `t` is `s` after an OSC.PROC of unit `u`, as far as a run of OSC.PROC reads and answers. -/
structure OscAdvanced (s t : State) (u : Nat) : Prop where
  cfg : t.cfg = s.cfg
  counts : t.counts = s.counts
  phase : readReg t (.osc u .phase) = readReg s (.osc u .phase) + readReg s (.osc u .inc)
  inc : readReg t (.osc u .inc) = readReg s (.osc u .inc)
  wave : readReg t (.osc u .wave) = readReg s (.osc u .wave)
  outputs : t.port.outputs = waveAfter s u 1 :: s.port.outputs

theorem decode_encode_oscProc {u : Nat} (hu : u < 256) : decode (encode (.oscProc u)) = .command (.oscProc u) :=
  decodeOfEncode _ (decide_eq_true hu)

/-- OSC.PROC of a unit that exists (42_oscillator.md R193). -/
theorem exec_oscProc {s : State} {u : Nat} {o : OscUnit} (ho : s.osc[u]? = some o) : exec (.oscProc u) s =
    respond (waveOut s.cfg.sine s.cfg.num (1 :: s.draw) o.wave (fold s.cfg.num (0 :: s.draw) (o.phase + o.inc))) 0
      (s.updOsc u fun o' => { o' with phase := o.phase + o.inc }) := withUnit_some ho s _

/-- A step on an OSC.PROC of a unit that exists takes the word and advances the unit. -/
theorem step_oscProc {s : State} {u : Nat} {rest : List PortInput} (hu : u < s.counts.nOsc) (hfit : u < 256)
    (hin : s.port.inputs = .command (encode (.oscProc u)) :: rest) :
    ∃ t, step s = .next t ∧ t.port.inputs = rest ∧ OscAdvanced s t u := by
  obtain ⟨o, ho⟩ := osc_of_lt hu
  have ho' : (s.taking rest).osc[u]? = some o := ho
  refine ⟨_, by rw [step_of_command hin, perform_of_command (decode_encode_oscProc hfit), exec_oscProc ho', respond_eq,
    countedOut_next], rfl, ?_⟩
  constructor
  case outputs =>
    rw [waveAfter, readReg_osc ho, readReg_osc ho, readReg_osc ho, BitVec.one_mul]
    exact congrArg (fun y => ({ status := .ok, res0 := y, res1 := 0 } : Response) :: s.port.outputs)
      (waveOut_fold_draw _ _ _ _ _ _ _ _)
  all_goals simp [readReg_updOsc_osc, readAt_some ho, readReg_osc ho, OscUnit.get]

/-- One increment and then `k` more. -/
theorem add_inc_add_mul (p inc : U32) (k : Nat) : p + inc + BitVec.ofNat 32 k * inc = p + BitVec.ofNat 32 (k + 1) * inc := by
  rw [BitVec.ofNat_add, BitVec.add_mul, BitVec.one_mul, BitVec.add_assoc, BitVec.add_comm inc]

theorem OscAdvanced.waveAfter_eq {s t : State} {u : Nat} (h : OscAdvanced s t u) (k : Nat) :
    waveAfter t u k = waveAfter s u (k + 1) := by
  rw [waveAfter, h.cfg, h.wave, h.phase, h.inc, add_inc_add_mul, ← waveAfter]

/-- The responses of `n` OSC.PROC of unit `u` from `s`, newest first. -/
def waveResponses (s : State) (u n : Nat) : List Response := ((List.range n).map fun k => waveAfter s u (k + 1)).reverse

/-- The first response of a run and then those of the rest. -/
theorem OscAdvanced.waveResponses_append {s t : State} {u : Nat} (h : OscAdvanced s t u) (n : Nat) :
    waveResponses t u n ++ t.port.outputs = waveResponses s u (n + 1) ++ s.port.outputs := by
  simp [waveResponses, h.outputs, h.waveAfter_eq, List.range_succ_eq_map, Function.comp_def]

/-- A run of `n` OSC.PROC of one unit (42_oscillator.md R194). -/
theorem run_oscProc {u : Nat} (hfit : u < 256) (n : Nat) {s : State} (hu : u < s.counts.nOsc)
    (hin : s.port.inputs = List.replicate n (.command (encode (.oscProc u)))) :
    ∃ t, core.run n s = .next t ∧
      readReg t (.osc u .phase) = readReg s (.osc u .phase) + BitVec.ofNat 32 n * readReg s (.osc u .inc) ∧
      t.port.outputs = waveResponses s u n ++ s.port.outputs := by
  induction n generalizing s with
  | zero => exact ⟨s, rfl, by simp, rfl⟩
  | succ n ih =>
    obtain ⟨s', hstep, hrest, hadv⟩ := step_oscProc hu hfit (hin.trans List.replicate_succ)
    obtain ⟨t, hrun, hphase, hout⟩ := ih (hadv.counts ▸ hu) hrest
    refine ⟨t, (core_run_succ hstep n).trans hrun, ?_, hout.trans (hadv.waveResponses_append n)⟩
    rw [hphase, hadv.phase, hadv.inc, add_inc_add_mul]

/-- Settles O41, by induction on the number of commands. -/
theorem phaseLaw : Obligations.PhaseLaw := fun _ _ n hu hfit hin => run_oscProc hfit n hu hin

end Sys2Proof.Machine

/-! SUPPORT. The BQ commands (41_biquad.md): the checks and the frame of BQ.PROC and of the ten setters, the difference equation
with the reset coefficients, and the coefficients of the spec's design function as its rules write them. -/

namespace Sys2Proof.Machine

/-! ### BQ.PROC -/

section
variable {s : State} {u : Nat}

/-- The history registers BQ.PROC writes (41_biquad.md R161). -/
def historyWrites (s : State) (u : Nat) (x y : F) : List (Reg × U32) :=
  [(.bq u .x2, readReg s (.bq u .x1)), (.bq u .x1, x), (.bq u .y2, readReg s (.bq u .y1)), (.bq u .y1, y)]

theorem regsExcept_advance {b : BqUnit} (hb : s.bq[u]? = some b) (x y : F) (rsp : Response) :
    regsExcept s ((s.updBq u fun b => b.advance x y).give rsp) (historyWrites s u x y) := by
  refine regsExcept_updBq hb _ (fun r => ?_) (fun r hr => ?_) rsp
  · cases r <;> simp [historyWrites, readReg_bq hb, lookup_reg_cons, BqUnit.get, BqUnit.advance]
  · simp [historyWrites, lookup_reg_cons, hr]

/-- BQ.PROC of a unit that exists is accepted, answers the difference equation and writes the history (41_biquad.md R161). -/
theorem bqProc_accepted {b : BqUnit} (hb : s.bq[u]? = some b) (x : F) :
    ∃ t, exec (.bqProc u x) s = .next t ∧ answered s t (biquadOut s.cfg.num s.draw b x) 0 ∧
      regsExcept s t (historyWrites s u x (biquadOut s.cfg.num s.draw b x)) ∧ memSame s t :=
  ⟨_, withUnit_some hb s _, answered_updBq _ _ _ _ _, regsExcept_advance hb _ _ _, memSame_refl s⟩

end

/-- Settles O32: the registers of the unit that exists are read by name. -/
theorem bqProcResult : Obligations.BqProcResult := by
  intro s u x
  refine ⟨fun hu => withUnit_none hu s _, fun hu => ?_⟩
  obtain ⟨b, hb⟩ := bq_of_lt hu
  obtain ⟨t, h⟩ := bqProc_accepted hb x
  refine ⟨t, fun k => k :: s.draw, ?_⟩
  simp only [historyWrites, readReg_bq hb] at h ⊢
  exact h

/-! ### The identity filter -/

theorem rneDiv_mul_right {k : Nat} (hk : 0 < k) (num den : Nat) : rneDiv (num * k) (den * k) = rneDiv num den := by
  have hlt : 2 * (num % den * k) < den * k ↔ 2 * (num % den) < den := by
    rw [← Nat.mul_assoc, Nat.mul_lt_mul_right hk]
  have heq : 2 * (num % den * k) = den * k ↔ 2 * (num % den) = den := by
    rw [← Nat.mul_assoc, Nat.mul_left_inj hk.ne']
  simp only [rneDiv, Nat.mul_div_mul_right _ _ hk, Nat.mul_mod_mul_right, hlt, heq]

/-- A whole number of units rounds alike over every denominator. -/
theorem roundMag_mul_right {den : Nat} (hden : 0 < den) (num : Nat) : roundMag (num * den) den = roundMag num 1 := by
  have hround := rneDiv_mul_right hden num (2 ^ (Nat.log2 num - 23))
  rw [Nat.mul_comm (2 ^ _) den] at hround
  simp only [roundMag, Nat.mul_div_cancel _ hden, hround, Nat.div_one, Nat.one_mul]

/-- A finite value's magnitude rounds to its own pattern. -/
theorem roundMag_magUnits {x : F} (hx : isFinite x = true) : roundMag (magUnits x) 1 = x.toNat % 2 ^ 31 := by
  rw [isFinite_eq, decide_eq_true_iff] at hx
  rw [magUnits_eq, roundMag_unitsOfMag hx]

theorem magUnits_one : magUnits F.one = oneUnits := by decide

theorem fmul_one_left (d : Draw) {x : F} (hx : isFinite x = true) : fmul d F.one x = x := by
  have hsign : (signBit F.one != signBit x) = signBit x := Bool.false_bne _
  rw [fmul_finite d (by decide) hx, magUnits_one, Nat.mul_comm, roundMag_mul_right oneUnits_pos, roundMag_magUnits hx, hsign,
    pack_signBit]

theorem isZero_fmul_zero_left (d : Draw) {z : F} (hz : isFinite z = true) : isZero (fmul d F.zero z) = true := by
  have hround : roundMag 0 oneUnits = 0 := by decide
  rw [fmul_finite d (by decide) hz, magUnits_eq_zero_iff.2 (by decide : isZero F.zero = true), Nat.zero_mul, hround]
  exact (zero_pack _).1

theorem isZero_fneg (a : F) : isZero (fneg a) = isZero a := by rw [isZero_eq, isZero_eq, fneg_mod]

/-- A zero added leaves every finite value but `-0.0`, whose sign a sum with `+0.0` loses (40_numerics.md R132). -/
theorem fadd_zero_right (d : Draw) {x z : F} (hx : isFinite x = true) (hne : x ≠ 0x80000000#32) (hz : isZero z = true) :
    fadd d x z = x := by
  have hunits : signedUnits x + signedUnits z = signedUnits x := by rw [signedUnits_eq_zero_iff.2 hz, add_zero]
  rw [fadd_finite d hx (isFinite_of_isZero hz), hunits]
  by_cases hx0 : isZero x = true
  · have hsign : signBit x = false := by
      by_contra hs
      rw [← pack_signBit_zero hx0, Bool.eq_true_of_not_eq_false hs] at hne
      exact hne rfl
    rw [if_pos (signedUnits_eq_zero_iff.2 hx0), hsign, Bool.false_and, ← hsign, pack_signBit_zero hx0]
  · have hsign : decide (signedUnits x < 0) = signBit x := by
      rw [Bool.eq_iff_iff, decide_eq_true_iff, signBit_iff_signedUnits_neg (Bool.eq_false_iff.2 hx0)]
    rw [if_neg (mt signedUnits_eq_zero_iff.1 hx0), natAbs_signedUnits, roundMag_magUnits hx, hsign, pack_signBit]

theorem fsub_zero_right (d : Draw) {x z : F} (hx : isFinite x = true) (hne : x ≠ 0x80000000#32) (hz : isZero z = true) :
    fsub d x z = x := fadd_zero_right d hx hne ((isZero_fneg z).trans hz)

/-- The identity filter with a finite history (41_biquad.md R161). -/
structure BqUnit.Identity (b : BqUnit) : Prop where
  a0 : b.a0 = F.one
  a1 : b.a1 = F.zero
  a2 : b.a2 = F.zero
  b1 : b.b1 = F.zero
  b2 : b.b2 = F.zero
  x1 : isFinite b.x1 = true
  x2 : isFinite b.x2 = true
  y1 : isFinite b.y1 = true
  y2 : isFinite b.y2 = true

/-- The first product is the input, and the four others are zeros. -/
theorem biquadOut_identity {nm : Num} (hnm : nm.basic = .binary32) (d : Draw) {b : BqUnit} (hb : b.Identity) {x : F}
    (hx : isFinite x = true) (hne : x ≠ 0x80000000#32) : biquadOut nm d b x = x := by
  simp only [biquadOut, Num.fmul_eq hnm, Num.fadd_eq hnm, Num.fsub_eq hnm, hb.a0, hb.a1, hb.a2, hb.b1, hb.b2, fmul_one_left _ hx,
    fadd_zero_right _ hx hne (isZero_fmul_zero_left _ hb.x1), fadd_zero_right _ hx hne (isZero_fmul_zero_left _ hb.x2),
    fsub_zero_right _ hx hne (isZero_fmul_zero_left _ hb.y1), fsub_zero_right _ hx hne (isZero_fmul_zero_left _ hb.y2)]

/-- Settles O33: BQ.PROC answers the difference equation, and that of the identity filter gives the input. -/
theorem bqIdentity : Obligations.BqIdentity := by
  intro s u x hu hnm hx hne ha0 hzero hhistory
  obtain ⟨b, hb⟩ := bq_of_lt hu
  simp only [readReg_bq hb] at ha0 hzero hhistory
  have hid : b.Identity :=
    { a0 := ha0
      a1 := hzero .a1 (by decide)
      a2 := hzero .a2 (by decide)
      b1 := hzero .b1 (by decide)
      b2 := hzero .b2 (by decide)
      x1 := hhistory .x1 (by decide)
      x2 := hhistory .x2 (by decide)
      y1 := hhistory .y1 (by decide)
      y2 := hhistory .y2 (by decide) }
  have h := bqProc_accepted hb x
  rwa [biquadOut_identity hnm s.draw hid hx hne] at h

/-! ### The checks and the frame of the setters -/

section
variable {s : State} {u : Nat}

/-- The state after a setter that is accepted: five coefficients written and one response given (41_biquad.md R162). -/
def State.coeffsWritten (s : State) (u : Nat) (c : BqCoeffs) : State :=
  (s.updBq u fun b => b.withCoeffs c).give { status := .ok, res0 := 0, res1 := 0 }

/-- The coefficient registers a setter writes (41_biquad.md R162). -/
def coeffWrites (u : Nat) (c : BqCoeffs) : List (Reg × U32) :=
  [(.bq u .a0, c.a0), (.bq u .a1, c.a1), (.bq u .a2, c.a2), (.bq u .b1, c.b1), (.bq u .b2, c.b2)]

theorem answered_coeffsWritten (s : State) (u : Nat) (c : BqCoeffs) : answered s (s.coeffsWritten u c) 0 0 :=
  answered_updBq _ _ _ _ _

theorem memSame_coeffsWritten (s : State) (u : Nat) (c : BqCoeffs) : memSame s (s.coeffsWritten u c) := memSame_refl s

theorem regsExcept_coeffsWritten (hu : u < s.counts.nBq) (c : BqCoeffs) :
    regsExcept s (s.coeffsWritten u c) (coeffWrites u c) := by
  obtain ⟨b, hb⟩ := bq_of_lt hu
  refine regsExcept_updBq hb _ (fun r => ?_) (fun r hr => ?_) _
  · cases r <;> simp [coeffWrites, lookup_reg_cons, BqUnit.get, BqUnit.withCoeffs]
  · simp [coeffWrites, lookup_reg_cons, hr]

/-- After a setter the five coefficients read as written. -/
theorem coeffsRead_coeffsWritten (hu : u < s.counts.nBq) (c : BqCoeffs) :
    let reg := fun r => readReg (s.coeffsWritten u c) (.bq u r)
    reg .a0 = c.a0 ∧ reg .a1 = c.a1 ∧ reg .a2 = c.a2 ∧ reg .b1 = c.b1 ∧ reg .b2 = c.b2 := by
  obtain ⟨b, hb⟩ := bq_of_lt hu
  have hread (r : BqReg) : readReg (s.coeffsWritten u c) (.bq u r) = (b.withCoeffs c).get r := by
    rw [State.coeffsWritten, readReg_give, readReg_updBq_bq, if_pos rfl, readAt_some hb]
  exact ⟨hread .a0, hread .a1, hread .a2, hread .b1, hread .b2⟩

variable {mode : BqMode} {readsFs : Bool} {f q g : F}

theorem bqSetter_errUnit (hu : s.counts.nBq ≤ u) : bqSetter mode readsFs u f q g s = .next (refuse .errUnit s) :=
  withUnit_none hu s _

theorem bqSetter_errInblk (hu : u < s.counts.nBq) (hin : readReg s (.sys .inblk) = 1) :
    bqSetter mode readsFs u f q g s = .next (refuse .errInblk s) := by
  obtain ⟨b, hb⟩ := bq_of_lt hu
  rw [bqSetter, withUnit_some hb, inBlock_iff_readReg.2 hin]
  rfl

/-- Outside a block a setter of a unit that exists checks the sample rate, if it reads that, and writes the values of the
design function (41_biquad.md R162). -/
theorem bqSetter_outside (hu : u < s.counts.nBq) (hout : readReg s (.sys .inblk) ≠ 1) :
    bqSetter mode readsFs u f q g s = check (!readsFs || fsConfigured s) .errConfig s (.next (s.coeffsWritten u
      (bqDesign s.cfg.design s.cfg.num s.draw mode f q g (if readsFs then s.sys.fs else F.zero)))) := by
  obtain ⟨b, hb⟩ := bq_of_lt hu
  rw [bqSetter, withUnit_some hb, Bool.eq_false_iff.2 (mt inBlock_iff_readReg.1 hout)]
  rfl

theorem bqSetter_errConfig (hu : u < s.counts.nBq) (hout : readReg s (.sys .inblk) ≠ 1) (hfs : feq s.sys.fs F.zero = true) :
    bqSetter mode true u f q g s = .next (refuse .errConfig s) := by
  rw [bqSetter_outside hu hout, fsConfigured, hfs]
  rfl

theorem bqSetter_rated (hu : u < s.counts.nBq) (hout : readReg s (.sys .inblk) ≠ 1) (hfs : feq s.sys.fs F.zero = false) :
    bqSetter mode true u f q g s =
      .next (s.coeffsWritten u (bqDesign s.cfg.design s.cfg.num s.draw mode f q g s.sys.fs)) := by
  rw [bqSetter_outside hu hout, fsConfigured, hfs]
  rfl

theorem bqSetter_unrated (hu : u < s.counts.nBq) (hout : readReg s (.sys .inblk) ≠ 1) :
    bqSetter mode false u f q g s =
      .next (s.coeffsWritten u (bqDesign s.cfg.design s.cfg.num s.draw mode f q g F.zero)) :=
  bqSetter_outside hu hout

end

/-- Settles O34: each row of the statement is a setter that reads the sample rate, and BQ.SETDIFF is the one that does not. -/
theorem bqSetterFrame : Obligations.BqSetterFrame := by
  intro s u f q g i m q' g' fs hrow
  obtain ⟨hexec, rfl⟩ : exec i s = bqSetter m true u f q' g' s ∧ fs = s.sys.fs := by
    simp only [List.mem_cons, List.not_mem_nil, or_false, Prod.mk.injEq] at hrow
    rcases hrow with ⟨rfl, rfl, rfl, rfl, rfl⟩ | ⟨rfl, rfl, rfl, rfl, rfl⟩ | ⟨rfl, rfl, rfl, rfl, rfl⟩ |
      ⟨rfl, rfl, rfl, rfl, rfl⟩ | ⟨rfl, rfl, rfl, rfl, rfl⟩ | ⟨rfl, rfl, rfl, rfl, rfl⟩ | ⟨rfl, rfl, rfl, rfl, rfl⟩ |
      ⟨rfl, rfl, rfl, rfl, rfl⟩ | ⟨rfl, rfl, rfl, rfl, rfl⟩
    all_goals exact ⟨rfl, rfl⟩
  rw [hexec]
  refine ⟨fun hu => ⟨bqSetter_errUnit hu, bqSetter_errUnit hu⟩,
    fun hu hin => ⟨bqSetter_errInblk hu hin, bqSetter_errInblk hu hin⟩,
    fun hu hout hfs => bqSetter_errConfig hu hout hfs, fun hu hout hfs => ?rated, fun hu hout => ?unrated⟩
  case rated =>
    exact ⟨_, s.draw, bqSetter_rated hu hout hfs, answered_coeffsWritten _ _ _, memSame_coeffsWritten _ _ _,
      regsExcept_coeffsWritten hu _⟩
  case unrated =>
    exact ⟨_, s.draw, bqSetter_unrated hu hout, answered_coeffsWritten _ _ _, memSame_coeffsWritten _ _ _,
      regsExcept_coeffsWritten hu _⟩

/-! ### The spec's design function -/

theorem bqDesign_rbj {s : State} (hrbj : s.cfg.design = .rbj) (d : Draw) (mode : BqMode) (f q g fs : F) :
    bqDesign s.cfg.design s.cfg.num d mode f q g fs = designRbj s.cfg.num d mode f q g fs := by rw [hrbj]; rfl

theorem bqSetter_rbj {s : State} {u : Nat} (hu : u < s.counts.nBq) (hout : readReg s (.sys .inblk) ≠ 1)
    (hfs : feq s.sys.fs F.zero = false) (hrbj : s.cfg.design = .rbj) (mode : BqMode) (f q g : F) :
    bqSetter mode true u f q g s = .next (s.coeffsWritten u (designRbj s.cfg.num s.draw mode f q g s.sys.fs)) := by
  rw [bqSetter_rated hu hout hfs, bqDesign_rbj hrbj]

/-- The mode whose formulas a setter writes (41_biquad.md R162); of no meaning for the other commands. -/
def setterMode : Opcode → BqMode
  | .bqSethp => .hp
  | .bqSetbp => .bp
  | .bqSetnotch => .notch
  | .bqSetloshelf => .loshelf
  | .bqSethishelf => .hishelf
  | .bqSetpeak => .peak
  | .bqSetap => .ap
  | .bqSetdiff => .diff
  | .bqSetonepole => .onepole
  | _ => .lp

/-- The place of operation `k` of a statement on formulas among the free NaN bits: `places` has its number in the model (log 6). -/
def drawAt (places : List Nat) (d : Draw) (k : Nat) : Draw := places.getD k 0 :: d

/-- The model's numbers of the operations of the setters without a gain, as `BqFormulasWithoutGain` counts them. -/
def placesWithoutGain : Opcode → List Nat
  | .bqSetbp => [0, 1, 2, 3, 4, 5, 6, 0, 7, 8, 10, 0, 11, 0, 0, 12]
  | .bqSetnotch => [0, 1, 2, 3, 4, 5, 6, 0, 7, 8, 0, 0, 10, 0, 0, 11]
  | .bqSetap => [0, 1, 2, 3, 4, 5, 6, 0, 7, 8, 10, 11, 12, 13, 14, 15]
  | _ => [0, 1, 2, 3, 4, 5, 6, 10, 7, 8, 11, 12, 13, 14, 15, 16]

/-- Settles O35: each setter's formulas are those of its mode, operation by operation. -/
theorem bqFormulasWithoutGain : Obligations.BqFormulasWithoutGain := by
  intro s u f q nm hu hout hfs hrbj
  have hexec := fun mode => bqSetter_rbj hu hout hfs hrbj mode f q F.zero
  refine ⟨fun op => s.coeffsWritten u (designRbj nm s.draw (setterMode op) f q F.zero s.sys.fs),
    fun op => drawAt (placesWithoutGain op) s.draw,
    ⟨hexec .lp, hexec .hp, hexec .bp, hexec .notch, hexec .ap⟩, fun op _ => ?_⟩
  have hread := fun mode => coeffsRead_coeffsWritten hu (designRbj nm s.draw mode f q F.zero s.sys.fs)
  refine ⟨?lp, ?hp, ?bp, ?notch, ?ap⟩
  case lp => rintro rfl; exact hread .lp
  case hp => rintro rfl; exact hread .hp
  case bp => rintro rfl; exact hread .bp
  case notch => rintro rfl; exact hread .notch
  case ap => rintro rfl; exact hread .ap

/-- The model's numbers of the operations of the setters with a gain, as `BqFormulasWithGain` counts them: only BQ.SETPEAK's
differ, from 20 on. -/
def placesWithGain : Opcode → Nat → Nat
  | .bqSetpeak, 20 => 11
  | .bqSetpeak, 21 => 12
  | .bqSetpeak, 22 => 13
  | .bqSetpeak, 23 => 14
  | .bqSetpeak, 30 => 20
  | .bqSetpeak, 31 => 21
  | .bqSetpeak, 40 => 22
  | .bqSetpeak, 50 => 23
  | .bqSetpeak, 51 => 24
  | .bqSetpeak, 60 => 25
  | .bqSetpeak, 70 => 26
  | .bqSetpeak, 71 => 27
  | _, k => k

/-- Settles O36: each setter's formulas are those of its mode, operation by operation. -/
theorem bqFormulasWithGain : Obligations.BqFormulasWithGain := by
  intro s u f q g nm hu hout hfs hrbj
  have hexec := fun mode => bqSetter_rbj hu hout hfs hrbj mode f q g
  refine ⟨fun op => s.coeffsWritten u (designRbj nm s.draw (setterMode op) f q g s.sys.fs),
    fun op k => placesWithGain op k :: s.draw, ⟨hexec .loshelf, hexec .hishelf, hexec .peak⟩, fun op _ => ?_⟩
  have hread := fun mode => coeffsRead_coeffsWritten hu (designRbj nm s.draw mode f q g s.sys.fs)
  refine ⟨?loshelf, ?hishelf, ?peak⟩
  case loshelf => rintro rfl; exact hread .loshelf
  case hishelf => rintro rfl; exact hread .hishelf
  case peak => rintro rfl; exact hread .peak

/-- Settles O37: the frame of the setters, with the formulas of the two modes. -/
theorem bqDifferentiatorAndOnePole : Obligations.BqDifferentiatorAndOnePole := by
  intro s u f nm hu hout hrbj
  refine ⟨⟨s.coeffsWritten u designDiff, ?_, answered_coeffsWritten _ _ _, memSame_coeffsWritten _ _ _,
    regsExcept_coeffsWritten hu _⟩, fun hfs => ?_⟩
  · exact (bqSetter_unrated hu hout).trans (by rw [bqDesign_rbj hrbj]; rfl)
  · exact ⟨s.coeffsWritten u (designOnepole nm s.draw f s.sys.fs), drawAt [0, 1, 10] s.draw,
      bqSetter_rbj hu hout hfs hrbj .onepole f F.zero F.zero, answered_coeffsWritten _ _ _, memSame_coeffsWritten _ _ _,
      regsExcept_coeffsWritten hu _⟩

end Sys2Proof.Machine

/-! SUPPORT. The OSC commands one at a time (42_oscillator.md): the checks and the frame of OSC.SETF and OSC.PROC, and the
waveform with the NaN bits of every operation drawn anywhere. -/

namespace Sys2Proof.Machine

/-! ### OSC.SETF -/

section
variable {s : State} {u : Nat} {o : OscUnit}

/-- The registers OSC.SETF writes (42_oscillator.md R192). -/
def frequencyWrites (u : Nat) (f : F) (inc : U32) : List (Reg × U32) := [(.osc u .freq, f), (.osc u .inc, inc)]

theorem regsExcept_withFreq (ho : s.osc[u]? = some o) (f : F) (inc : U32) (rsp : Response) :
    regsExcept s ((s.updOsc u fun o => { o with freq := f, inc := inc }).give rsp) (frequencyWrites u f inc) := by
  refine regsExcept_updOsc ho _ (fun r => ?_) (fun r hr => ?_) rsp
  · cases r <;> simp [frequencyWrites, lookup_reg_cons, OscUnit.get]
  · simp [frequencyWrites, lookup_reg_cons, hr]

/-- OSC.SETF of a unit that exists checks the sample rate (42_oscillator.md R192). -/
theorem exec_oscSetf (ho : s.osc[u]? = some o) (f : F) : exec (.oscSetf u f) s =
    check (fsConfigured s) .errConfig s (respond 0 0
      (s.updOsc u fun o => { o with freq := f, inc := incOf s.cfg.num s.draw f s.sys.fs })) := withUnit_some ho s _

/-- A NaN frequency has the increment 0 (42_oscillator.md R192). -/
theorem incOf_nan {nm : Num} (hnm : nm.basic = .binary32) (d : Draw) {f : F} (hf : isNan f = true) (fs : F) :
    incOf nm d f fs = 0 := by
  rw [incOf, Num.fmul_eq hnm, fmul_nan (.inl hf), f2u_nan (isNan_nanOf _)]

end

/-- Settles O38: the two checks, and the two registers of the unit that exists. -/
theorem oscSetfResult : Obligations.OscSetfResult := by
  intro s u f
  refine ⟨fun hu => withUnit_none hu s _, fun hu hfs => ?unrated, fun hu hfs => ?rated⟩
  case unrated =>
    obtain ⟨o, ho⟩ := osc_of_lt hu
    rw [exec_oscSetf ho, check_not (by simp [fsConfigured, hfs]), refused_eq]
  case rated =>
    obtain ⟨o, ho⟩ := osc_of_lt hu
    refine ⟨_, by rw [exec_oscSetf ho, check_of (by simp [fsConfigured, hfs]), respond_eq], answered_updOsc _ _ _ _ _,
      memSame_refl s, fun d d' => ?frame, fun hnm hnan => ?nan⟩
    case frame =>
      have hinc := inc_draw s.cfg.num d (1 :: s.draw) d' (0 :: s.draw) f s.sys.fs
      exact hinc ▸ regsExcept_withFreq ho f _ _
    case nan =>
      have hread := regsExcept_withFreq ho f (incOf s.cfg.num s.draw f s.sys.fs) ⟨.ok, 0, 0⟩ (.osc u .inc)
      rw [hread, incOf_nan hnm _ hnan]
      simp [frequencyWrites, lookup_reg_cons]

/-! ### The waveform with every draw free -/

section
variable {nm : Num}

/-- A product that is no NaN is the same for every draw. -/
theorem fmul_draw_of_not_nan {d : Draw} {a b : F} (h : nm.basic = .binary32 → isNan (fmul d a b) = false) (d' : Draw) :
    nm.fmul d a b = nm.fmul d' a b := by
  cases hnm : nm.basic with
  | binary32 => exact eq_of_draw (nm.fmul_draw d d' a b) (by rw [Num.fmul_eq hnm]; exact h hnm)
  | other k => simp only [Num.fmul, hnm]

/-- A difference that is no NaN is the same for every draw. -/
theorem fsub_draw_of_not_nan {d : Draw} {a b : F} (h : nm.basic = .binary32 → isNan (fsub d a b) = false) (d' : Draw) :
    nm.fsub d a b = nm.fsub d' a b := by
  cases hnm : nm.basic with
  | binary32 => exact eq_of_draw (nm.fsub_draw d d' a b) (by rw [Num.fsub_eq hnm]; exact h hnm)
  | other k => simp only [Num.fsub, hnm]

theorem isNan_num_fabs (hnm : nm.basic = .binary32) {x : F} (hx : isNan x = false) : isNan (nm.fabs x) = false := by
  rw [Num.fabs_eq hnm, isNan_fabs, hx]

/-- The phase scaled to -1.0 to 1.0, `ph` of 42_oscillator.md R195. -/
def foldPhase (nm : Num) (d : Draw) (p : U32) : F :=
  nm.fmul d (i2f (signedReading (p - 0x40000000#32))) F.pow31Inv

theorem fold_eq (nm : Num) (d : Draw) (p : U32) : fold nm d p =
    nm.fsub (2 :: d) F.one (nm.fmul (1 :: d) F.two (nm.fabs (foldPhase nm (0 :: d) p))) := rfl

theorem isNan_foldPhase (hnm : nm.basic = .binary32) (d : Draw) (p : U32) : isNan (foldPhase nm d p) = false := by
  rw [foldPhase, Num.fmul_eq hnm]
  exact isNan_fmul_pow31Inv _ _

/-- The fold with the NaN bits of its three operations drawn anywhere. -/
theorem fold_eq_of_draws (nm : Num) (d : Draw) (e : Nat → Draw) (p : U32) : fold nm d p =
    nm.fsub (e 2) F.one (nm.fmul (e 1) F.two (nm.fabs (foldPhase nm (e 0) p))) := by
  have hphase : foldPhase nm (0 :: d) p = foldPhase nm (e 0) p :=
    fmul_draw_of_not_nan (fun _ => isNan_fmul_pow31Inv _ _) _
  have hdouble : nm.fmul (1 :: d) F.two (nm.fabs (foldPhase nm (e 0) p)) =
      nm.fmul (e 1) F.two (nm.fabs (foldPhase nm (e 0) p)) :=
    fmul_draw_of_not_nan (fun hnm => isNan_two_mul _ (isNan_num_fabs hnm (isNan_foldPhase hnm _ _))) _
  rw [fold_eq, hphase, hdouble]
  refine fsub_draw_of_not_nan (fun hnm => isNan_fsub_of_finite _ (by decide) ?_) _
  rw [Num.fmul_eq hnm]
  exact isNan_two_mul _ (isNan_num_fabs hnm (isNan_foldPhase hnm _ _))

/-- The parabola of a number with the NaN bits of its two operations drawn anywhere. -/
theorem parabola_eq_of_draws (d e e' : Draw) {t : F} (ht : nm.basic = .binary32 → isNan t = false) :
    parabola nm d t = nm.fmul e' t (nm.fsub e F.two (nm.fabs t)) := by
  have hsub : nm.fsub (0 :: d) F.two (nm.fabs t) = nm.fsub e F.two (nm.fabs t) :=
    fsub_draw_of_not_nan (fun hnm => isNan_fsub_of_finite _ (by decide) (isNan_num_fabs hnm (ht hnm))) _
  rw [parabola, hsub]
  refine fmul_draw_of_not_nan (fun hnm => ?_) _
  rw [Num.fsub_eq hnm, Num.fabs_eq hnm]
  exact isNan_parabola _ _ (ht hnm)

end

/-! ### OSC.PROC -/

theorem regsExcept_withPhase {s : State} {u : Nat} {o : OscUnit} (ho : s.osc[u]? = some o) (p : U32) (rsp : Response) :
    regsExcept s ((s.updOsc u fun o => { o with phase := p }).give rsp) [(.osc u .phase, p)] := by
  refine regsExcept_updOsc ho _ (fun r => ?_) (fun r hr => ?_) rsp
  · cases r <;> simp [lookup_reg_cons, OscUnit.get]
  · simp [lookup_reg_cons, hr]

/-- Settles O39: the phase register of the unit that exists, and the waveform for each kind of WAVE. -/
theorem oscProcResult : Obligations.OscProcResult := by
  intro s u
  refine ⟨fun hu => withUnit_none hu s _, fun hu => ?_⟩
  obtain ⟨o, ho⟩ := osc_of_lt hu
  simp only [readReg_osc ho, OscUnit.get]
  refine ⟨_, _, by rw [exec_oscProc ho, respond_eq], answered_updOsc _ _ _ _ _, memSame_refl s,
    regsExcept_withPhase ho _ _, fun e => ?_⟩
  rw [fold_eq_of_draws s.cfg.num (0 :: s.draw) e (o.phase + o.inc)]
  refine ⟨fun hwave => if_neg hwave, fun hwave hsine => ?parabola, fun k hwave hsine => ?other⟩
  case parabola =>
    rw [waveOut, if_pos hwave, hsine]
    refine parabola_eq_of_draws _ _ _ fun hnm => ?_
    rw [← fold_eq_of_draws _ [] e]
    exact isNan_fold hnm _ _
  case other =>
    rw [waveOut, if_pos hwave, hsine]
    rfl

end Sys2Proof.Machine

/-! SUPPORT. The range of the fold (42_oscillator.md R195, R197): rounding keeps a number between the binary32 values it lies
between, so each operation of the fold keeps the range of its exact result. -/

namespace Sys2Proof.Machine

/-! ### Rounding keeps a range -/

/-- A finite value between two values. -/
structure Between (lo hi v : F) : Prop where
  finite : isFinite v = true
  lower : (signedUnits lo : ℝ) ≤ signedUnits v
  upper : (signedUnits v : ℝ) ≤ signedUnits hi

section
variable {v w lo hi : F} {x : ℝ}

/-- A finite number lies below the threshold from which rounding overflows. -/
theorem abs_signedUnits_lt_overflow (hv : isFinite v = true) : |(signedUnits v : ℝ)| < 2 ^ 277 - 2 ^ 252 := by
  rw [isFinite_eq, decide_eq_true_iff] at hv
  have hmax : magUnits v ≤ (2 ^ 24 - 1) * 2 ^ 253 := by
    rw [magUnits_eq, ← unitsOfMag_pred_infMag]
    exact unitsOfMag_strictMono.monotone (Nat.le_pred_of_lt hv)
  rw [abs_signedUnits, two_pow_277_sub]
  calc (magUnits v : ℝ) ≤ ((2 ^ 24 - 1) * 2 ^ 253 : Nat) := Nat.cast_le.2 hmax
    _ < _ := by norm_num

/-- A rounded number does not pass a finite value above it. -/
theorem RoundsTo.le_of_le (h : RoundsTo v x) (hv : isInf v = false) (hw : isFinite w = true) (hx : x ≤ signedUnits w) :
    (signedUnits v : ℝ) ≤ signedUnits w := by
  obtain ⟨-, -, -, hnearest⟩ := h
  have hdist := (hnearest hv w hw).1
  rw [abs_of_nonpos (sub_nonpos.2 hx)] at hdist
  linarith [neg_abs_le (x - signedUnits v)]

/-- A rounded number does not pass a finite value below it. -/
theorem RoundsTo.ge_of_ge (h : RoundsTo v x) (hv : isInf v = false) (hw : isFinite w = true) (hx : signedUnits w ≤ x) :
    (signedUnits w : ℝ) ≤ signedUnits v := by
  obtain ⟨-, -, -, hnearest⟩ := h
  have hdist := (hnearest hv w hw).1
  rw [abs_of_nonneg (sub_nonneg.2 hx)] at hdist
  linarith [le_abs_self (x - signedUnits v)]

theorem RoundsTo.between (h : RoundsTo v x) (hlo : isFinite lo = true) (hhi : isFinite hi = true)
    (hlower : signedUnits lo ≤ x) (hupper : x ≤ signedUnits hi) : Between lo hi v := by
  have hbelow : |x| < 2 ^ 277 - 2 ^ 252 := (abs_le_max_abs_abs hlower hupper).trans_lt
    (max_lt (abs_signedUnits_lt_overflow hlo) (abs_signedUnits_lt_overflow hhi))
  have ⟨hnan, hover, _⟩ := h
  have hinf : isInf v = false := Bool.eq_false_iff.2 fun hv => (hover.1 hv).not_gt hbelow
  exact ⟨isFinite_iff.2 ⟨hnan, hinf⟩, h.ge_of_ge hinf hlo hlower, h.le_of_le hinf hhi hupper⟩

end

/-! ### The operations of the fold -/

theorem isFinite_fabs (a : F) : isFinite (fabs a) = isFinite a := by rw [isFinite_eq, isFinite_eq, fabs_mod, Nat.mod_mod]

theorem signedUnits_fabs (a : F) : signedUnits (fabs a) = |signedUnits a| := by
  rw [signedUnits, signBit_fabs, Int.abs_eq_natAbs, natAbs_signedUnits, magUnits_eq, magUnits_eq, fabs_mod, Nat.mod_mod]
  rfl

theorem signedReading_range (v : U32) : -2 ^ 31 ≤ signedReading v ∧ signedReading v ≤ 2 ^ 31 := by
  have := v.isLt
  unfold signedReading
  split <;> omega

/-- The bounds of the fold's operations and its scale, in units of 2^-149; `0x4F000000` and `0xCF000000` are 2^31 and -2^31. -/
theorem signedUnits_bounds :
    (signedUnits 0xCF000000#32 : ℝ) = -2 ^ 180 ∧ (signedUnits 0x4F000000#32 : ℝ) = 2 ^ 180 ∧
    (signedUnits F.negOne : ℝ) = -2 ^ 149 ∧ (signedUnits F.zero : ℝ) = 0 ∧ (signedUnits F.one : ℝ) = 2 ^ 149 ∧
    (signedUnits F.two : ℝ) = 2 ^ 150 ∧ (signedUnits F.pow31Inv : ℝ) = 2 ^ 118 := by
  have hunits : signedUnits 0xCF000000#32 = -2 ^ 180 ∧ signedUnits 0x4F000000#32 = 2 ^ 180 ∧
      signedUnits F.negOne = -2 ^ 149 ∧ signedUnits F.zero = 0 ∧ signedUnits F.one = 2 ^ 149 ∧
      signedUnits F.two = 2 ^ 150 ∧ signedUnits F.pow31Inv = 2 ^ 118 := by decide
  exact_mod_cast hunits

/-- A signed reading converts to a value in -2^31 to 2^31. -/
theorem between_i2f (p : U32) : Between 0xCF000000#32 0x4F000000#32 (i2f (signedReading p)) := by
  obtain ⟨hmin, hmax⟩ := signedReading_range p
  have hmin' : (-2 ^ 31 : ℝ) ≤ signedReading p := by exact_mod_cast hmin
  have hmax' : (signedReading p : ℝ) ≤ 2 ^ 31 := by exact_mod_cast hmax
  refine (roundsTo_i2f _).between (by decide) (by decide) ?_ ?_ <;> simp only [signedUnits_bounds] <;> linarith

section
variable {nm : Num} (hnm : nm.basic = .binary32) (d : Draw) (p : U32) {v : F}
include hnm

theorem between_foldPhase : Between F.negOne F.one (foldPhase nm d p) := by
  obtain ⟨hfinite, hlower, hupper⟩ := between_i2f (p - 0x40000000#32)
  simp only [signedUnits_bounds] at hlower hupper
  rw [foldPhase, Num.fmul_eq hnm]
  refine (roundsTo_fmul d hfinite (by decide)).between (by decide) (by decide) ?_ ?_ <;>
    simp only [signedUnits_bounds] <;> linarith

theorem between_fabs (h : Between F.negOne F.one v) : Between F.zero F.one (nm.fabs v) := by
  obtain ⟨hfinite, hlower, hupper⟩ := h
  simp only [signedUnits_bounds] at hlower hupper
  rw [Num.fabs_eq hnm]
  refine ⟨(isFinite_fabs v).trans hfinite, ?_, ?_⟩ <;>
    simp only [signedUnits_bounds, signedUnits_fabs, Int.cast_abs]
  · exact abs_nonneg _
  · exact abs_le.2 ⟨hlower, hupper⟩

theorem between_two_mul (h : Between F.zero F.one v) : Between F.zero F.two (nm.fmul d F.two v) := by
  obtain ⟨hfinite, hlower, hupper⟩ := h
  simp only [signedUnits_bounds] at hlower hupper
  rw [Num.fmul_eq hnm]
  refine (roundsTo_fmul d (by decide) hfinite).between (by decide) (by decide) ?_ ?_ <;>
    simp only [signedUnits_bounds] <;> linarith

theorem between_one_sub (h : Between F.zero F.two v) : Between F.negOne F.one (nm.fsub d F.one v) := by
  obtain ⟨hfinite, hlower, hupper⟩ := h
  simp only [signedUnits_bounds] at hlower hupper
  rw [Num.fsub_eq hnm]
  refine (roundsTo_fsub d (by decide) hfinite).between (by decide) (by decide) ?_ ?_ <;>
    simp only [signedUnits_bounds] <;> linarith

/-- The fold lies in -1.0 to 1.0 (42_oscillator.md R197). -/
theorem between_fold : Between F.negOne F.one (fold nm d p) :=
  between_one_sub hnm _ (between_two_mul hnm _ (between_fabs hnm (between_foldPhase hnm _ p)))

end

/-- The scaled phase at the four quarters is -0.5, 0.0, 0.5 and -1.0. -/
theorem foldPhase_quarters {nm : Num} (hnm : nm.basic = .binary32) (d : Draw) : foldPhase nm d 0 = 0xBF000000#32 ∧
    foldPhase nm d 0x40000000#32 = F.zero ∧ foldPhase nm d 0x80000000#32 = F.half ∧
    foldPhase nm d 0xC0000000#32 = F.negOne := by
  simp only [foldPhase, Num.fmul_eq hnm]
  exact ⟨rfl, rfl, rfl, rfl⟩

/-- The fold at the four quarters of the phase (42_oscillator.md R195). -/
theorem fold_quarters {nm : Num} (hnm : nm.basic = .binary32) (d : Draw) : fold nm d 0 = F.zero ∧
    fold nm d 0x40000000#32 = F.one ∧ fold nm d 0x80000000#32 = F.zero ∧ fold nm d 0xC0000000#32 = F.negOne := by
  have hdouble (d : Draw) : fmul d F.two (fabs 0xBF000000#32) = F.one ∧ fmul d F.two (fabs F.zero) = F.zero ∧
      fmul d F.two (fabs F.half) = F.one ∧ fmul d F.two (fabs F.negOne) = F.two := ⟨rfl, rfl, rfl, rfl⟩
  simp only [fold_eq, foldPhase_quarters hnm, hdouble, Num.fmul_eq hnm, Num.fsub_eq hnm, Num.fabs_eq hnm]
  exact ⟨rfl, rfl, rfl, rfl⟩

theorem flt_eq_false_of_le {a b : F} (h : (signedUnits b : ℝ) ≤ signedUnits a) : flt a b = false := by
  rw [flt, decide_eq_false (not_lt.2 (Int.cast_le.1 h)), Bool.and_false]

/-- Settles O40: the range of each operation in turn, and the four values by running the fold. -/
theorem foldRange : Obligations.FoldRange := fun _ hnm =>
  ⟨fun d p =>
    have hrange := between_fold hnm d p
    ⟨isNan_fold hnm d p, flt_eq_false_of_le hrange.upper, flt_eq_false_of_le hrange.lower⟩, fold_quarters hnm⟩

end Sys2Proof.Machine

/-! SUPPORT. The DL commands one at a time (43_delay.md): the checks and the frame of DL.RESIZE, DL.SETDELAY and DL.SETMODDELAY,
and DL.PROC as a line written, tapped and advanced, by kind. -/

namespace Sys2Proof.Machine

section
variable {s : State} {u : Nat} {l : DlUnit}

/-! ### The checks -/

theorem inRun_iff_readReg : inRun s = true ↔ readReg s (.sys .mode) = 1 := decide_eq_true_iff

theorem fsConfigured_of_feq {b : Bool} (h : feq s.sys.fs F.zero = b) : fsConfigured s = !b := by rw [fsConfigured, h]

/-- The lengths DL.RESIZE refuses (43_delay.md R212). -/
theorem lengthOk_eq_false {m : Nat} {p : F} (h : isNan p = true ∨ flt p F.zero = true ∨ flt (pow2 m) p = true) :
    lengthOk m p = false := by
  rcases h with h | h | h <;> simp [lengthOk, h]

theorem lengthOk_eq_true {m : Nat} {p : F} (hnan : isNan p = false) (hneg : flt p F.zero = false)
    (hlong : flt (pow2 m) p = false) : lengthOk m p = true := by simp [lengthOk, hnan, hneg, hlong]

/-- Whether a length is refused does not depend on which NaN was drawn. -/
theorem lengthOk_fmul_draw (nm : Num) (m : Nat) (d d' : Draw) (a b : F) :
    lengthOk m (nm.fmul d a b) = lengthOk m (nm.fmul d' a b) := by
  rcases nm.fmul_draw d d' a b with ⟨h, h'⟩ | h
  · rw [lengthOk_eq_false (.inl h), lengthOk_eq_false (.inl h')]
  · rw [h]

/-! ### DL.RESIZE -/

/-- The length in samples DL.RESIZE computes (43_delay.md R212). -/
def resizeLength (s : State) (d : F) : F := s.cfg.num.fmul (0 :: s.draw) d s.sys.fs

/-- The state after a DL.RESIZE to the length `2^e` (43_delay.md R212). -/
def State.lineCleared (s : State) (u e : Nat) : State :=
  (s.updDl u fun l => l.resized e).give { status := .ok, res0 := 0, res1 := 0 }

/-- DL.RESIZE of a unit that exists: its three checks, and the line cleared (43_delay.md R212). -/
theorem exec_dlResize (hl : s.dl[u]? = some l) (d : F) : exec (.dlResize u d) s =
    check (!inRun s) .errMode s (check (fsConfigured s) .errConfig s
      (check (lengthOk s.cfg.dlMaxLog2 (resizeLength s d)) .errConfig s
        (.next (s.lineCleared u (clog2 (resizeLength s d)))))) := withUnit_some hl s _

/-- In SETUP and with a sample rate only the length is left to check. -/
theorem exec_dlResize_rated (hu : u < s.counts.nDl) (hmode : readReg s (.sys .mode) ≠ 1) (hfs : feq s.sys.fs F.zero = false)
    (d : F) : exec (.dlResize u d) s = check (lengthOk s.cfg.dlMaxLog2 (resizeLength s d)) .errConfig s
      (.next (s.lineCleared u (clog2 (resizeLength s d)))) := by
  obtain ⟨l, hl⟩ := dl_of_lt hu
  rw [exec_dlResize hl, Bool.eq_false_iff.2 (mt inRun_iff_readReg.1 hmode), fsConfigured_of_feq hfs]
  rfl

theorem regsExcept_lineCleared (hl : s.dl[u]? = some l) (e : Nat) : regsExcept s (s.lineCleared u e)
    [(.dl u .log2len, BitVec.ofNat 32 e), (.dl u .widx, 0), (.dl u .fixout, F.zero), (.dl u .apX1, F.zero),
      (.dl u .apY1, F.zero)] := by
  refine regsExcept_updDl hl _ (fun r => ?_) (fun r hr => ?_) _
  · cases r <;> simp [lookup_reg_cons, DlUnit.get, DlUnit.resized]
  · simp [lookup_reg_cons, hr]

theorem dlSample_lineCleared (hl : s.dl[u]? = some l) (e w k : Nat) :
    dlSample (s.lineCleared u e) w k = if w = u then F.zero else dlSample s w k := by
  rw [State.lineCleared, dlSample_give, dlSample_updDl]
  by_cases h : u = w
  · subst h
    rw [if_pos rfl, if_pos rfl, readAt_some hl]
    rfl
  · rw [if_neg h, if_neg (Ne.symm h)]

end

/-- Settles O42: the checks in their order, and the line that is cleared. -/
theorem dlResizeResult : Obligations.DlResizeResult := by
  intro s u d
  refine ⟨fun hu => withUnit_none hu s _, fun hu hmode => ?running, fun hu hmode hfs => ?unrated,
    fun hu hmode hfs => ⟨fun n p hp hbad => ?length, fun n p hp hnan hneg hlong => ?accepted⟩⟩
  case running =>
    obtain ⟨l, hl⟩ := dl_of_lt hu
    rw [exec_dlResize hl, inRun_iff_readReg.2 hmode]
    rfl
  case unrated =>
    obtain ⟨l, hl⟩ := dl_of_lt hu
    rw [exec_dlResize hl, Bool.eq_false_iff.2 (mt inRun_iff_readReg.1 hmode), fsConfigured_of_feq hfs]
    rfl
  case length =>
    subst hp
    have hrefused : lengthOk s.cfg.dlMaxLog2 (resizeLength s d) = false :=
      (lengthOk_fmul_draw _ _ _ n _ _).trans (lengthOk_eq_false hbad)
    rw [exec_dlResize_rated hu hmode hfs, check_not hrefused, refused_eq]
  case accepted =>
    obtain ⟨l, hl⟩ := dl_of_lt hu
    have hlength : p = resizeLength s d := hp.trans (eq_of_draw (s.cfg.num.fmul_draw n _ d s.sys.fs) (hp ▸ hnan))
    subst hlength
    exact ⟨_, (exec_dlResize_rated hu hmode hfs d).trans (check_of (lengthOk_eq_true hnan hneg hlong) _ _ _),
      answered_updDl _ _ _ _ _, regsExcept_lineCleared hl _, dlSample_lineCleared hl _, fun _ _ _ => rfl⟩

/-! ### DL.SETDELAY and DL.SETMODDELAY -/

section
variable {s : State} {u : Nat} {l : DlUnit}

/-- One register of a line written, as REG.WR writes it, and one response given. -/
def State.lineSet (s : State) (u : Nat) (r : DlReg) (v : U32) : State :=
  (writeReg s (.dl u r) v).give { status := .ok, res0 := 0, res1 := 0 }

/-- DL.SETDELAY of a unit that exists checks the sample rate and writes FIXDLY (43_delay.md R213). -/
theorem exec_dlSetdelay (hl : s.dl[u]? = some l) (d : F) : exec (.dlSetdelay u d) s = check (fsConfigured s) .errConfig s
    (.next (s.lineSet u .fixdly (f2u (s.cfg.num.fmul (0 :: s.draw) d s.sys.fs)))) := withUnit_some hl s _

/-- DL.SETMODDELAY of a unit that exists checks the sample rate and writes MODDLY (43_delay.md R214). -/
theorem exec_dlSetmoddelay (hl : s.dl[u]? = some l) (d : F) : exec (.dlSetmoddelay u d) s =
    check (fsConfigured s) .errConfig s
      (.next (s.lineSet u .moddly (s.cfg.num.fmul (0 :: s.draw) d s.sys.fs))) := withUnit_some hl s _

theorem answered_lineSet (s : State) (u : Nat) (r : DlReg) (v : U32) : answered s (s.lineSet u r v) 0 0 :=
  answered_updDl _ _ _ _ _

theorem memSame_lineSet (s : State) (u : Nat) (r : DlReg) (v : U32) : memSame s (s.lineSet u r v) :=
  ⟨dlSample_writeReg s _ v, lineSample_writeReg s _ v⟩

theorem regsExcept_lineSet (hl : s.dl[u]? = some l) (r : DlReg) (v : U32) :
    regsExcept s (s.lineSet u r v) [(.dl u r, v)] := by
  refine regsExcept_updDl hl _ (fun q => ?_) (fun q hq => ?_) _
  · rw [DlUnit.get_put, lookup_reg_cons, lookup_reg_nil]
    by_cases h : q = r <;> simp [h]
  · simp [lookup_reg_cons, hq]

end

/-- Settles O43: the checks, and the register each setter writes; the truncated count of SETDELAY is the same for every draw. -/
theorem dlDelaySettersResult : Obligations.DlDelaySettersResult := by
  intro s u d
  refine ⟨fun hu => ⟨withUnit_none hu s _, withUnit_none hu s _⟩, fun hu hfs => ?unrated, fun hu hfs => ?rated⟩
  case unrated =>
    obtain ⟨l, hl⟩ := dl_of_lt hu
    rw [exec_dlSetdelay hl, exec_dlSetmoddelay hl, fsConfigured_of_feq hfs]
    exact ⟨rfl, rfl⟩
  case rated =>
    obtain ⟨l, hl⟩ := dl_of_lt hu
    rw [exec_dlSetdelay hl, exec_dlSetmoddelay hl, fsConfigured_of_feq hfs]
    refine ⟨⟨_, rfl, answered_lineSet _ _ _ _, memSame_lineSet _ _ _ _, fun n => ?_⟩,
      ⟨_, _, rfl, answered_lineSet _ _ _ _, memSame_lineSet _ _ _ _, regsExcept_lineSet hl _ _⟩⟩
    exact f2u_fmul_draw s.cfg.num (0 :: s.draw) n d s.sys.fs ▸ regsExcept_lineSet hl .fixdly _

/-! ### A line written, tapped and advanced -/

section
variable {l : DlUnit}

/-- What a tap reads after the write of the same command (43_delay.md R215, R216). -/
theorem DlUnit.tap_written (l : DlUnit) (w : F) (d : U32) : (l.written w).tap d =
    if ringIndex l.log2len.toNat l.widx d = ringIndex l.log2len.toNat l.widx 0 then w
    else memRead l.buf (ringIndex l.log2len.toNat l.widx d) := memRead_memWrite _ _ _ _

/-- The line after a sample `w` has entered it: written, the fixed tap stored, the write index advanced (43_delay.md R216). -/
def DlUnit.advanced (l : DlUnit) (w : F) : DlUnit :=
  { l.written w with fixout := (l.written w).tap l.fixdly, widx := l.widx + 1 }

/-- The state of the allpass interpolator replaced (43_delay.md R216, R220). -/
def DlUnit.interpolated (l : DlUnit) (a m : F) : DlUnit := { l with apX1 := a, apY1 := m }

/-- The mix of the dry input and the modulated tap (43_delay.md R216). -/
def DlUnit.mixOut (nm : Num) (d : Draw) (l : DlUnit) (x m : F) : F :=
  nm.fadd (4 :: d) (nm.fmul (2 :: d) l.gDry x) (nm.fmul (3 :: d) l.gFf m)

theorem DlUnit.lineIn_mixed (h : l.kind ≠ 0) (nm : Num) (d : Draw) (x : F) :
    l.lineIn nm d x = nm.fadd (1 :: d) x (nm.fmul (0 :: d) l.gFb l.fixout) := if_neg h

/-- DL.PROC of kind SAMPLE (43_delay.md R216). -/
theorem DlUnit.proc_sample (h : l.kind = 0) (nm : Num) (d : Draw) (x : F) :
    l.proc nm d x = (l.advanced x, (l.written x).tap l.fixdly) := by
  rw [DlUnit.proc, if_pos h, DlUnit.lineIn, if_pos h]
  rfl

/-- DL.PROC of kind LINEAR (43_delay.md R216, R219). -/
theorem DlUnit.proc_linear (h : l.kind = 1) (nm : Num) (d : Draw) (x : F) :
    let w := l.lineIn nm (0 :: d) x
    let dv := split nm (0 :: 1 :: d) l.moddly
    l.proc nm d x = (l.advanced w, l.mixOut nm d x
      (interpolate nm (1 :: 1 :: d) dv.2 ((l.written w).tap dv.1) ((l.written w).tap (dv.1 + 1)))) := by
  have hne : l.kind ≠ 0 := by rw [h]; decide
  intro w dv
  have hmod : (l.written w).modulated nm (1 :: d) =
      interpolate nm (1 :: 1 :: d) dv.2 ((l.written w).tap dv.1) ((l.written w).tap (dv.1 + 1)) := if_pos h
  rw [DlUnit.proc, if_neg hne, if_pos h, hmod]
  rfl

/-- The allpass interpolator of a line whose own tap read `a` (43_delay.md R216, R220). -/
def DlUnit.allpassOut (nm : Num) (d : Draw) (l : DlUnit) (fr a : F) : F :=
  nm.fadd (4 :: d) (nm.fmul (3 :: d) (etaOf nm (2 :: d) fr) (nm.fsub (5 :: d) a l.apY1)) l.apX1

/-- DL.PROC of kind ALLPASS (43_delay.md R216, R220). -/
theorem DlUnit.proc_allpass (h0 : l.kind ≠ 0) (h1 : l.kind ≠ 1) (nm : Num) (d : Draw) (x : F) :
    let w := l.lineIn nm (0 :: d) x
    let dv := split nm (0 :: 1 :: d) l.moddly
    let a := (l.written w).tap dv.1
    let m := l.allpassOut nm (1 :: d) dv.2 a
    l.proc nm d x = ((l.advanced w).interpolated a m, l.mixOut nm d x m) := by
  intro w dv a m
  have hmod : (l.written w).modulated nm (1 :: d) = m := if_neg h1
  rw [DlUnit.proc, if_neg h0, if_neg h1, hmod]
  rfl

end

/-! ### DL.PROC -/

section
variable {s : State} {u : Nat} {l l' : DlUnit} {x y w : F}

/-- The state after a DL.PROC that leaves the line as `l'` and answers `y`. -/
def State.lineProcessed (s : State) (u : Nat) (l' : DlUnit) (y : F) : State :=
  (s.updDl u fun _ => l').give { status := .ok, res0 := y, res1 := 0 }

/-- DL.PROC of a unit that exists and whose length its memory holds (43_delay.md R216). -/
theorem exec_dlProc (hl : s.dl[u]? = some l) (hfit : l.log2len.toNat ≤ s.cfg.dlMaxLog2)
    (hproc : l.proc s.cfg.num s.draw x = (l', y)) : exec (.dlProc u x) s = .next (s.lineProcessed u l' y) := by
  have hexec : exec (.dlProc u x) s = if s.cfg.dlMaxLog2 < l.log2len.toNat then .fault .sampleOutsideMemory else
      .next (s.lineProcessed u (l.proc s.cfg.num s.draw x).1 (l.proc s.cfg.num s.draw x).2) := withUnit_some hl s _
  rw [hexec, if_neg (Nat.not_lt.2 hfit), hproc]

theorem answered_lineProcessed (s : State) (u : Nat) (l' : DlUnit) (y : F) : answered s (s.lineProcessed u l' y) y 0 :=
  answered_updDl _ _ _ _ _

/-- The one sample DL.PROC writes is at the write index of its own unit (43_delay.md R216). -/
theorem dlWritten_lineProcessed (hl : s.dl[u]? = some l) (hbuf : l'.buf = (l.written w).buf) (y : F) :
    dlWritten s (s.lineProcessed u l' y) u (ringIndex l.log2len.toNat l.widx 0) w := by
  refine ⟨fun v i => ?_, fun _ _ _ => rfl⟩
  rw [State.lineProcessed, dlSample_give, dlSample_updDl]
  by_cases h : u = v
  · subst h
    rw [if_pos rfl, readAt_some hl, hbuf, dlSample_of hl]
    simp only [true_and]
    exact memRead_memWrite _ _ _ _
  · rw [if_neg h, if_neg fun hv => h hv.1.symm]

theorem dlWritten_advanced (hl : s.dl[u]? = some l) (w y : F) :
    dlWritten s (s.lineProcessed u (l.advanced w) y) u (ringIndex l.log2len.toNat l.widx 0) w :=
  dlWritten_lineProcessed (l' := l.advanced w) hl rfl y

theorem dlWritten_interpolated (hl : s.dl[u]? = some l) (w a m y : F) :
    dlWritten s (s.lineProcessed u ((l.advanced w).interpolated a m) y) u (ringIndex l.log2len.toNat l.widx 0) w :=
  dlWritten_lineProcessed (l' := (l.advanced w).interpolated a m) hl rfl y

/-- The registers a DL.PROC writes that leaves the interpolator alone (43_delay.md R216). -/
theorem regsExcept_advanced (hl : s.dl[u]? = some l) (w y : F) : regsExcept s (s.lineProcessed u (l.advanced w) y)
    [(.dl u .fixout, (l.written w).tap l.fixdly), (.dl u .widx, l.widx + 1)] := by
  refine regsExcept_updDl hl _ (fun r => ?_) (fun r hr => ?_) _
  · cases r <;> simp [lookup_reg_cons, DlUnit.get, DlUnit.advanced, DlUnit.written]
  · simp [lookup_reg_cons, hr]

/-- The registers a DL.PROC of kind ALLPASS writes (43_delay.md R216). -/
theorem regsExcept_interpolated (hl : s.dl[u]? = some l) (w a m y : F) :
    regsExcept s (s.lineProcessed u ((l.advanced w).interpolated a m) y)
      [(.dl u .apX1, a), (.dl u .apY1, m), (.dl u .fixout, (l.written w).tap l.fixdly), (.dl u .widx, l.widx + 1)] := by
  refine regsExcept_updDl hl _ (fun r => ?_) (fun r hr => ?_) _
  · cases r <;> simp [lookup_reg_cons, DlUnit.get, DlUnit.interpolated, DlUnit.advanced, DlUnit.written]
  · simp [lookup_reg_cons, hr]

end

/-- The draw named `k` of a command: the `k`-th place of the list inside the command. -/
def drawIn (places : List (List Nat)) (d : Draw) (k : Nat) : Draw := places.getD k [] ++ d

/-- Where DL.PROC draws for its operations of 43_delay.md R216 and R219, in the order the rules write them: the line input, the
split of the delay, the linear interpolation, the mix. -/
def linearPlaces : List (List Nat) :=
  [[0, 0], [1, 0], [0, 0, 1], [1, 0, 1], [0, 1, 1], [1, 1, 1], [2, 1, 1], [3, 1, 1], [2], [3], [4]]

/-- Where DL.PROC draws for its operations of 43_delay.md R216 and R220, in the order the rules write them: the line input, the
split of the delay, `eta`, the allpass interpolation, the mix. -/
def allpassPlaces : List (List Nat) :=
  [[0, 0], [1, 0], [0, 0, 1], [1, 0, 1], [0, 2, 1], [1, 2, 1], [2, 2, 1], [5, 1], [3, 1], [4, 1], [2], [3], [4]]

/-- Settles O44: the unit that exists is read by name, and each kind is its own equation of `DlUnit.proc`. -/
theorem dlProcResult : Obligations.DlProcResult := by
  intro s u x
  refine ⟨fun hu => withUnit_none hu s _, fun hu => ?_⟩
  obtain ⟨l, hl⟩ := dl_of_lt hu
  simp only [readReg_dl hl, dlSample_of hl, DlUnit.get, ← DlUnit.tap_written]
  refine fun hfit => ⟨fun hkind => ?sample, fun hkind => ?linear, fun h0 h1 => ?allpass⟩
  case sample =>
    exact ⟨_, exec_dlProc hl hfit (DlUnit.proc_sample hkind _ _ x), answered_lineProcessed _ _ _ _,
      regsExcept_advanced hl _ _, dlWritten_advanced hl _ _⟩
  case linear =>
    have hin := DlUnit.lineIn_mixed (l := l) (by rw [hkind]; decide) s.cfg.num (0 :: s.draw) x
    have hproc := DlUnit.proc_linear hkind s.cfg.num s.draw x
    generalize l.lineIn s.cfg.num (0 :: s.draw) x = w at hin hproc
    exact ⟨_, drawIn linearPlaces s.draw, w, _, _, _, _, hin, rfl, rfl, rfl, rfl, exec_dlProc hl hfit hproc,
      answered_lineProcessed _ _ _ _, regsExcept_advanced hl _ _, dlWritten_advanced hl _ _⟩
  case allpass =>
    have hin := DlUnit.lineIn_mixed h0 s.cfg.num (0 :: s.draw) x
    have hproc := DlUnit.proc_allpass h0 h1 s.cfg.num s.draw x
    generalize l.lineIn s.cfg.num (0 :: s.draw) x = w at hin hproc
    exact ⟨_, drawIn allpassPlaces s.draw, w, _, _, _, _, _, _, hin, rfl, rfl, rfl, rfl, rfl, rfl,
      exec_dlProc hl hfit hproc, answered_lineProcessed _ _ _ _, regsExcept_interpolated hl _ _ _ _,
      dlWritten_interpolated hl _ _ _ _⟩

end Sys2Proof.Machine

/-! SUPPORT. Runs of DL.PROC on a line of kind SAMPLE (43_delay.md R221): the ring holds the last inputs, so a delay within the
length reads the input of as many commands before. -/

namespace Sys2Proof.Machine

/-! ### The ring moves on by one sample a command -/

/-- Within the length every delay but 0 has an index of its own (20_memory.md R72). -/
theorem ringIndex_ne_zero_delay {log2 : Nat} (h : log2 ≤ 32) (w : U32) {k : Nat} (hpos : 0 < k) (hk : k < 2 ^ log2) :
    ringIndex log2 w (BitVec.ofNat 32 k) ≠ ringIndex log2 w 0 := by
  have hdvd : 2 ^ log2 ∣ 2 ^ 32 := Nat.pow_dvd_pow 2 h
  have hle : 2 ^ log2 ≤ 2 ^ 32 := Nat.le_of_dvd (Nat.two_pow_pos 32) hdvd
  intro heq
  have hzero : w - 0 = w := BitVec.sub_zero w
  rw [ringIndex_eq_mod h, ringIndex_eq_mod h, hzero, BitVec.toNat_sub, BitVec.toNat_ofNat,
    Nat.mod_eq_of_lt (hk.trans_le hle), Nat.mod_mod_of_dvd _ hdvd] at heq
  have hback : 2 ^ log2 ∣ 2 ^ 32 - k := Nat.add_modEq_right_iff.1 heq
  exact Nat.not_dvd_of_pos_of_lt hpos hk ((Nat.dvd_sub_iff_right (hk.le.trans hle) hdvd).1 hback)

/-- As WIDX moves on, each sample is one more behind it (20_memory.md R75). -/
theorem ringIndex_succ_succ (log2 : Nat) (w d : U32) : ringIndex log2 (w + 1) (d + 1) = ringIndex log2 w d := by
  rw [ringIndex, ringIndex, add_sub_add_right_eq_sub]

section
variable {l : DlUnit}

theorem DlUnit.tap_advanced (l : DlUnit) (x : F) (k : Nat) :
    (l.advanced x).tap (BitVec.ofNat 32 (k + 1)) = (l.written x).tap (BitVec.ofNat 32 k) := by
  rw [BitVec.ofNat_add]
  exact congrArg (memRead (l.written x).buf) (ringIndex_succ_succ _ _ _)

/-- The delay 0 reads the sample just written (43_delay.md R221). -/
theorem DlUnit.tap_written_zero (l : DlUnit) (x : F) : (l.written x).tap 0 = x := by rw [DlUnit.tap_written, if_pos rfl]

/-- A delay within the length reads what it read before the write (43_delay.md R221). -/
theorem DlUnit.tap_written_of_pos (hlen : l.log2len.toNat ≤ 32) (x : F) {k : Nat} (hpos : 0 < k)
    (hk : k < 2 ^ l.log2len.toNat) : (l.written x).tap (BitVec.ofNat 32 k) = l.tap (BitVec.ofNat 32 k) := by
  rw [DlUnit.tap_written, if_neg (ringIndex_ne_zero_delay hlen _ hpos hk), DlUnit.tap]

/-! ### What a line holds -/

/-- A line of kind SAMPLE whose delay is below its length, and which holds the samples `past`, the newest first, behind WIDX and
silence behind them (43_delay.md R221). -/
structure DlUnit.Holds (l : DlUnit) (past : List F) : Prop where
  kind : l.kind = 0
  length : l.log2len.toNat ≤ 32
  delay : l.fixdly.toNat < 2 ^ l.log2len.toNat
  samples : ∀ k, k < 2 ^ l.log2len.toNat → l.tap (BitVec.ofNat 32 (k + 1)) = past.getD k F.zero

/-- A sample that enters the line is the newest it holds. -/
theorem DlUnit.Holds.advanced {past : List F} (h : l.Holds past) (x : F) : (l.advanced x).Holds (x :: past) := by
  refine ⟨h.kind, h.length, h.delay, fun k hk => ?_⟩
  rw [DlUnit.tap_advanced]
  cases k with
  | zero => exact l.tap_written_zero x
  | succ k =>
    have hk : k + 1 < 2 ^ l.log2len.toNat := hk
    rw [DlUnit.tap_written_of_pos h.length x k.succ_pos hk, h.samples k (by omega), List.getD_cons_succ]

/-- The fixed tap reads the sample of as many commands before as the delay says, the one just written among them. -/
theorem DlUnit.Holds.tap_fixdly {past : List F} (h : l.Holds past) (x : F) :
    (l.written x).tap l.fixdly = (x :: past).getD l.fixdly.toNat F.zero := by
  rw [← (h.advanced x).samples _ h.delay, DlUnit.tap_advanced, BitVec.ofNat_toNat, BitVec.setWidth_eq]

end

/-! ### One DL.PROC and a run of them -/

theorem decode_encode_dlProc {u : Nat} (hu : u < 256) (x : F) :
    decode (encode (.dlProc u x)) = .command (.dlProc u x) := decodeOfEncode _ (decide_eq_true hu)

/-- The accepted answer of a DL.PROC. -/
def sampleResponse (y : F) : Response := { status := .ok, res0 := y, res1 := 0 }

/-- A step on a DL.PROC of a line that holds `past` takes the word, answers the delayed sample and holds one sample more. -/
theorem step_dlProc {s : State} {u : Nat} {l : DlUnit} {past : List F} {x : F} {rest : List PortInput} (hfit : u < 256)
    (hl : s.dl[u]? = some l) (hlen : l.log2len.toNat ≤ s.cfg.dlMaxLog2) (h : l.Holds past)
    (hin : s.port.inputs = .command (encode (.dlProc u x)) :: rest) :
    ∃ t, step s = .next t ∧ t.cfg = s.cfg ∧ t.dl[u]? = some (l.advanced x) ∧ t.port.inputs = rest ∧
      t.port.outputs = sampleResponse ((x :: past).getD l.fixdly.toNat F.zero) :: s.port.outputs := by
  have hl' : (s.taking rest).dl[u]? = some l := hl
  have hexec := exec_dlProc hl' hlen (DlUnit.proc_sample h.kind _ _ x)
  rw [h.tap_fixdly x] at hexec
  have hstep := step_of_command hin
  rw [perform_of_command (decode_encode_dlProc hfit x), hexec, countedOut_next] at hstep
  refine ⟨_, hstep, rfl, ?_, rfl, rfl⟩
  simp [State.lineProcessed, hl]

/-- What command `n` of a run on the inputs `xs` answers, on a line of delay `D` that held `past` before (43_delay.md R221). -/
def delayedSample (D : Nat) (past xs : List F) (n : Nat) : F :=
  if n < D then past.getD (D - 1 - n) F.zero else xs.getD (n - D) F.zero

theorem delayedSample_cons_zero (D : Nat) (past : List F) (x : F) (xs : List F) :
    delayedSample D past (x :: xs) 0 = (x :: past).getD D F.zero := by
  cases D <;> simp [delayedSample]

theorem delayedSample_cons_succ (D : Nat) (past : List F) (x : F) (xs : List F) (n : Nat) :
    delayedSample D past (x :: xs) (n + 1) = delayedSample D (x :: past) xs n := by
  unfold delayedSample
  rcases Nat.lt_trichotomy (n + 1) D with h | h | h
  · have hback : D - 1 - n = (D - 1 - (n + 1)) + 1 := by omega
    rw [if_pos h, if_pos (by omega), hback, List.getD_cons_succ]
  · subst h
    simp
  · have hback : n + 1 - D = (n - D) + 1 := by omega
    rw [if_neg (by omega), if_neg (by omega), hback, List.getD_cons_succ]

/-- The responses to a run of DL.PROC on the inputs `xs`, newest first. -/
def delayResponses (D : Nat) (past xs : List F) : List Response :=
  ((List.range xs.length).map fun n => sampleResponse (delayedSample D past xs n)).reverse

/-- The first response of a run and then those of the rest. -/
theorem delayResponses_cons (D : Nat) (past : List F) (x : F) (xs : List F) : delayResponses D past (x :: xs) =
    delayResponses D (x :: past) xs ++ [sampleResponse ((x :: past).getD D F.zero)] := by
  simp [delayResponses, List.range_succ_eq_map, Function.comp_def, delayedSample_cons_zero, delayedSample_cons_succ]

/-- A run of DL.PROC on a line that holds `past` (43_delay.md R221). -/
theorem run_dlProc {u : Nat} (hfit : u < 256) (xs : List F) {s : State} {l : DlUnit} {past : List F}
    (hl : s.dl[u]? = some l) (hlen : l.log2len.toNat ≤ s.cfg.dlMaxLog2) (h : l.Holds past)
    (hin : s.port.inputs = xs.map fun x => .command (encode (.dlProc u x))) :
    ∃ t, core.run xs.length s = .next t ∧
      t.port.outputs = delayResponses l.fixdly.toNat past xs ++ s.port.outputs := by
  induction xs generalizing s l past with
  | nil => exact ⟨s, rfl, rfl⟩
  | cons x xs ih =>
    obtain ⟨s', hstep, hcfg, hl', hrest, hout⟩ := step_dlProc hfit hl hlen h (hin.trans (List.map_cons ..))
    obtain ⟨t, hrun, hall⟩ := ih hl' (hcfg ▸ hlen) (h.advanced x) hrest
    refine ⟨t, (core_run_succ hstep _).trans hrun, ?_⟩
    rw [hall, hout, delayResponses_cons, List.append_assoc]
    rfl

/-- A cleared line holds no sample yet. -/
theorem DlUnit.holds_nil {l : DlUnit} (hkind : l.kind = 0) (hlen : l.log2len.toNat ≤ 32)
    (hdelay : l.fixdly.toNat < 2 ^ l.log2len.toNat) (hclear : ∀ k, memRead l.buf k = F.zero) : l.Holds [] :=
  ⟨hkind, hlen, hdelay, fun _ _ => hclear _⟩

/-- Settles O46: a cleared line holds no sample, and the run goes by induction on the inputs. -/
theorem sampleDelayRoundTrip : Obligations.SampleDelayRoundTrip := by
  intro s u D xs hs hu hfit hkind hfixdly _ hdelay hclear hin
  obtain ⟨l, hl⟩ := dl_of_lt hu
  simp only [readReg_dl hl, dlSample_of hl, DlUnit.get] at hkind hfixdly hdelay hclear
  subst hfixdly
  obtain ⟨-, hlen, -, -⟩ := hs.dl l (List.mem_of_getElem? hl)
  have hmax := hs.dlMaxLog2_le
  have hholds := DlUnit.holds_nil hkind (by omega) hdelay hclear
  exact run_dlProc hfit xs hl hlen hholds hin

end Sys2Proof.Machine

/-! SUPPORT. The default matrix of an FDN (44_fdn.md R243): no entry is a NaN that would have to be drawn, for any number of lines
up to 16, and the values the rule states. -/

namespace Sys2Proof.Machine

/-- A quotient that is no NaN is the same for every draw. -/
theorem fdiv_draw_of_not_nan {nm : Num} {d : Draw} {a b : F} (h : nm.basic = .binary32 → isNan (fdiv d a b) = false)
    (d' : Draw) : nm.fdiv d a b = nm.fdiv d' a b := by
  cases hnm : nm.basic with
  | binary32 => exact eq_of_draw (nm.fdiv_draw d d' a b) (by rw [Num.fdiv_eq hnm]; exact h hnm)
  | other k => simp only [Num.fdiv, hnm]

/-- A number of lines is a finite nonzero float. -/
theorem u2f_lineCount {n : Nat} (hpos : 1 ≤ n) (hn : n ≤ 16) :
    isFinite (u2f (BitVec.ofNat 32 n)) = true ∧ isZero (u2f (BitVec.ofNat 32 n)) = false := by
  have hall : ∀ k : Fin 16, isFinite (u2f (BitVec.ofNat 32 (k + 1))) = true ∧
      isZero (u2f (BitVec.ofNat 32 (k + 1))) = false := by decide
  have h := hall ⟨n - 1, by omega⟩
  rwa [Nat.sub_add_cancel hpos] at h

theorem isNan_two_div_lineCount (d : Draw) {n : Nat} (hpos : 1 ≤ n) (hn : n ≤ 16) :
    isNan (fdiv d F.two (u2f (BitVec.ofNat 32 n))) = false := by
  obtain ⟨hfinite, hzero⟩ := u2f_lineCount hpos hn
  obtain ⟨hnan, -⟩ := roundsTo_fdiv d (a := F.two) (by decide) hfinite hzero
  exact hnan

/-- An entry of the Householder matrix with the NaN bits of its two operations drawn anywhere (44_fdn.md R243). -/
theorem householderEntry_eq_of_draws (nm : Num) (d e e' : Draw) {n : Nat} (hpos : 1 ≤ n) (hn : n ≤ 16) (i j : Nat) :
    householderEntry nm d n i j =
      let c := nm.fdiv e F.two (u2f (BitVec.ofNat 32 n))
      if i = j then nm.fsub e' F.one c else nm.fsub e' F.zero c := by
  have hquotient : nm.fdiv (0 :: d) F.two (u2f (BitVec.ofNat 32 n)) = nm.fdiv e F.two (u2f (BitVec.ofNat 32 n)) :=
    fdiv_draw_of_not_nan (fun _ => isNan_two_div_lineCount _ hpos hn) _
  have hdifference {a : F} (ha : isFinite a = true) :
      nm.fsub (1 :: d) a (nm.fdiv e F.two (u2f (BitVec.ofNat 32 n))) =
        nm.fsub e' a (nm.fdiv e F.two (u2f (BitVec.ofNat 32 n))) :=
    fsub_draw_of_not_nan (fun hnm => isNan_fsub_of_finite _ ha (by
      rw [Num.fdiv_eq hnm]; exact isNan_two_div_lineCount _ hpos hn)) _
  simp only [householderEntry, hquotient]
  rw [hdifference (by decide), hdifference (by decide)]

/-- An entry of the default matrix does not depend on the draw (44_fdn.md R243). -/
theorem matrixEntry_draw (c : MatrixChoice) (nm : Num) (d d' : Draw) {n : Nat} (hpos : 1 ≤ n) (hn : n ≤ 16) (i j : Nat) :
    matrixEntry c nm d n i j = matrixEntry c nm d' n i j := by
  cases c with
  | householder => exact householderEntry_eq_of_draws nm d (0 :: d') (1 :: d') hpos hn i j
  | other k => rfl

/-- The entries of the Householder matrix from the two values its size gives. -/
theorem matrixEntry_householder_of_values {nm : Num} (hnm : nm.basic = .binary32) {d : Draw} {n : Nat} {c on off : F}
    (hc : fdiv (0 :: d) F.two (u2f (BitVec.ofNat 32 n)) = c) (hon : fsub (1 :: d) F.one c = on)
    (hoff : fsub (1 :: d) F.zero c = off) (i j : Nat) :
    matrixEntry .householder nm d n i j = if i = j then on else off := by
  simp only [matrixEntry, householderEntry, Num.fdiv_eq hnm, Num.fsub_eq hnm, hc, hon, hoff]

/-- Settles O49: the entries are drawn nowhere, and `2.0 / n` is evaluated once for each size the rule names. -/
theorem householderValues : Obligations.HouseholderValues := by
  refine fun nm => ⟨fun d e e' n i j hpos hn => householderEntry_eq_of_draws nm d e e' hpos hn i j, fun hnm d => ?_⟩
  exact ⟨matrixEntry_householder_of_values (c := F.two) (on := F.negOne) hnm rfl rfl rfl 0 0,
    fun i j _ _ => matrixEntry_householder_of_values (c := F.one) hnm rfl rfl rfl i j,
    fun i j _ _ => matrixEntry_householder_of_values (c := 0x3F2AAAAB#32) hnm rfl rfl rfl i j,
    fun i j _ _ => matrixEntry_householder_of_values (c := F.half) hnm rfl rfl rfl i j,
    fun i j _ _ => matrixEntry_householder_of_values (c := 0x3E800000#32) hnm rfl rfl rfl i j,
    fun i j _ _ => matrixEntry_householder_of_values (c := 0x3E000000#32) hnm rfl rfl rfl i j⟩

end Sys2Proof.Machine

/-! SUPPORT. The FDN commands one at a time (44_fdn.md): what the registers and memories of one replaced unit read, and the checks and
the frame of FDN.RESIZE and FDN.SETLEN. -/

namespace Sys2Proof.Machine

/-! ### One unit replaced -/

section
variable {s : State} {u : Nat} {f : FdnUnit} {g : FdnUnit → FdnUnit} {rsp : Response}

theorem readReg_matrix (hf : s.fdn[u]? = some f) (i j : Nat) :
    readReg s (.matrix u i j) = f.m.getD (matrixPlace i j) F.zero := readAt_some hf _

theorem readReg_lines (hf : s.fdn[u]? = some f) (j : Nat) (q : LineReg) :
    readReg s (.line u j q) = readAt f.lines j fun l => l.get q := readAt_some hf _

theorem lineSample_lines (hf : s.fdn[u]? = some f) (j k : Nat) :
    lineSample s u j k = readAt f.lines j fun l => memRead l.buf k := readAt_some hf _

theorem readReg_replaced_fdn (hf : s.fdn[u]? = some f) (q : FdnReg) :
    readReg ((s.updFdn u g).give rsp) (.fdn u q) = (g f).get q := by
  rw [readReg_give, readReg_updFdn_fdn, if_pos rfl, readAt_some hf]

theorem readReg_replaced_matrix (hf : s.fdn[u]? = some f) (i j : Nat) :
    readReg ((s.updFdn u g).give rsp) (.matrix u i j) = (g f).m.getD (matrixPlace i j) F.zero := by
  rw [readReg_give, readReg_updFdn_matrix, if_pos rfl, readAt_some hf]

theorem readReg_replaced_line (hf : s.fdn[u]? = some f) {j : Nat} {l : FdnLine} (hl : (g f).lines[j]? = some l)
    (q : LineReg) : readReg ((s.updFdn u g).give rsp) (.line u j q) = l.get q := by
  rw [readReg_give, readReg_updFdn_line, if_pos rfl, readAt_some hf, readAt_some hl]

theorem lineSample_replaced (hf : s.fdn[u]? = some f) (w j k : Nat) : lineSample ((s.updFdn u g).give rsp) w j k =
    if w = u then readAt (g f).lines j (fun l => memRead l.buf k) else lineSample s w j k := by
  rw [lineSample_give, lineSample_updFdn]
  by_cases h : u = w
  · subst h
    rw [if_pos rfl, if_pos rfl, readAt_some hf]
  · rw [if_neg h, if_neg (Ne.symm h)]

/-- A register reads as before where the new unit has it as the old one. -/
theorem readReg_replaced_of_keeps (hf : s.fdn[u]? = some f) {r : Reg} (hreg : ∀ q, r = .fdn u q → (g f).get q = f.get q)
    (hm : ∀ i j, r = .matrix u i j → (g f).m.getD (matrixPlace i j) F.zero = f.m.getD (matrixPlace i j) F.zero)
    (hline : ∀ j q, r = .line u j q → readAt (g f).lines j (fun l => l.get q) = readAt f.lines j (fun l => l.get q)) :
    readReg ((s.updFdn u g).give rsp) r = readReg s r := by
  rw [readReg_give]
  cases r with
  | fdn v q =>
    rw [readReg_updFdn_fdn]
    split
    · subst_vars; rw [readAt_some hf, readReg_fdn hf, hreg q rfl]
    · rfl
  | matrix v i j =>
    rw [readReg_updFdn_matrix]
    split
    · subst_vars; rw [readAt_some hf, readReg_matrix hf, hm i j rfl]
    · rfl
  | line v j q =>
    rw [readReg_updFdn_line]
    split
    · subst_vars; rw [readAt_some hf, readReg_lines hf, hline j q rfl]
    · rfl
  | _ => simp

/-- A list whose first `n` elements are replaced by as many. -/
theorem getElem?_append_drop {α : Type} {new old : List α} {n : Nat} (h : new.length = n) (j : Nat) :
    (new ++ old.drop n)[j]? = if j < n then new[j]? else old[j]? := by
  rw [List.getElem?_append, h]
  split
  · rfl
  · rw [List.getElem?_drop, Nat.add_sub_cancel' (by omega)]

theorem getElem?_append_drop_of_le {α : Type} {new old : List α} {n j : Nat} (h : new.length = n) (hj : n ≤ j) :
    (new ++ old.drop n)[j]? = old[j]? := by rw [getElem?_append_drop h, if_neg (by omega)]

theorem readAt_congr {α : Type} {l l' : List α} {j : Nat} (h : l'[j]? = l[j]?) (g : α → U32) :
    readAt l' j g = readAt l j g := by simp only [readAt, h]

/-- Every line in use of a sound unit is there. -/
theorem fdnOk.line_of_lt {c : Cfg} (hcap : c.fdnNCap ≤ 16) (h : fdnOk c f) {j : Nat} (hj : j < f.n.toNat) :
    ∃ l, f.lines[j]? = some l := by
  obtain ⟨hn, hlen, -, -⟩ := h
  exact ⟨_, List.getElem?_eq_getElem (by omega)⟩

theorem fdnOk.length_used {c : Cfg} (hcap : c.fdnNCap ≤ 16) (h : fdnOk c f) : (f.lines.take f.n.toNat).length = f.n.toNat := by
  obtain ⟨hn, hlen, -, -⟩ := h
  rw [List.length_take]
  omega

end

/-! ### FDN.RESIZE -/

theorem FdnLine.get_fresh {q : LineReg} (hq : q ≠ .da0) : FdnLine.fresh.get q = 0 := by
  cases q with
  | da0 => exact absurd rfl hq
  | _ => rfl

/-- Every entry loaded is the default one, whichever draw names it (44_fdn.md R242, R243). -/
theorem loadMatrix_getD (c : MatrixChoice) (nm : Num) (d d' : Draw) {n i j : Nat} (hn : n ≤ 16) (hi : i < n) (hj : j < n)
    (old : List F) : (loadMatrix c nm d n old).getD (matrixPlace i j) F.zero = matrixEntry c nm d' n i j := by
  have hrow : matrixPlace i j / 16 = i := by rw [matrixPlace]; omega
  have hcol : matrixPlace i j % 16 = j := by rw [matrixPlace]; omega
  rw [loadMatrix, List.getD_eq_getElem?_getD, List.getElem?_map, List.getElem?_range (matrixPlace_lt hn hi hj),
    Option.map_some, Option.getD_some, hrow, hcol, if_pos ⟨hi, hj⟩]
  exact matrixEntry_draw c nm _ _ (by omega) hn i j

section
variable {s : State} {u : Nat} {f : FdnUnit}

/-- The state after an FDN.RESIZE to `n` lines (44_fdn.md R242). -/
def State.networkResized (s : State) (u : Nat) (n : U32) : State :=
  (s.updFdn u fun f => f.resized s.cfg.matrix s.cfg.num s.draw n).give { status := .ok, res0 := 0, res1 := 0 }

/-- FDN.RESIZE of a unit that exists: its two checks, and the unit resized (44_fdn.md R242). -/
theorem exec_fdnResize (hf : s.fdn[u]? = some f) (n : U32) : exec (.fdnResize u n) s =
    check (!inRun s) .errMode s (check (decide (n.toNat ≤ s.cfg.fdnNCap)) .errConfig s (.next (s.networkResized u n))) :=
  withUnit_some hf s _

theorem exec_fdnResize_setup (hu : u < s.counts.nFdn) (hmode : readReg s (.sys .mode) ≠ 1) (n : U32) :
    exec (.fdnResize u n) s = check (decide (n.toNat ≤ s.cfg.fdnNCap)) .errConfig s (.next (s.networkResized u n)) := by
  obtain ⟨f, hf⟩ := fdn_of_lt hu
  rw [exec_fdnResize hf, Bool.eq_false_iff.2 (mt inRun_iff_readReg.1 hmode)]
  rfl

theorem FdnUnit.resized_lines_getElem? (c : MatrixChoice) (nm : Num) (d : Draw) (f : FdnUnit) (n : U32) (j : Nat) :
    (f.resized c nm d n).lines[j]? = if j < n.toNat then some FdnLine.fresh else f.lines[j]? := by
  rw [FdnUnit.resized, getElem?_append_drop List.length_replicate, List.getElem?_replicate]
  split <;> rfl

theorem lineSample_networkResized (hf : s.fdn[u]? = some f) (n : U32) (w j k : Nat) :
    lineSample (s.networkResized u n) w j k = if w = u ∧ j < n.toNat then F.zero else lineSample s w j k := by
  rw [State.networkResized, lineSample_replaced hf]
  by_cases hw : w = u
  · subst hw
    rw [if_pos rfl, lineSample_lines hf, readAt, FdnUnit.resized_lines_getElem?]
    by_cases hj : j < n.toNat
    · simp only [hj, if_true, and_self]
      rfl
    · simp only [hj, if_false, and_false]
      rfl
  · rw [if_neg hw, if_neg fun h => hw h.1]

end

/-- Settles O48: the two checks in their order, and the resized unit read by name. -/
theorem fdnResizeResult : Obligations.FdnResizeResult := by
  intro s u n hs
  refine ⟨fun hu => withUnit_none hu s _, fun hu hmode => ?running, fun hu hmode hbig => ?large,
    fun hu hmode hn => ⟨s.networkResized u n, ?accepted⟩⟩
  case running =>
    obtain ⟨f, hf⟩ := fdn_of_lt hu
    rw [exec_fdnResize hf, inRun_iff_readReg.2 hmode]
    rfl
  case large => rw [exec_fdnResize_setup hu hmode, check_not (decide_eq_false (by omega)), refused_eq]
  case accepted =>
    obtain ⟨f, hf⟩ := fdn_of_lt hu
    have hcap := hs.fdnNCap_le
    refine ⟨(exec_fdnResize_setup hu hmode n).trans (check_of (decide_eq_true hn) _ _ _), answered_updFdn _ _ _ _ _,
      readReg_replaced_fdn hf .n, readReg_replaced_fdn hf .outEven, readReg_replaced_fdn hf .outOdd, fun j hj => ?fresh,
      fun i j hi hj d => ?matrix, ?fb, ?ratio, fun r hreg hm hline => ?frame, fun _ _ => rfl,
      lineSample_networkResized hf n⟩
    case fresh =>
      have hread (q : LineReg) : readReg (s.networkResized u n) (.line u j q) = FdnLine.fresh.get q :=
        readReg_replaced_line hf ((f.resized_lines_getElem? _ _ _ n j).trans (if_pos hj)) q
      exact ⟨hread .da0, fun q hq => (hread q).trans (FdnLine.get_fresh hq)⟩
    case matrix =>
      exact (readReg_replaced_matrix hf i j).trans (loadMatrix_getD _ _ _ _ (by omega) hi hj _)
    case fb => rw [readReg_fdn hf]; exact readReg_replaced_fdn hf .fb
    case ratio => rw [readReg_fdn hf]; exact readReg_replaced_fdn hf .ratio
    case frame =>
      exact readReg_replaced_of_keeps hf (fun q h => absurd h (hreg q)) (fun i j h => absurd h (hm i j))
        fun j q h => absurd h (hline j q)

/-! ### FDN.SETLEN -/

/-- The delay FDN.SETLEN gives line `j` when line 0 gets `t` (44_fdn.md R244). -/
def lineLength (nm : Num) (d : Draw) (ratio t : F) : Nat → F
  | 0 => t
  | j + 1 => nm.fmul (j :: 1 :: d) (lineLength nm d ratio t j) ratio

/-- The lines from number `k` on, each with its own length. -/
theorem setLengths_getElem? (nm : Num) (d : Draw) (ratio t : F) (l : List FdnLine) (k j : Nat) :
    (setLengths nm d ratio k (lineLength nm d ratio t k) l)[j]? =
      l[j]?.map fun a => { a with ldly := lineLength nm d ratio t (k + j) } := by
  induction l generalizing k j with
  | nil => rfl
  | cons a l ih =>
    cases j with
    | zero => rfl
    | succ j => exact (ih (k + 1) j).trans (by rw [Nat.add_right_comm]; rfl)

section
variable {s : State} {u : Nat} {f : FdnUnit}

/-- A unit with the lengths FDN.SETLEN gives its lines in use, the first `t` (44_fdn.md R244). -/
def FdnUnit.withLengths (nm : Num) (d : Draw) (t : F) (f : FdnUnit) : FdnUnit :=
  { f with lines := setLengths nm d f.ratio 0 t (f.lines.take f.n.toNat) ++ f.lines.drop f.n.toNat }

/-- The state after an FDN.SETLEN that gives line 0 the delay `t` (44_fdn.md R244). -/
def State.lengthsSet (s : State) (u : Nat) (t : F) : State :=
  (s.updFdn u fun f => f.withLengths s.cfg.num s.draw t).give { status := .ok, res0 := 0, res1 := 0 }

/-- FDN.SETLEN of a unit that exists: its two checks, and the lengths set (44_fdn.md R244). -/
theorem exec_fdnSetlen (hf : s.fdn[u]? = some f) (T : F) : exec (.fdnSetlen u T) s =
    check (!inBlock s) .errInblk s (check (fsConfigured s) .errConfig s
      (.next (s.lengthsSet u (s.cfg.num.fmul (0 :: s.draw) T s.sys.fs)))) := withUnit_some hf s _

theorem exec_fdnSetlen_outside (hu : u < s.counts.nFdn) (hout : readReg s (.sys .inblk) ≠ 1) (T : F) :
    exec (.fdnSetlen u T) s = check (fsConfigured s) .errConfig s
      (.next (s.lengthsSet u (s.cfg.num.fmul (0 :: s.draw) T s.sys.fs))) := by
  obtain ⟨f, hf⟩ := fdn_of_lt hu
  rw [exec_fdnSetlen hf, Bool.eq_false_iff.2 (mt inBlock_iff_readReg.1 hout)]
  rfl

theorem memSame_lengthsSet (s : State) (u : Nat) (t : F) : memSame s (s.lengthsSet u t) := by
  refine ⟨fun _ _ => rfl, fun w j k => ?_⟩
  exact readAt_modify_keeps (fun x => readAt_buf_congr (setLengths_used_map_buf s.cfg.num s.draw t x) j k) _ _ _

/-- A line of a unit after FDN.SETLEN: its delay is written where it is in use. -/
theorem FdnUnit.withLengths_getElem? (hlen : (f.lines.take f.n.toNat).length = f.n.toNat) (nm : Num) (d : Draw) (t : F)
    (j : Nat) : (f.withLengths nm d t).lines[j]? = if j < f.n.toNat then
      f.lines[j]?.map (fun a => { a with ldly := lineLength nm d f.ratio t j }) else f.lines[j]? := by
  rw [FdnUnit.withLengths, getElem?_append_drop ((setLengths_length _ _ _ _ _ _).trans hlen)]
  split
  case isTrue hj =>
    have hlengths := setLengths_getElem? nm d f.ratio t (f.lines.take f.n.toNat) 0 j
    rw [Nat.zero_add, List.getElem?_take_of_lt hj] at hlengths
    exact hlengths
  case isFalse => rfl

/-- FDN.SETLEN writes no register but the delays of the lines in use (44_fdn.md R244). -/
theorem readAt_withLengths_of_ne (hlen : (f.lines.take f.n.toNat).length = f.n.toNat) (nm : Num) (d : Draw) (t : F) {j : Nat}
    {q : LineReg} (h : j < f.n.toNat → q ≠ .ldly) :
    readAt (f.withLengths nm d t).lines j (fun l => l.get q) = readAt f.lines j (fun l => l.get q) := by
  rw [readAt, FdnUnit.withLengths_getElem? hlen]
  by_cases hj : j < f.n.toNat
  · rw [if_pos hj]
    cases hl : f.lines[j]? with
    | none => rw [readAt_none hl]; rfl
    | some l =>
      rw [readAt_some hl]
      cases q with
      | ldly => exact absurd rfl (h hj)
      | _ => rfl
  · rw [if_neg hj]
    rfl

end

/-- Where FDN.SETLEN draws: the product with the sample rate, then the products with RATIO (44_fdn.md R244). -/
def setlenDraw (d : Draw) : Nat → Draw
  | 0 => 0 :: d
  | j + 1 => j :: 1 :: d

/-- Settles O50: the two checks in their order, and the lengths by the recursion of `setLengths`. -/
theorem fdnSetlenResult : Obligations.FdnSetlenResult := by
  intro s u T nm hs
  refine ⟨fun hu => withUnit_none hu s _, fun hu hin => ?inside, fun hu hout hfs => ?unrated,
    fun hu hout hfs => ?accepted⟩
  case inside =>
    obtain ⟨f, hf⟩ := fdn_of_lt hu
    rw [exec_fdnSetlen hf, inBlock_iff_readReg.2 hin]
    rfl
  case unrated =>
    rw [exec_fdnSetlen_outside hu hout, fsConfigured_of_feq hfs]
    rfl
  case accepted =>
    obtain ⟨f, hf⟩ := fdn_of_lt hu
    have hcap := hs.fdnNCap_le
    have hok := hs.fdn f (List.mem_of_getElem? hf)
    have hlen := hok.length_used hcap
    simp only [readReg_fdn hf, FdnUnit.get]
    refine ⟨s.lengthsSet u (nm.fmul (0 :: s.draw) T s.sys.fs), setlenDraw s.draw,
      lineLength nm s.draw f.ratio (nm.fmul (0 :: s.draw) T s.sys.fs), rfl, fun _ => rfl,
      (exec_fdnSetlen_outside hu hout T).trans (check_of (by rw [fsConfigured_of_feq hfs]; rfl) _ _ _),
      answered_updFdn _ _ _ _ _, memSame_lengthsSet _ _ _, fun j hj => ?length, fun r hr => ?frame⟩
    case length =>
      obtain ⟨l, hl⟩ := hok.line_of_lt hcap hj
      have hnew := FdnUnit.withLengths_getElem? hlen nm s.draw (nm.fmul (0 :: s.draw) T s.sys.fs) j
      rw [if_pos hj, hl] at hnew
      exact readReg_replaced_line hf hnew .ldly
    case frame =>
      refine readReg_replaced_of_keeps hf (fun q _ => by cases q <;> rfl) (fun _ _ _ => rfl) fun j q h => ?_
      exact readAt_withLengths_of_ne hlen _ _ _ fun hj hq => hr j hj (by rw [h, hq])

end Sys2Proof.Machine

/-! SUPPORT. FDN.PROC (44_fdn.md R245, R246): each input and each sum as a recurrence over the lines, one line's delay and damping
filter, and what the registers and memories of the unit read afterwards. -/

namespace Sys2Proof.Machine

/-! ### The sums over the lines -/

/-- One more line mixed into an input (44_fdn.md R246 step 1). -/
theorem lineInput_concat (nm : Num) (d : Draw) (m : List F) (j k : Nat) (outs : List F) (o sum : F) :
    lineInput nm d m j k (outs ++ [o]) sum = nm.fadd (1 :: (k + outs.length) :: d) (lineInput nm d m j k outs sum)
      (nm.fmul (0 :: (k + outs.length) :: d) o (m.getD (matrixPlace (k + outs.length) j) F.zero)) := by
  induction outs generalizing k sum with
  | nil => rfl
  | cons a outs ih => simp only [List.cons_append, lineInput, ih, List.length_cons, Nat.add_right_comm k 1, ← Nat.add_assoc]

/-- One more line in the sum of all outputs (44_fdn.md R246 step 3). -/
theorem sumAll_concat (nm : Num) (d : Draw) (k : Nat) (lines : List FdnLine) (l : FdnLine) (sum : F) :
    sumAll nm d k (lines ++ [l]) sum = nm.fadd ((k + lines.length) :: d) (sumAll nm d k lines sum) l.lineout := by
  induction lines generalizing k sum with
  | nil => rfl
  | cons a lines ih => simp only [List.cons_append, sumAll, ih, List.length_cons, Nat.add_right_comm k 1, ← Nat.add_assoc]

/-- One more line in the sum of the outputs of one parity (44_fdn.md R246 step 3). -/
theorem sumParity_concat (nm : Num) (d : Draw) (parity k : Nat) (lines : List FdnLine) (l : FdnLine) (sum : F) :
    sumParity nm d parity k (lines ++ [l]) sum =
      if (k + lines.length) % 2 = parity then
        nm.fadd ((k + lines.length) :: d) (sumParity nm d parity k lines sum) l.lineout
      else sumParity nm d parity k lines sum := by
  induction lines generalizing k sum with
  | nil => rfl
  | cons a lines ih =>
    simp only [List.cons_append, sumParity, ih, List.length_cons, Nat.add_right_comm k 1, ← Nat.add_assoc]

theorem take_succ_of_getElem? {α : Type} {l : List α} {j : Nat} {x : α} (h : l[j]? = some x) :
    l.take (j + 1) = l.take j ++ [x] := by rw [List.take_add_one, h, Option.toList_some]

theorem length_take_of_getElem? {α : Type} {l : List α} {j : Nat} {x : α} (h : l[j]? = some x) : (l.take j).length = j := by
  obtain ⟨hj, -⟩ := List.getElem?_eq_some_iff.1 h
  exact List.length_take_of_le hj.le

theorem sumAll_take_succ {lines : List FdnLine} {j : Nat} {l : FdnLine} (h : lines[j]? = some l) (nm : Num) (d : Draw)
    (sum : F) : sumAll nm d 0 (lines.take (j + 1)) sum = nm.fadd (j :: d) (sumAll nm d 0 (lines.take j) sum) l.lineout := by
  rw [take_succ_of_getElem? h, sumAll_concat, length_take_of_getElem? h, Nat.zero_add]

theorem sumParity_take_succ {lines : List FdnLine} {j : Nat} {l : FdnLine} (h : lines[j]? = some l) (nm : Num) (d : Draw)
    (parity : Nat) (sum : F) : sumParity nm d parity 0 (lines.take (j + 1)) sum =
      if j % 2 = parity then nm.fadd (j :: d) (sumParity nm d parity 0 (lines.take j) sum) l.lineout
      else sumParity nm d parity 0 (lines.take j) sum := by
  rw [take_succ_of_getElem? h, sumParity_concat, length_take_of_getElem? h, Nat.zero_add]

/-! ### One line -/

section
variable {l : FdnLine}

/-- What a line's delay, damping filter and gain give when `inp` enters it; the index just written reads `inp` (44_fdn.md R245,
R246 step 2). -/
theorem FdnLine.proc_values (nm : Num) (d : Draw) (lineLog2 : Nat) (fb : F) (l : FdnLine) (inp : F) :
    let idx := ringIndex lineLog2 l.lwidx
    let tap := fun delay => if idx delay = idx 0 then inp else memRead l.buf (idx delay)
    let dv := split nm (0 :: d) l.ldly
    let l' := l.proc nm d lineLog2 fb inp
    l'.get .dx1 = interpolate nm (1 :: d) dv.2 (tap dv.1) (tap (dv.1 + 1)) ∧
      l'.get .dy1 = biquadOut nm (2 :: d) l.filter (l'.get .dx1) ∧ l'.get .lineout = nm.fmul (3 :: d) fb (l'.get .dy1) := by
  simp only [← memRead_memWrite]
  exact ⟨rfl, rfl, rfl⟩

/-- The registers of a line FDN.PROC writes (44_fdn.md R246). -/
def procRegs : List LineReg := [.lwidx, .lineout, .dx1, .dx2, .dy1, .dy2]

theorem FdnLine.get_proc_of_not_mem {q : LineReg} (hq : q ∉ procRegs) (nm : Num) (d : Draw) (lineLog2 : Nat) (fb inp : F) :
    (l.proc nm d lineLog2 fb inp).get q = l.get q := by
  cases q with
  | ldly | da0 | da1 | da2 | db1 | db2 => rfl
  | _ => exact absurd (by decide) hq

end

/-! ### The lines of a unit -/

section
variable {f : FdnUnit} {j : Nat} {l : FdnLine}

/-- `in[j]` with the first `i` lines mixed in (44_fdn.md R246 step 1). -/
def FdnUnit.mixed (nm : Num) (d : Draw) (f : FdnUnit) (x : F) (j i : Nat) : F :=
  lineInput nm (0 :: j :: 0 :: d) f.m j 0 (((f.lines.take f.n.toNat).map fun l => l.lineout).take i) x

/-- The lines in use after a sample (44_fdn.md R246 steps 1 and 2). -/
def FdnUnit.processed (nm : Num) (d : Draw) (lineLog2 : Nat) (f : FdnUnit) (x : F) : List FdnLine :=
  let used := f.lines.take f.n.toNat
  procLines nm (0 :: d) lineLog2 f.fb x f.m (used.map fun l => l.lineout) 0 used

theorem FdnUnit.proc_lines (nm : Num) (d : Draw) (lineLog2 : Nat) (f : FdnUnit) (x : F) :
    (f.proc nm d lineLog2 x).1.lines = f.processed nm d lineLog2 x ++ f.lines.drop f.n.toNat := rfl

theorem FdnUnit.get_proc {q : FdnReg} (heven : q ≠ .outEven) (hodd : q ≠ .outOdd) (nm : Num) (d : Draw) (lineLog2 : Nat)
    (f : FdnUnit) (x : F) : (f.proc nm d lineLog2 x).1.get q = f.get q := by
  cases q with
  | outEven => exact absurd rfl heven
  | outOdd => exact absurd rfl hodd
  | n | fb | ratio => rfl

theorem FdnUnit.mixed_succ (hj : j < f.n.toNat) (hl : f.lines[j]? = some l) (nm : Num) (d : Draw) (x : F) (k : Nat) :
    f.mixed nm d x k (j + 1) = nm.fadd (1 :: j :: 0 :: k :: 0 :: d) (f.mixed nm d x k j)
      (nm.fmul (0 :: j :: 0 :: k :: 0 :: d) l.lineout (f.m.getD (matrixPlace j k) F.zero)) := by
  have hout : ((f.lines.take f.n.toNat).map fun l => l.lineout)[j]? = some l.lineout := by
    rw [List.getElem?_map, List.getElem?_take_of_lt hj, hl, Option.map_some]
  rw [FdnUnit.mixed, take_succ_of_getElem? hout, lineInput_concat, length_take_of_getElem? hout, Nat.zero_add]
  rfl

/-- The lines from number `k` on, each processed with its own input. -/
theorem procLines_getElem? (nm : Num) (d : Draw) (lineLog2 : Nat) (fb x : F) (m outs : List F) (k j : Nat)
    (lines : List FdnLine) : (procLines nm d lineLog2 fb x m outs k lines)[j]? = lines[j]?.map fun l =>
      l.proc nm (1 :: (k + j) :: d) lineLog2 fb (lineInput nm (0 :: (k + j) :: d) m (k + j) 0 outs x) := by
  induction lines generalizing k j with
  | nil => rfl
  | cons a lines ih =>
    cases j with
    | zero => rfl
    | succ j => exact (ih (k + 1) j).trans (by rw [Nat.add_right_comm]; rfl)

theorem FdnUnit.processed_getElem? (hused : (f.lines.take f.n.toNat).length = f.n.toNat) (hj : j < f.n.toNat)
    (hl : f.lines[j]? = some l) (nm : Num) (d : Draw) (lineLog2 : Nat) (x : F) : (f.processed nm d lineLog2 x)[j]? =
      some (l.proc nm (1 :: j :: 0 :: d) lineLog2 f.fb (f.mixed nm d x j f.n.toNat)) := by
  have houts : ((f.lines.take f.n.toNat).map fun l => l.lineout).length ≤ f.n.toNat := by rw [List.length_map, hused]
  rw [FdnUnit.processed, procLines_getElem?, List.getElem?_take_of_lt hj, hl, Option.map_some, Nat.zero_add, FdnUnit.mixed,
    List.take_of_length_le houts]

theorem FdnUnit.length_processed (hused : (f.lines.take f.n.toNat).length = f.n.toNat) (nm : Num) (d : Draw) (lineLog2 : Nat)
    (x : F) : (f.processed nm d lineLog2 x).length = f.n.toNat := (procLines_length _ _ _ _ _ _ _ _ _).trans hused

theorem FdnUnit.proc_lines_of_lt (hused : (f.lines.take f.n.toNat).length = f.n.toNat) (hj : j < f.n.toNat)
    (hl : f.lines[j]? = some l) (nm : Num) (d : Draw) (lineLog2 : Nat) (x : F) :
    (f.proc nm d lineLog2 x).1.lines[j]? =
      some (l.proc nm (1 :: j :: 0 :: d) lineLog2 f.fb (f.mixed nm d x j f.n.toNat)) := by
  rw [FdnUnit.proc_lines, getElem?_append_drop (FdnUnit.length_processed hused nm d lineLog2 x), if_pos hj,
    FdnUnit.processed_getElem? hused hj hl]

theorem FdnUnit.proc_lines_of_le (hused : (f.lines.take f.n.toNat).length = f.n.toNat) (hj : f.n.toNat ≤ j) (nm : Num)
    (d : Draw) (lineLog2 : Nat) (x : F) : (f.proc nm d lineLog2 x).1.lines[j]? = f.lines[j]? := by
  rw [FdnUnit.proc_lines, getElem?_append_drop_of_le (FdnUnit.length_processed hused nm d lineLog2 x) hj]

/-- The sum of the new outputs of the first `j` lines (44_fdn.md R246 step 3). -/
def FdnUnit.total (nm : Num) (d : Draw) (lineLog2 : Nat) (f : FdnUnit) (x : F) (j : Nat) : F :=
  sumAll nm (1 :: d) 0 ((f.processed nm d lineLog2 x).take j) F.zero

/-- The sum of the new outputs of those of the first `j` lines that have the parity (44_fdn.md R246 step 3). -/
def FdnUnit.parityTotal (nm : Num) (d : Draw) (lineLog2 : Nat) (f : FdnUnit) (x : F) (parity j : Nat) : F :=
  sumParity nm ((2 + parity) :: d) parity 0 ((f.processed nm d lineLog2 x).take j) F.zero

/-- With every line summed up, the sums are the output and the two registers of the unit (44_fdn.md R246 step 3). -/
theorem FdnUnit.proc_sums (hused : (f.lines.take f.n.toNat).length = f.n.toNat) (nm : Num) (d : Draw) (lineLog2 : Nat)
    (x : F) : let r := f.proc nm d lineLog2 x
    r.2 = f.total nm d lineLog2 x f.n.toNat ∧ r.1.outEven = f.parityTotal nm d lineLog2 x 0 f.n.toNat ∧
      r.1.outOdd = f.parityTotal nm d lineLog2 x 1 f.n.toNat := by
  have hall : (f.processed nm d lineLog2 x).take f.n.toNat = f.processed nm d lineLog2 x :=
    List.take_of_length_le (FdnUnit.length_processed hused _ _ _ _).le
  simp only [FdnUnit.total, FdnUnit.parityTotal, hall]
  exact ⟨rfl, rfl, rfl⟩

end

/-! ### FDN.PROC -/

section
variable {s : State} {u : Nat} {f : FdnUnit} {x : F}

/-- The state after an FDN.PROC of the unit `f` (44_fdn.md R246). -/
def State.networkProcessed (s : State) (u : Nat) (f : FdnUnit) (x : F) : State :=
  let r := f.proc s.cfg.num s.draw s.cfg.fdnLineLog2 x
  (s.updFdn u fun _ => r.1).give { status := .ok, res0 := r.2, res1 := 0 }

theorem exec_fdnProc (hf : s.fdn[u]? = some f) (x : F) : exec (.fdnProc u x) s = .next (s.networkProcessed u f x) :=
  withUnit_some hf s _

theorem readReg_networkProcessed_line (hcap : s.cfg.fdnNCap ≤ 16) (hf : s.fdn[u]? = some f) (hok : fdnOk s.cfg f) {j : Nat}
    (hj : j < f.n.toNat) {l : FdnLine} (hl : f.lines[j]? = some l) (q : LineReg) :
    readReg (s.networkProcessed u f x) (.line u j q) =
      (l.proc s.cfg.num (1 :: j :: 0 :: s.draw) s.cfg.fdnLineLog2 f.fb (f.mixed s.cfg.num s.draw x j f.n.toNat)).get q :=
  readReg_replaced_line hf (FdnUnit.proc_lines_of_lt (hok.length_used hcap) hj hl _ _ _ _) q

/-- Every sample FDN.PROC writes is at the write index of a line in use (44_fdn.md R246 step 2). -/
theorem lineSample_networkProcessed (hcap : s.cfg.fdnNCap ≤ 16) (hf : s.fdn[u]? = some f) (hok : fdnOk s.cfg f)
    (w j k : Nat) : lineSample (s.networkProcessed u f x) w j k =
      if w = u ∧ j < f.n.toNat ∧ k = ringIndex s.cfg.fdnLineLog2 (readReg s (.line u j .lwidx)) 0 then
        f.mixed s.cfg.num s.draw x j f.n.toNat else lineSample s w j k := by
  rw [State.networkProcessed, lineSample_replaced hf]
  by_cases hw : w = u
  · subst hw
    rw [if_pos rfl, lineSample_lines hf]
    by_cases hj : j < f.n.toNat
    · obtain ⟨l, hl⟩ := hok.line_of_lt hcap hj
      rw [readAt_some (FdnUnit.proc_lines_of_lt (hok.length_used hcap) hj hl _ _ _ _), readAt_some hl, readReg_line hf hl]
      simp only [hj, true_and]
      exact memRead_memWrite _ _ _ _
    · rw [readAt_congr (FdnUnit.proc_lines_of_le (hok.length_used hcap) (by omega) _ _ _ _), if_neg fun h => hj h.2.1]
  · rw [if_neg hw, if_neg fun h => hw h.1]

/-- FDN.PROC writes six registers of each line in use and the two sums, and no other register (44_fdn.md R246). -/
theorem readReg_networkProcessed_of_ne (hcap : s.cfg.fdnNCap ≤ 16) (hf : s.fdn[u]? = some f) (hok : fdnOk s.cfg f) {r : Reg}
    (heven : r ≠ .fdn u .outEven) (hodd : r ≠ .fdn u .outOdd)
    (hline : ∀ j q, j < f.n.toNat → q ∈ procRegs → r ≠ .line u j q) :
    readReg (s.networkProcessed u f x) r = readReg s r := by
  refine readReg_replaced_of_keeps hf (fun q h => ?_) (fun _ _ _ => rfl) fun j q h => ?_
  · exact FdnUnit.get_proc (fun hq => heven (by rw [h, hq])) (fun hq => hodd (by rw [h, hq])) _ _ _ _ _
  · by_cases hj : j < f.n.toNat
    · obtain ⟨l, hl⟩ := hok.line_of_lt hcap hj
      rw [readAt_some (FdnUnit.proc_lines_of_lt (hok.length_used hcap) hj hl _ _ _ _), readAt_some hl]
      exact FdnLine.get_proc_of_not_mem (fun hq => hline j q hj hq h) _ _ _ _ _
    · exact readAt_congr (FdnUnit.proc_lines_of_le (hok.length_used hcap) (by omega) _ _ _ _) _

end

/-- Where FDN.PROC draws for line `j`, by the part of 44_fdn.md R246 an operation is in and its number there: the sums and the
products of the input, the interpolated read, the damping filter, the gain, the three sums of outputs. -/
def fdnProcDraw (d : Draw) : (part j k : Nat) → Draw
  | 0, j, k => 1 :: k :: 0 :: j :: 0 :: d
  | 1, j, k => 0 :: k :: 0 :: j :: 0 :: d
  | 2, j, 0 => 0 :: 0 :: 1 :: j :: 0 :: d
  | 2, j, 1 => 1 :: 0 :: 1 :: j :: 0 :: d
  | 2, j, k + 2 => k :: 1 :: 1 :: j :: 0 :: d
  | 3, j, k => k :: 2 :: 1 :: j :: 0 :: d
  | 4, j, _ => 3 :: 1 :: j :: 0 :: d
  | 5, j, _ => j :: 1 :: d
  | 6, j, _ => j :: 2 :: d
  | _, j, _ => j :: 3 :: d

/-- Settles O51: the lines in use are read by name, each is its own `FdnLine.proc`, and the inputs and the sums are the model's,
cut off after every line. -/
theorem fdnProcResult : Obligations.FdnProcResult := by
  intro s u x nm hs
  refine ⟨fun hu => withUnit_none hu s _, fun hu => ?_⟩
  obtain ⟨f, hf⟩ := fdn_of_lt hu
  have hcap := hs.fdnNCap_le
  have hok := hs.fdn f (List.mem_of_getElem? hf)
  have hused := hok.length_used hcap
  obtain ⟨htotal, heven, hodd⟩ := FdnUnit.proc_sums hused nm s.draw s.cfg.fdnLineLog2 x
  have hread {j : Nat} (hj : j < f.n.toNat) {l : FdnLine} (hl : f.lines[j]? = some l) :=
    readReg_networkProcessed_line (x := x) hcap hf hok hj hl
  simp only [readReg_fdn hf, readReg_matrix hf, FdnUnit.get]
  refine ⟨s.networkProcessed u f x, fdnProcDraw s.draw, f.mixed nm s.draw x,
    fun j => readReg (s.networkProcessed u f x) (.line u j .dx1),
    fun j => readReg (s.networkProcessed u f x) (.line u j .dy1),
    fun j => readReg (s.networkProcessed u f x) (.line u j .lineout),
    f.total nm s.draw s.cfg.fdnLineLog2 x, f.parityTotal nm s.draw s.cfg.fdnLineLog2 x 0,
    f.parityTotal nm s.draw s.cfg.fdnLineLog2 x 1, fun _ => rfl, fun j i hi => ?mixed, fun j hj => ?line, rfl, rfl, rfl,
    fun j hj => ?sums, exec_fdnProc hf x, htotal ▸ answered_updFdn _ _ _ _ _,
    (readReg_replaced_fdn hf .outEven).trans heven, (readReg_replaced_fdn hf .outOdd).trans hodd, fun j hj => ?registers,
    fun r heven hodd hline => readReg_networkProcessed_of_ne hcap hf hok heven hodd hline, fun _ _ => rfl,
    lineSample_networkProcessed hcap hf hok⟩
  case mixed =>
    obtain ⟨l, hl⟩ := hok.line_of_lt hcap hi
    rw [readReg_line hf hl]
    exact FdnUnit.mixed_succ hi hl nm s.draw x j
  case line =>
    obtain ⟨l, hl⟩ := hok.line_of_lt hcap hj
    simp only [hread hj hl, readReg_line hf hl, lineSample_of hf hl]
    exact FdnLine.proc_values nm _ _ _ l _
  case sums =>
    obtain ⟨l, hl⟩ := hok.line_of_lt hcap hj
    have hnow := FdnUnit.processed_getElem? hused hj hl nm s.draw s.cfg.fdnLineLog2 x
    simp only [hread hj hl]
    refine ⟨sumAll_take_succ hnow _ _ _, sumParity_take_succ hnow _ _ _ _, (sumParity_take_succ hnow _ _ _ _).trans ?_⟩
    simp only [← Nat.mod_two_ne_zero, ne_eq, ite_not]
    rfl
  case registers =>
    obtain ⟨l, hl⟩ := hok.line_of_lt hcap hj
    simp only [readReg_line hf hl, true_and, and_true]
    exact ⟨hread hj hl .lwidx, hread hj hl .dx2, hread hj hl .dy2⟩

end Sys2Proof.Machine

/-! SUPPORT. The HB commands (45_halfband.md): one section as R263 writes it, what goes from section to section of a cascade, and one
filter step of a unit. -/

namespace Sys2Proof.Machine

/-! ### One section and a cascade -/

theorem HbSection.step_sectionStep (nm : Num) (d : Draw) (coef : F) (h : HbSection) (v : F) :
    SectionStep nm coef h (h.step nm d coef v).1 v (h.step nm d coef v).2 := ⟨⟨fun k => k :: d, rfl⟩, rfl, rfl, rfl, rfl⟩

/-- What comes out of the first `k` sections of a cascade (45_halfband.md R264). -/
def cascadeTap (c : Cfg) (d : Draw) (sec : Nat) (l : List HbSection) (v : F) (k : Nat) : F :=
  (cascade c d sec (l.take k) v).2

theorem cascadeTap_length (c : Cfg) (d : Draw) (sec : Nat) (l : List HbSection) (v : F) :
    cascadeTap c d sec l v l.length = (cascade c d sec l v).2 := by rw [cascadeTap, List.take_length]

/-- Section `k` of a cascade takes what the sections before it give, and the sections after it do not reach it (45_halfband.md
R264). -/
theorem cascade_getElem?_sectionStep (c : Cfg) (d : Draw) (sec : Nat) {l : List HbSection} (v : F) {k : Nat} {p : HbSection}
    (hp : l[k]? = some p) : ∃ p', (cascade c d sec l v).1[k]? = some p' ∧
      SectionStep c.num (hbCoef c (sec + k)) p p' (cascadeTap c d sec l v k) (cascadeTap c d sec l v (k + 1)) := by
  induction l generalizing sec v k with
  | nil => cases hp
  | cons q l ih =>
    cases k with
    | zero =>
      cases hp
      exact ⟨_, rfl, HbSection.step_sectionStep _ _ _ _ _⟩
    | succ k =>
      rw [show sec + (k + 1) = sec + 1 + k by omega]
      exact ih (sec + 1) _ hp

/-! ### One filter step -/

section
variable {c : Cfg} {h : HbUnit}

theorem hbCoef_cascadeA {k : Nat} (hk : k < c.hbNsec) : hbCoef c k = c.hbCoefA.getD k F.zero := if_pos hk

theorem hbCoef_cascadeB (c : Cfg) (k : Nat) : hbCoef c (c.hbNsec + k) = c.hbCoefB.getD k F.zero := by
  rw [hbCoef, if_neg (by omega), Nat.add_sub_cancel_left]

theorem hbOk.length_cascadeA (hok : hbOk c h) : (h.secs.take c.hbNsec).length = c.hbNsec := by
  rw [hbOk] at hok
  rw [List.length_take]
  omega

theorem hbOk.length_cascadeB (hok : hbOk c h) : (h.secs.drop c.hbNsec).length = c.hbNsec := by
  rw [hbOk] at hok
  rw [List.length_drop]
  omega

theorem hbOk.getElem?_cascadeA (hok : hbOk c h) {k : Nat} (hk : k < c.hbNsec) :
    ∃ p, h.secs[k]? = some p ∧ (h.secs.take c.hbNsec)[k]? = some p := by
  have hlt : k < h.secs.length := by rw [hbOk] at hok; omega
  exact ⟨_, List.getElem?_eq_getElem hlt, (List.getElem?_take_of_lt hk).trans (List.getElem?_eq_getElem hlt)⟩

theorem hbOk.getElem?_cascadeB (hok : hbOk c h) {k : Nat} (hk : k < c.hbNsec) :
    ∃ p, h.secs[c.hbNsec + k]? = some p ∧ (h.secs.drop c.hbNsec)[k]? = some p := by
  have hlt : c.hbNsec + k < h.secs.length := by rw [hbOk] at hok; omega
  exact ⟨_, List.getElem?_eq_getElem hlt, List.getElem?_drop.trans (List.getElem?_eq_getElem hlt)⟩

theorem HbUnit.step_secs (c : Cfg) (d : Draw) (h : HbUnit) (v : F) : (h.step c d v).1.secs =
    (cascade c (0 :: d) 0 (h.secs.take c.hbNsec) v).1 ++ (cascade c (1 :: d) c.hbNsec (h.secs.drop c.hbNsec) v).1 := rfl

theorem hbOk.step_secs_cascadeA (hok : hbOk c h) (d : Draw) (v : F) {k : Nat} (hk : k < c.hbNsec) :
    (h.step c d v).1.secs[k]? = (cascade c (0 :: d) 0 (h.secs.take c.hbNsec) v).1[k]? := by
  rw [HbUnit.step_secs, List.getElem?_append_left (by rwa [cascade_length, hok.length_cascadeA])]

theorem hbOk.step_secs_cascadeB (hok : hbOk c h) (d : Draw) (v : F) (k : Nat) :
    (h.step c d v).1.secs[c.hbNsec + k]? = (cascade c (1 :: d) c.hbNsec (h.secs.drop c.hbNsec) v).1[k]? := by
  have hlen := (cascade_length c (0 :: d) 0 (h.secs.take c.hbNsec) v).trans hok.length_cascadeA
  rw [HbUnit.step_secs, List.getElem?_append_right (by omega), hlen, Nat.add_sub_cancel_left]

/-- What cascade A gives is all that reaches the answer at once; cascade B waits in BDLY (45_halfband.md R264). -/
theorem hbOk.step_outputs (hok : hbOk c h) (d : Draw) (v : F) :
    (h.step c d v).2 = c.num.fmul (3 :: d) F.half
        (c.num.fadd (2 :: d) (cascadeTap c (0 :: d) 0 (h.secs.take c.hbNsec) v c.hbNsec) h.bdly) ∧
      (h.step c d v).1.bdly = cascadeTap c (1 :: d) c.hbNsec (h.secs.drop c.hbNsec) v c.hbNsec := by
  have hA := cascadeTap_length c (0 :: d) 0 (h.secs.take c.hbNsec) v
  have hB := cascadeTap_length c (1 :: d) c.hbNsec (h.secs.drop c.hbNsec) v
  rw [hok.length_cascadeA] at hA
  rw [hok.length_cascadeB] at hB
  rw [hA, hB]
  exact ⟨rfl, rfl⟩

/-- One filter step of a unit with the sections of both cascades (45_halfband.md R264). -/
theorem hbOk.step_halfBandStep (hok : hbOk c h) (d : Draw) (v : F) :
    HalfBandStep c h (h.step c d v).1 v (h.step c d v).2 := by
  obtain ⟨hout, hbdly⟩ := hok.step_outputs d v
  refine ⟨(hok.step d v).trans hok.symm, cascadeTap c (0 :: d) 0 (h.secs.take c.hbNsec) v,
    cascadeTap c (1 :: d) c.hbNsec (h.secs.drop c.hbNsec) v, fun k => (k + 2) :: d, rfl, rfl, fun k hk => ?cascadeA,
    fun k hk => ?cascadeB, hout, hbdly⟩
  case cascadeA =>
    obtain ⟨p, hp, hpA⟩ := hok.getElem?_cascadeA hk
    obtain ⟨p', hp', hstep⟩ := cascade_getElem?_sectionStep c (0 :: d) 0 v hpA
    rw [Nat.zero_add, hbCoef_cascadeA hk] at hstep
    exact ⟨p, p', hp, (hok.step_secs_cascadeA d v hk).trans hp', hstep⟩
  case cascadeB =>
    obtain ⟨p, hp, hpB⟩ := hok.getElem?_cascadeB hk
    obtain ⟨p', hp', hstep⟩ := cascade_getElem?_sectionStep c (1 :: d) c.hbNsec v hpB
    rw [hbCoef_cascadeB] at hstep
    exact ⟨p, p', hp, (hok.step_secs_cascadeB d v k).trans hp', hstep⟩

end

/-! ### HB.PROC and HB.UP -/

theorem State.updHb_const (s : State) (u : Nat) (h' : HbUnit) : (s.updHb u fun _ => h') = { s with hb := s.hb.set u h' } := by
  rw [State.updHb, List.set_eq_modify]

section
variable {s : State} {u : Nat} {h : HbUnit}

/-- HB.PROC of a unit that exists (45_halfband.md R265). -/
theorem exec_hbProc (hh : s.hb[u]? = some h) (x : F) : exec (.hbProc u x) s =
    .next (({ s with hb := s.hb.set u (h.step s.cfg s.draw x).1 } : State).give
      { status := .ok, res0 := (h.step s.cfg s.draw x).2, res1 := 0 }) := by
  rw [← State.updHb_const]
  exact withUnit_some hh s _

/-- HB.UP of a unit that exists (45_halfband.md R266). -/
theorem exec_hbUp (hh : s.hb[u]? = some h) (x : F) : exec (.hbUp u x) s =
    let r0 := h.step s.cfg (0 :: s.draw) x
    let r1 := r0.1.step s.cfg (1 :: s.draw) F.zero
    .next (({ s with hb := s.hb.set u r1.1 } : State).give { status := .ok, res0 := r0.2, res1 := r1.2 }) := by
  simp only [← State.updHb_const]
  exact withUnit_some hh s _

end

/-- Settles O52: the unit takes the model's own step, which is a step as R264 writes it. -/
theorem hbProcResult : Obligations.HbProcResult := fun s _ x =>
  ⟨fun hu => withUnit_none hu s _, fun _ hh hok => ⟨_, _, hok.step_halfBandStep s.draw x, exec_hbProc hh x⟩⟩

/-- Settles O53: the first step leaves the unit with its sections, so the second is a step as R264 writes it too. -/
theorem hbUpResult : Obligations.HbUpResult := fun s _ x =>
  ⟨fun hu => withUnit_none hu s _, fun _ hh hok =>
    ⟨_, _, _, _, hok.step_halfBandStep (0 :: s.draw) x, (hok.step _ x).step_halfBandStep (1 :: s.draw) F.zero,
      exec_hbUp hh x⟩⟩

end Sys2Proof.Machine

/-! SUPPORT. The SYS, BLK and REG commands one at a time (46_system.md): their checks in the order of their rules, and the
registers each writes and leaves. -/

namespace Sys2Proof.Machine

/-- Settles O14: a step from a sound state answers one next state, and that state is sound. -/
theorem stepKeepsInvariant : Obligations.StepKeepsInvariant := by
  intro s t h hstep
  obtain ⟨t', hstep', ht'⟩ := step_soundOut h
  obtain rfl : t' = t := Host.Outcome.next.inj (hstep'.symm.trans hstep)
  exact ht'

/-! ### Checks and responses -/

section
variable {s : State}

theorem inSetup_iff_readReg : inSetup s = true ↔ readReg s (.sys .mode) = 0 := decide_eq_true_iff

theorem noBlock_iff_readReg : noBlock s = true ↔ readReg s (.sys .inblk) = 0 := decide_eq_true_iff

/-- A check of what does not hold refuses. -/
theorem check_of_iff_not {good : Bool} {p : Prop} (hp : good = true ↔ p) (h : ¬ p) (code : Status) (s : State) (go : Out) :
    check good code s go = refused code s := check_not (Bool.eq_false_iff.2 (mt hp.1 h)) code s go

theorem bnot_iff_not {b : Bool} {p : Prop} (hp : b = true ↔ p) : (!b) = true ↔ ¬ p := by
  rw [Bool.not_eq_true', Bool.eq_false_iff, ne_eq, hp]

theorem withReg_errUnit {cls unit : Nat} (hu : unitExists s cls unit = false) (reg : Nat) (go : Reg → Out) :
    withReg s cls unit reg go = refused .errUnit s := check_not hu _ _ _

theorem withReg_errReg {cls unit reg : Nat} (hu : unitExists s cls unit = true) (hr : regAt s cls unit reg = none)
    (go : Reg → Out) : withReg s cls unit reg go = refused .errReg s := by
  simp only [withReg, hu, check_true, hr]

/-- A command that keeps what `Kept` lists and responds is accepted. -/
theorem Kept.answered {s' : State} (h : Kept s s') (r0 r1 : U32) :
    answered s (s'.give { status := .ok, res0 := r0, res1 := r1 }) r0 r1 :=
  ⟨by rw [State.give_port, h.port], h.cfg, h.counts, h.draws⟩

end

/-! ### REG.WR -/

theorem writable_iff_ne_ro {a : Access} : writable a = true ↔ a ≠ .ro := by cases a <;> simp [writable]

/-- Every value is legal for an RW register, and an RW-enum register takes those up to its last (10_state.md R22). -/
theorem writable_and_valueLegal {a : Access} {v : U32} (h : a = .rw ∨ ∃ top, a = .rwEnum top ∧ v.toNat ≤ top) :
    writable a = true ∧ valueLegal a v = true := by
  rcases h with rfl | ⟨top, rfl, hv⟩
  · exact ⟨rfl, rfl⟩
  · exact ⟨rfl, decide_eq_true hv⟩

theorem matrixPlace_inj {i j k l : Nat} (hj : j < 16) (hl : l < 16) (h : matrixPlace i j = matrixPlace k l) :
    i = k ∧ j = l := by
  unfold matrixPlace at h
  omega

section
variable {s : State} {cls unit reg : Nat} {r q : Reg}

/-- Matrix entries with indices in range have places of their own (10_state.md R39). -/
theorem readReg_writeReg_matrix_of_ne (h : Sound s) {u i j : Nat} (hr : inRange s (.matrix u i j)) (hq : inRange s q)
    (hne : q ≠ .matrix u i j) (v : U32) : readReg (writeReg s (.matrix u i j) v) q = readReg s q := by
  cases q with
  | fdn | line => exact readAt_modify_keeps (fun _ => by rfl) _ _ _
  | matrix w k l =>
    refine readAt_modify_of_keeps (fun huw f => ?_) _
    obtain ⟨-, hj⟩ : i < fdnLineCount s u ∧ j < fdnLineCount s u := hr
    obtain ⟨-, hl⟩ : k < fdnLineCount s w ∧ l < fdnLineCount s w := hq
    have hplace : matrixPlace i j ≠ matrixPlace k l := fun e => by
      obtain ⟨hik, hjl⟩ := matrixPlace_inj (hj.trans_le (h.fdnLineCount_le u)) (hl.trans_le (h.fdnLineCount_le w)) e
      exact hne (by rw [huw, hik, hjl])
    simp only [List.getD_eq_getElem?_getD, List.getElem?_set_ne hplace]
  | _ => simp [writeReg]

/-- REG.WR leaves every defined register but the one it names (46_system.md R291). -/
theorem readReg_writeReg_of_ne_of_inRange (h : Sound s) (hw : writable (accessOf r) = true) (hr : inRange s r)
    (hq : inRange s q) (hne : q ≠ r) (v : U32) : readReg (writeReg s r v) q = readReg s q := by
  cases r with
  | matrix u i j => exact readReg_writeReg_matrix_of_ne h hr hq hne v
  | _ => exact readReg_writeReg_of_ne hw (by simp) hne v

/-- REG.WR of a number that names a register has three checks left (46_system.md R291). -/
theorem exec_regWr_of_regAt (hu : unitExists s cls unit = true) (hr : regAt s cls unit reg = some r) (v : U32) :
    exec (.regWr cls unit reg v) s =
      check (writable (accessOf r)) .errReg s (check (!inBlock s) .errInblk s
        (check (valueLegal (accessOf r) v) .errConfig s (respond 0 0 (writeReg s r v)))) := withReg_some hu hr _

theorem exec_regWr_readOnly (hu : unitExists s cls unit = true) (hr : regAt s cls unit reg = some r)
    (hro : accessOf r = .ro) (v : U32) : exec (.regWr cls unit reg v) s = .next (refuse .errReg s) := by
  rw [exec_regWr_of_regAt hu hr, hro]
  rfl

theorem exec_regWr_inBlock (hu : unitExists s cls unit = true) (hr : regAt s cls unit reg = some r)
    (hw : accessOf r ≠ .ro) (hin : readReg s (.sys .inblk) = 1) (v : U32) :
    exec (.regWr cls unit reg v) s = .next (refuse .errInblk s) := by
  rw [exec_regWr_of_regAt hu hr, check_of (writable_iff_ne_ro.2 hw),
    check_of_iff_not (bnot_iff_not inBlock_iff_readReg) (not_not_intro hin), refused_eq]

theorem exec_regWr_illegalValue (hu : unitExists s cls unit = true) (hr : regAt s cls unit reg = some r) {top : Nat}
    (hacc : accessOf r = .rwEnum top) (hout : readReg s (.sys .inblk) ≠ 1) {v : U32} (hv : top < v.toNat) :
    exec (.regWr cls unit reg v) s = .next (refuse .errConfig s) := by
  have hillegal : valueLegal (.rwEnum top) v = false := decide_eq_false (Nat.not_le.2 hv)
  rw [exec_regWr_of_regAt hu hr, hacc, check_of (rfl : writable (.rwEnum top) = true),
    check_of ((bnot_iff_not inBlock_iff_readReg).2 hout), check_not hillegal, refused_eq]

/-- REG.WR accepted: the register reads the value, every other defined register and every memory as before (46_system.md
R291). -/
theorem regWr_writes (h : Sound s) (hu : unitExists s cls unit = true) (hr : regAt s cls unit reg = some r) {v : U32}
    (hw : writable (accessOf r) = true) (hv : valueLegal (accessOf r) v = true) (hout : readReg s (.sys .inblk) ≠ 1) :
    ∃ t, exec (.regWr cls unit reg v) s = .next t ∧ answered s t 0 0 ∧ readReg t r = v ∧
      (∀ r', DefinedReg s r' → r' ≠ r → readReg t r' = readReg s r') ∧ memSame s t := by
  obtain ⟨htriple, hrange⟩ := (h.regAt_eq_some_iff hu).1 hr
  refine ⟨_, exec_regWr_of_checks hu hr hw (Bool.eq_false_iff.2 (mt inBlock_iff_readReg.1 hout)) hv,
    (Kept.writeReg s r v).answered 0 0, ?_, fun q hq hne => ?_, memSame_give (memSame_writeReg s r v) _⟩
  · rw [readReg_give]
    exact readReg_writeReg_same h hw (by rwa [htriple]) hrange v
  · rw [readReg_give]
    exact readReg_writeReg_of_ne_of_inRange h hw hrange hq.inRange hne v

end

/-- Settles O28: the checks in order, and of an accepted write the registers by name. -/
theorem regWrResult : Obligations.RegWrResult := by
  intro s cls unit reg v h
  refine ⟨fun hu => withReg_errUnit hu _ _, fun hu hr => withReg_errReg hu hr _, fun r hu hr => ?_⟩
  refine ⟨fun hro => exec_regWr_readOnly hu hr hro v, fun hw hin => exec_regWr_inBlock hu hr hw hin v,
    fun top hacc hout hv => exec_regWr_illegalValue hu hr hacc hout hv, fun hacc hout => ?_⟩
  obtain ⟨hw, hv⟩ := writable_and_valueLegal hacc
  exact regWr_writes h hu hr hw hv hout

/-! ### SYS.SETSR -/

section
variable (s : State) (fs : F)

/-- The state SYS.SETSR makes before its response is given (46_system.md R281). -/
def State.withSampleRate : State :=
  { s with sys := { s.sys with fs := fs }, osc := rederiveIncs s.cfg.num s.draw fs 0 s.osc }

/-- SYS.SETSR checks the control state, then the operand (46_system.md R281). -/
theorem exec_sysSetsr : exec (.sysSetsr fs) s =
    check (inSetup s) .errMode s (check (sampleRateOk fs) .errConfig s (respond 0 0 (s.withSampleRate fs))) := rfl

theorem Kept.withSampleRate : Kept s (s.withSampleRate fs) :=
  ⟨rfl, rfl, by simp [State.counts, State.withSampleRate, rederiveIncs_length], rfl, rfl, rfl⟩

/-- An oscillator reads as before with its INC rederived (42_oscillator.md R191). -/
theorem readReg_withSampleRate_osc (u : Nat) (q : OscReg) : readReg (s.withSampleRate fs) (.osc u q) =
    readAt s.osc u fun o => { o with inc := incOf s.cfg.num (u :: s.draw) o.freq fs }.get q := by
  have hget := rederiveIncs_getElem? s.cfg.num s.draw fs s.osc 0 u
  rw [Nat.zero_add] at hget
  cases ho : s.osc[u]? with
  | none =>
    rw [ho] at hget
    rw [readAt_none ho]
    exact readAt_none hget _
  | some o =>
    rw [ho] at hget
    rw [readAt_some ho]
    exact readAt_some hget _

variable {s}

theorem readReg_withSampleRate_inc {u : Nat} (hu : u < s.counts.nOsc) (d : Draw) :
    readReg (s.withSampleRate fs) (.osc u .inc) = incOf s.cfg.num d (readReg s (.osc u .freq)) fs := by
  obtain ⟨o, ho⟩ := osc_of_lt hu
  rw [readReg_withSampleRate_osc, readAt_some ho, readReg_osc ho]
  exact incOf_draw _ _ _ _ _

/-- SYS.SETSR leaves every register but FS and the increments (46_system.md R281). -/
theorem readReg_withSampleRate_of_ne {r : Reg} (hfs : r ≠ .sys .fs) (hinc : ∀ u, r ≠ .osc u .inc) :
    readReg (s.withSampleRate fs) r = readReg s r := by
  cases r with
  | sys q =>
    cases q with
    | fs => exact absurd rfl hfs
    | nOsc => exact congrArg (BitVec.ofNat 32) (rederiveIncs_length _ _ _ _ _)
    | _ => rfl
  | osc u q =>
    rw [readReg_withSampleRate_osc]
    cases q with
    | inc => exact absurd rfl (hinc u)
    | phase | freq | wave => rfl
  | _ => rfl

variable {fs}

theorem sampleRateOk_eq_false (h : isNan fs = true ∨ isInf fs = true ∨ flt F.zero fs = false) : sampleRateOk fs = false := by
  rcases h with h | h | h <;> simp [sampleRateOk, h]

theorem sampleRateOk_eq_true (hnan : isNan fs = false) (hinf : isInf fs = false) (hpos : flt F.zero fs = true) :
    sampleRateOk fs = true := by simp [sampleRateOk, hnan, hinf, hpos]

end

/-- Settles O30: the two checks, and the new state register by register. -/
theorem sysSetsrResult : Obligations.SysSetsrResult := by
  intro s fs
  refine ⟨fun hrun => ?running, fun hsetup hbad => ?illegalRate, fun hsetup hnan hinf hpos => ?rated⟩
  case running => rw [exec_sysSetsr, check_of_iff_not inSetup_iff_readReg hrun, refused_eq]
  case illegalRate =>
    rw [exec_sysSetsr, check_of (inSetup_iff_readReg.2 hsetup), check_not (sampleRateOk_eq_false hbad), refused_eq]
  case rated =>
    refine ⟨(s.withSampleRate fs).give { status := .ok, res0 := 0, res1 := 0 }, ?_, (Kept.withSampleRate s fs).answered 0 0,
      memSame_refl s, rfl, fun u d hu => readReg_withSampleRate_inc fs hu d, fun r hfs hinc => ?_⟩
    · rw [exec_sysSetsr, check_of (inSetup_iff_readReg.2 hsetup), check_of (sampleRateOk_eq_true hnan hinf hpos), respond_eq]
    · rw [readReg_give, readReg_withSampleRate_of_ne fs hfs hinc]

/-! ### REG.RD -/

/-- Settles O27, by the register checks. -/
theorem regRdResult : Obligations.RegRdResult := fun _ _ _ _ =>
  ⟨fun hu => withReg_errUnit hu _ _, fun hu hr => withReg_errReg hu hr _, fun _ hu hr => withReg_some hu hr _⟩

/-! ### SYS.RUN, SYS.SETUP, BLK.BEGIN and BLK.END -/

section
variable {s : State}

/-- A command that writes one of the SYS registers and responds. -/
theorem sysWrite_accepted {i : Instr} {regs : SysRegs} {q : SysReg} {v : U32}
    (hexec : exec i s = respond 0 0 { s with sys := regs }) (hkept : Kept s { s with sys := regs })
    (hq : sysRead { s with sys := regs } q = v)
    (hother : ∀ q', q' ≠ q → sysRead { s with sys := regs } q' = sysRead s q') :
    ∃ t, exec i s = .next t ∧ answered s t 0 0 ∧ regsExcept s t [(.sys q, v)] ∧ memSame s t := by
  refine ⟨_, hexec, hkept.answered 0 0, fun r => ?_, memSame_refl s⟩
  rw [readReg_give, lookup_reg_cons]
  cases r with
  | sys q' =>
    by_cases hqq : q' = q
    · rw [hqq, if_pos rfl]
      exact hq
    · rw [if_neg fun e => hqq (Reg.sys.inj e)]
      exact hother q' hqq
  | _ => rw [if_neg (by simp)]; rfl

theorem modeWrite_accepted {i : Instr} {v : U32}
    (hexec : exec i s = respond 0 0 { s with sys := { s.sys with mode := v } }) :
    ∃ t, exec i s = .next t ∧ answered s t 0 0 ∧ regsExcept s t [(.sys .mode, v)] ∧ memSame s t := by
  refine sysWrite_accepted hexec ⟨rfl, rfl, rfl, rfl, rfl, rfl⟩ rfl fun q hq => ?_
  cases q with
  | mode => exact absurd rfl hq
  | _ => rfl

theorem inblkWrite_accepted {i : Instr} {v : U32}
    (hexec : exec i s = respond 0 0 { s with sys := { s.sys with inblk := v } }) :
    ∃ t, exec i s = .next t ∧ answered s t 0 0 ∧ regsExcept s t [(.sys .inblk, v)] ∧ memSame s t := by
  refine sysWrite_accepted hexec ⟨rfl, rfl, rfl, rfl, rfl, rfl⟩ rfl fun q hq => ?_
  cases q with
  | inblk => exact absurd rfl hq
  | _ => rfl

/-- SYS.RUN checks the control state, then the sample rate (46_system.md R282). -/
theorem exec_sysRun (s : State) : exec .sysRun s = check (inSetup s) .errMode s (check (fsConfigured s) .errConfig s
    (respond 0 0 { s with sys := { s.sys with mode := 1 } })) := rfl

theorem exec_sysRun_of_inSetup (h : readReg s (.sys .mode) = 0) : exec .sysRun s = check (fsConfigured s) .errConfig s
    (respond 0 0 { s with sys := { s.sys with mode := 1 } }) := check_of (inSetup_iff_readReg.2 h) _ _ _

/-- The commands that are refused in SETUP (46_system.md R283, R285, R286). -/
theorem exec_runCommands_errMode (h : readReg s (.sys .mode) ≠ 1) :
    exec .sysSetup s = .next (refuse .errMode s) ∧ exec .blkBegin s = .next (refuse .errMode s) ∧
      exec .blkEnd s = .next (refuse .errMode s) :=
  have refuses (go : Out) : check (inRun s) .errMode s go = refused .errMode s := check_of_iff_not inRun_iff_readReg h _ _ _
  ⟨refuses _, refuses _, refuses _⟩

theorem exec_sysSetup_of_inRun (h : readReg s (.sys .mode) = 1) : exec .sysSetup s = check (!inBlock s) .errInblk s
    (respond 0 0 { s with sys := { s.sys with mode := 0 } }) := check_of (inRun_iff_readReg.2 h) _ _ _

theorem exec_blkBegin_of_inRun (h : readReg s (.sys .mode) = 1) : exec .blkBegin s = check (!inBlock s) .errInblk s
    (respond 0 0 { s with sys := { s.sys with inblk := 1 } }) := check_of (inRun_iff_readReg.2 h) _ _ _

theorem exec_blkEnd_of_inRun (h : readReg s (.sys .mode) = 1) : exec .blkEnd s = check (!noBlock s) .errInblk s
    (respond 0 0 { s with sys := { s.sys with inblk := 0 } }) := check_of (inRun_iff_readReg.2 h) _ _ _

end

/-- Settles O31: each command's check of MODE, then its second check, then its one register. -/
theorem flagCommandsResult : Obligations.FlagCommandsResult := by
  intro s
  have outside : (!inBlock s) = true ↔ readReg s (.sys .inblk) ≠ 1 := bnot_iff_not inBlock_iff_readReg
  have inside : (!noBlock s) = true ↔ readReg s (.sys .inblk) ≠ 0 := bnot_iff_not noBlock_iff_readReg
  refine ⟨fun hrun => ?runInRun, fun hsetup hfs => ?runUnrated, fun hsetup hfs => ?sysRun, exec_runCommands_errMode,
    fun hrun hin => ⟨?setupInBlock, ?beginInBlock⟩, fun hrun hno => ?endOutside, fun hrun hout => ⟨?sysSetup, ?blkBegin⟩,
    fun hrun hin => ?blkEnd⟩
  case runInRun => rw [exec_sysRun, check_of_iff_not inSetup_iff_readReg hrun, refused_eq]
  case runUnrated => rw [exec_sysRun_of_inSetup hsetup, check_not (fsConfigured_of_feq hfs), refused_eq]
  case sysRun => exact modeWrite_accepted (by rw [exec_sysRun_of_inSetup hsetup, check_of (fsConfigured_of_feq hfs)])
  case setupInBlock => rw [exec_sysSetup_of_inRun hrun, check_of_iff_not outside (not_not_intro hin), refused_eq]
  case beginInBlock => rw [exec_blkBegin_of_inRun hrun, check_of_iff_not outside (not_not_intro hin), refused_eq]
  case endOutside => rw [exec_blkEnd_of_inRun hrun, check_of_iff_not inside (not_not_intro hno), refused_eq]
  case sysSetup => exact modeWrite_accepted (by rw [exec_sysSetup_of_inRun hrun, check_of (outside.2 hout)])
  case blkBegin => exact inblkWrite_accepted (by rw [exec_blkBegin_of_inRun hrun, check_of (outside.2 hout)])
  case blkEnd => exact inblkWrite_accepted (by rw [exec_blkEnd_of_inRun hrun, check_of (inside.2 hin)])

end Sys2Proof.Machine

/-! SUPPORT. The statements on the invariant, on idling and reset, and on the effect of a refusal. -/

namespace Sys2Proof.Machine

/-! ### The invariant at reset and at every step -/

/-- Settles O13: the suggested configuration is a legal one. -/
theorem resetIsSound : Obligations.ResetIsSound :=
  ⟨fun _ _ => sound_resetOf, sound_resetOf (by decide) (by decide)⟩

/-- Settles O15: a step from a sound state answers a next state. -/
theorem soundStatesNeverStop : Obligations.SoundStatesNeverStop := by
  intro s h
  obtain ⟨t, hstep, -⟩ := step_soundOut h
  exact ⟨t, hstep⟩

/-! ### Idling and the reset pin -/

/-- Settles O8, by the first input of the port. -/
theorem idleAndResetSteps : Obligations.IdleAndResetSteps :=
  ⟨fun _ => step_of_nil, fun _ _ => step_of_reset⟩

/-! ### The effect of a refusal -/

section
variable {s : State}

/-- A refusal leaves every register but LASTERR and ERRCNT (60_exceptions.md R302). -/
theorem readReg_refuse_of_ne (code : Status) {r : Reg} (hlast : r ≠ .sys .lasterr) (hcnt : r ≠ .sys .errcnt) :
    readReg (refuse code s) r = readReg s r := by
  cases r with
  | sys q =>
    cases q with
    | lasterr => exact absurd rfl hlast
    | errcnt => exact absurd rfl hcnt
    | _ => rfl
  | _ => rfl

/-- The response given last tells which of the two ways a command ended (60_exceptions.md R302). -/
theorem Ends.of_status {t : State} {r : Response} (h : Ends s t) (hout : t.port.outputs = r :: s.port.outputs) :
    (r.status ≠ .ok → t = Machine.refuse r.status s) ∧
      (r.status = .ok → t.sys.lasterr = s.sys.lasterr ∧ t.sys.errcnt = s.sys.errcnt) := by
  rcases h with ⟨code, hcode, rfl⟩ | ⟨s', r0, r1, rfl, kept⟩
  · obtain rfl : _ = r := List.head_eq_of_cons_eq hout
    exact ⟨fun _ => rfl, fun hok => absurd hok hcode⟩
  · obtain rfl : _ = r := List.head_eq_of_cons_eq hout
    exact ⟨fun hne => absurd rfl hne, fun _ => ⟨kept.lasterr, kept.errcnt⟩⟩

end

/-- Settles O18: the two registers of a refusal, and the two ways a word performed can end. -/
theorem refusalEffect : Obligations.RefusalEffect := by
  refine ⟨fun code s => ⟨rfl, errcntNext_toNat _, fun r => readReg_refuse_of_ne code, memSame_refl s, rfl⟩, ?_⟩
  intro s t w rest r hin hstep hout
  rw [step_of_command hin] at hstep
  obtain ⟨t', hperform, rfl⟩ := countedOut_eq_next.1 hstep
  obtain ⟨hrefused, haccepted⟩ := (perform_ends hperform).of_status hout
  exact ⟨fun hne => congrArg State.counted (hrefused hne), haccepted⟩

end Sys2Proof.Machine

/-! SUPPORT. What the PROC commands answer in the reset state (70_reset_and_hazards.md R342): each unit of it is the reset unit of
its class, and that of BQ is the identity filter. -/

namespace Sys2Proof.Machine

section
variable {n : UnitCounts} {c : Cfg} {u : Nat}

/-! ### The units of the reset state -/

theorem resetOf_bq_getElem? (hu : u < n.nBq) : (State.resetOf n c).bq[u]? = some BqUnit.reset :=
  List.getElem?_replicate_of_lt hu

theorem resetOf_osc_getElem? (hu : u < n.nOsc) : (State.resetOf n c).osc[u]? = some OscUnit.reset :=
  List.getElem?_replicate_of_lt hu

theorem resetOf_dl_getElem? (hu : u < n.nDl) : (State.resetOf n c).dl[u]? = some DlUnit.reset :=
  List.getElem?_replicate_of_lt hu

theorem resetOf_fdn_getElem? (hu : u < n.nFdn) : (State.resetOf n c).fdn[u]? = some FdnUnit.reset :=
  List.getElem?_replicate_of_lt hu

/-! ### BQ.PROC -/

theorem BqUnit.reset_identity : BqUnit.reset.Identity := ⟨rfl, rfl, rfl, rfl, rfl, rfl, rfl, rfl, rfl⟩

/-- The reset filter loses the sign of `-0.0` in its first sum, `-0.0 + 0.0 = +0.0` (40_numerics.md R132). -/
theorem biquadOut_reset_negZero {nm : Num} (hnm : nm.basic = .binary32) (d : Draw) :
    biquadOut nm d BqUnit.reset 0x80000000#32 = F.zero := by
  have hinput (d : Draw) : fmul d F.one 0x80000000#32 = 0x80000000#32 := fmul_one_left d (by decide)
  have hother (d : Draw) : fmul d F.zero F.zero = F.zero := rfl
  have hsign (d : Draw) : fadd d 0x80000000#32 F.zero = F.zero := rfl
  have hadd (d : Draw) : fadd d F.zero F.zero = F.zero := rfl
  have hsub (d : Draw) : fsub d F.zero F.zero = F.zero := rfl
  simp only [biquadOut, BqUnit.reset, Num.fmul_eq hnm, Num.fadd_eq hnm, Num.fsub_eq hnm, hinput, hother, hsign, hadd, hsub]

theorem biquadOut_reset {nm : Num} (hnm : nm.basic = .binary32) (d : Draw) {x : F} (hx : isFinite x = true) :
    biquadOut nm d BqUnit.reset x = if x = 0x80000000#32 then F.zero else x := by
  split
  next hneg => rw [hneg, biquadOut_reset_negZero hnm]
  next hne => exact biquadOut_identity hnm d BqUnit.reset_identity hx hne

/-! ### OSC.PROC -/

theorem fmul_zero_two (d : Draw) : fmul d F.zero F.two = F.zero := rfl

theorem fsub_two_fabs_zero (d : Draw) : fsub d F.two (fabs F.zero) = F.two := rfl

/-- The sine at the phase 0 is the parabola of 0.0 (42_oscillator.md R195, R196). -/
theorem waveOut_parabola_zero {nm : Num} (hnm : nm.basic = .binary32) (d e : Draw) :
    waveOut .parabola nm d 0 (fold nm e 0) = F.zero := by
  obtain ⟨hfold, -⟩ := fold_quarters hnm e
  rw [hfold, waveOut, if_pos rfl, sinePoly, parabola, Num.fmul_eq hnm, Num.fsub_eq hnm, Num.fabs_eq hnm, fsub_two_fabs_zero,
    fmul_zero_two]

/-! ### DL.PROC and FDN.PROC -/

/-- A reset line of length 1 answers what has just entered it (43_delay.md R216). -/
theorem DlUnit.proc_reset (nm : Num) (d : Draw) (x : F) :
    DlUnit.reset.proc nm d x = (DlUnit.reset.advanced x, x) := by
  rw [DlUnit.proc_sample rfl]
  exact congrArg _ (DlUnit.tap_written_zero DlUnit.reset x)

/-- A reset network has no lines in use (44_fdn.md R246). -/
theorem FdnUnit.proc_reset (nm : Num) (d : Draw) (lineLog2 : Nat) (x : F) :
    FdnUnit.reset.proc nm d lineLog2 x = (FdnUnit.reset, F.zero) := rfl

/-- A unit replaced by itself leaves the state as it was. -/
theorem State.updFdn_self {s : State} {f : FdnUnit} (hf : s.fdn[u]? = some f) : (s.updFdn u fun _ => f) = s := by
  have hsame : s.fdn.modify u (fun _ => f) = s.fdn := by
    refine List.ext_getElem? fun v => ?_
    rw [getElem?_modify_unit]
    split
    next huv => rw [← huv, hf, Option.map_some]
    next => rfl
  rw [State.updFdn, hsame]

end

/-- Settles O17: each unit that exists is the reset unit of its class. -/
theorem resetStateDriven : Obligations.ResetStateDriven := by
  intro n c u x
  refine ⟨fun hu hnm hx => ?bq, fun hu hnm hsine => ?osc, fun hu => ?dl, fun hu => ?fdn⟩
  case bq =>
    obtain ⟨t, hexec, hanswer, -⟩ := bqProc_accepted (resetOf_bq_getElem? (c := c) hu) x
    have hnum : (State.resetOf n c).cfg.num.basic = .binary32 := hnm
    rw [biquadOut_reset hnum _ hx] at hanswer
    exact ⟨t, hexec, hanswer⟩
  case osc =>
    have ho := resetOf_osc_getElem? (c := c) hu
    have hwave := waveOut_parabola_zero hnm (1 :: (State.resetOf n c).draw) (0 :: (State.resetOf n c).draw)
    refine ⟨_, exec_oscProc ho, ?_, ?_⟩
    · rw [← hwave, ← hsine]
      exact answered_updOsc _ _ _ _ _
    · rw [readReg_give, readReg_updOsc_osc, if_pos rfl, readAt_some ho]
      rfl
  case dl =>
    have hproc := exec_dlProc (resetOf_dl_getElem? (c := c) hu) (Nat.zero_le _) (DlUnit.proc_reset _ _ x)
    exact ⟨_, hproc, answered_lineProcessed _ _ _ _⟩
  case fdn =>
    have hf := resetOf_fdn_getElem? (c := c) hu
    rw [exec_fdnProc hf, State.networkProcessed, FdnUnit.proc_reset, State.updFdn_self hf]

end Sys2Proof.Machine

/-! SUPPORT. The causes of a refusal in the order of 60_exceptions.md R305, and that each command makes its checks in that order:
the code it reports is that of the first cause that applies. -/

namespace Sys2Proof.Machine

/-! ### The first cause of a list -/

/-- The code of the first cause of a list that applies; `none` where none applies. -/
def FirstOf : List (Prop × Status) → Option Status → Prop
  | [], v => v = none
  | (p, code) :: rest, v => (p ∧ v = some code) ∨ (¬ p ∧ FirstOf rest v)

theorem exists_firstOf (l : List (Prop × Status)) : ∃ v, FirstOf l v := by
  induction l with
  | nil => exact ⟨none, rfl⟩
  | cons x rest ih =>
    obtain ⟨v, hv⟩ := ih
    by_cases hx : x.1
    · exact ⟨some x.2, .inl ⟨hx, rfl⟩⟩
    · exact ⟨v, .inr ⟨hx, hv⟩⟩

theorem FirstOf.unique {l : List (Prop × Status)} {v w : Option Status} (hv : FirstOf l v) (hw : FirstOf l w) : v = w := by
  induction l with
  | nil => exact hv.trans hw.symm
  | cons x rest ih =>
    rcases hv with ⟨hx, rfl⟩ | ⟨hx, hv⟩ <;> rcases hw with ⟨hx', rfl⟩ | ⟨hx', hw⟩
    · rfl
    · exact absurd hx hx'
    · exact absurd hx' hx
    · exact ih hv hw

/-- The first cause of two lists is that of the first list, or of the second where none of the first applies. -/
theorem FirstOf.append_cases {l l' : List (Prop × Status)} {v : Option Status} (h : FirstOf (l ++ l') v) :
    (FirstOf l v ∧ v ≠ none) ∨ (FirstOf l none ∧ FirstOf l' v) := by
  induction l with
  | nil => exact .inr ⟨rfl, h⟩
  | cons x rest ih =>
    rcases h with ⟨hx, rfl⟩ | ⟨hx, h⟩
    · exact .inl ⟨.inl ⟨hx, rfl⟩, by simp⟩
    · rcases ih h with ⟨hrest, hv⟩ | ⟨hrest, hl'⟩
      · exact .inl ⟨.inr ⟨hx, hrest⟩, hv⟩
      · exact .inr ⟨.inr ⟨hx, hrest⟩, hl'⟩

/-- The causes checked once the unit and the register are found (60_exceptions.md R305, checks 4 to 6). -/
def laterCauses (s : State) (i : Instr) : List (Prop × Status) :=
  [(causeMode s i, .errMode), (causeInblk s i, .errInblk), (causeConfig s i, .errConfig)]

/-- The causes of a command in the order of its checks (60_exceptions.md R305, checks 2 to 6). -/
def causesOf (s : State) (i : Instr) : List (Prop × Status) :=
  (causeUnit s i, .errUnit) :: (causeReg s i, .errReg) :: laterCauses s i

theorem firstCause_iff {s : State} {i : Instr} {v : Option Status} : firstCause s i v ↔ FirstOf (causesOf s i) v := Iff.rfl

/-! ### Outcomes that report the first cause -/

/-- What an outcome is, given the code of the first cause: the refusal with that code, or without one an accepted command. -/
def Reported (s : State) (o : Out) : Option Status → Prop
  | some code => o = refused code s
  | none => Answers (fun r => r.status = .ok) o

/-- The outcome reports the first of the causes that applies. -/
def Reports (causes : List (Prop × Status)) (s : State) (o : Out) : Prop := ∀ v, FirstOf causes v → Reported s o v

section
variable {p q : Prop} {code : Status} {rest : List (Prop × Status)} {s : State} {o go : Out}

theorem Reports.respond (r0 r1 : U32) (s s' : State) : Reports [] s (respond r0 r1 s') := by
  rintro _ rfl
  exact Answers.respond rfl

theorem Reports.fault (f : Fault) (s : State) : Reports [] s (.fault f) := by
  rintro _ rfl
  exact .fault f

theorem Reports.cons (hp : p → o = refused code s) (hrest : ¬ p → Reports rest s o) : Reports ((p, code) :: rest) s o := by
  rintro v (⟨h, rfl⟩ | ⟨h, hv⟩)
  · exact hp h
  · exact hrest h v hv

theorem Reports.skip (hp : ¬ p) (hrest : Reports rest s o) : Reports ((p, code) :: rest) s o :=
  .cons (fun h => absurd h hp) fun _ => hrest

/-- A check of what holds exactly where the cause does not apply. -/
theorem Reports.check {good : Bool} (hp : p ↔ good = false) (hgo : Reports rest s go) :
    Reports ((p, code) :: rest) s (check good code s go) := by
  refine .cons (fun h => check_not (hp.1 h) _ _ _) fun h => ?_
  rw [check_of (Bool.eq_true_of_not_eq_false (mt hp.2 h))]
  exact hgo

/-- Two causes of one code, checked one after the other. -/
theorem Reports.either (h : Reports ((p, code) :: (q, code) :: rest) s o) : Reports ((p ∨ q, code) :: rest) s o := by
  refine .cons (fun hpq => ?_) fun hpq v hv => ?_
  · rcases Classical.em p with hp | hp
    · exact h _ (.inl ⟨hp, rfl⟩)
    · exact h _ (.inr ⟨hp, .inl ⟨hpq.resolve_left hp, rfl⟩⟩)
  · obtain ⟨hp, hq⟩ := not_or.1 hpq
    exact h v (.inr ⟨hp, .inr ⟨hq, hv⟩⟩)

/-- The response given last has the code reported, or OK. -/
theorem Reported.status {v : Option Status} (h : Reported s o v) {t : State} {r : Response} (ho : o = .next t)
    (hout : t.port.outputs = r :: s.port.outputs) : r.status = v.getD .ok := by
  cases v with
  | some code =>
    obtain rfl := refused_next (h.symm.trans ho)
    obtain rfl : _ = r := List.head_eq_of_cons_eq hout
    rfl
  | none =>
    obtain ⟨r', before, hout', hok⟩ := h t ho
    obtain rfl : r' = r := List.head_eq_of_cons_eq (hout'.symm.trans hout)
    exact hok

end

/-! ### The causes in the terms of the checks -/

section
variable {s : State} {i : Instr}

/-- The cause of ERR_UNIT is that the unit named does not exist (60_exceptions.md R303). -/
theorem causeUnit_iff {cls u : Nat} (h : targetOf i = some (cls, u)) : causeUnit s i ↔ unitExists s cls u = false := by
  rw [causeUnit, h]
  rcases cls with _ | _ | _ | _ | _ | _ | cls <;> simp [unitExists, classCount, State.counts]

/-- The commands of SETUP alone and those of RUN alone (60_exceptions.md R303). -/
theorem causeMode_iff (hf : flagsOk s.sys) : causeMode s i ↔
    (i.opcode ∈ [Opcode.sysSetsr, .sysRun, .dlResize, .fdnResize] ∧ inRun s = true) ∨
      (i.opcode ∈ [Opcode.sysSetup, .blkBegin, .blkEnd] ∧ inRun s = false) := by
  have hrun : s.sys.mode = 0 ↔ s.sys.mode ≠ 1 := by
    rcases hf.1 with h | h <;> simp [h]
  rw [causeMode, inRun, decide_eq_true_iff, decide_eq_false_iff_not, ← ne_eq, ← hrun]

/-- The commands that are not for a block, and BLK.END, which is for one (60_exceptions.md R303). -/
theorem causeInblk_iff : causeInblk s i ↔
    (i.opcode ∈ bqSetters ++ [.fdnSetlen, .regWr, .sysSetup, .blkBegin] ∧ inBlock s = true) ∨
      (i.opcode = .blkEnd ∧ noBlock s = true) := by
  rw [causeInblk, inBlock, noBlock, decide_eq_true_iff, decide_eq_true_iff]

theorem inSetup_eq_not_inRun (hf : flagsOk s.sys) : inSetup s = !inRun s := by
  rcases hf.1 with h | h <;> simp [inSetup, inRun, h]

theorem feq_iff_not_fsConfigured : feq s.sys.fs F.zero = true ↔ fsConfigured s = false := by
  rw [fsConfigured, Bool.not_eq_false']

theorem sampleRateOk_eq_false_iff {fs : F} :
    sampleRateOk fs = false ↔ isNan fs = true ∨ isInf fs = true ∨ flt F.zero fs = false := by
  rw [sampleRateOk, Bool.and_eq_false_iff, Bool.and_eq_false_iff, Bool.not_eq_false', Bool.not_eq_false', or_assoc]

theorem lengthOk_eq_false_iff {m : Nat} {p : F} :
    lengthOk m p = false ↔ isNan p = true ∨ flt p F.zero = true ∨ flt (pow2 m) p = true := by
  rw [lengthOk, Bool.and_eq_false_iff, Bool.and_eq_false_iff, Bool.not_eq_false', Bool.not_eq_false', Bool.not_eq_false',
    or_assoc]

/-- A value REG.WR refuses is one above the last of an RW-enum register (10_state.md R22). -/
theorem valueLegal_eq_false_iff {a : Access} {v : U32} :
    valueLegal a v = false ↔ ∃ top, a = .rwEnum top ∧ top < v.toNat := by
  cases a <;> simp [valueLegal]

theorem writable_eq_false_iff {a : Access} : writable a = false ↔ a = .ro := by
  rw [← Bool.not_eq_true, writable_iff_ne_ro, ne_eq, not_not]

end

/-! ### The gating table -/

section
variable {s : State} {i : Instr}

/-- The causes the control state alone decides (60_exceptions.md R306). -/
def gateCauses (s : State) (i : Instr) : List (Prop × Status) := [(causeMode s i, .errMode), (causeInblk s i, .errInblk)]

/-- A cell of the gating table is the first cause of its row in its control state (60_exceptions.md R306). -/
theorem firstOf_gateCauses (hf : flagsOk s.sys) (i : Instr) : FirstOf (gateCauses s i) (gate i.opcode (controlState s)) := by
  obtain ⟨hmode | hmode, hinblk | hinblk, hrun⟩ := hf
  case inl.inr => exact absurd ((hrun hinblk).symm.trans hmode) (by decide)
  all_goals
    simp only [gateCauses, FirstOf, causeMode, causeInblk, controlState, inRun, inBlock, hmode, hinblk]
    generalize i.opcode = op
    cases op <;> decide

theorem not_gateCauses (hf : flagsOk s.sys) (h : gate i.opcode (controlState s) = none) :
    ¬ causeMode s i ∧ ¬ causeInblk s i := by
  have hfirst := firstOf_gateCauses hf i
  rw [h] at hfirst
  rcases hfirst with ⟨-, hv⟩ | ⟨hmode, ⟨-, hv⟩ | ⟨hinblk, -⟩⟩
  · cases hv
  · cases hv
  · exact ⟨hmode, hinblk⟩

/-- The first cause of a command is a missing unit or register, or what its cell of the gating table says; where that is ok, an
illegal configuration may be left (60_exceptions.md R305, R306). -/
theorem firstOf_causesOf_cases (hf : flagsOk s.sys) {v : Option Status} (hv : FirstOf (causesOf s i) v) :
    v = some .errUnit ∨ v = some .errReg ∨ (v = gate i.opcode (controlState s) ∧ v ≠ none) ∨
      (gate i.opcode (controlState s) = none ∧ (v = some .errConfig ∨ v = none)) := by
  have hgate := firstOf_gateCauses hf i
  rcases hv with ⟨-, hunit⟩ | ⟨-, ⟨-, hreg⟩ | ⟨-, hlater⟩⟩
  · exact .inl hunit
  · exact .inr (.inl hreg)
  · rcases FirstOf.append_cases (l := gateCauses s i) hlater with ⟨hv, hne⟩ | ⟨hnone, hconfig⟩
    · exact .inr (.inr (.inl ⟨hv.unique hgate, hne⟩))
    · exact .inr (.inr (.inr ⟨hgate.unique hnone, hconfig.imp And.right And.right⟩))

end

/-! ### The checks of each command -/

section
variable {s : State} {i : Instr}

/-- The unit check in front of a command of one of the five unit classes. -/
theorem reports_withUnit {α : Type} {units : List α} {cls u : Nat} {go : α → Out} (htarget : targetOf i = some (cls, u))
    (hunit : unitExists s cls u = decide (u < units.length)) (hreg : ¬ causeReg s i)
    (hgo : ∀ x, Reports (laterCauses s i) s (go x)) : Reports (causesOf s i) s (withUnit units u s go) := by
  have hcause : causeUnit s i ↔ units.length ≤ u := by
    rw [causeUnit_iff htarget, hunit, decide_eq_false_iff_not, Nat.not_lt]
  refine .cons (fun h => withUnit_none (hcause.1 h) _ _) fun h => .skip hreg ?_
  have hu : u < units.length := Nat.not_le.1 (mt hcause.2 h)
  rw [withUnit_some (List.getElem?_eq_getElem hu)]
  exact hgo _

/-- The register checks in front of REG.RD and REG.WR. -/
theorem reports_withReg {cls unit reg : Nat} {go : Reg → Out} (htarget : targetOf i = some (cls, unit))
    (hreg : regAt s cls unit reg = none → causeReg s i)
    (hgo : ∀ r, regAt s cls unit reg = some r → Reports ((causeReg s i, .errReg) :: laterCauses s i) s (go r)) :
    Reports (causesOf s i) s (withReg s cls unit reg go) := by
  refine .check (causeUnit_iff htarget) ?_
  cases hr : regAt s cls unit reg with
  | some r => exact hgo r hr
  | none => exact .cons (fun _ => rfl) fun h => absurd (hreg hr) h

/-- A command that is accepted in this control state has the checks of its configuration left. -/
theorem Reports.ungated (hf : flagsOk s.sys) (hgate : gate i.opcode (controlState s) = none) {o : Out}
    (ho : Reports [(causeConfig s i, .errConfig)] s o) : Reports (laterCauses s i) s o :=
  have ⟨hmode, hinblk⟩ := not_gateCauses hf hgate
  .skip hmode (.skip hinblk ho)

theorem bqSetter_reports (hf : flagsOk s.sys) (hop : i.opcode ∈ bqSetters) {u : Nat} (htarget : targetOf i = some (1, u))
    (hreg : ¬ causeReg s i) {mode : BqMode} {readsFs : Bool}
    (hconfig : causeConfig s i ↔ readsFs = true ∧ fsConfigured s = false) (f q g : F) :
    Reports (causesOf s i) s (bqSetter mode readsFs u f q g s) := by
  have hneither : ∀ op ∈ bqSetters, op ∉ [Opcode.sysSetsr, .sysRun, .dlResize, .fdnResize] ∧
      op ∉ [Opcode.sysSetup, .blkBegin, .blkEnd] ∧ op ≠ .blkEnd := by decide
  obtain ⟨hsetup, hrun, hend⟩ := hneither _ hop
  refine reports_withUnit htarget rfl hreg fun _ => .skip ?mode (.check ?inblk (.check ?config (.respond _ _ _ _)))
  case mode => simp only [causeMode_iff hf, hsetup, hrun, false_and, or_self, not_false_eq_true]
  case inblk => simp [causeInblk_iff, hop, hend]
  case config => simp [hconfig]

/-- Every command reports the first of its causes (60_exceptions.md R303, R305). -/
theorem exec_reports (hf : flagsOk s.sys) (i : Instr) : Reports (causesOf s i) s (exec i s) := by
  have hmode := causeMode_iff (i := i) hf
  have hinblk := causeInblk_iff (s := s) (i := i)
  cases i with
  | sysSetsr fs =>
    exact .skip id <| .skip id <| .check (by simp [hmode, Instr.opcode, inSetup_eq_not_inRun hf])
      <| .skip (by simp [hinblk, Instr.opcode, bqSetters])
      <| .check (by simp [causeConfig, sampleRateOk_eq_false_iff, Instr.opcode, needsRate]) <| .respond _ _ _ _
  | sysRun =>
    exact .skip id <| .skip id <| .check (by simp [hmode, Instr.opcode, inSetup_eq_not_inRun hf])
      <| .skip (by simp [hinblk, Instr.opcode, bqSetters])
      <| .check (by simp [causeConfig, feq_iff_not_fsConfigured, Instr.opcode, needsRate]) <| .respond _ _ _ _
  | sysSetup | blkBegin | blkEnd =>
    exact .skip id <| .skip id <| .check (by simp [hmode, Instr.opcode])
      <| .check (by simp [hinblk, Instr.opcode, bqSetters])
      <| .skip (by simp [causeConfig, Instr.opcode, needsRate]) <| .respond _ _ _ _
  | regRd cls u reg =>
    exact reports_withReg rfl id fun r hr => .skip (by simp [causeReg, hr]) <| .ungated hf rfl
      <| .skip (by simp [causeConfig, Instr.opcode, needsRate]) <| .respond _ _ _ _
  | regWr cls u reg v =>
    exact reports_withReg rfl .inl fun r hr => .check (by simp [causeReg, hr, writable_eq_false_iff])
      <| .skip (by simp [hmode, Instr.opcode]) <| .check (by simp [hinblk, Instr.opcode])
      <| .check (by simp [causeConfig, hr, valueLegal_eq_false_iff, Instr.opcode, needsRate]) <| .respond _ _ _ _
  | bqSetlp | bqSethp | bqSetbp | bqSetnotch | bqSetloshelf | bqSethishelf | bqSetpeak | bqSetap | bqSetdiff | bqSetonepole =>
    exact bqSetter_reports hf (by simp [Instr.opcode, bqSetters]) rfl id
      (by simp [causeConfig, feq_iff_not_fsConfigured, Instr.opcode, needsRate]) _ _ _
  | bqProc | oscProc | fdnProc | hbProc | hbUp =>
    exact reports_withUnit rfl rfl id fun _ => .ungated hf rfl
      <| .skip (by simp [causeConfig, Instr.opcode, needsRate]) <| .respond _ _ _ _
  | dlProc u x =>
    refine reports_withUnit rfl rfl id fun l => .ungated hf rfl <| .skip (by simp [causeConfig, Instr.opcode, needsRate]) ?_
    split
    · exact .fault _ _
    · exact .respond _ _ _ _
  | oscSetf | dlSetdelay | dlSetmoddelay =>
    exact reports_withUnit rfl rfl id fun _ => .ungated hf rfl
      <| .check (by simp [causeConfig, feq_iff_not_fsConfigured, Instr.opcode, needsRate]) <| .respond _ _ _ _
  | dlResize u d =>
    exact reports_withUnit rfl rfl id fun _ => .check (by simp [hmode, Instr.opcode])
      <| .skip (by simp [hinblk, Instr.opcode, bqSetters])
      <| .either <| .check (by simp [feq_iff_not_fsConfigured, Instr.opcode, needsRate])
      <| .check (lengthOk_eq_false_iff.symm.trans (by rw [lengthOk_fmul_draw])) <| .respond _ _ _ _
  | fdnResize u n =>
    exact reports_withUnit rfl rfl id fun _ => .check (by simp [hmode, Instr.opcode])
      <| .skip (by simp [hinblk, Instr.opcode, bqSetters])
      <| .check (by simp [causeConfig, Instr.opcode, needsRate]) <| .respond _ _ _ _
  | fdnSetlen u t =>
    exact reports_withUnit rfl rfl id fun _ => .skip (by simp [hmode, Instr.opcode])
      <| .check (by simp [hinblk, Instr.opcode])
      <| .check (by simp [causeConfig, feq_iff_not_fsConfigured, Instr.opcode, needsRate]) <| .respond _ _ _ _

end

/-- Settles O20: the command reports its first cause, and from a sound state it does not stop. -/
theorem firstCauseIsReported : Obligations.FirstCauseIsReported := by
  intro s w rest h hin
  refine ⟨fun why hd => step_of_illegal hin hd, fun i hd => ?_⟩
  have hstep : step s = countedOut (exec i (s.taking rest)) := by rw [step_of_command hin, perform_of_command hd]
  have hreports := exec_reports (h.taking rest).flags i
  refine ⟨fun code hcause => ?refused, fun hnone => ?accepted⟩
  case refused =>
    have hexec : exec i (s.taking rest) = refused code (s.taking rest) := hreports _ (firstCause_iff.1 hcause)
    rw [hstep, hexec, refused_eq, countedOut_next]
  case accepted =>
    obtain ⟨t, hexec, -⟩ := exec_soundOut (h.taking rest) i
    obtain ⟨⟨r, hport⟩, -⟩ := (exec_ends hexec).frame
    have hout : t.port.outputs = r :: s.port.outputs := by rw [hport]; rfl
    exact ⟨t.counted, r, by rw [hstep, hexec, countedOut_next], hout,
      (hreports _ (firstCause_iff.1 hnone)).status hexec hout⟩

/-- Settles O19: the code reported is that of the first cause, and after ERR_UNIT and ERR_REG that is the cell of the table. -/
theorem gatingTable : Obligations.GatingTable := by
  intro i s t r hf hexec hout
  obtain ⟨v, hv⟩ := exists_firstOf (causesOf s i)
  rw [(exec_reports hf i v hv).status hexec hout]
  rcases firstOf_causesOf_cases hf hv with rfl | rfl | ⟨hcell, hne⟩ | ⟨hok, hv⟩
  · exact ⟨fun _ => by decide, fun _ _ => .inr (.inl rfl)⟩
  · exact ⟨fun _ => by decide, fun _ _ => .inr (.inr rfl)⟩
  · refine ⟨fun hok => absurd (hcell.trans hok) hne, fun code hcode => .inl ?_⟩
    rw [hcell, hcode, Option.getD_some]
  · refine ⟨fun _ => ?_, fun code hcode => absurd (hok.symm.trans hcode) (by simp)⟩
    rcases hv with rfl | rfl <;> decide

end Sys2Proof.Machine
